-- ==== Sys2Proof/Word.lean ====
section
/-! DEFINITION. The widths the STLS2F01 manual names (00_scope R8, 10_state R20, 30_encoding R200). -/

namespace Sys2Proof

/-- Eight bits, the smallest addressable unit of memory (20_memory R120). -/
abbrev Byte := BitVec 8

/-- Sixteen bits, a halfword. -/
abbrev Half := BitVec 16

/-- Thirty-two bits: an instruction, a 32-bit CP0 register, a single-precision value. -/
abbrev Word := BitVec 32

/-- Sixty-four bits: a general register, an FPR, a virtual address. -/
abbrev DWord := BitVec 64

/-- A register number of an instruction field (30_encoding R211). -/
abbrev RegNum := BitVec 5

/-- A physical address: 40 bits (20_memory R131). -/
abbrev PAddr := BitVec 40

end Sys2Proof
end

