-- ==== Sys2Proof/Machine/Sparse.lean ====
section
/-! DEFINITION. Data kept by address in one canonical form: keys strictly rising, no entry equal to what an unlisted
key reads as. Memory (20_memory R120) and the three cache arrays (10_state R100) are held so. -/

namespace Sys2Proof.Machine

/-- What key `k` holds; `d` is what an unlisted key reads as. -/
def sparseRead {α : Type} (d : α) (k : Nat) : List (Nat × α) → α
  | [] => d
  | (j, v) :: l => if j = k then v else sparseRead d k l

/-- Store `v` at key `k`; storing `d` removes the entry. -/
def sparseWrite {α : Type} [DecidableEq α] (d : α) (k : Nat) (v : α) : List (Nat × α) → List (Nat × α)
  | [] => if v = d then [] else [(k, v)]
  | (j, w) :: l =>
    if k < j then (if v = d then (j, w) :: l else (k, v) :: (j, w) :: l)
    else if j = k then (if v = d then l else (k, v) :: l)
    else (j, w) :: sparseWrite d k v l

/-- The canonical form: every key above `lo`, strictly rising, no default value listed. -/
def sparseWfFrom {α : Type} [DecidableEq α] (d : α) : Option Nat → List (Nat × α) → Bool
  | _, [] => true
  | lo, (j, v) :: l => (match lo with | none => true | some b => b < j) && v ≠ d && sparseWfFrom d (some j) l

/-- The canonical form of a whole list. -/
def sparseWf {α : Type} [DecidableEq α] (d : α) (l : List (Nat × α)) : Bool := sparseWfFrom d none l

end Sys2Proof.Machine
end

