-- ==== Sys2Proof/Config.lean ====
section
/-! DEFINITION. What an implementation of the STLS2F01 fixes: constants the manual prints, the OPEN parameters of
00_scope R6 as one record, and the source of free values. -/

namespace Sys2Proof

/-- The value the `n`-th free choice takes when the state supplies none. It has no body: whatever the manual leaves
open (a replacement way, a quotient by zero, the index after a failed probe) is a function of it (log 10). -/
opaque Config.freeNat : Nat → Nat

/-- PRId: Imp 0x63, Rev 0x02 (10_state R56). -/
def Config.prid : Word := 0x00006302

/-- FCR0: Imp 0x05, Rev 0x01 (10_state R72). -/
def Config.fcr0 : Word := 0x00000501

/-- The reset vector (10_state R29, 70_reset R970). -/
def Config.resetVector : DWord := 0xFFFFFFFFBFC00000

/-- Which request a bus error answers (20_memory R166, 60_exceptions R830): the read a fetch or a load makes, or the
block read or upgrade a cached store makes (log 9). -/
inductive BusAccess where
  | fetch
  | load
  | store
  deriving DecidableEq, Repr

/-- Addresses the parameter `BUS_ERROR` names: `first ≤ pa ≤ last` for one kind of access (20_memory R166). -/
structure BusErrorRange where
  first : Nat
  last : Nat
  access : BusAccess
  deriving DecidableEq, Repr

/-- How the crossbar is wired, which the manual does not say (65_platform R902, R903; log 33): which of the four
masters of Table 52 is the core and which the PCI bridge, and which slave numbers are the DDR2 and the IO controller.
A master that is `none` goes by the default routing, through no window (R905). -/
structure Crossbar where
  core : Option (Fin 4)
  pci : Option (Fin 4)
  dramPort : BitVec 2
  ioPort : BitVec 2
  deriving DecidableEq, Repr

/-- The OPEN parameters of the machine (00_scope R6, 92_eei D4, D6, D21, D26, D36). -/
structure Config.Params where
  /-- `CONFIG_HI`: Config bits 31:12 (10_state R57). -/
  configHi : BitVec 20
  /-- `NX_ENFORCED`: whether a fetch honours EntryLo.E (10_state R37). -/
  nxEnforced : Bool
  /-- `DRAM_BYTES`: the installed DRAM at physical 0 (65_platform R920). -/
  dramBytes : Nat
  /-- `BUS_ERROR`: the addresses whose read or upgrade gets an error response (20_memory R166, 60_exceptions R830). -/
  busErrors : List BusErrorRange
  /-- `WINDOW_RESET`: the address-window registers after reset (65_platform R904). -/
  windowReset : Vector DWord 48
  /-- The wiring of the crossbar (65_platform R902). -/
  crossbar : Crossbar
  /-- Pin samples behind the read-only registers poncfg, comp_code and chip_sample1 (65_platform R951, R953). -/
  poncfg : Word
  compCode : Word
  chipSample1 : Word
  /-- The pci_config[0] pin, the reset value of liocfg.rom_width (65_platform R951). -/
  romWidth : Bool
  deriving DecidableEq, Repr

/-- The parameters the model runs with when none are given (log 4, 8, 9, 30, 33, 35). -/
def Config.defaults : Config.Params where
  configHi := 0
  nxEnforced := false
  dramBytes := 0x10000000
  busErrors := []
  windowReset := Vector.replicate 48 0
  crossbar := ⟨none, none, 0, 1⟩
  poncfg := 0
  compCode := 0
  chipSample1 := 0
  romWidth := false

end Sys2Proof
end

