-- ==== Sys2Proof/Machine/State.lean ====
section
/-! DEFINITION. The state of the machine: every piece of state 10_state and 65_platform_devices name, as plain data,
and its value after a cold reset (10_state R110, 70_reset R971). INVENTORY.md lists each field with its rule. -/

namespace Sys2Proof.Machine

/-- A stop the machine makes where the spec gives no effect at all (93_implementation_defined, treatment "refuse").
Each is safe: the model stops where the hardware might go on. -/
inductive Fault where
  /-- A jump, branch, BC1 or ERET in a delay slot (43_branch_jump R392, 45_cp0 R476; U3). Safe. -/
  | branchInDelaySlot
  /-- A 64-bit FPR operand with an odd number while Status.FR = 0 (10_state R71; U10). Safe. -/
  | oddFpr
  /-- Status.KSU = 11 with EXL = ERL = 0 (10_state R51; U20). Safe. -/
  | undefinedMode
  /-- Two JTLB entries match one address (10_state R95; U21). Safe. -/
  | multipleTlbMatch
  /-- A TLB operation with a page mask outside Table 21 (10_state R39; U22). Safe. -/
  | illegalPageMask
  /-- Cache attribute 0, 1, 4, 5 or 6 (20_memory R160; U24). Safe. -/
  | reservedAttribute
  /-- A physical address nothing claims (20_memory R166; U50). Safe. -/
  | unclaimedAddress
  /-- A width or attribute a register space does not accept (65_platform R906, R927, R931; U53, U54). Safe. -/
  | deviceWidth
  /-- A block read of the ROM while liocfg.iopf_en does not permit it: "what happens when it is not permitted is not
  stated" (65_platform R931). Raised by a cache fill from the ROM. Safe. -/
  | blockRead
  deriving DecidableEq, Repr

/-- What the model has no meaning for: devices outside the chip. Each is safe: the model stops. -/
inductive Refusal where
  /-- An instruction without a meaning. Raised by `exec` alone. Safe. -/
  | notModelled (mnemonic : String)
  /-- PCI memory, the video window in it included: the PCI bus is outside the spec (65_platform R933, R936). Safe. -/
  | pciMemory
  /-- PCI I/O space (65_platform R933). Safe. -/
  | pciIo
  /-- PCI configuration cycles (65_platform R933). Safe. -/
  | pciConfiguration
  /-- The local I/O chip select: the board's devices (65_platform R934). Safe. -/
  | localIo
  deriving DecidableEq, Repr

/-- The CP0 registers (10_state R32), 32- or 64-bit as the table says. Registers narrower than a write keep only
their writable bits, so a field never holds a reserved bit. -/
structure Cp0 where
  index : Word
  random : BitVec 6
  entryLo0 : DWord
  entryLo1 : DWord
  context : DWord
  pageMask : Word
  wired : BitVec 6
  badVAddr : DWord
  count : Word
  entryHi : DWord
  compare : Word
  status : Word
  /-- BD, CE, IP[1:0] and ExcCode; IP[7:2] is computed when Cause is read (10_state R53). -/
  cause : Word
  epc : DWord
  /-- Config bits 3:0; the rest is fixed or a parameter (10_state R57). -/
  configLow : BitVec 4
  watch : DWord
  xContext : DWord
  diagnostic : DWord
  perfControl : Word
  /-- Counter 1 in bits 63:32, Counter 0 in bits 31:0 (10_state R63). -/
  perfCounter : DWord
  tagLo : Word
  tagHi : Word
  errorEpc : DWord
  deriving DecidableEq, Repr

/-- One half of a JTLB entry: one page of the pair (10_state R91). -/
structure TlbHalf where
  uc : BitVec 2
  e : Bool
  pfn : BitVec 28
  c : BitVec 3
  d : Bool
  v : Bool
  deriving DecidableEq, Repr

/-- A JTLB entry, without the shared mask (10_state R91, R92). -/
structure TlbEntry where
  r : BitVec 2
  vpn2 : BitVec 27
  g : Bool
  asid : BitVec 8
  lo0 : TlbHalf
  lo1 : TlbHalf
  deriving DecidableEq, Repr

/-- An ITLB entry: a copy of one page of a JTLB entry, with the mask in force when it was made (10_state R93). -/
structure ItlbEntry where
  r : BitVec 2
  vpn : BitVec 28
  mask : BitVec 12
  g : Bool
  asid : BitVec 8
  page : TlbHalf
  deriving DecidableEq, Repr

/-- A line of the primary instruction cache (10_state R101). -/
structure ILine where
  tag : BitVec 28
  valid : Bool
  data : BitVec 256
  deriving DecidableEq, Repr

/-- A line of the primary data cache: tag, the 2-bit state, the secondary-cache way, the StateMod bits and the data
(10_state R101, R65, 45_cp0 R484). -/
structure DLine where
  tag : BitVec 28
  state : BitVec 2
  scWay : BitVec 2
  stateMod : BitVec 3
  data : BitVec 256
  deriving DecidableEq, Repr

/-- A line of the secondary cache (10_state R102). -/
structure SLine where
  tag : BitVec 23
  state : BitVec 2
  data : BitVec 256
  deriving DecidableEq, Repr

/-- The registers of the IO controller: the PCI header and the register block, one 32-bit word each by word offset
(65_platform R932, R950), and the latches of the interrupt controller (R942). -/
structure IoRegs where
  header : Vector Word 64
  regs : Vector Word 64
  intLatch : BitVec 15
  deriving DecidableEq, Repr

/-- A store a PCI bus master makes: the low `size` bytes of `data` at the address the bridge puts on the crossbar
(20_memory R176, R185; log 40). -/
structure PciStore where
  addr : DWord
  size : Nat
  data : DWord
  deriving DecidableEq, Repr

/-- What the outside world does at one instruction boundary (00_scope R11, 60_exceptions R807, R860; log 15). -/
structure Input where
  coldReset : Bool := false
  softReset : Bool := false
  /-- An assertion of NMI at this boundary, not a level: it asks for one entry, or where an NMI is pending
  already, for no further one (70_reset R973; log 15). -/
  nmi : Bool := false
  /-- New levels at the interrupt sources 14:0 (65_platform R941). -/
  pins : Option (BitVec 15) := none
  /-- PClk cycles since the last boundary (10_state R42, the Count oracle). -/
  pclk : Nat := 1
  /-- What Random becomes (the Random oracle, 10_state R35). -/
  random : Option (BitVec 6) := none
  /-- Occurrences of the events selected for the two performance counters (10_state R64). -/
  events0 : Nat := 0
  events1 : Nat := 0
  /-- The stores of the PCI bus masters, the first one first (20_memory R176, R185). -/
  pciWrites : List PciStore := []
  deriving DecidableEq, Repr

/-- The whole machine. -/
structure State where
  gpr : Vector DWord 32
  pc : DWord
  /-- The pending target when the next instruction is in a delay slot (10_state R28). -/
  delay : Option DWord
  hi : DWord
  lo : DWord
  llbit : Bool
  fpr : Vector DWord 32
  fcsr : Word
  cp0 : Cp0
  tlb : Vector TlbEntry 64
  tlbMask : BitVec 12
  itlb : List ItlbEntry
  /-- The caches: lines by `4 * set + way`, in rising order, invalid zero lines left out (10_state R100 to R102). -/
  icache : List (Nat × ILine)
  dcache : List (Nat × DLine)
  scache : List (Nat × SLine)
  timerPending : Bool
  watchPostponed : Bool
  nmiPending : Bool
  softResetPending : Bool
  coldResetPending : Bool
  /-- DRAM and ROM bytes by physical address (`dramCell` for DRAM past the first 256 MB), in rising order, zero bytes
  left out (20_memory R120; log 7). -/
  mem : List Host.Cell
  windows : Vector DWord 48
  ddr : Vector DWord 29
  io : IoRegs
  pins : BitVec 15
  /-- The model's own: the OPEN parameters; no step changes them. -/
  cfg : Config.Params
  /-- The model's own: what the outside world does at the coming boundaries, the next first; none left means
  nothing happens. -/
  inputs : List Input
  /-- The model's own: the free choices supplied, the next first. -/
  draws : List Nat
  /-- The model's own: how many free choices came from `Config.freeNat`. -/
  freeCount : Nat
  /-- The model's own: whether one PClk cycle of the pair that advances Count has passed (10_state R42). -/
  countPhase : Bool
  /-- The model's own: Random was just set to its upper bound (10_state R35). -/
  randomHold : Bool
  /-- The model's own: Random stands at its upper bound in the step under way; the step after it holds Random again if
  this one takes an exception, since then no instruction has completed (45_cp0 R473). -/
  randomHeld : Bool
  deriving DecidableEq, Repr

/-- A half with every field zero. -/
def TlbHalf.zero : TlbHalf := ⟨0, false, 0, 0, false, false⟩

/-- JTLB entry `i` after reset: a region no mapped address has, so nothing matches (log 5). -/
def TlbEntry.atReset (i : Nat) : TlbEntry := ⟨2, BitVec.ofNat 27 i, false, 0, TlbHalf.zero, TlbHalf.zero⟩

/-- The CP0 registers after a cold reset (10_state R110; log 3, 4). -/
def Cp0.atReset (errorEpc : DWord) : Cp0 where
  index := 0
  random := 63
  entryLo0 := 0
  entryLo1 := 0
  context := 0
  pageMask := 0
  wired := 0
  badVAddr := 0
  count := 0
  entryHi := 0
  compare := 0
  status := 0x30400004
  cause := 0
  epc := 0
  configLow := 2
  watch := 0
  xContext := 0
  diagnostic := 0
  perfControl := 0
  perfCounter := 0
  tagLo := 0
  tagHi := 0
  errorEpc := errorEpc

/-- The read-only fields of the DDR2 registers that do not reset to zero (65_platform R923, R924). -/
def ddrAtReset : Vector DWord 29 :=
  ((((Vector.replicate 29 0).set 5 0x0000000400000000).set 7 0x0F0E000000000000).set 20 0x0000204100000000)

/-- The register block of the IO controller after reset, by word offset (65_platform R941, R951 to R954). -/
def ioAtReset (cfg : Config.Params) : Vector Word 64 :=
  #v[ -- 0x00 poncfg, gencfg, liocfg, reserved
      cfg.poncfg, 0, (if cfg.romWidth then 0x1FFC else 0x1F7C), 0,
      -- 0x10 pcimap, pcix_bridge_cfg, pcimap_cfg, gpio_data
      0, 0x18, 0, 0,
      -- 0x20 gpio_en, intedge, reserved, intpol
      0xF, 0x600, 0, 0x700,
      -- 0x30 intenset, intenclr (read 0), inten, intisr (computed)
      0, 0, 0x7800, 0,
      -- 0x40 mem_win_base_l and _h, mem_win_mask_l and _h
      0, 0, 0, 0,
      -- 0x50 pci_hit0_sel and pci_hit1_sel, low and high
      0x6, 0x80000000, 0x6, 0x80000000,
      -- 0x60 pci_hit2_sel low and high, pxarb_config, pxarb_status
      0x6, 0x80000000, 0x105, 0,
      -- 0x70 reserved
      0, 0, 0, 0,
      -- 0x80 chip_config0, pad1v8_ctrl, pad3v3_ctrl, reserved
      0x617, 0xF80, 0x780, 0,
      -- 0x90 comp_code, chip_sample1, reserved
      cfg.compCode, cfg.chipSample1, 0, 0,
      -- 0xA0 video acceleration
      0, 0, 0, 0, 0, 0, 0, 0, 0, 0, 0, 0,
      -- 0xD0 not listed
      0, 0, 0, 0, 0, 0, 0, 0, 0, 0, 0, 0]

/-- The machine right after a cold reset of a machine with parameters `cfg` and memory `mem`, where the interrupted
pc was `pc`, the pins are at `pins` and the model's own `inputs`, `draws` and `freeCount` go on (10_state R110,
70_reset R971; log 1 to 7). -/
def State.coldReset (cfg : Config.Params) (mem : List Host.Cell) (pc : DWord) (pins : BitVec 15)
    (inputs : List Input) (draws : List Nat) (freeCount : Nat) : State where
  gpr := Vector.replicate 32 0
  pc := Config.resetVector
  delay := none
  hi := 0
  lo := 0
  llbit := false
  fpr := Vector.replicate 32 0
  fcsr := 0
  cp0 := Cp0.atReset pc
  tlb := ⟨((List.range 64).map TlbEntry.atReset).toArray, by simp⟩
  tlbMask := 0
  itlb := []
  icache := []
  dcache := []
  scache := []
  timerPending := false
  watchPostponed := false
  nmiPending := false
  softResetPending := false
  coldResetPending := false
  mem := mem
  windows := cfg.windowReset
  ddr := ddrAtReset
  io := { header := Vector.replicate 64 0, regs := ioAtReset cfg, intLatch := 0 }
  pins := pins
  cfg := cfg
  inputs := inputs
  draws := draws
  freeCount := freeCount
  countPhase := false
  randomHold := true
  randomHeld := false

/-- The machine right after power-on reset: default parameters, no memory listed, every interrupt source at its
inactive level (log 7, 36), nothing to come from outside. -/
def State.reset : State := State.coldReset Config.defaults [] 0 0x78FF [] [] 0

end Sys2Proof.Machine
end

