-- ==== Sys2Proof/Machine/Ops.lean ====
section
/-! DEFINITION. The named operations every meaning is written over: registers, modes, free values, the outcome of an
operation that may raise an exception, taking an exception and returning from one. -/

namespace Sys2Proof.Machine

/-- What executing an instruction answers. -/
abbrev Out := Host.Outcome State Fault Refusal

/-! ### Exceptions and results -/

/-- The ordinary exceptions with what each records (60_exceptions R802). -/
inductive Exc where
  | interrupt
  | tlbModified (va : DWord)
  | tlbRefill (store : Bool) (va : DWord)
  | tlbInvalid (store : Bool) (va : DWord)
  | addressError (store : Bool) (va : DWord)
  | busError (fetch : Bool)
  | systemCall
  | breakpoint
  | reservedInstruction
  | coprocessorUnusable (unit : BitVec 2)
  | overflow
  | trap
  | floatingPoint
  | watch
  deriving DecidableEq, Repr

/-- Cause.ExcCode of an exception (10_state R54). -/
def Exc.code : Exc → BitVec 5
  | .interrupt => 0
  | .tlbModified _ => 1
  | .tlbRefill store _ => if store then 3 else 2
  | .tlbInvalid store _ => if store then 3 else 2
  | .addressError store _ => if store then 5 else 4
  | .busError fetch => if fetch then 6 else 7
  | .systemCall => 8
  | .breakpoint => 9
  | .reservedInstruction => 10
  | .coprocessorUnusable _ => 11
  | .overflow => 12
  | .trap => 13
  | .floatingPoint => 15
  | .watch => 23

/-- Cause.CE of an exception: the unit for Coprocessor Unusable, else 0 (60_exceptions R810; log 32). -/
def Exc.unit : Exc → BitVec 2
  | .coprocessorUnusable unit => unit
  | _ => 0

/-- Whether the exception has the refill vector when EXL = 0 (60_exceptions R824). -/
def Exc.isRefill : Exc → Bool
  | .tlbRefill _ _ => true
  | _ => false

/-- The outcome of one operation: a value and the state, or an exception to take in a state, or a stop. -/
inductive Result (α : Type) where
  | val (a : α) (s : State)
  | exc (e : Exc) (s : State)
  | fault (f : Fault)
  | refused (r : Refusal)
  deriving Repr

/-- Go on with the value of an operation. -/
def Result.bind {α β : Type} (r : Result α) (k : α → State → Result β) : Result β :=
  match r with
  | .val a s => k a s
  | .exc e s => .exc e s
  | .fault f => .fault f
  | .refused r => .refused r

/-! ### Status, modes (10_state R50, R51) -/

/-- Bit `i` of a word as a Bool. -/
def bit {w : Nat} (x : BitVec w) (i : Nat) : Bool := x.getLsbD i

/-- A Bool as one bit. -/
def ofBool (b : Bool) : BitVec 1 := if b then 1 else 0

/-- `x` with the bits of `mask` taken from `v` (10_state, conventions: only writable fields change). -/
def maskedWrite {w : Nat} (mask x v : BitVec w) : BitVec w := (x &&& ~~~mask) ||| (v &&& mask)

def State.status (s : State) : Word := s.cp0.status
def State.ie (s : State) : Bool := bit s.cp0.status 0
def State.exl (s : State) : Bool := bit s.cp0.status 1
def State.erl (s : State) : Bool := bit s.cp0.status 2
def State.ksu (s : State) : BitVec 2 := s.cp0.status.extractLsb' 3 2
def State.bev (s : State) : Bool := bit s.cp0.status 22
def State.noFsqr (s : State) : Bool := bit s.cp0.status 23
def State.noFdiv (s : State) : Bool := bit s.cp0.status 24
/-- FR: thirty-two 64-bit FPRs when set, sixteen pairs when clear (10_state R71). -/
def State.fr (s : State) : Bool := bit s.cp0.status 26
def State.cu0 (s : State) : Bool := bit s.cp0.status 28
def State.cu1 (s : State) : Bool := bit s.cp0.status 29
/-- The current address-space id (10_state R46). -/
def State.asid (s : State) : BitVec 8 := s.cp0.entryHi.extractLsb' 0 8

/-- The three operating modes (60_exceptions R850). -/
inductive Mode where
  | kernel
  | supervisor
  | user
  deriving DecidableEq, Repr

/-- The current mode; none where KSU = 11 leaves it undefined (10_state R51). -/
def State.mode (s : State) : Option Mode :=
  if s.exl || s.erl then some .kernel
  else match s.ksu with
    | 0b00#2 => some .kernel
    | 0b01#2 => some .supervisor
    | 0b10#2 => some .user
    | _ => none

/-- Replace Status. -/
def State.setStatus (s : State) (v : Word) : State := { s with cp0 := { s.cp0 with status := v } }

/-! ### General registers, HI and LO (10_state R20 to R30) -/

/-- GPR[i]; GPR[0] reads 0 (R21). -/
def State.r (s : State) (i : RegNum) : DWord := if i = 0 then 0 else s.gpr[i.toNat]

/-- Write GPR[i]; a write to GPR[0] is discarded (R21). -/
def State.setR (s : State) (i : RegNum) (v : DWord) : State :=
  if i = 0 then s else { s with gpr := s.gpr.set i.toNat v }

def State.setHi (s : State) (v : DWord) : State := { s with hi := v }
def State.setLo (s : State) (v : DWord) : State := { s with lo := v }
def State.setHiLo (s : State) (hi lo : DWord) : State := { s with hi := hi, lo := lo }
def State.setLlbit (s : State) (b : Bool) : State := { s with llbit := b }

/-! ### Floating-point registers (10_state R70, R71, 46_fpu R522) -/

/-- The low 32 bits of FPR[n]: every 32-bit operand. -/
def State.f32 (s : State) (n : RegNum) : Word := (s.fpr[n.toNat]).extractLsb' 0 32

/-- Write a 32-bit operand; the upper half keeps its value (46_fpu R522; log 18). -/
def State.setF32 (s : State) (n : RegNum) (v : Word) : State :=
  { s with fpr := s.fpr.set n.toNat ((s.fpr[n.toNat]).extractLsb' 32 32 ++ v) }

/-- A 64-bit operand: FPR[n], or with FR = 0 the low halves of the pair n, n + 1. -/
def State.f64 (s : State) (n : RegNum) : DWord :=
  if s.fr then s.fpr[n.toNat] else s.f32 (n ||| 1) ++ s.f32 n

/-- Write a 64-bit operand. -/
def State.setF64 (s : State) (n : RegNum) (v : DWord) : State :=
  if s.fr then { s with fpr := s.fpr.set n.toNat v }
  else (s.setF32 n (v.extractLsb' 0 32)).setF32 (n ||| 1) (v.extractLsb' 32 32)

/-- Whether register `n` can hold a 64-bit operand: any with FR = 1, an even one with FR = 0 (R71). -/
def State.fprOk (s : State) (n : RegNum) : Bool := s.fr || !bit n 0

def State.setFcsr (s : State) (v : Word) : State := { s with fcsr := v }

/-! ### Free values (log 10) -/

/-- The next free value, and the state that has used it. -/
def State.free (s : State) : Nat × State :=
  match s.draws with
  | d :: ds => (d, { s with draws := ds })
  | [] => (Config.freeNat s.freeCount, { s with freeCount := s.freeCount + 1 })

/-! ### The program counter (10_state R25 to R28, 43_branch_jump R390) -/

/-- The instruction is done: the pending target after a delay slot, else the next word. -/
def State.advance (s : State) : State :=
  { s with pc := (match s.delay with | some t => t | none => s.pc + 4), delay := none }

/-- A taken branch or jump: the delay slot is next, then `t`. -/
def State.branchTo (s : State) (t : DWord) : State := { s with pc := s.pc + 4, delay := some t }

/-- A branch-likely not taken: the delay slot is nullified. -/
def State.skipSlot (s : State) : State := { s with pc := s.pc + 8, delay := none }

/-! ### Taking an exception and returning (60_exceptions R810, R811, 45_cp0 R476) -/

/-- BadVAddr, Context, XContext and EntryHi after a TLB exception at `va` (60_exceptions R827). -/
def Cp0.recordTlb (c : Cp0) (va : DWord) : Cp0 :=
  { c with
    badVAddr := va
    context := maskedWrite 0x00000000007FFFF0 c.context ((va >>> 13) <<< 4)
    xContext := maskedWrite 0x00000001FFFFFFF0 c.xContext
      ((va.extractLsb' 62 2 ++ va.extractLsb' 13 27 ++ (0 : BitVec 4)).setWidth 64)
    entryHi := maskedWrite 0xC00000FFFFFFE000 c.entryHi va }

/-- What the exception records besides EPC, Cause and Status (60_exceptions R802, R822, R827). -/
def Cp0.record (c : Cp0) : Exc → Cp0
  | .tlbModified va => c.recordTlb va
  | .tlbRefill _ va => c.recordTlb va
  | .tlbInvalid _ va => c.recordTlb va
  | .addressError _ va => { c with badVAddr := va }
  | _ => c

/-- The vector base Status.BEV selects (60_exceptions R812). -/
def vectorBase (bev : Bool) : DWord := if bev then 0xFFFFFFFFBFC00200 else 0xFFFFFFFF80000000

/-- Cause after an exception: BD, CE and ExcCode new, the software interrupt requests kept (60_exceptions R810). -/
def causeAfter (old : Word) (bd : Bool) (e : Exc) : Word :=
  ofBool bd ++ (0 : BitVec 1) ++ e.unit ++ (0 : BitVec 18) ++ old.extractLsb' 8 2 ++ (0 : BitVec 1) ++ e.code ++
    (0 : BitVec 2)

/-- Exception entry, the one operation every exception goes through (60_exceptions R810; R811 while EXL = 1). The
instruction at `pc` raised it; `delay` says whether that is a delay slot. It did not complete, so a Random that stood
at its upper bound stays there (45_cp0 R473). -/
def takeException (e : Exc) (s : State) : State :=
  let slot := s.delay.isSome
  let c := s.cp0.record e
  { s with
    pc := vectorBase s.bev + (if e.isRefill && !s.exl then 0x000 else 0x180)
    delay := none
    cp0 := { c with
      epc := if s.exl then c.epc else if slot then s.pc - 4 else s.pc
      cause := causeAfter c.cause (if s.exl then bit c.cause 31 else slot) e
      status := c.status ||| 0x00000002 }
    randomHold := s.randomHold || s.randomHeld }

/-- Return from an exception: to EPC, clearing ERL if it is set, else EXL; the link bit is cleared and there is no
delay slot (45_cp0 R476, 60_exceptions R855). -/
def returnFromException (s : State) : State :=
  { s with
    pc := s.cp0.epc
    delay := none
    llbit := false
    cp0 := { s.cp0 with
      status := if s.erl then s.cp0.status &&& ~~~(0x00000004 : Word) else s.cp0.status &&& ~~~(0x00000002 : Word) } }

/-- Soft Reset and NMI: the restart address saved, ERL, SR and BEV set, the reset vector next (70_reset R972 to
R974). -/
def enterReset (s : State) : State :=
  { s with
    pc := Config.resetVector
    delay := none
    cp0 := { s.cp0 with
      errorEpc := if s.delay.isSome then s.pc - 4 else s.pc
      status := s.cp0.status ||| 0x00500004 }
    randomHold := s.randomHold || s.randomHeld }

/-! ### Ending an instruction -/

/-- Finish an instruction with the value of an operation, or take its exception, or stop. -/
def Result.andThen {α : Type} (r : Result α) (k : α → State → Out) : Out :=
  match r with
  | .val a s => k a s
  | .exc e s => .next (takeException e s)
  | .fault f => .fault f
  | .refused r => .refused r

/-- Raise an exception in an instruction. -/
def raise (e : Exc) (s : State) : Out := .next (takeException e s)

/-- The instruction has done its work in `s`: the next instruction follows. -/
def done (s : State) : Out := .next s.advance

/-! ### Usability checks (60_exceptions R836) -/

/-- The privilege check of the CP0 instructions: Kernel mode or CU0, else Coprocessor Unusable with CE = 0
(45_cp0 R461). -/
def withCp0 (s : State) (k : Out) : Out :=
  if s.cu0 then k
  else match s.mode with
    | some .kernel => k
    | some _ => raise (.coprocessorUnusable 0) s
    | none => .fault .undefinedMode

/-- The check of every instruction on the FPRs: CU1, else Coprocessor Unusable with CE = 1 (60_exceptions R836). -/
def withFpu (s : State) (k : Out) : Out := if s.cu1 then k else raise (.coprocessorUnusable 1) s

/-- CU1, then every 64-bit operand register usable under Status.FR (10_state R71; log 19). -/
def withFpu64 (s : State) (regs : List RegNum) (k : Out) : Out :=
  withFpu s (if regs.all s.fprOk then k else .fault .oddFpr)

end Sys2Proof.Machine
end

