-- ==== Sys2Proof/Machine/Operands.lean ====
section
/-! DEFINITION. How operands are formed: immediates (30_encoding R210), effective addresses (40_loads_stores R241),
branch and jump targets (43_branch_jump R390), and the narrowing and widening of register values. -/

namespace Sys2Proof.Machine

/-- `sext_64` of a narrower value. -/
def sext64 {w : Nat} (x : BitVec w) : DWord := x.signExtend 64

/-- `zext_64` of a narrower value. -/
def zext64 {w : Nat} (x : BitVec w) : DWord := x.setWidth 64

/-- Bits 31:0 of a register, all a 32-bit operation looks at (41_alu R291; log 20). -/
def low32 (x : DWord) : Word := x.extractLsb' 0 32

/-- The effective address of a load, a store or CACHE: base plus the signed offset, modulo 2^64. -/
def State.ea (s : State) (base : RegNum) (offset : Half) : DWord := s.r base + sext64 offset

/-- The target of a branch: the delay slot's address plus the offset in words (30_encoding R210). -/
def State.branchTarget (s : State) (offset : Half) : DWord := s.pc + 4 + sext64 (offset ++ (0 : BitVec 2))

/-- The target of J and JAL: the 256 MB region of the delay slot (30_encoding R210). -/
def State.jumpTarget (s : State) (target : BitVec 26) : DWord :=
  (s.pc + 4).extractLsb' 28 36 ++ target ++ (0 : BitVec 2)

/-- The link value: the address after the delay slot (43_branch_jump R390). -/
def State.linkValue (s : State) : DWord := s.pc + 8

/-- Whether `va` is a multiple of the access width (20_memory R123). -/
def aligned (n : Nat) (va : DWord) : Bool := va.toNat % n = 0

/-- Byte `i` of a value, bits 8i+7:8i (20_memory R120). -/
def byteOf {w : Nat} (x : BitVec w) (i : Nat) : Byte := x.extractLsb' (8 * i) 8

end Sys2Proof.Machine
end

