-- ==== Sys2Proof/Machine/Flags.lean ====
section
/-! DEFINITION. Every flag computation: the overflow tests of the integer unit (41_alu R292) and the bits of FCSR
(10_state R73 to R78, 46_fpu R530). -/

namespace Sys2Proof.Machine

/-- Two's-complement overflow of a sum (41_alu R292). -/
def addOverflows {w : Nat} (a b : BitVec w) : Bool := BitVec.saddOverflow a b

/-- Two's-complement overflow of a difference (41_alu R292). -/
def subOverflows {w : Nat} (a b : BitVec w) : Bool := BitVec.ssubOverflow a b

/-! ### FCSR (10_state R73) -/

/-- The IEEE exceptions an operation signalled, and the Unimplemented condition (10_state R75). -/
structure FpExc where
  unimplemented : Bool := false
  invalid : Bool := false
  divByZero : Bool := false
  overflow : Bool := false
  underflow : Bool := false
  inexact : Bool := false
  deriving DecidableEq, Repr

/-- No exception. -/
def FpExc.none : FpExc := {}

/-- Both halves of a paired-single operation together (47_fpu_ps R621; log 43). -/
def FpExc.or (a b : FpExc) : FpExc where
  unimplemented := a.unimplemented || b.unimplemented
  invalid := a.invalid || b.invalid
  divByZero := a.divByZero || b.divByZero
  overflow := a.overflow || b.overflow
  underflow := a.underflow || b.underflow
  inexact := a.inexact || b.inexact

/-- The five IEEE bits in the order of the Enable and Flag fields: V Z O U I. -/
def FpExc.ieee (x : FpExc) : BitVec 5 :=
  ofBool x.invalid ++ ofBool x.divByZero ++ ofBool x.overflow ++ ofBool x.underflow ++ ofBool x.inexact

/-- The Cause field E V Z O U I: E alone for an operation left to software (46_fpu R530). -/
def FpExc.cause (x : FpExc) : BitVec 6 := if x.unimplemented then 0b100000 else (0 : BitVec 1) ++ x.ieee

/-- FCSR.Enables, bits 11:7. -/
def fcsrEnables (f : Word) : BitVec 5 := f.extractLsb' 7 5

/-- FCSR.Cause, bits 17:12, E first. -/
def fcsrCause (f : Word) : BitVec 6 := f.extractLsb' 12 6

/-- FCSR.FS, bit 24. -/
def fcsrFs (f : Word) : Bool := bit f 24

/-- FCSR.RM, bits 1:0 (10_state R78). -/
def fcsrRm (f : Word) : BitVec 2 := f.extractLsb' 0 2

/-- FCSR with a new Cause field (10_state R75). -/
def fcsrWithCause (f : Word) (c : BitVec 6) : Word :=
  maskedWrite 0x0003F000 f (c.setWidth 32 <<< 12)

/-- FCSR with the Flag bits of `x` added (10_state R77). -/
def fcsrAddFlags (f : Word) (x : BitVec 5) : Word := f ||| (x.setWidth 32 <<< 2)

/-- The trap condition: Cause.E, or a Cause bit with its Enable bit (10_state R76). -/
def fcsrTraps (f : Word) : Bool := bit f 17 || ((fcsrCause f).setWidth 5 &&& fcsrEnables f) ≠ 0

/-- Bit position of condition bit CC`n`: 23 for CC0, 24 + n for the others (10_state R73, R74). -/
def ccBit (n : Nat) : Nat := if n = 0 then 23 else 24 + n

/-- FCSR with condition bit CC`n` set to `b`. -/
def fcsrSetCc (f : Word) (n : Nat) (b : Bool) : Word :=
  maskedWrite (1#32 <<< ccBit n) f (if b then 1#32 <<< ccBit n else 0)

/-- Condition bit CC0. -/
def fcsrCc0 (f : Word) : Bool := bit f 23

/-- FCSR after an operation that signalled `x`: the Cause bits always, the Flag bits where no trap is taken
(46_fpu R530). -/
def fcsrAfter (f : Word) (x : FpExc) : Word :=
  let g := fcsrWithCause f x.cause
  if fcsrTraps g then g else fcsrAddFlags g x.ieee

end Sys2Proof.Machine
end

