-- ==== Sys2Proof/Machine/Interrupt.lean ====
section
/-! DEFINITION. Interrupt requests: the chip's interrupt controller (65_platform R940 to R942), the timer and the
performance counters, and Cause.IP (60_exceptions R846). -/

namespace Sys2Proof.Machine

/-! ### The registers of the interrupt controller, by word offset in the register block (65_platform R950) -/

def IoRegs.intedge (io : IoRegs) : BitVec 15 := io.regs[9].extractLsb' 0 15
def IoRegs.intpol (io : IoRegs) : BitVec 15 := io.regs[11].extractLsb' 0 15
def IoRegs.inten (io : IoRegs) : BitVec 15 := io.regs[14].extractLsb' 0 15

/-- Which sources are asserted: the pin is at the active level intpol names (65_platform R942; log 36). -/
def intLevel (pol pins : BitVec 15) : BitVec 15 := ~~~(pins ^^^ pol)

/-- Which sources are pending: the level, or the latch for a pulse source (65_platform R942). -/
def State.intPending (s : State) : BitVec 15 :=
  let edge := s.io.intedge
  (intLevel s.io.intpol s.pins &&& ~~~edge) ||| (s.io.intLatch &&& edge)

/-- The register intisr: pending and enabled (65_platform R942). -/
def State.intisr (s : State) : BitVec 15 := s.intPending &&& s.io.inten

/-- The five external inputs of the core: sources 11 to 14 on 0 to 3, the enabled others together on 4
(65_platform R940). -/
def State.extIrq (s : State) : BitVec 5 :=
  ofBool (s.intisr.extractLsb' 0 11 ≠ 0) ++ s.intPending.extractLsb' 11 4

/-- The latches after the asserted sources went from `before` to `after`: a pulse source that became active is
recorded (65_platform R942). A transition of a source that is no pulse source then is not recorded, and an old latch
stays while its source is none (log 36). -/
def latchEdges (io : IoRegs) (before after : BitVec 15) : IoRegs :=
  { io with intLatch := io.intLatch ||| (after &&& ~~~before &&& io.intedge) }

/-- New levels at the pins. -/
def State.setPins (s : State) (pins : BitVec 15) : State :=
  { s with
    io := latchEdges s.io (intLevel s.io.intpol s.pins) (intLevel s.io.intpol pins)
    pins := pins }

/-! ### The internal request (60_exceptions R846, R861, R862) -/

/-- `perf_pending`: the counter interrupt is enabled and a counter's bit 31 is set (10_state R63). -/
def State.perfPending (s : State) : Bool :=
  bit s.cp0.perfControl 4 && (bit s.cp0.perfCounter 31 || bit s.cp0.perfCounter 63)

/-- Cause.IP[7:0] (60_exceptions R846). -/
def State.ip (s : State) : BitVec 8 :=
  ofBool (s.timerPending || s.perfPending) ++ s.extIrq ++ s.cp0.cause.extractLsb' 8 2

/-- The interrupt condition (60_exceptions R820). -/
def State.interruptTaken (s : State) : Bool :=
  s.ie && !s.exl && !s.erl && (s.ip &&& s.cp0.status.extractLsb' 8 8) ≠ 0

end Sys2Proof.Machine
end

