-- ==== Sys2Proof/Machine/Cp0.lean ====
section
/-! DEFINITION. Reading and writing the CP0 registers by number (45_cp0 R463, R466, R467). -/

namespace Sys2Proof.Machine

/-- Config: CONFIG_HI, IC = DC = 4, IB = DB = 1, then the stored bits (10_state R57). -/
def State.config (s : State) : Word := s.cfg.configHi ++ (0x93 : BitVec 8) ++ s.cp0.configLow

/-- Cause as software reads it: IP[7:2] are the requests of the moment (10_state R53). -/
def State.causeRead (s : State) : Word := maskedWrite 0x0000FF00 s.cp0.cause (s.ip.setWidth 32 <<< 8)

/-- `ReadCPR`: what a move-from sees, 32-bit registers sign-extended, reserved fields 0 (45_cp0 R463, R466). -/
def State.readCp0 (s : State) (n : RegNum) : DWord :=
  match n with
  | 0#5 => sext64 (s.cp0.index &&& 0x8000003F)
  | 1#5 => zext64 s.cp0.random
  | 2#5 => s.cp0.entryLo0 &&& 0xE0000003FFFFFFFF
  | 3#5 => s.cp0.entryLo1 &&& 0xE0000003FFFFFFFF
  | 4#5 => s.cp0.context &&& 0xFFFFFFFFFFFFFFF0
  | 5#5 => sext64 (s.cp0.pageMask &&& 0x01FFE000)
  | 6#5 => zext64 s.cp0.wired
  | 8#5 => s.cp0.badVAddr
  | 9#5 => sext64 s.cp0.count
  | 10#5 => s.cp0.entryHi &&& 0xC00000FFFFFFE0FF
  | 11#5 => sext64 s.cp0.compare
  | 12#5 => sext64 (s.cp0.status &&& 0xF5D0FF1F)
  | 13#5 => sext64 (s.causeRead &&& 0xB000FF7C)
  | 14#5 => s.cp0.epc
  | 15#5 => sext64 Config.prid
  | 16#5 => sext64 s.config
  | 18#5 => s.cp0.watch &&& 0xFFFFFFFFFFFFFFFB
  | 20#5 => s.cp0.xContext &&& 0xFFFFFFFFFFFFFFF0
  | 22#5 => s.cp0.diagnostic &&& 0xF1
  | 24#5 => sext64 (s.cp0.perfControl &&& 0x1FFF)
  | 25#5 => s.cp0.perfCounter
  | 28#5 => sext64 s.cp0.tagLo
  | 29#5 => sext64 s.cp0.tagHi
  | 30#5 => s.cp0.errorEpc
  | _ => 0

/-- `WriteCPR`: the writable fields and the side effects of a move-to (45_cp0 R467, R468). -/
def State.writeCp0 (s : State) (n : RegNum) (v : DWord) : State :=
  let c := s.cp0
  match n with
  | 0#5 => { s with cp0 := { c with index := low32 v &&& 0x8000003F } }
  | 2#5 => { s with cp0 := { c with entryLo0 := v &&& 0xE0000003FFFFFFFF } }
  | 3#5 => { s with cp0 := { c with entryLo1 := v &&& 0xE0000003FFFFFFFF } }
  | 4#5 => { s with cp0 := { c with context := maskedWrite 0xFFFFFFFFFF800000 c.context v } }
  | 5#5 => { s with cp0 := { c with pageMask := low32 v &&& 0x01FFE000 } }
  | 6#5 => { s with cp0 := { c with wired := v.extractLsb' 0 6, random := 63 }, randomHold := true }
  | 9#5 => { s with cp0 := { c with count := low32 v }, timerPending := s.timerPending || low32 v == c.compare }
  | 10#5 => { s with cp0 := { c with entryHi := v &&& 0xC00000FFFFFFE0FF } }
  | 11#5 => { s with cp0 := { c with compare := low32 v }, timerPending := false }
  | 12#5 => { s with cp0 := { c with status := low32 v &&& 0xF5D0FF1F } }
  | 13#5 => { s with cp0 := { c with cause := maskedWrite 0x00000300 c.cause (low32 v) } }
  | 14#5 => { s with cp0 := { c with epc := v } }
  | 16#5 => { s with cp0 := { c with configLow := v.extractLsb' 0 4 } }
  | 18#5 => { s with cp0 := { c with watch := v &&& 0xFFFFFFFFFFFFFFFB }, watchPostponed := false }
  | 20#5 => { s with cp0 := { c with xContext := maskedWrite 0xFFFFFFFE00000000 c.xContext v } }
  | 22#5 =>
    { s with cp0 := { c with diagnostic := v &&& 0xF1 }, itlb := if bit v 2 then [] else s.itlb }
  | 24#5 => { s with cp0 := { c with perfControl := low32 v &&& 0x1FFF } }
  | 25#5 => { s with cp0 := { c with perfCounter := v } }
  | 28#5 => { s with cp0 := { c with tagLo := low32 v } }
  | 29#5 => { s with cp0 := { c with tagHi := low32 v } }
  | 30#5 => { s with cp0 := { c with errorEpc := v } }
  | _ => s

/-- The registers MFC0 and DMFC0 may read in every mode (45_cp0 R464). -/
def readableByAll (n : RegNum) : Bool := n == 24 || n == 25

end Sys2Proof.Machine
end

