-- ==== Sys2Proof/Machine/Tlb.lean ====
section
/-! DEFINITION. Virtual addresses: the segments of the three modes (20_memory R133 to R143), the joint TLB and its
match (R146, R147), translation (R150), the instruction TLB (10_state R93) and the four TLB operations
(45_cp0 R470 to R473). -/

namespace Sys2Proof.Machine

/-- The kinds of access a translation serves. -/
inductive Access where
  | fetch
  | load
  | store
  deriving DecidableEq, Repr

/-- Whether the access is reported as a store (60_exceptions R822, R824). -/
def Access.isStore : Access → Bool
  | .store => true
  | _ => false

/-- What the segment table says of one address (20_memory R133). -/
inductive Segment where
  | mapped
  | unmapped (pa : PAddr) (attr : BitVec 3)
  | error
  deriving DecidableEq, Repr

/-- The row of the segment table holding `va`, in one mode; `k0` is Config.K0 (20_memory R133, R138 to R142). -/
def segmentOf (m : Mode) (k0 : BitVec 3) (va : DWord) : Segment :=
  let top := va.extractLsb' 40 24
  if top = 0x000000 then .mapped
  else if top = 0x400000 then (if m = .user then .error else .mapped)
  else if va.extractLsb' 62 2 = 0b10 then
    if m = .kernel ∧ va.extractLsb' 36 23 = 0 then
      .unmapped ((va.extractLsb' 0 36).setWidth 40) (va.extractLsb' 59 3)
    else .error
  else if top = 0xC00000 ∧ va.extractLsb' 31 9 ≠ 0x1FF then (if m = .kernel then .mapped else .error)
  else if va.extractLsb' 31 33 = BitVec.allOnes 33 then
    match va.extractLsb' 29 2 with
    | 0b00#2 => if m = .kernel then .unmapped ((va.extractLsb' 0 29).setWidth 40) k0 else .error
    | 0b01#2 => if m = .kernel then .unmapped ((va.extractLsb' 0 29).setWidth 40) 2 else .error
    | 0b10#2 => if m = .user then .error else .mapped
    | _ => if m = .kernel then .mapped else .error
  else .error

/-- The seven page masks of Table 21 (10_state R39). -/
def legalMask (m : BitVec 12) : Bool := [0x000, 0x003, 0x00F, 0x03F, 0x0FF, 0x3FF, 0xFFF].contains m

/-- The match condition of one entry (20_memory R147). -/
def TlbEntry.hits (e : TlbEntry) (mask : BitVec 12) (r : BitVec 2) (vpn2 : BitVec 27) (asid : BitVec 8) : Bool :=
  e.r = r && (e.vpn2 &&& ~~~mask.setWidth 27) = (vpn2 &&& ~~~mask.setWidth 27) && (e.g || e.asid = asid)

/-- The indices of the JTLB entries that match (20_memory R147). -/
def State.tlbHits (s : State) (r : BitVec 2) (vpn2 : BitVec 27) : List (Fin 64) :=
  (List.finRange 64).filter fun i => (s.tlb[i]).hits s.tlbMask r vpn2 s.asid

/-- Bits 39:12 of an address with the bits inside a page of mask `mask` cleared: the page. -/
def pageOf (mask : BitVec 12) (va : DWord) : BitVec 28 := va.extractLsb' 12 28 &&& ~~~mask.setWidth 28

/-- Whether the odd page of the pair is meant: the address bit above the page offset (20_memory R146). -/
def oddPage (mask : BitVec 12) (va : DWord) : Bool :=
  (va.extractLsb' 12 28 &&& ((mask.setWidth 28 <<< 1 ||| 1) &&& ~~~mask.setWidth 28)) ≠ 0

/-- The physical address: the frame above the page offset, the address within it (20_memory R150). -/
def physical (mask : BitVec 12) (pfn : BitVec 28) (va : DWord) : PAddr :=
  ((pfn &&& ~~~mask.setWidth 28) ||| (va.extractLsb' 12 28 &&& mask.setWidth 28)) ++ va.extractLsb' 0 12

/-- The outcome of a translation. -/
inductive Trans where
  | ok (pa : PAddr) (attr : BitVec 3)
  | exc (e : Exc)
  | fault (f : Fault)
  deriving DecidableEq, Repr

/-- Only attributes 2, 3 and 7 are defined (20_memory R160; log 46). -/
def withAttr (pa : PAddr) (attr : BitVec 3) : Trans :=
  if attr = 2 ∨ attr = 3 ∨ attr = 7 then .ok pa attr else .fault .reservedAttribute

/-- What one page answers for an access: invalid, not writable, or the address (20_memory R150, 10_state R37). -/
def pageTrans (nx : Bool) (k : Access) (mask : BitVec 12) (p : TlbHalf) (va : DWord) : Trans :=
  if !p.v || (nx && k == .fetch && p.e) then .exc (.tlbInvalid k.isStore va)
  else if k == .store && !p.d then .exc (.tlbModified va)
  else withAttr (physical mask p.pfn va) p.c

/-- The page of the JTLB that holds `va`, or why there is none. -/
inductive Lookup where
  | page (e : TlbEntry) (p : TlbHalf)
  | miss
  | undefined (f : Fault)
  deriving DecidableEq, Repr

/-- Search the JTLB (20_memory R147, R150). -/
def State.lookup (s : State) (va : DWord) : Lookup :=
  if legalMask s.tlbMask then
    match s.tlbHits (va.extractLsb' 62 2) (va.extractLsb' 13 27) with
    | [] => .miss
    | [i] => .page s.tlb[i] (if oddPage s.tlbMask va then (s.tlb[i]).lo1 else (s.tlb[i]).lo0)
    | _ => .undefined .multipleTlbMatch
  else .undefined .illegalPageMask

/-- Translation through the JTLB (20_memory R150). -/
def State.translateMapped (s : State) (k : Access) (va : DWord) : Trans :=
  match s.lookup va with
  | .page _ p => pageTrans s.cfg.nxEnforced k s.tlbMask p va
  | .miss => .exc (.tlbRefill k.isStore va)
  | .undefined f => .fault f

/-- `Translate` for a data access (20_memory R150). -/
def State.translate (s : State) (k : Access) (va : DWord) : Trans :=
  match s.mode with
  | none => .fault .undefinedMode
  | some m =>
    match segmentOf m (s.cp0.configLow.extractLsb' 0 3) va with
    | .error => .exc (.addressError k.isStore va)
    | .unmapped pa attr => withAttr pa attr
    | .mapped => s.translateMapped k va

/-! ### Instruction fetch: the ITLB first (10_state R93, 60_exceptions R828; log 29) -/

/-- Whether an ITLB entry maps `va` under address-space id `asid`. -/
def ItlbEntry.hits (e : ItlbEntry) (va : DWord) (asid : BitVec 8) : Bool :=
  e.r = va.extractLsb' 62 2 && e.vpn = pageOf e.mask va && (e.g || e.asid = asid)

/-- Add an entry: at a slot of the sixteen, or nowhere, as the free value says (10_state R93). -/
def itlbAdd (l : List ItlbEntry) (e : ItlbEntry) (choice : Nat) : List ItlbEntry :=
  if choice % 17 = 16 then l
  else if choice % 17 < l.length then l.set (choice % 17) e
  else l ++ [e]

/-- Put a copy of the JTLB page that served `va` into the ITLB. -/
def State.itlbFill (s : State) (va : DWord) : State :=
  match s.lookup va with
  | .page e p =>
    { s.free.2 with
      itlb := itlbAdd s.itlb ⟨e.r, pageOf s.tlbMask va, s.tlbMask, e.g, e.asid, p⟩ s.free.1 }
  | _ => s

/-- Translate a fetch in a mapped segment: a copy in the ITLB, stale or not, else the JTLB. Only a page that serves the
fetch is copied; one the JTLB finds invalid, which raises TLB Invalid, leaves no copy (log 29). -/
def State.translateFetchMapped (s : State) (va : DWord) : Trans × State :=
  match s.itlb.find? (·.hits va s.asid) with
  | some e => (pageTrans s.cfg.nxEnforced .fetch e.mask e.page va, s)
  | none =>
    match s.translateMapped .fetch va with
    | .ok pa attr => (.ok pa attr, s.itlbFill va)
    | t => (t, s)

/-- `Translate` for an instruction fetch, with the state the ITLB is left in. -/
def State.translateFetch (s : State) (va : DWord) : Trans × State :=
  match s.mode with
  | none => (.fault .undefinedMode, s)
  | some m =>
    match segmentOf m (s.cp0.configLow.extractLsb' 0 3) va with
    | .error => (.exc (.addressError false va), s)
    | .unmapped pa attr => (withAttr pa attr, s)
    | .mapped => s.translateFetchMapped va

/-! ### TLB operations -/

/-- PageMask.MASK. -/
def State.pageMaskField (s : State) : BitVec 12 := s.cp0.pageMask.extractLsb' 13 12

/-- The page an EntryLo register describes (10_state R36). -/
def halfOf (lo : DWord) : TlbHalf where
  uc := lo.extractLsb' 62 2
  e := bit lo 61
  pfn := lo.extractLsb' 6 28
  c := lo.extractLsb' 3 3
  d := bit lo 2
  v := bit lo 1

/-- The EntryLo register of a page, with the entry's G (45_cp0 R471). -/
def loOf (p : TlbHalf) (g : Bool) : DWord :=
  p.uc ++ ofBool p.e ++ (0 : BitVec 27) ++ p.pfn ++ p.c ++ ofBool p.d ++ ofBool p.v ++ ofBool g

/-- The entry the CP0 registers describe: G is the AND of the two, masked VPN2 bits are cleared (45_cp0 R472). -/
def State.entryFromCp0 (s : State) : TlbEntry where
  r := s.cp0.entryHi.extractLsb' 62 2
  vpn2 := s.cp0.entryHi.extractLsb' 13 27 &&& ~~~s.pageMaskField.setWidth 27
  g := bit s.cp0.entryLo0 0 && bit s.cp0.entryLo1 0
  asid := s.asid
  lo0 := halfOf s.cp0.entryLo0
  lo1 := halfOf s.cp0.entryLo1

/-- `WriteTLB(i)`: the entry and the mask all entries share (45_cp0 R472, 10_state R92). -/
def State.writeTlb (s : State) (i : BitVec 6) : State :=
  { s with tlbMask := s.pageMaskField, tlb := s.tlb.set i.toNat s.entryFromCp0 }

/-- Go on where the page mask is one of Table 21, else stop (10_state R39; log 46). -/
def withMask (m : BitVec 12) (k : Out) : Out := if legalMask m then k else .fault .illegalPageMask

/-- TLBR: PageMask, EntryHi, EntryLo1 and EntryLo0 from the indexed entry (45_cp0 R471). -/
def State.readTlb (s : State) : State :=
  let e := s.tlb[(s.cp0.index.extractLsb' 0 6).toNat]
  { s with
    cp0 := { s.cp0 with
      pageMask := (s.tlbMask ++ (0 : BitVec 13)).setWidth 32
      entryHi := e.r ++ (0 : BitVec 22) ++ (e.vpn2 &&& ~~~s.tlbMask.setWidth 27) ++ (0 : BitVec 5) ++ e.asid
      entryLo0 := loOf e.lo0 e.g
      entryLo1 := loOf e.lo1 e.g } }

/-- Replace Index. -/
def State.setIndex (s : State) (v : Word) : State := { s with cp0 := { s.cp0 with index := v } }

/-- The result of TLBP: the index of the one match, or P with a free index on a miss (45_cp0 R470; log 10). -/
def State.probeTlb (s : State) : Result Unit :=
  match s.tlbHits (s.cp0.entryHi.extractLsb' 62 2) (s.cp0.entryHi.extractLsb' 13 27) with
  | [] => .val () (s.free.2.setIndex (0x80000000 ||| (BitVec.ofNat 6 s.free.1).setWidth 32))
  | [i] => .val () (s.setIndex (BitVec.ofNat 32 i.val))
  | _ => .fault .multipleTlbMatch

end Sys2Proof.Machine
end

