-- ==== Sys2Proof/Machine/Bus.lean ====
section
/-! DEFINITION. Physical memory and what answers each physical address: DRAM, the ROM image, the window registers, the
DDR2 controller and the IO controller (20_memory R120, R131, R166, 65_platform R900 to R954). -/

namespace Sys2Proof.Machine

/-! ### Bytes (20_memory R120) -/

/-- The byte at a physical address; one never written reads 0 (log 7). -/
def memByte (m : List Host.Cell) (a : Nat) : Byte := sparseRead 0 a m

/-- Store one byte. -/
def memSetByte (m : List Host.Cell) (a : Nat) (b : Byte) : List Host.Cell := sparseWrite 0 a b m

/-- The canonical form of memory. -/
def Memory.wf (m : List Host.Cell) : Bool := sparseWf 0 m

/-- `n` bytes from `a`, the byte at `a` lowest. -/
def readLe {w : Nat} (m : List Host.Cell) (a : Nat) : Nat → BitVec w
  | 0 => 0
  | n + 1 => (readLe m (a + 1) n <<< 8) ||| (memByte m a).setWidth w

/-- Store the low `n` bytes of `v` from `a` up. -/
def writeLe {w : Nat} (m : List Host.Cell) (a : Nat) (v : BitVec w) : Nat → List Host.Cell
  | 0 => m
  | n + 1 => writeLe (memSetByte m a (v.setWidth 8)) (a + 1) (v >>> 8) n

/-- The low `n` bytes of a value. -/
def lowBytes {w : Nat} (n : Nat) (v : BitVec w) : BitVec w := v &&& BitVec.ofNat w (2 ^ (8 * n) - 1)

/-- `n` bytes of `x` from byte `off` up. -/
def readLanes {w : Nat} (x : BitVec w) (off n : Nat) : DWord := lowBytes n ((x >>> (8 * off)).setWidth 64)

/-- `x` with the `n` bytes from byte `off` up replaced by the low bytes of `v`. -/
def writeLanes {w : Nat} (x : BitVec w) (off n : Nat) (v : DWord) : BitVec w :=
  maskedWrite (BitVec.ofNat w (2 ^ (8 * n) - 1) <<< (8 * off)) x ((lowBytes n v).setWidth w <<< (8 * off))

/-! ### The physical address map (65_platform R905, R930) -/

/-- What a physical address reaches. -/
inductive Target where
  /-- DRAM, from the byte at `a` of memory on (65_platform R920). -/
  | dram (a : Nat)
  /-- The boot ROM and the LIO ROM, from the byte at `a` of memory on (65_platform R934; log 39). -/
  | rom (a : Nat)
  /-- Window register `i` (65_platform R901). -/
  | window (i : Fin 48)
  /-- CONF_CTL register `i` (65_platform R923). -/
  | ddr (i : Fin 29)
  /-- A word of the PCI header (65_platform R932). -/
  | header (i : Fin 64)
  /-- A word of the register block (65_platform R950). -/
  | regs (i : Fin 64)
  /-- A space whose devices the spec does not describe (log 37). -/
  | outside (r : Refusal)
  /-- Nothing answers (20_memory R166). -/
  | hole
  deriving DecidableEq, Repr

/-- `chip_config0.disable_ddr_conf` (65_platform R952). -/
def IoRegs.disableDdrConf (io : IoRegs) : Bool := bit io.regs[32] 8

/-- `chip_config0.disable_scache` (65_platform R952). -/
def IoRegs.disableScache (io : IoRegs) : Bool := bit io.regs[32] 3

/-- The place in memory of byte `b` of the DRAM: its physical address by R905 where it has one; the bytes past the
first 256 MB, which only a window reaches, stand above every physical address. -/
def dramCell (b : Nat) : Nat := if b < 0x10000000 then b else 0x10000000000 + b

/-- What the DDR2 controller has at its address `a`: DRAM as far as it is installed, its registers over the top of the
first 256 MB (65_platform R905, R923; log 8). Of those 512 bytes the doubleword after each register and the tail past
CONF_CTL_28, from 0x0FFFFFD0 on, for which no register is described, are holes (DESIGN CHOICE, log 34). -/
def State.lowTarget (s : State) (a : Nat) : Target :=
  if 0x0FFFFE00 ≤ a ∧ a < 0x10000000 ∧ !s.io.disableDdrConf then
    let o := a - 0x0FFFFE00
    if h : o / 16 < 29 ∧ o % 16 < 8 then .ddr ⟨o / 16, h.1⟩ else .hole
  else if a < s.cfg.dramBytes then .dram (dramCell a)
  else .hole

/-- The IO controller's part of the map, 0x10000000 to 0x1FFFFFFF (65_platform R930). -/
def ioTarget (a : Nat) : Target :=
  if a < 0x1C000000 then .outside .pciMemory
  else if a < 0x1E000000 then .rom a
  else if a < 0x1FC00000 then .outside .localIo
  else if a < 0x1FD00000 then .rom a
  else if a < 0x1FE00000 then .outside .pciIo
  else if a < 0x1FE00100 then .header (Fin.ofNat 64 ((a - 0x1FE00000) / 4))
  else if a < 0x1FE00200 then .regs (Fin.ofNat 64 ((a - 0x1FE00100) / 4))
  else if a < 0x1FE80000 then .hole
  else if a < 0x1FE80800 then .outside .pciConfiguration
  else if a < 0x1FF00000 then .hole
  else .outside .localIo

/-- What the IO controller has at `a`: nothing below its first line, then Table 54 (65_platform R930). -/
def ioSide (a : Nat) : Target :=
  if a < 0x10000000 then .hole
  else if a < 0x20000000 then ioTarget a
  else if a < 0x10000000000 then .outside .pciMemory
  else .hole

/-! ### The address windows (65_platform R900 to R903; log 33) -/

/-- A register of window `w` of master `m`: part 0 is BASE, 1 MASK, 2 MMAP (65_platform R901). -/
def State.windowPart (s : State) (m w : Fin 4) (part : Fin 3) : DWord := s.windows[12 * m.val + 4 * part.val + w.val]

/-- The first window of master `m` that claims `a`: the slave number it names, and the address it forwards
(65_platform R900). -/
def State.windowHit (s : State) (m : Fin 4) (a : DWord) : Option (BitVec 2 × DWord) :=
  ((List.finRange 4).find? fun w => a &&& s.windowPart m w 1 = s.windowPart m w 0).map fun w =>
    ((s.windowPart m w 2).extractLsb' 0 2,
     (a &&& ~~~s.windowPart m w 1) ||| (s.windowPart m w 2 &&& ~~~0xFFFFF))

/-- What the slave with a number has at an address. -/
def State.portTarget (s : State) (port : BitVec 2) (a : Nat) : Target :=
  if port = s.cfg.crossbar.dramPort then s.lowTarget a
  else if port = s.cfg.crossbar.ioPort then ioSide a
  else .hole

/-- What an address on the crossbar reaches: the window registers, else through the windows of master `m`, if it is one
and one of them claims the address (65_platform R900), else by the default routing (R905). -/
def State.route (s : State) (m : Option (Fin 4)) (x : DWord) : Target :=
  let a := x.toNat
  if 0x3FF00000 ≤ a ∧ a < 0x3FF00180 then .window (Fin.ofNat 48 ((a - 0x3FF00000) / 8))
  else match m.bind fun m => s.windowHit m x with
    | some hit => s.portTarget hit.1 hit.2.toNat
    | none => if a < 0x10000000 then s.lowTarget a else ioSide a

/-- What a physical address of the core reaches. The whole of an access or of a line goes where its first byte leads,
also where DRAM ends within it (log 8). -/
def State.target (s : State) (pa : PAddr) : Target := s.route s.cfg.crossbar.core (pa.setWidth 64)

/-- What an address of a PCI bus master reaches: DRAM and the devices, as for the core, but by the bridge's windows
(20_memory R185, 65_platform R902; log 33, 40). -/
def State.pciTarget (s : State) (a : DWord) : Target := s.route s.cfg.crossbar.pci a

/-! ### Register spaces -/

/-- The bits of CONF_CTL register `i` that software cannot set: read-only fields, and write-only ones, which read 0
(65_platform R924, R927). -/
def ddrFixed (i : Nat) : DWord :=
  match i with
  | 0 => 0x0000000001000000
  | 1 => 0x0100000000000001
  | 4 => 0x0000000001000000
  | 5 => 0x0007070700000000
  | 7 => 0x0F0F000F0F000000
  | 9 => 0x000000000F0F0F0F
  | 12 => 0x0000000000FFFFFF
  | 16 => 0x07FF000000000000
  | 20 => 0x0000FFFF00000000
  | 21 => 0x1FFFFFFFFF000000
  | 22 => 0x0000001FFFFFFFFF
  | 23 => 0x0000001FFFFFFFFF
  | 24 => 0x0000001FFFFFFFFF
  | 25 => 0xFFFFFFFFFFFFFFFF
  | 26 => 0xFFFFFFFFFFFFFFFF
  | _ => 0

/-- Store to a CONF_CTL register; START (bit 40 of CONF_CTL_03) raises INT_STATUS bits 8 and 10 at once
(65_platform R927). -/
def ddrWrite (ddr : Vector DWord 29) (i : Fin 29) (v : DWord) : Vector DWord 29 :=
  let d := ddr.set i (maskedWrite (~~~ddrFixed i) ddr[i] v)
  if i = 3 ∧ bit v 40 then d.set 16 (d[16] ||| 0x0500000000000000) else d

/-- The writable bits of a PCI header word: the words Table 55 lists are storage, the others read 0
(65_platform R932; log 35). -/
def headerMask (i : Nat) : Word :=
  if i ≤ 9 ∨ i = 11 ∨ i = 15 ∨ i = 56 ∨ i = 57 then 0xFFFFFFFF else if i = 13 then 0x000000FF else 0

/-- The writable bits of each word of the register block (65_platform R941, R951 to R954; log 35). -/
def regMask (i : Nat) : Word :=
  match i with
  | 1 => 0x00000001
  | 2 => 0x00007FFC
  | 4 => 0x0003FFFF
  | 5 => 0x0000007F
  | 6 => 0x0001FFFF
  | 7 => 0x000F000F
  | 8 => 0x0000000F
  | 9 => 0x0000780F
  | 11 => 0x0000780F
  | 14 => 0x000007FF
  | 16 => 0xFFFFFFFF
  | 17 => 0xFFFFFFFF
  | 18 => 0xFFFFFFFF
  | 19 => 0xFFFFFFFF
  | 20 => 0xFFFFF00E
  | 21 => 0xFFFFFFFF
  | 22 => 0xFFFFF00E
  | 23 => 0xFFFFFFFF
  | 24 => 0xFFFFF00E
  | 25 => 0xFFFFFFFF
  | 26 => 0x00FFFFFF
  | 32 => 0x000007FF
  | 33 => 0x0001FFFF
  | 34 => 0x000007FF
  | 40 => 0x000007FF
  | 41 => 0x003FFFFF
  | 42 => 0x003FFFFF
  | 43 => 0xFFFFFFFF
  | 44 => 0xFFFFFFFF
  | 45 => 0x0FFFFFFF
  | 46 => 0x1FFFFFFF
  | 47 => 0x0001FFFF
  | 48 => 0x00001FFF
  | 49 => 0x000007FF
  | 50 => 0xFFFFFFFF
  | 51 => 0xFFFFFFFF
  | _ => 0

/-- A word of the register block as the core reads it: intisr is computed (65_platform R942). -/
def State.regRead (s : State) (i : Fin 64) : Word := if i = 15 then s.intisr.setWidth 32 else s.io.regs[i]

/-- Replace a word of the register block. -/
def IoRegs.setReg (io : IoRegs) (i : Fin 64) (v : Word) : IoRegs := { io with regs := io.regs.set i v }

/-- Store `n` bytes of `v` at byte `off` of word `i` of the register block: intenset and intenclr act on inten and
on the latches, a new polarity can be an edge, any other word keeps its writable bits (65_platform R942). -/
def State.regWrite (s : State) (i : Fin 64) (off n : Nat) (v : DWord) : State :=
  let put := writeLanes (0 : Word) off n v
  if i = 12 then { s with io := s.io.setReg 14 (s.io.regs[14] ||| (put &&& regMask 14)) }
  else if i = 13 then
    let io := s.io.setReg 14 (s.io.regs[14] &&& ~~~(put &&& regMask 14))
    { s with io := { io with intLatch := s.io.intLatch &&& ~~~put.setWidth 15 } }
  else
    let io := s.io.setReg i (maskedWrite (regMask i) s.io.regs[i] (writeLanes s.io.regs[i] off n v))
    { s with io := latchEdges io (intLevel s.io.intpol s.pins) (intLevel io.intpol s.pins) }

/-! ### Accesses on the bus -/

/-- The widths the register spaces marked WHB take (65_platform R931). -/
def whb (n : Nat) : Bool := n = 1 || n = 2 || n = 4

/-- What a read of `n` bytes (at most 8, inside one aligned doubleword) gets from `t`; `off` is the place of its first
byte in an aligned word (20_memory R160, R166). -/
def State.targetRead (s : State) (t : Target) (off n : Nat) : Result DWord :=
  match t with
  | .dram a => .val (readLe s.mem a n) s
  | .rom a => .val (readLe s.mem a n) s
  | .window i => if n = 8 then .val s.windows[i] s else .fault .deviceWidth
  | .ddr i => if n = 8 then .val s.ddr[i] s else .fault .deviceWidth
  | .header i => if whb n then .val (readLanes s.io.header[i] off n) s else .fault .deviceWidth
  | .regs i => if whb n then .val (readLanes (s.regRead i) off n) s else .fault .deviceWidth
  | .outside r => .refused r
  | .hole => .fault .unclaimedAddress

/-- What a store of the low `n` bytes of `v` does to `t`; a store to ROM is ignored (65_platform R934). -/
def State.targetWrite (s : State) (t : Target) (off n : Nat) (v : DWord) : Result Unit :=
  match t with
  | .dram a => .val () { s with mem := writeLe s.mem a v n }
  | .rom _ => .val () s
  | .window i => if n = 8 then .val () { s with windows := s.windows.set i v } else .fault .deviceWidth
  | .ddr i => if n = 8 then .val () { s with ddr := ddrWrite s.ddr i v } else .fault .deviceWidth
  | .header i =>
    if whb n then
      let w := maskedWrite (headerMask i) s.io.header[i] (writeLanes s.io.header[i] off n v)
      .val () { s with io := { s.io with header := s.io.header.set i w } }
    else .fault .deviceWidth
  | .regs i => if whb n then .val () (s.regWrite i off n v) else .fault .deviceWidth
  | .outside r => .refused r
  | .hole => .fault .unclaimedAddress

/-! ### The PCI bus masters (20_memory R176, R185; log 40) -/

/-- An access of a PCI bus master has 1, 2, 4 or 8 bytes at a multiple of that number; what another does, read or
store, the spec does not say (DESIGN CHOICE, log 40). -/
def naturalAccess (a : DWord) (n : Nat) : Bool := (n = 8 || whb n) && a.toNat % n = 0

/-- What a PCI bus master reads: `n` bytes of memory, not of a dirty line of a cache, or of a device register. A
misaligned read, one of no natural width, and one that nothing in the chip answers get nothing (DESIGN CHOICE,
log 40). The byte place in a register is that of the address before the window (DESIGN CHOICE, log 33). -/
def State.pciRead (s : State) (a : DWord) (n : Nat) : Option DWord :=
  if naturalAccess a n then
    match s.targetRead (s.pciTarget a) (a.toNat % 4) n with
    | .val v _ => some v
    | _ => none
  else none

/-- A store of a PCI bus master: memory or a device register changes, the caches do not. A misaligned store, one of no
natural width, and one that nothing in the chip takes change nothing (DESIGN CHOICE, log 40). The byte place in a
register is that of the address before the window (DESIGN CHOICE, log 33). -/
def State.pciStore (s : State) (w : PciStore) : State :=
  if naturalAccess w.addr w.size then
    match s.targetWrite (s.pciTarget w.addr) (w.addr.toNat % 4) w.size w.data with
    | .val _ t => t
    | _ => s
  else s

/-! ### Uncached accesses (20_memory R160) -/

/-- The request of an access that can report an error (60_exceptions R830): for a store only the block read or the
upgrade of a cached one (log 9). -/
def Access.request : Access → BusAccess
  | .fetch => .fetch
  | .load => .load
  | .store => .store

/-- Whether the parameter `BUS_ERROR` names this access (20_memory R166). -/
def State.busErrorAt (s : State) (kind : Access) (pa : PAddr) : Bool :=
  s.cfg.busErrors.any fun b => kind.request == b.access && b.first ≤ pa.toNat && pa.toNat ≤ b.last

/-- An uncached read of `n` bytes, or the Bus Error it gets (20_memory R160, R166). The byte place in a register is
`pa` mod 4, before the window; 65_platform R900 gives OUT_ADDR[1:0], which is another only for a window whose MASK has
ones in bits 1:0, smaller than the 1 MB it implies (DESIGN CHOICE, log 33). -/
def State.busRead (s : State) (kind : Access) (pa : PAddr) (n : Nat) : Result DWord :=
  if s.busErrorAt kind pa then .exc (.busError (kind == .fetch)) s else s.targetRead (s.target pa) (pa.toNat % 4) n

/-- An uncached store of the low `n` bytes of `v`: it never gets a Bus Error (60_exceptions R830). The byte place in a
register is found as by `busRead` (DESIGN CHOICE, log 33). -/
def State.busWrite (s : State) (pa : PAddr) (n : Nat) (v : DWord) : Result Unit :=
  s.targetWrite (s.target pa) (pa.toNat % 4) n v

/-! ### Lines (20_memory R170) -/

/-- `liocfg.iopf_en`: block reads of the LIO spaces are permitted (65_platform R930, R951). -/
def IoRegs.blockReadable (io : IoRegs) : Bool := bit io.regs[2] 14

/-- Read the 32-byte line at `pa` for a cache fill: DRAM answers a block read, ROM where liocfg permits one, a register
space does not (65_platform R930, R931). -/
def State.lineRead (s : State) (kind : Access) (pa : PAddr) : Result (BitVec 256) :=
  if s.busErrorAt kind pa then .exc (.busError (kind == .fetch)) s
  else match s.target pa with
    | .dram a => .val (readLe s.mem a 32) s
    | .rom a => if s.io.blockReadable then .val (readLe s.mem a 32) s else .fault .blockRead
    | .outside r => .refused r
    | .hole => .fault .unclaimedAddress
    | _ => .fault .deviceWidth

/-- Write a dirty line to memory; a line of ROM is dropped. -/
def State.lineWrite (s : State) (pa : PAddr) (data : BitVec 256) : Result Unit :=
  match s.target pa with
  | .dram a => .val () { s with mem := writeLe s.mem a data 32 }
  | .rom _ => .val () s
  | .outside r => .refused r
  | .hole => .fault .unclaimedAddress
  | _ => .fault .deviceWidth

end Sys2Proof.Machine
end

