-- ==== Sys2Proof/Machine/Events.lean ====
section
/-! DEFINITION. What happens at an instruction boundary, before the fetch: the outside world, time, and the events that
are taken instead of the next instruction (60_exceptions R805, R807, R843, R860 to R862, 70_reset R970 to R974). -/

namespace Sys2Proof.Machine

/-! ### The outside world (log 15) -/

/-- Latch the requests and pin levels of one boundary. A record that asks for an event while no request of that kind is
pending is a request of its own, for an NMI one assertion and so one entry: whether an NMI level held low enters again
is not stated (70_reset R973; DESIGN CHOICE, log 15). One that comes while a request of its kind still waits, as an NMI
behind a Soft Reset does, joins it, and the two make one entry: each kind has one pending bit (10_state R105 (d)), and
whether a second request would be kept is not stated (DESIGN CHOICE, log 15). -/
def State.latchInput (s : State) (i : Input) : State :=
  let t := match i.pins with | some p => s.setPins p | none => s
  { t with
    coldResetPending := t.coldResetPending || i.coldReset
    softResetPending := t.softResetPending || i.softReset
    nmiPending := t.nmiPending || i.nmi }

/-! ### Time (60_exceptions R860, R861, 10_state R35, R42, R62 to R64) -/

/-- How often Count advances in `pclk` cycles: every other one, the phase kept (10_state R42; log 12). -/
def countSteps (phase : Bool) (pclk : Nat) : Nat := (pclk + if phase then 1 else 0) / 2

/-- Whether one of the `n` values Count takes next is Compare (60_exceptions R861). -/
def reachesCompare (count compare : Word) (n : Nat) : Bool :=
  let d := (compare - count).toNat
  if d = 0 then 2 ^ 32 ≤ n else d ≤ n

/-- Count after `pclk` cycles, with the timer request. -/
def State.tickCount (s : State) (pclk : Nat) : State :=
  let n := countSteps s.countPhase pclk
  { s with
    cp0 := { s.cp0 with count := s.cp0.count + BitVec.ofNat 32 n }
    timerPending := s.timerPending || reachesCompare s.cp0.count s.cp0.compare n
    countPhase := s.countPhase ^^ (pclk % 2 = 1) }

/-- Random: held at 63 until an instruction completes after reset or a write of Wired (45_cp0 R473), else the oracle's
value in range, else one less (10_state R35; log 13). -/
def State.tickRandom (s : State) (choice : Option (BitVec 6)) : State :=
  if s.randomHold then { s with randomHold := false, randomHeld := true }
  else
    let down := if s.cp0.random ≤ s.cp0.wired then 63 else s.cp0.random - 1
    let v := match choice with | some x => if s.cp0.wired ≤ x then x else down | none => down
    { s with cp0 := { s.cp0 with random := v }, randomHeld := false }

/-- Whether the count enables cover the current mode: bit 0 EXL, 1 Kernel, 2 Supervisor, 3 User (10_state R62). -/
def State.perfCounts (s : State) : Bool :=
  let c := s.cp0.perfControl
  !s.erl && (if s.exl then bit c 0
    else match s.ksu with
      | 0b00#2 => bit c 1
      | 0b01#2 => bit c 2
      | 0b10#2 => bit c 3
      | _ => false)

/-- The performance counters: event 0 of counter 0 is cycles, event 0 of counter 1 committed instructions, the
others are told from outside (10_state R63, R64; log 14). -/
def State.tickPerf (s : State) (i : Input) : State :=
  if s.perfCounts then
    let n0 := if s.cp0.perfControl.extractLsb' 5 4 = 0 then i.pclk else i.events0
    let n1 := if s.cp0.perfControl.extractLsb' 9 4 = 0 then 1 else i.events1
    let p := s.cp0.perfCounter
    { s with cp0 := { s.cp0 with
        perfCounter := (p.extractLsb' 32 32 + BitVec.ofNat 32 n1) ++ (p.extractLsb' 0 32 + BitVec.ofNat 32 n0) } }
  else s

/-- What the next boundary brings: the head of the list, or an ordinary cycle. -/
def State.nextInput (s : State) : Input := s.inputs.headD {}

/-- The boundary before an instruction: the outside world and time. -/
def State.boundary (s : State) : State :=
  let i := s.nextInput
  let t := i.pciWrites.foldl State.pciStore { s with inputs := s.inputs.tail }
  (((t.latchInput i).tickCount i.pclk).tickRandom i.random).tickPerf i

/-! ### Events (60_exceptions R805, R807) -/

/-- The event taken instead of the next instruction, by priority: Cold Reset, Soft Reset, NMI, the postponed Watch,
an interrupt; none where the instruction runs. A Soft Reset clears the latched external requests (70_reset R972). -/
def State.event (s : State) : Option State :=
  if s.coldResetPending then
    some (State.coldReset s.cfg s.mem s.pc s.pins s.inputs s.draws s.freeCount)
  else if s.softResetPending then
    some (enterReset { s with softResetPending := false, io := { s.io with intLatch := 0 } })
  else if s.nmiPending then some (enterReset { s with nmiPending := false })
  else if s.watchPostponed && !s.exl && !s.erl then
    some (takeException .watch { s with watchPostponed := false })
  else if s.interruptTaken then some (takeException .interrupt s)
  else none

end Sys2Proof.Machine
end

