-- ==== Sys2Proof/Machine/Cache.lean ====
section
/-! DEFINITION. The three caches (10_state R100 to R103, 20_memory R170 to R173): lookup, fill, write-back. A line is
kept at `4 * set + way`. -/

namespace Sys2Proof.Machine

/-! ### Lines -/

/-- The states of a D or S line: 0 invalid, 3 dirty, the others valid and clean (10_state R101; log 26). -/
def dirtyState : BitVec 2 := 3

/-- The state a line is filled in: valid, clean (log 26). -/
def cleanState : BitVec 2 := 1

def ILine.empty : ILine := ⟨0, false, 0⟩
def DLine.empty : DLine := ⟨0, 0, 0, 0, 0⟩
def SLine.empty : SLine := ⟨0, 0, 0⟩

def State.iLine (s : State) (k : Nat) : ILine := sparseRead ILine.empty k s.icache
def State.dLine (s : State) (k : Nat) : DLine := sparseRead DLine.empty k s.dcache
def State.sLine (s : State) (k : Nat) : SLine := sparseRead SLine.empty k s.scache

def State.setILine (s : State) (k : Nat) (l : ILine) : State :=
  { s with icache := sparseWrite ILine.empty k l s.icache }
def State.setDLine (s : State) (k : Nat) (l : DLine) : State :=
  { s with dcache := sparseWrite DLine.empty k l s.dcache }
def State.setSLine (s : State) (k : Nat) (l : SLine) : State :=
  { s with scache := sparseWrite SLine.empty k l s.scache }

/-! ### Indices and tags (20_memory R170) -/

/-- The set of a primary cache: va[13:5]. -/
def primarySet (va : DWord) : Nat := (va.extractLsb' 5 9).toNat

/-- The tag of a primary cache: pa[39:12]. -/
def primaryTag (pa : PAddr) : BitVec 28 := pa.extractLsb' 12 28

/-- The set of the secondary cache: pa[16:5]. -/
def secondarySet (pa : PAddr) : Nat := (pa.extractLsb' 5 12).toNat

/-- The tag of the secondary cache: pa[39:17]. -/
def secondaryTag (pa : PAddr) : BitVec 23 := pa.extractLsb' 17 23

/-- The first address of the line holding `pa`. -/
def lineBase (pa : PAddr) : PAddr := pa.extractLsb' 5 35 ++ (0 : BitVec 5)

/-- The physical address of a primary line: its tag and the low seven bits of its set (45_cp0 R483). -/
def primaryAddr (tag : BitVec 28) (key : Nat) : PAddr := tag ++ BitVec.ofNat 7 (key / 4) ++ (0 : BitVec 5)

/-- The physical address of a secondary line: its tag and its set (45_cp0 R489). -/
def secondaryAddr (tag : BitVec 23) (key : Nat) : PAddr := tag ++ BitVec.ofNat 12 (key / 4) ++ (0 : BitVec 5)

/-- The first of the four ways of a set that `p` holds of, as a key (log 28). -/
def findWay (set : Nat) (p : Nat → Bool) : Option Nat := ([0, 1, 2, 3].map (4 * set + ·)).find? p

/-- A free choice of way in a set: replacement is random (10_state R103; log 10). -/
def State.pickWay (s : State) (set : Nat) : Nat × State := (4 * set + s.free.1 % 4, s.free.2)

def DLine.holds (l : DLine) (pa : PAddr) : Bool := l.state ≠ 0 && l.tag = primaryTag pa
def SLine.holds (l : SLine) (pa : PAddr) : Bool := l.state ≠ 0 && l.tag = secondaryTag pa
def ILine.holds (l : ILine) (pa : PAddr) : Bool := l.valid && l.tag = primaryTag pa

def State.iHit (s : State) (va : DWord) (pa : PAddr) : Option Nat :=
  findWay (primarySet va) fun k => (s.iLine k).holds pa
def State.dHit (s : State) (va : DWord) (pa : PAddr) : Option Nat :=
  findWay (primarySet va) fun k => (s.dLine k).holds pa
def State.sHit (s : State) (pa : PAddr) : Option Nat :=
  findWay (secondarySet pa) fun k => (s.sLine k).holds pa

/-! ### The secondary cache (10_state R102) -/

/-- Write a secondary line about to be replaced to memory, if it is dirty. -/
def State.sEvict (s : State) (k : Nat) : Result Unit :=
  let l := s.sLine k
  if l.state = dirtyState then s.lineWrite (secondaryAddr l.tag k) l.data else .val () s

/-- Put a line into the secondary cache in a way chosen at random, the replaced line written back. -/
def State.sInstall (s : State) (pa : PAddr) (state : BitVec 2) (data : BitVec 256) : Result Nat :=
  let pick := s.pickWay (secondarySet pa)
  (pick.2.sEvict pick.1).bind fun _ t => .val pick.1 (t.setSLine pick.1 ⟨secondaryTag pa, state, data⟩)

/-- The line at `pa` for a primary miss, with the secondary way that holds it: from the secondary cache, else from
memory into both (10_state R102); memory alone while the secondary cache is off (65_platform R952). The new line is
read before the secondary line it replaces is written to memory: the spec does not order the two (DESIGN CHOICE,
log 49). -/
def State.sFetch (s : State) (kind : Access) (pa : PAddr) : Result (BitVec 256 × BitVec 2) :=
  if s.io.disableScache then (s.lineRead kind pa).bind fun d t => .val (d, 0) t
  else match s.sHit pa with
    | some k => .val ((s.sLine k).data, BitVec.ofNat 2 k) s
    | none =>
      (s.lineRead kind pa).bind fun d t =>
        (t.sInstall pa cleanState d).bind fun k u => .val (d, BitVec.ofNat 2 k) u

/-- Write a dirty primary line back: into the secondary cache, not to memory (10_state R102, 20_memory R172;
log 27). -/
def State.sPut (s : State) (pa : PAddr) (data : BitVec 256) : Result Unit :=
  if s.io.disableScache then s.lineWrite pa data
  else match s.sHit pa with
    | some k => .val () (s.setSLine k { s.sLine k with state := dirtyState, data := data })
    | none => (s.sInstall pa dirtyState data).bind fun _ t => .val () t

/-! ### The primary data cache (10_state R101) -/

/-- Write a data line to the secondary cache, if it is dirty. -/
def State.dWriteBack (s : State) (k : Nat) : Result Unit :=
  let l := s.dLine k
  if l.state = dirtyState then s.sPut (primaryAddr l.tag k) l.data else .val () s

/-- The key of the data line that holds `pa`, filled first on a miss (20_memory R173: loads and stores both
allocate). With a dirty line to replace, the new line is fetched first, into the secondary cache too, and then the
replaced one is written back: R172 does not order the two (DESIGN CHOICE, log 49). -/
def State.dEnsure (s : State) (kind : Access) (va : DWord) (pa : PAddr) : Result Nat :=
  match s.dHit va pa with
  | some k => .val k s
  | none =>
    (s.sFetch kind (lineBase pa)).bind fun d t =>
      let pick := t.pickWay (primarySet va)
      (pick.2.dWriteBack pick.1).bind fun _ u =>
        .val pick.1 (u.setDLine pick.1 ⟨primaryTag pa, cleanState, d.2, 0, d.1⟩)

/-- A cached read of `n` bytes. -/
def State.cachedRead (s : State) (va : DWord) (pa : PAddr) (n : Nat) : Result DWord :=
  (s.dEnsure .load va pa).bind fun k t => .val (readLanes (t.dLine k).data (pa.toNat % 32) n) t

/-- The upgrade a cached store makes when it finds its line clean gets an error (60_exceptions R830; log 9). -/
def State.upgradeError (s : State) (k : Nat) (pa : PAddr) : Bool :=
  (s.dLine k).state != dirtyState && s.busErrorAt .store (lineBase pa)

/-- A cached store of the low `n` bytes of `v`: only the data cache changes, the line becomes dirty (20_memory
R160); or its upgrade gets a Bus Error and the line stays. -/
def State.cachedWrite (s : State) (va : DWord) (pa : PAddr) (n : Nat) (v : DWord) : Result Unit :=
  (s.dEnsure .store va pa).bind fun k t =>
    let l := t.dLine k
    if t.upgradeError k pa then .exc (.busError false) t
    else .val () (t.setDLine k { l with state := dirtyState, data := writeLanes l.data (pa.toNat % 32) n v })

/-! ### The primary instruction cache (10_state R101) -/

/-- The word at `pa` through the instruction cache, filled from the secondary cache on a miss (20_memory R173,
R186). -/
def State.cachedFetch (s : State) (va : DWord) (pa : PAddr) : Result Word :=
  match s.iHit va pa with
  | some k => .val (low32 (readLanes (s.iLine k).data (pa.toNat % 32) 4)) s
  | none =>
    (s.sFetch .fetch (lineBase pa)).bind fun d t =>
      let pick := t.pickWay (primarySet va)
      .val (low32 (readLanes d.1 (pa.toNat % 32) 4)) (pick.2.setILine pick.1 ⟨primaryTag pa, true, d.1⟩)

end Sys2Proof.Machine
end

