-- ==== Sys2Proof/Machine/Access.lean ====
section
/-! DEFINITION. The access procedure of every load, store and fetch: alignment, translation, the Watch check, then the
read or write with the cache attribute (40_loads_stores R242, 60_exceptions R843). -/

namespace Sys2Proof.Machine

/-- A read of `n` bytes with its cache attribute (20_memory R160; attribute 7 is as 2, log 38). -/
def State.readAttr (s : State) (attr : BitVec 3) (va : DWord) (pa : PAddr) (n : Nat) : Result DWord :=
  if attr = 3 then s.cachedRead va pa n else s.busRead .load pa n

/-- A store of `n` bytes with its cache attribute. -/
def State.writeAttr (s : State) (attr : BitVec 3) (va : DWord) (pa : PAddr) (n : Nat) (v : DWord) : Result Unit :=
  if attr = 3 then s.cachedWrite va pa n v else s.busWrite pa n v

/-- `WatchMatch` (60_exceptions R843). -/
def State.watchMatch (s : State) (k : Access) (va : DWord) : Bool :=
  va.extractLsb' 3 61 = s.cp0.watch.extractLsb' 3 61 &&
    (match k with | .load => bit s.cp0.watch 1 | .store => bit s.cp0.watch 0 | .fetch => false)

/-- The state a Watch exception leaves: a cacheable access that misses has filled the data cache (60_exceptions
R806). -/
def State.watchFill (s : State) (k : Access) (attr : BitVec 3) (va : DWord) (pa : PAddr) : State :=
  if attr = 3 then (match s.dEnsure k va pa with | .val _ t => t | _ => s) else s

/-- Remember a Watch match made while EXL or ERL is set (60_exceptions R843). -/
def State.postponeWatch (s : State) (hit : Bool) : State := if hit then { s with watchPostponed := true } else s

/-- Steps 3 to 5 of the access procedure (40_loads_stores R242): translate `va`, check Watch, then do `op` with the
attribute at the physical address. A match made while EXL or ERL is set is remembered when the access completes; one
whose access ends in a Bus Error is not (log 31). -/
def State.access {α : Type} (s : State) (k : Access) (va : DWord)
    (op : State → BitVec 3 → PAddr → Result α) : Result α :=
  match s.translate k va with
  | .exc e => .exc e s
  | .fault f => .fault f
  | .ok pa attr =>
    let hit := s.watchMatch k va
    if hit && !s.exl && !s.erl then .exc .watch (s.watchFill k attr va pa)
    else (op s attr pa).bind fun a t => .val a (t.postponeWatch hit)

/-- The address of byte `va0` of the aligned doubleword that `pa` lies in (40_loads_stores R242). -/
def sameDouble (pa : PAddr) (va0 : DWord) : PAddr := pa.extractLsb' 3 37 ++ va0.extractLsb' 0 3

/-- `MemReadBytes`: `n` bytes from `va0`, translated by the instruction's own address `va`. -/
def State.loadBytes (s : State) (va va0 : DWord) (n : Nat) : Result DWord :=
  s.access .load va fun s attr pa => s.readAttr attr va0 (sameDouble pa va0) n

/-- `MemWriteBytes`: the low `n` bytes of `v` from `va0` up. -/
def State.storeBytes (s : State) (va va0 : DWord) (n : Nat) (v : DWord) : Result Unit :=
  s.access .store va fun s attr pa => s.writeAttr attr va0 (sameDouble pa va0) n v

/-- `MemRead`: an aligned read of `n` bytes (40_loads_stores R242). -/
def State.load (s : State) (va : DWord) (n : Nat) : Result DWord :=
  if aligned n va then s.loadBytes va va n else .exc (.addressError false va) s

/-- `MemWrite`: an aligned store of `n` bytes (40_loads_stores R242). -/
def State.store (s : State) (va : DWord) (n : Nat) (v : DWord) : Result Unit :=
  if aligned n va then s.storeBytes va va n v else .exc (.addressError true va) s

/-- A load to register 0: no exception; an address that translates to a cached one may bring its line in, as the
free value says (40_loads_stores R246; log 45). -/
def State.prefetch (s : State) (va : DWord) (n : Nat) : State :=
  match (if aligned n va then s.translate .load va else .fault .unclaimedAddress) with
  | .ok pa attr =>
    if attr = 3 then
      let t := s.free.2
      if s.free.1 % 2 = 0 then (match t.dEnsure .load va pa with | .val _ u => u | _ => t) else t
    else s
  | _ => s

/-- The word at `pc`: alignment, segment, ITLB and JTLB, then the instruction cache or the bus (20_memory R121, R150,
60_exceptions R804). An uncached fetch sees every store made before it at once: the pipeline that may have fetched
ahead (20_memory R186) is not modelled (log 47). -/
def State.fetch (s : State) : Result Word :=
  if aligned 4 s.pc then
    match s.translateFetch s.pc with
    | (.exc e, t) => .exc e t
    | (.fault f, _) => .fault f
    | (.ok pa attr, t) =>
      if attr = 3 then t.cachedFetch s.pc pa
      else (t.busRead .fetch pa 4).bind fun v u => .val (low32 v) u
  else .exc (.addressError false s.pc) s

end Sys2Proof.Machine
end

