-- ==== Sys2Proof/Machine/Placement.lean ====
section
/-! DEFINITION. Placing an instruction word where the next fetch reads it (log 16). -/

namespace Sys2Proof.Machine

/-- Replace the word at physical address `pa`, as a fetch with cache attribute `attr` at `va` would read it: in the
instruction line that holds it, else in the secondary line, else in memory. -/
def State.putWord (s : State) (attr : BitVec 3) (va : DWord) (pa : PAddr) (w : Word) : State :=
  let inMemory : State :=
    match s.target (if attr = 3 then lineBase pa else pa) with
    | .dram a => { s with mem := writeLe s.mem (if attr = 3 then a + pa.toNat % 32 else a) w 4 }
    | .rom a => { s with mem := writeLe s.mem (if attr = 3 then a + pa.toNat % 32 else a) w 4 }
    | _ => s
  if attr = 3 then
    match s.iHit va pa with
    | some k =>
      s.setILine k { s.iLine k with data := writeLanes (s.iLine k).data (pa.toNat % 32) 4 (zext64 w) }
    | none =>
      match s.sHit (lineBase pa) with
      | some k =>
        if s.io.disableScache then inMemory
        else s.setSLine k { s.sLine k with data := writeLanes (s.sLine k).data (pa.toNat % 32) 4 (zext64 w) }
      | none => inMemory
  else inMemory

/-- The state with `w` where the fetch at the pc reads; unchanged where that fetch does not complete. -/
def State.placeWord (s : State) (w : Word) : State :=
  match (s.translateFetch s.pc).1 with
  | .ok pa attr => s.putWord attr s.pc pa w
  | _ => s

end Sys2Proof.Machine
end

