-- ==== Sys2Proof/Syntax.lean ====
section
/-! DEFINITION. The instructions: one constructor per row of `spec/opcode_table.json`, its operands in the
order of the instruction word from bit 25 down (30_encoding R201, R202). -/

namespace Sys2Proof

/-- One instruction. The docstring of a constructor gives the row's mnemonic and the rule that states its
meaning. -/
inductive Instr where
  /-- LB (R244) -/
  | lb (base rt : RegNum) (offset : Half)
  /-- LBU (R245) -/
  | lbu (base rt : RegNum) (offset : Half)
  /-- LH (R247) -/
  | lh (base rt : RegNum) (offset : Half)
  /-- LHU (R248) -/
  | lhu (base rt : RegNum) (offset : Half)
  /-- LW (R249) -/
  | lw (base rt : RegNum) (offset : Half)
  /-- LWU (R250) -/
  | lwu (base rt : RegNum) (offset : Half)
  /-- LD (R251) -/
  | ld (base rt : RegNum) (offset : Half)
  /-- LWL (R252) -/
  | lwl (base rt : RegNum) (offset : Half)
  /-- LWR (R253) -/
  | lwr (base rt : RegNum) (offset : Half)
  /-- LDL (R254) -/
  | ldl (base rt : RegNum) (offset : Half)
  /-- LDR (R255) -/
  | ldr (base rt : RegNum) (offset : Half)
  /-- SB (R256) -/
  | sb (base rt : RegNum) (offset : Half)
  /-- SH (R257) -/
  | sh (base rt : RegNum) (offset : Half)
  /-- SW (R258) -/
  | sw (base rt : RegNum) (offset : Half)
  /-- SD (R259) -/
  | sd (base rt : RegNum) (offset : Half)
  /-- SWL (R260) -/
  | swl (base rt : RegNum) (offset : Half)
  /-- SWR (R261) -/
  | swr (base rt : RegNum) (offset : Half)
  /-- SDL (R262) -/
  | sdl (base rt : RegNum) (offset : Half)
  /-- SDR (R263) -/
  | sdr (base rt : RegNum) (offset : Half)
  /-- LL (R268) -/
  | ll (base rt : RegNum) (offset : Half)
  /-- LLD (R269) -/
  | lld (base rt : RegNum) (offset : Half)
  /-- SC (R270) -/
  | sc (base rt : RegNum) (offset : Half)
  /-- SCD (R271) -/
  | scd (base rt : RegNum) (offset : Half)
  /-- LWC1 (R264) -/
  | lwc1 (base ft : RegNum) (offset : Half)
  /-- LDC1 (R265) -/
  | ldc1 (base ft : RegNum) (offset : Half)
  /-- SWC1 (R266) -/
  | swc1 (base ft : RegNum) (offset : Half)
  /-- SDC1 (R267) -/
  | sdc1 (base ft : RegNum) (offset : Half)
  /-- ADDI (R294) -/
  | addi (rs rt : RegNum) (imm : Half)
  /-- ADDIU (R295) -/
  | addiu (rs rt : RegNum) (imm : Half)
  /-- DADDI (R296) -/
  | daddi (rs rt : RegNum) (imm : Half)
  /-- DADDIU (R297) -/
  | daddiu (rs rt : RegNum) (imm : Half)
  /-- SLTI (R298) -/
  | slti (rs rt : RegNum) (imm : Half)
  /-- SLTIU (R299) -/
  | sltiu (rs rt : RegNum) (imm : Half)
  /-- ANDI (R300) -/
  | andi (rs rt : RegNum) (imm : Half)
  /-- ORI (R301) -/
  | ori (rs rt : RegNum) (imm : Half)
  /-- XORI (R302) -/
  | xori (rs rt : RegNum) (imm : Half)
  /-- LUI (R303) -/
  | lui (rt : RegNum) (imm : Half)
  /-- ADD (R304) -/
  | add (rs rt rd : RegNum)
  /-- ADDU (R305) -/
  | addu (rs rt rd : RegNum)
  /-- SUB (R306) -/
  | sub (rs rt rd : RegNum)
  /-- SUBU (R307) -/
  | subu (rs rt rd : RegNum)
  /-- DADD (R308) -/
  | dadd (rs rt rd : RegNum)
  /-- DADDU (R309) -/
  | daddu (rs rt rd : RegNum)
  /-- DSUB (R310) -/
  | dsub (rs rt rd : RegNum)
  /-- DSUBU (R311) -/
  | dsubu (rs rt rd : RegNum)
  /-- SLT (R312) -/
  | slt (rs rt rd : RegNum)
  /-- SLTU (R313) -/
  | sltu (rs rt rd : RegNum)
  /-- AND (R314) -/
  | and (rs rt rd : RegNum)
  /-- OR (R315) -/
  | or (rs rt rd : RegNum)
  /-- XOR (R316) -/
  | xor (rs rt rd : RegNum)
  /-- NOR (R317) -/
  | nor (rs rt rd : RegNum)
  /-- MOVZ (R318) -/
  | movz (rs rt rd : RegNum)
  /-- MOVN (R319) -/
  | movn (rs rt rd : RegNum)
  /-- SLLV (R323) -/
  | sllv (rs rt rd : RegNum)
  /-- SRLV (R324) -/
  | srlv (rs rt rd : RegNum)
  /-- SRAV (R325) -/
  | srav (rs rt rd : RegNum)
  /-- DSLLV (R329) -/
  | dsllv (rs rt rd : RegNum)
  /-- DSRLV (R330) -/
  | dsrlv (rs rt rd : RegNum)
  /-- DSRAV (R331) -/
  | dsrav (rs rt rd : RegNum)
  /-- SLL (R320) -/
  | sll (rt rd sa : RegNum)
  /-- SRL (R321) -/
  | srl (rt rd sa : RegNum)
  /-- SRA (R322) -/
  | sra (rt rd sa : RegNum)
  /-- DSLL (R326) -/
  | dsll (rt rd sa : RegNum)
  /-- DSRL (R327) -/
  | dsrl (rt rd sa : RegNum)
  /-- DSRA (R328) -/
  | dsra (rt rd sa : RegNum)
  /-- DSLL32 (R332) -/
  | dsll32 (rt rd sa : RegNum)
  /-- DSRL32 (R333) -/
  | dsrl32 (rt rd sa : RegNum)
  /-- DSRA32 (R334) -/
  | dsra32 (rt rd sa : RegNum)
  /-- MULT (R357) -/
  | mult (rs rt : RegNum)
  /-- MULTU (R358) -/
  | multu (rs rt : RegNum)
  /-- DMULT (R359) -/
  | dmult (rs rt : RegNum)
  /-- DMULTU (R360) -/
  | dmultu (rs rt : RegNum)
  /-- DIV (R361) -/
  | div (rs rt : RegNum)
  /-- DIVU (R362) -/
  | divu (rs rt : RegNum)
  /-- DDIV (R363) -/
  | ddiv (rs rt : RegNum)
  /-- DDIVU (R364) -/
  | ddivu (rs rt : RegNum)
  /-- MFHI (R365) -/
  | mfhi (rd : RegNum)
  /-- MFLO (R367) -/
  | mflo (rd : RegNum)
  /-- MTHI (R366) -/
  | mthi (rs : RegNum)
  /-- MTLO (R368) -/
  | mtlo (rs : RegNum)
  /-- MULT.G (R369) -/
  | multG (rs rt rd : RegNum)
  /-- MULTU.G (R370) -/
  | multuG (rs rt rd : RegNum)
  /-- DMULT.G (R371) -/
  | dmultG (rs rt rd : RegNum)
  /-- DMULTU.G (R372) -/
  | dmultuG (rs rt rd : RegNum)
  /-- DIV.G (R373) -/
  | divG (rs rt rd : RegNum)
  /-- DIVU.G (R374) -/
  | divuG (rs rt rd : RegNum)
  /-- DDIV.G (R375) -/
  | ddivG (rs rt rd : RegNum)
  /-- DDIVU.G (R376) -/
  | ddivuG (rs rt rd : RegNum)
  /-- MOD.G (R377) -/
  | modG (rs rt rd : RegNum)
  /-- MODU.G (R378) -/
  | moduG (rs rt rd : RegNum)
  /-- DMOD.G (R379) -/
  | dmodG (rs rt rd : RegNum)
  /-- DMODU.G (R380) -/
  | dmoduG (rs rt rd : RegNum)
  /-- J (R395) -/
  | j (target : BitVec 26)
  /-- JAL (R396) -/
  | jal (target : BitVec 26)
  /-- JR (R397) -/
  | jr (rs : RegNum)
  /-- JALR (R398) -/
  | jalr (rs rd : RegNum)
  /-- BEQ (R399) -/
  | beq (rs rt : RegNum) (offset : Half)
  /-- BNE (R400) -/
  | bne (rs rt : RegNum) (offset : Half)
  /-- BEQL (R408) -/
  | beql (rs rt : RegNum) (offset : Half)
  /-- BNEL (R409) -/
  | bnel (rs rt : RegNum) (offset : Half)
  /-- BLEZ (R401) -/
  | blez (rs : RegNum) (offset : Half)
  /-- BGTZ (R402) -/
  | bgtz (rs : RegNum) (offset : Half)
  /-- BLEZL (R410) -/
  | blezl (rs : RegNum) (offset : Half)
  /-- BGTZL (R411) -/
  | bgtzl (rs : RegNum) (offset : Half)
  /-- BLTZ (R403) -/
  | bltz (rs : RegNum) (offset : Half)
  /-- BGEZ (R404) -/
  | bgez (rs : RegNum) (offset : Half)
  /-- BLTZAL (R405) -/
  | bltzal (rs : RegNum) (offset : Half)
  /-- BGEZAL (R406) -/
  | bgezal (rs : RegNum) (offset : Half)
  /-- BLTZL (R412) -/
  | bltzl (rs : RegNum) (offset : Half)
  /-- BGEZL (R413) -/
  | bgezl (rs : RegNum) (offset : Half)
  /-- BLTZALL (R414) -/
  | bltzall (rs : RegNum) (offset : Half)
  /-- BGEZALL (R415) -/
  | bgezall (rs : RegNum) (offset : Half)
  /-- SYSCALL (R432) -/
  | syscall (code20 : BitVec 20)
  /-- BREAK (R433) -/
  | brk (code20 : BitVec 20)
  /-- SYNC (R436) -/
  | sync
  /-- TGE (R438) -/
  | tge (rs rt : RegNum) (code10 : BitVec 10)
  /-- TGEU (R439) -/
  | tgeu (rs rt : RegNum) (code10 : BitVec 10)
  /-- TLT (R440) -/
  | tlt (rs rt : RegNum) (code10 : BitVec 10)
  /-- TLTU (R441) -/
  | tltu (rs rt : RegNum) (code10 : BitVec 10)
  /-- TEQ (R442) -/
  | teq (rs rt : RegNum) (code10 : BitVec 10)
  /-- TNE (R443) -/
  | tne (rs rt : RegNum) (code10 : BitVec 10)
  /-- TGEI (R445) -/
  | tgei (rs : RegNum) (imm : Half)
  /-- TGEIU (R446) -/
  | tgeiu (rs : RegNum) (imm : Half)
  /-- TLTI (R447) -/
  | tlti (rs : RegNum) (imm : Half)
  /-- TLTIU (R448) -/
  | tltiu (rs : RegNum) (imm : Half)
  /-- TEQI (R450) -/
  | teqi (rs : RegNum) (imm : Half)
  /-- TNEI (R451) -/
  | tnei (rs : RegNum) (imm : Half)
  /-- MFC0 (R465) -/
  | mfc0 (rt rd : RegNum)
  /-- DMFC0 (R469) -/
  | dmfc0 (rt rd : RegNum)
  /-- MTC0 (R474) -/
  | mtc0 (rt rd : RegNum)
  /-- DMTC0 (R475) -/
  | dmtc0 (rt rd : RegNum)
  /-- TLBR (R471) -/
  | tlbr
  /-- TLBWI (R472) -/
  | tlbwi
  /-- TLBWR (R473) -/
  | tlbwr
  /-- TLBP (R470) -/
  | tlbp
  /-- ERET (R476) -/
  | eret
  /-- CACHE (R480) -/
  | cache (base : RegNum) (cacheop : BitVec 5) (offset : Half)
  /-- CACHE_0 (R482) -/
  | cache0 (base : RegNum) (offset : Half)
  /-- CACHE_1 (R483) -/
  | cache1 (base : RegNum) (offset : Half)
  /-- CACHE_5 (R484) -/
  | cache5 (base : RegNum) (offset : Half)
  /-- CACHE_9 (R485) -/
  | cache9 (base : RegNum) (offset : Half)
  /-- CACHE_17 (R490) -/
  | cache17 (base : RegNum) (offset : Half)
  /-- CACHE_21 (R491) -/
  | cache21 (base : RegNum) (offset : Half)
  /-- CACHE_25 (R486) -/
  | cache25 (base : RegNum) (offset : Half)
  /-- CACHE_29 (R487) -/
  | cache29 (base : RegNum) (offset : Half)
  /-- CACHE_3 (R489) -/
  | cache3 (base : RegNum) (offset : Half)
  /-- CACHE_7 (R488) -/
  | cache7 (base : RegNum) (offset : Half)
  /-- CACHE_11 (R493) -/
  | cache11 (base : RegNum) (offset : Half)
  /-- CACHE_19 (R494) -/
  | cache19 (base : RegNum) (offset : Half)
  /-- CACHE_23 (R492) -/
  | cache23 (base : RegNum) (offset : Half)
  /-- CACHE_27 (R495) -/
  | cache27 (base : RegNum) (offset : Half)
  /-- CACHE_31 (R496) -/
  | cache31 (base : RegNum) (offset : Half)
  /-- ADD.S (R540) -/
  | addS (ft fs fd : RegNum)
  /-- ADD.D (R541) -/
  | addD (ft fs fd : RegNum)
  /-- SUB.S (R542) -/
  | subS (ft fs fd : RegNum)
  /-- SUB.D (R543) -/
  | subD (ft fs fd : RegNum)
  /-- MUL.S (R544) -/
  | mulS (ft fs fd : RegNum)
  /-- MUL.D (R545) -/
  | mulD (ft fs fd : RegNum)
  /-- DIV.S (R546) -/
  | divS (ft fs fd : RegNum)
  /-- DIV.D (R547) -/
  | divD (ft fs fd : RegNum)
  /-- SQRT.S (R548) -/
  | sqrtS (fs fd : RegNum)
  /-- SQRT.D (R549) -/
  | sqrtD (fs fd : RegNum)
  /-- ABS.S (R550) -/
  | absS (fs fd : RegNum)
  /-- ABS.D (R551) -/
  | absD (fs fd : RegNum)
  /-- MOV.S (R552) -/
  | movS (fs fd : RegNum)
  /-- MOV.D (R553) -/
  | movD (fs fd : RegNum)
  /-- NEG.S (R554) -/
  | negS (fs fd : RegNum)
  /-- NEG.D (R555) -/
  | negD (fs fd : RegNum)
  /-- ROUND.L.S (R562) -/
  | roundLS (fs fd : RegNum)
  /-- ROUND.L.D (R563) -/
  | roundLD (fs fd : RegNum)
  /-- TRUNC.L.S (R564) -/
  | truncLS (fs fd : RegNum)
  /-- TRUNC.L.D (R565) -/
  | truncLD (fs fd : RegNum)
  /-- CEIL.L.S (R566) -/
  | ceilLS (fs fd : RegNum)
  /-- CEIL.L.D (R567) -/
  | ceilLD (fs fd : RegNum)
  /-- FLOOR.L.S (R568) -/
  | floorLS (fs fd : RegNum)
  /-- FLOOR.L.D (R569) -/
  | floorLD (fs fd : RegNum)
  /-- ROUND.W.S (R570) -/
  | roundWS (fs fd : RegNum)
  /-- ROUND.W.D (R571) -/
  | roundWD (fs fd : RegNum)
  /-- TRUNC.W.S (R572) -/
  | truncWS (fs fd : RegNum)
  /-- TRUNC.W.D (R573) -/
  | truncWD (fs fd : RegNum)
  /-- CEIL.W.S (R574) -/
  | ceilWS (fs fd : RegNum)
  /-- CEIL.W.D (R575) -/
  | ceilWD (fs fd : RegNum)
  /-- FLOOR.W.S (R576) -/
  | floorWS (fs fd : RegNum)
  /-- FLOOR.W.D (R577) -/
  | floorWD (fs fd : RegNum)
  /-- CVT.W.S (R578) -/
  | cvtWS (fs fd : RegNum)
  /-- CVT.W.D (R579) -/
  | cvtWD (fs fd : RegNum)
  /-- CVT.L.S (R580) -/
  | cvtLS (fs fd : RegNum)
  /-- CVT.L.D (R581) -/
  | cvtLD (fs fd : RegNum)
  /-- CVT.S.D (R582) -/
  | cvtSD (fs fd : RegNum)
  /-- CVT.S.W (R583) -/
  | cvtSW (fs fd : RegNum)
  /-- CVT.S.L (R584) -/
  | cvtSL (fs fd : RegNum)
  /-- CVT.D.S (R585) -/
  | cvtDS (fs fd : RegNum)
  /-- CVT.D.W (R586) -/
  | cvtDW (fs fd : RegNum)
  /-- CVT.D.L (R587) -/
  | cvtDL (fs fd : RegNum)
  /-- C.F.S (R592) -/
  | cFS (ft fs : RegNum)
  /-- C.F.D (R592) -/
  | cFD (ft fs : RegNum)
  /-- C.UN.S (R593) -/
  | cUnS (ft fs : RegNum)
  /-- C.UN.D (R593) -/
  | cUnD (ft fs : RegNum)
  /-- C.EQ.S (R594) -/
  | cEqS (ft fs : RegNum)
  /-- C.EQ.D (R594) -/
  | cEqD (ft fs : RegNum)
  /-- C.UEQ.S (R595) -/
  | cUeqS (ft fs : RegNum)
  /-- C.UEQ.D (R595) -/
  | cUeqD (ft fs : RegNum)
  /-- C.OLT.S (R596) -/
  | cOltS (ft fs : RegNum)
  /-- C.OLT.D (R596) -/
  | cOltD (ft fs : RegNum)
  /-- C.ULT.S (R597) -/
  | cUltS (ft fs : RegNum)
  /-- C.ULT.D (R597) -/
  | cUltD (ft fs : RegNum)
  /-- C.OLE.S (R598) -/
  | cOleS (ft fs : RegNum)
  /-- C.OLE.D (R598) -/
  | cOleD (ft fs : RegNum)
  /-- C.ULE.S (R599) -/
  | cUleS (ft fs : RegNum)
  /-- C.ULE.D (R599) -/
  | cUleD (ft fs : RegNum)
  /-- C.SF.S (R600) -/
  | cSfS (ft fs : RegNum)
  /-- C.SF.D (R600) -/
  | cSfD (ft fs : RegNum)
  /-- C.NGLE.S (R601) -/
  | cNgleS (ft fs : RegNum)
  /-- C.NGLE.D (R601) -/
  | cNgleD (ft fs : RegNum)
  /-- C.SEQ.S (R602) -/
  | cSeqS (ft fs : RegNum)
  /-- C.SEQ.D (R602) -/
  | cSeqD (ft fs : RegNum)
  /-- C.NGL.S (R603) -/
  | cNglS (ft fs : RegNum)
  /-- C.NGL.D (R603) -/
  | cNglD (ft fs : RegNum)
  /-- C.LT.S (R604) -/
  | cLtS (ft fs : RegNum)
  /-- C.LT.D (R604) -/
  | cLtD (ft fs : RegNum)
  /-- C.NGE.S (R605) -/
  | cNgeS (ft fs : RegNum)
  /-- C.NGE.D (R605) -/
  | cNgeD (ft fs : RegNum)
  /-- C.LE.S (R606) -/
  | cLeS (ft fs : RegNum)
  /-- C.LE.D (R606) -/
  | cLeD (ft fs : RegNum)
  /-- C.NGT.S (R607) -/
  | cNgtS (ft fs : RegNum)
  /-- C.NGT.D (R607) -/
  | cNgtD (ft fs : RegNum)
  /-- BC1F (R609) -/
  | bc1f (offset : Half)
  /-- BC1T (R610) -/
  | bc1t (offset : Half)
  /-- BC1FL (R611) -/
  | bc1fl (offset : Half)
  /-- BC1TL (R612) -/
  | bc1tl (offset : Half)
  /-- MFC1 (R613) -/
  | mfc1 (rt fs : RegNum)
  /-- DMFC1 (R614) -/
  | dmfc1 (rt fs : RegNum)
  /-- CFC1 (R617) -/
  | cfc1 (rt fs : RegNum)
  /-- MTC1 (R615) -/
  | mtc1 (rt fs : RegNum)
  /-- DMTC1 (R616) -/
  | dmtc1 (rt fs : RegNum)
  /-- CTC1 (R618) -/
  | ctc1 (rt fs : RegNum)
  /-- ADD.PS (R622) -/
  | addPs (ft fs fd : RegNum)
  /-- SUB.PS (R623) -/
  | subPs (ft fs fd : RegNum)
  /-- MUL.PS (R624) -/
  | mulPs (ft fs fd : RegNum)
  /-- ABS.PS (R625) -/
  | absPs (fs fd : RegNum)
  /-- MOV.PS (R626) -/
  | movPs (fs fd : RegNum)
  /-- NEG.PS (R627) -/
  | negPs (fs fd : RegNum)
  /-- C.F.PS (R637) -/
  | cFPs (ft fs : RegNum)
  /-- C.UN.PS (R638) -/
  | cUnPs (ft fs : RegNum)
  /-- C.EQ.PS (R639) -/
  | cEqPs (ft fs : RegNum)
  /-- C.UEQ.PS (R640) -/
  | cUeqPs (ft fs : RegNum)
  /-- C.OLT.PS (R641) -/
  | cOltPs (ft fs : RegNum)
  /-- C.ULT.PS (R642) -/
  | cUltPs (ft fs : RegNum)
  /-- C.OLE.PS (R643) -/
  | cOlePs (ft fs : RegNum)
  /-- C.ULE.PS (R644) -/
  | cUlePs (ft fs : RegNum)
  /-- C.SF.PS (R645) -/
  | cSfPs (ft fs : RegNum)
  /-- C.NGLE.PS (R646) -/
  | cNglePs (ft fs : RegNum)
  /-- C.SEQ.PS (R647) -/
  | cSeqPs (ft fs : RegNum)
  /-- C.NGL.PS (R648) -/
  | cNglPs (ft fs : RegNum)
  /-- C.LT.PS (R649) -/
  | cLtPs (ft fs : RegNum)
  /-- C.NGE.PS (R650) -/
  | cNgePs (ft fs : RegNum)
  /-- C.LE.PS (R651) -/
  | cLePs (ft fs : RegNum)
  /-- C.NGT.PS (R652) -/
  | cNgtPs (ft fs : RegNum)
  /-- MADD.S (R656) -/
  | maddS (ft fs fd : RegNum)
  /-- MADD.D (R657) -/
  | maddD (ft fs fd : RegNum)
  /-- MADD.PS (R658) -/
  | maddPs (ft fs fd : RegNum)
  /-- MSUB.S (R659) -/
  | msubS (ft fs fd : RegNum)
  /-- MSUB.D (R660) -/
  | msubD (ft fs fd : RegNum)
  /-- MSUB.PS (R661) -/
  | msubPs (ft fs fd : RegNum)
  /-- NMADD.S (R662) -/
  | nmaddS (ft fs fd : RegNum)
  /-- NMADD.D (R663) -/
  | nmaddD (ft fs fd : RegNum)
  /-- NMADD.PS (R664) -/
  | nmaddPs (ft fs fd : RegNum)
  /-- NMSUB.S (R665) -/
  | nmsubS (ft fs fd : RegNum)
  /-- NMSUB.D (R666) -/
  | nmsubD (ft fs fd : RegNum)
  /-- NMSUB.PS (R667) -/
  | nmsubPs (ft fs fd : RegNum)
  /-- PADDB (R680) -/
  | paddb (ft fs fd : RegNum)
  /-- PADDH (R681) -/
  | paddh (ft fs fd : RegNum)
  /-- PADDW (R682) -/
  | paddw (ft fs fd : RegNum)
  /-- PADDD (R683) -/
  | paddd (ft fs fd : RegNum)
  /-- PADDSB (R684) -/
  | paddsb (ft fs fd : RegNum)
  /-- PADDSH (R685) -/
  | paddsh (ft fs fd : RegNum)
  /-- PADDUSB (R686) -/
  | paddusb (ft fs fd : RegNum)
  /-- PADDUSH (R687) -/
  | paddush (ft fs fd : RegNum)
  /-- PSUBB (R688) -/
  | psubb (ft fs fd : RegNum)
  /-- PSUBH (R689) -/
  | psubh (ft fs fd : RegNum)
  /-- PSUBW (R690) -/
  | psubw (ft fs fd : RegNum)
  /-- PSUBD (R691) -/
  | psubd (ft fs fd : RegNum)
  /-- PSUBSB (R692) -/
  | psubsb (ft fs fd : RegNum)
  /-- PSUBSH (R693) -/
  | psubsh (ft fs fd : RegNum)
  /-- PSUBUSB (R694) -/
  | psubusb (ft fs fd : RegNum)
  /-- PSUBUSH (R695) -/
  | psubush (ft fs fd : RegNum)
  /-- PSHUFH (R696) -/
  | pshufh (ft fs fd : RegNum)
  /-- PACKSSWH (R697) -/
  | packsswh (ft fs fd : RegNum)
  /-- PACKSSHB (R698) -/
  | packsshb (ft fs fd : RegNum)
  /-- PACKUSHB (R699) -/
  | packushb (ft fs fd : RegNum)
  /-- PANDN (R700) -/
  | pandn (ft fs fd : RegNum)
  /-- PUNPCKLHW (R701) -/
  | punpcklhw (ft fs fd : RegNum)
  /-- PUNPCKHHW (R702) -/
  | punpckhhw (ft fs fd : RegNum)
  /-- PUNPCKLBH (R703) -/
  | punpcklbh (ft fs fd : RegNum)
  /-- PUNPCKHBH (R704) -/
  | punpckhbh (ft fs fd : RegNum)
  /-- PUNPCKLWD (R705) -/
  | punpcklwd (ft fs fd : RegNum)
  /-- PUNPCKHWD (R706) -/
  | punpckhwd (ft fs fd : RegNum)
  /-- PINSRH_0 (R707) -/
  | pinsrh0 (ft fs fd : RegNum)
  /-- PINSRH_1 (R708) -/
  | pinsrh1 (ft fs fd : RegNum)
  /-- PINSRH_2 (R709) -/
  | pinsrh2 (ft fs fd : RegNum)
  /-- PINSRH_3 (R710) -/
  | pinsrh3 (ft fs fd : RegNum)
  /-- PAVGH (R711) -/
  | pavgh (ft fs fd : RegNum)
  /-- PAVGB (R712) -/
  | pavgb (ft fs fd : RegNum)
  /-- PMAXSH (R713) -/
  | pmaxsh (ft fs fd : RegNum)
  /-- PMINSH (R714) -/
  | pminsh (ft fs fd : RegNum)
  /-- PMAXUB (R715) -/
  | pmaxub (ft fs fd : RegNum)
  /-- PMINUB (R716) -/
  | pminub (ft fs fd : RegNum)
  /-- PCMPEQW (R717) -/
  | pcmpeqw (ft fs fd : RegNum)
  /-- PCMPGTW (R718) -/
  | pcmpgtw (ft fs fd : RegNum)
  /-- PCMPEQH (R719) -/
  | pcmpeqh (ft fs fd : RegNum)
  /-- PCMPGTH (R720) -/
  | pcmpgth (ft fs fd : RegNum)
  /-- PCMPEQB (R721) -/
  | pcmpeqb (ft fs fd : RegNum)
  /-- PCMPGTB (R722) -/
  | pcmpgtb (ft fs fd : RegNum)
  /-- PSLLW (R724) -/
  | psllw (ft fs fd : RegNum)
  /-- PSLLH (R725) -/
  | psllh (ft fs fd : RegNum)
  /-- PMULLH (R726) -/
  | pmullh (ft fs fd : RegNum)
  /-- PMULHH (R727) -/
  | pmulhh (ft fs fd : RegNum)
  /-- PMULUW (R728) -/
  | pmuluw (ft fs fd : RegNum)
  /-- PMULHUH (R729) -/
  | pmulhuh (ft fs fd : RegNum)
  /-- PSRLW (R731) -/
  | psrlw (ft fs fd : RegNum)
  /-- PSRLH (R732) -/
  | psrlh (ft fs fd : RegNum)
  /-- PSRAW (R733) -/
  | psraw (ft fs fd : RegNum)
  /-- PSRAH (R734) -/
  | psrah (ft fs fd : RegNum)
  /-- PASUBUB (R735) -/
  | pasubub (ft fs fd : RegNum)
  /-- BIADD (R736) -/
  | biadd (fs fd : RegNum)
  /-- PEXTRH (R737) -/
  | pextrh (ft fs fd : RegNum)
  /-- PMADDHW (R738) -/
  | pmaddhw (ft fs fd : RegNum)
  /-- PMOVMSKB (R739) -/
  | pmovmskb (fs fd : RegNum)
  /-- Add (R756) -/
  | fxAdd (ft fs fd : RegNum)
  /-- Addu (R757) -/
  | fxAddu (ft fs fd : RegNum)
  /-- Dadd (R758) -/
  | fxDadd (ft fs fd : RegNum)
  /-- Sub (R759) -/
  | fxSub (ft fs fd : RegNum)
  /-- Subu (R760) -/
  | fxSubu (ft fs fd : RegNum)
  /-- Dsub (R761) -/
  | fxDsub (ft fs fd : RegNum)
  /-- Or (R762) -/
  | fxOr (ft fs fd : RegNum)
  /-- Xor (R763) -/
  | fxXor (ft fs fd : RegNum)
  /-- Nor (R764) -/
  | fxNor (ft fs fd : RegNum)
  /-- And (R765) -/
  | fxAnd (ft fs fd : RegNum)
  /-- Sll (R766) -/
  | fxSll (ft fs fd : RegNum)
  /-- Srl (R767) -/
  | fxSrl (ft fs fd : RegNum)
  /-- Sra (R768) -/
  | fxSra (ft fs fd : RegNum)
  /-- Dsll (R769) -/
  | fxDsll (ft fs fd : RegNum)
  /-- Dsrl (R770) -/
  | fxDsrl (ft fs fd : RegNum)
  /-- Dsra (R771) -/
  | fxDsra (ft fs fd : RegNum)
  /-- Sequ (R781) -/
  | fxSequ (ft fs : RegNum)
  /-- Seq (R782) -/
  | fxSeq (ft fs : RegNum)
  /-- Sltu (R783) -/
  | fxSltu (ft fs : RegNum)
  /-- Slt (R784) -/
  | fxSlt (ft fs : RegNum)
  /-- Sleu (R785) -/
  | fxSleu (ft fs : RegNum)
  /-- Sle (R786) -/
  | fxSle (ft fs : RegNum)
  deriving DecidableEq, Repr

end Sys2Proof
end

