-- ==== Sys2Proof/WellFormed.lean ====
section
/-! DEFINITION. Which instruction terms stand for an instruction word. Every operand field is as wide as its
field of the word, so only one check is left (30_encoding R201, R211, 45_cp0 R480). -/

namespace Sys2Proof

/-- The fifteen CACHE operations of Table 51 (45_cp0 R480); each has a constructor of its own. -/
def listedCacheOps : List (BitVec 5) := [0, 1, 5, 9, 17, 21, 25, 29, 3, 7, 11, 19, 23, 27, 31]

/-- An instruction is well formed when no other constructor stands for its word: the generic `cache` keeps only
the operations that Table 51 does not list. -/
def Instr.wellFormed : Instr → Bool
  | .cache _ cacheop _ => !listedCacheOps.contains cacheop
  | _ => true

end Sys2Proof
end

