-- ==== Sys2Proof/Decode.lean ====
section
/-! DEFINITION. The decoder (30_encoding R200 to R219), total, rejecting by name, and after it the encoder from
the same tables. Must-be-zero bits are not decoded and are encoded as zero (R216, log 42).

Lean compiles no constructor past the 244th that has fields, so the functions that build such an instruction are
marked noncomputable; the kernel evaluates them, and Machine/Run.lean gives the step its compiled form. -/

namespace Sys2Proof

/-- Why a word is no instruction, one reason for each exception the step then takes (30_encoding R215, R219). -/
inductive Reject where
  /-- A reserved major, SPECIAL, REGIMM or SPECIAL2 cell: Reserved Instruction. -/
  | reserved
  /-- A reserved COP0 selector: the privilege check, then Reserved Instruction. -/
  | reservedCop0
  /-- A reserved COP1 selector or format: the CU1 check, then Floating-Point with Cause.E. -/
  | reservedCop1
  /-- A reserved COP2 cell, or a multiply-add with a bad format: the CU1 check, then Reserved Instruction. -/
  | reservedCop2
  deriving DecidableEq, Repr

/-- The six fields of the R-type figure (30_encoding R201, R202); every other format regroups them. -/
structure Fields where
  op : BitVec 6
  rs : BitVec 5
  rt : BitVec 5
  rd : BitVec 5
  sa : BitVec 5
  funct : BitVec 6
  deriving DecidableEq, Repr

/-- The fields of an instruction word (30_encoding R202). -/
def fieldsOf (w : Word) : Fields where
  op := w.extractLsb' 26 6
  rs := w.extractLsb' 21 5
  rt := w.extractLsb' 16 5
  rd := w.extractLsb' 11 5
  sa := w.extractLsb' 6 5
  funct := w.extractLsb' 0 6

/-- The instruction word with the given fields. -/
def wordOf (f : Fields) : Word := f.op ++ f.rs ++ f.rt ++ f.rd ++ f.sa ++ f.funct

/-- `imm = I[15:0]`. -/
def Fields.imm (f : Fields) : Half := f.rd ++ f.sa ++ f.funct

/-- `target = I[25:0]`. -/
def Fields.target (f : Fields) : BitVec 26 := f.rs ++ f.rt ++ f.rd ++ f.sa ++ f.funct

/-- `code20 = I[25:6]`. -/
def Fields.code20 (f : Fields) : BitVec 20 := f.rs ++ f.rt ++ f.rd ++ f.sa

/-- `code10 = I[15:6]`. -/
def Fields.code10 (f : Fields) : BitVec 10 := f.rd ++ f.sa

/-- The SPECIAL map (30_encoding R204). -/
def decodeSpecial (f : Fields) : Except Reject Instr :=
  match f.funct with
  | 0b100000#6 => .ok (.add f.rs f.rt f.rd)
  | 0b100001#6 => .ok (.addu f.rs f.rt f.rd)
  | 0b100010#6 => .ok (.sub f.rs f.rt f.rd)
  | 0b100011#6 => .ok (.subu f.rs f.rt f.rd)
  | 0b101100#6 => .ok (.dadd f.rs f.rt f.rd)
  | 0b101101#6 => .ok (.daddu f.rs f.rt f.rd)
  | 0b101110#6 => .ok (.dsub f.rs f.rt f.rd)
  | 0b101111#6 => .ok (.dsubu f.rs f.rt f.rd)
  | 0b101010#6 => .ok (.slt f.rs f.rt f.rd)
  | 0b101011#6 => .ok (.sltu f.rs f.rt f.rd)
  | 0b100100#6 => .ok (.and f.rs f.rt f.rd)
  | 0b100101#6 => .ok (.or f.rs f.rt f.rd)
  | 0b100110#6 => .ok (.xor f.rs f.rt f.rd)
  | 0b100111#6 => .ok (.nor f.rs f.rt f.rd)
  | 0b001010#6 => .ok (.movz f.rs f.rt f.rd)
  | 0b001011#6 => .ok (.movn f.rs f.rt f.rd)
  | 0b000100#6 => .ok (.sllv f.rs f.rt f.rd)
  | 0b000110#6 => .ok (.srlv f.rs f.rt f.rd)
  | 0b000111#6 => .ok (.srav f.rs f.rt f.rd)
  | 0b010100#6 => .ok (.dsllv f.rs f.rt f.rd)
  | 0b010110#6 => .ok (.dsrlv f.rs f.rt f.rd)
  | 0b010111#6 => .ok (.dsrav f.rs f.rt f.rd)
  | 0b000000#6 => .ok (.sll f.rt f.rd f.sa)
  | 0b000010#6 => .ok (.srl f.rt f.rd f.sa)
  | 0b000011#6 => .ok (.sra f.rt f.rd f.sa)
  | 0b111000#6 => .ok (.dsll f.rt f.rd f.sa)
  | 0b111010#6 => .ok (.dsrl f.rt f.rd f.sa)
  | 0b111011#6 => .ok (.dsra f.rt f.rd f.sa)
  | 0b111100#6 => .ok (.dsll32 f.rt f.rd f.sa)
  | 0b111110#6 => .ok (.dsrl32 f.rt f.rd f.sa)
  | 0b111111#6 => .ok (.dsra32 f.rt f.rd f.sa)
  | 0b011000#6 => .ok (.mult f.rs f.rt)
  | 0b011001#6 => .ok (.multu f.rs f.rt)
  | 0b011100#6 => .ok (.dmult f.rs f.rt)
  | 0b011101#6 => .ok (.dmultu f.rs f.rt)
  | 0b011010#6 => .ok (.div f.rs f.rt)
  | 0b011011#6 => .ok (.divu f.rs f.rt)
  | 0b011110#6 => .ok (.ddiv f.rs f.rt)
  | 0b011111#6 => .ok (.ddivu f.rs f.rt)
  | 0b010000#6 => .ok (.mfhi f.rd)
  | 0b010010#6 => .ok (.mflo f.rd)
  | 0b010001#6 => .ok (.mthi f.rs)
  | 0b010011#6 => .ok (.mtlo f.rs)
  | 0b001000#6 => .ok (.jr f.rs)
  | 0b001001#6 => .ok (.jalr f.rs f.rd)
  | 0b001100#6 => .ok (.syscall f.code20)
  | 0b001101#6 => .ok (.brk f.code20)
  | 0b001111#6 => .ok .sync
  | 0b110000#6 => .ok (.tge f.rs f.rt f.code10)
  | 0b110001#6 => .ok (.tgeu f.rs f.rt f.code10)
  | 0b110010#6 => .ok (.tlt f.rs f.rt f.code10)
  | 0b110011#6 => .ok (.tltu f.rs f.rt f.code10)
  | 0b110100#6 => .ok (.teq f.rs f.rt f.code10)
  | 0b110110#6 => .ok (.tne f.rs f.rt f.code10)
  | _ => .error .reserved

/-- The REGIMM map (30_encoding R205). -/
def decodeRegimm (f : Fields) : Except Reject Instr :=
  match f.rt with
  | 0b00000#5 => .ok (.bltz f.rs f.imm)
  | 0b00001#5 => .ok (.bgez f.rs f.imm)
  | 0b10000#5 => .ok (.bltzal f.rs f.imm)
  | 0b10001#5 => .ok (.bgezal f.rs f.imm)
  | 0b00010#5 => .ok (.bltzl f.rs f.imm)
  | 0b00011#5 => .ok (.bgezl f.rs f.imm)
  | 0b10010#5 => .ok (.bltzall f.rs f.imm)
  | 0b10011#5 => .ok (.bgezall f.rs f.imm)
  | 0b01000#5 => .ok (.tgei f.rs f.imm)
  | 0b01001#5 => .ok (.tgeiu f.rs f.imm)
  | 0b01010#5 => .ok (.tlti f.rs f.imm)
  | 0b01011#5 => .ok (.tltiu f.rs f.imm)
  | 0b01100#5 => .ok (.teqi f.rs f.imm)
  | 0b01110#5 => .ok (.tnei f.rs f.imm)
  | _ => .error .reserved

/-- The COP0 move map (30_encoding R206). -/
def decodeCop0Move (f : Fields) : Except Reject Instr :=
  match f.rs with
  | 0b00000#5 => .ok (.mfc0 f.rt f.rd)
  | 0b00001#5 => .ok (.dmfc0 f.rt f.rd)
  | 0b00100#5 => .ok (.mtc0 f.rt f.rd)
  | 0b00101#5 => .ok (.dmtc0 f.rt f.rd)
  | _ => .error .reservedCop0

/-- The COP0 operation map, bit 25 set (30_encoding R206). -/
def decodeCop0Op (f : Fields) : Except Reject Instr :=
  match f.funct with
  | 0b000001#6 => .ok .tlbr
  | 0b000010#6 => .ok .tlbwi
  | 0b000110#6 => .ok .tlbwr
  | 0b001000#6 => .ok .tlbp
  | 0b011000#6 => .ok .eret
  | _ => .error .reservedCop0

/-- The BC group of COP1 (30_encoding R207). -/
def decodeBc1 (f : Fields) : Except Reject Instr :=
  match f.rt with
  | 0b00000#5 => .ok (.bc1f f.imm)
  | 0b00001#5 => .ok (.bc1t f.imm)
  | 0b00010#5 => .ok (.bc1fl f.imm)
  | 0b00011#5 => .ok (.bc1tl f.imm)
  | _ => .error .reservedCop1

/-- The COP1 functions of the single format (30_encoding R208, R209). -/
def decodeCop1S (f : Fields) : Except Reject Instr :=
  match f.funct with
  | 0b000000#6 => .ok (.addS f.rt f.rd f.sa)
  | 0b000001#6 => .ok (.subS f.rt f.rd f.sa)
  | 0b000010#6 => .ok (.mulS f.rt f.rd f.sa)
  | 0b000011#6 => .ok (.divS f.rt f.rd f.sa)
  | 0b000100#6 => .ok (.sqrtS f.rd f.sa)
  | 0b000101#6 => .ok (.absS f.rd f.sa)
  | 0b000110#6 => .ok (.movS f.rd f.sa)
  | 0b000111#6 => .ok (.negS f.rd f.sa)
  | 0b001000#6 => .ok (.roundLS f.rd f.sa)
  | 0b001001#6 => .ok (.truncLS f.rd f.sa)
  | 0b001010#6 => .ok (.ceilLS f.rd f.sa)
  | 0b001011#6 => .ok (.floorLS f.rd f.sa)
  | 0b001100#6 => .ok (.roundWS f.rd f.sa)
  | 0b001101#6 => .ok (.truncWS f.rd f.sa)
  | 0b001110#6 => .ok (.ceilWS f.rd f.sa)
  | 0b001111#6 => .ok (.floorWS f.rd f.sa)
  | 0b100100#6 => .ok (.cvtWS f.rd f.sa)
  | 0b100101#6 => .ok (.cvtLS f.rd f.sa)
  | 0b100001#6 => .ok (.cvtDS f.rd f.sa)
  | 0b110000#6 => .ok (.cFS f.rt f.rd)
  | 0b110001#6 => .ok (.cUnS f.rt f.rd)
  | 0b110010#6 => .ok (.cEqS f.rt f.rd)
  | 0b110011#6 => .ok (.cUeqS f.rt f.rd)
  | 0b110100#6 => .ok (.cOltS f.rt f.rd)
  | 0b110101#6 => .ok (.cUltS f.rt f.rd)
  | 0b110110#6 => .ok (.cOleS f.rt f.rd)
  | 0b110111#6 => .ok (.cUleS f.rt f.rd)
  | 0b111000#6 => .ok (.cSfS f.rt f.rd)
  | 0b111001#6 => .ok (.cNgleS f.rt f.rd)
  | 0b111010#6 => .ok (.cSeqS f.rt f.rd)
  | 0b111011#6 => .ok (.cNglS f.rt f.rd)
  | 0b111100#6 => .ok (.cLtS f.rt f.rd)
  | 0b111101#6 => .ok (.cNgeS f.rt f.rd)
  | 0b111110#6 => .ok (.cLeS f.rt f.rd)
  | 0b111111#6 => .ok (.cNgtS f.rt f.rd)
  | _ => .error .reservedCop1

/-- The COP1 functions of the double format (30_encoding R208, R209). -/
def decodeCop1D (f : Fields) : Except Reject Instr :=
  match f.funct with
  | 0b000000#6 => .ok (.addD f.rt f.rd f.sa)
  | 0b000001#6 => .ok (.subD f.rt f.rd f.sa)
  | 0b000010#6 => .ok (.mulD f.rt f.rd f.sa)
  | 0b000011#6 => .ok (.divD f.rt f.rd f.sa)
  | 0b000100#6 => .ok (.sqrtD f.rd f.sa)
  | 0b000101#6 => .ok (.absD f.rd f.sa)
  | 0b000110#6 => .ok (.movD f.rd f.sa)
  | 0b000111#6 => .ok (.negD f.rd f.sa)
  | 0b001000#6 => .ok (.roundLD f.rd f.sa)
  | 0b001001#6 => .ok (.truncLD f.rd f.sa)
  | 0b001010#6 => .ok (.ceilLD f.rd f.sa)
  | 0b001011#6 => .ok (.floorLD f.rd f.sa)
  | 0b001100#6 => .ok (.roundWD f.rd f.sa)
  | 0b001101#6 => .ok (.truncWD f.rd f.sa)
  | 0b001110#6 => .ok (.ceilWD f.rd f.sa)
  | 0b001111#6 => .ok (.floorWD f.rd f.sa)
  | 0b100100#6 => .ok (.cvtWD f.rd f.sa)
  | 0b100101#6 => .ok (.cvtLD f.rd f.sa)
  | 0b100000#6 => .ok (.cvtSD f.rd f.sa)
  | 0b110000#6 => .ok (.cFD f.rt f.rd)
  | 0b110001#6 => .ok (.cUnD f.rt f.rd)
  | 0b110010#6 => .ok (.cEqD f.rt f.rd)
  | 0b110011#6 => .ok (.cUeqD f.rt f.rd)
  | 0b110100#6 => .ok (.cOltD f.rt f.rd)
  | 0b110101#6 => .ok (.cUltD f.rt f.rd)
  | 0b110110#6 => .ok (.cOleD f.rt f.rd)
  | 0b110111#6 => .ok (.cUleD f.rt f.rd)
  | 0b111000#6 => .ok (.cSfD f.rt f.rd)
  | 0b111001#6 => .ok (.cNgleD f.rt f.rd)
  | 0b111010#6 => .ok (.cSeqD f.rt f.rd)
  | 0b111011#6 => .ok (.cNglD f.rt f.rd)
  | 0b111100#6 => .ok (.cLtD f.rt f.rd)
  | 0b111101#6 => .ok (.cNgeD f.rt f.rd)
  | 0b111110#6 => .ok (.cLeD f.rt f.rd)
  | 0b111111#6 => .ok (.cNgtD f.rt f.rd)
  | _ => .error .reservedCop1

/-- The COP1 functions of the 32-bit fixed point format (30_encoding R208, R209). -/
def decodeCop1W (f : Fields) : Except Reject Instr :=
  match f.funct with
  | 0b100000#6 => .ok (.cvtSW f.rd f.sa)
  | 0b100001#6 => .ok (.cvtDW f.rd f.sa)
  | _ => .error .reservedCop1

/-- The COP1 functions of the 64-bit fixed point format (30_encoding R208, R209). -/
def decodeCop1L (f : Fields) : Except Reject Instr :=
  match f.funct with
  | 0b100000#6 => .ok (.cvtSL f.rd f.sa)
  | 0b100001#6 => .ok (.cvtDL f.rd f.sa)
  | _ => .error .reservedCop1

/-- The COP1 functions of the paired single format (30_encoding R208, R209). -/
noncomputable def decodeCop1Ps (f : Fields) : Except Reject Instr :=
  match f.funct with
  | 0b000000#6 => .ok (.addPs f.rt f.rd f.sa)
  | 0b000001#6 => .ok (.subPs f.rt f.rd f.sa)
  | 0b000010#6 => .ok (.mulPs f.rt f.rd f.sa)
  | 0b000101#6 => .ok (.absPs f.rd f.sa)
  | 0b000110#6 => .ok (.movPs f.rd f.sa)
  | 0b000111#6 => .ok (.negPs f.rd f.sa)
  | 0b110000#6 => .ok (.cFPs f.rt f.rd)
  | 0b110001#6 => .ok (.cUnPs f.rt f.rd)
  | 0b110010#6 => .ok (.cEqPs f.rt f.rd)
  | 0b110011#6 => .ok (.cUeqPs f.rt f.rd)
  | 0b110100#6 => .ok (.cOltPs f.rt f.rd)
  | 0b110101#6 => .ok (.cUltPs f.rt f.rd)
  | 0b110110#6 => .ok (.cOlePs f.rt f.rd)
  | 0b110111#6 => .ok (.cUlePs f.rt f.rd)
  | 0b111000#6 => .ok (.cSfPs f.rt f.rd)
  | 0b111001#6 => .ok (.cNglePs f.rt f.rd)
  | 0b111010#6 => .ok (.cSeqPs f.rt f.rd)
  | 0b111011#6 => .ok (.cNglPs f.rt f.rd)
  | 0b111100#6 => .ok (.cLtPs f.rt f.rd)
  | 0b111101#6 => .ok (.cNgePs f.rt f.rd)
  | 0b111110#6 => .ok (.cLePs f.rt f.rd)
  | 0b111111#6 => .ok (.cNgtPs f.rt f.rd)
  | _ => .error .reservedCop1

/-- The COP1 map (30_encoding R207). -/
noncomputable def decodeCop1 (f : Fields) : Except Reject Instr :=
  match f.rs with
  | 0b00000#5 => .ok (.mfc1 f.rt f.rd)
  | 0b00001#5 => .ok (.dmfc1 f.rt f.rd)
  | 0b00010#5 => .ok (.cfc1 f.rt f.rd)
  | 0b00100#5 => .ok (.mtc1 f.rt f.rd)
  | 0b00101#5 => .ok (.dmtc1 f.rt f.rd)
  | 0b00110#5 => .ok (.ctc1 f.rt f.rd)
  | 0b01000#5 => decodeBc1 f
  | 0b10000#5 => decodeCop1S f
  | 0b10001#5 => decodeCop1D f
  | 0b10100#5 => decodeCop1W f
  | 0b10101#5 => decodeCop1L f
  | 0b10110#5 => decodeCop1Ps f
  | _ => .error .reservedCop1

/-- The COP2 functions of format 24 (30_encoding R213). -/
noncomputable def decodeCop2Fmt24 (f : Fields) : Except Reject Instr :=
  match f.funct with
  | 0b000000#6 => .ok (.paddsh f.rt f.rd f.sa)
  | 0b000001#6 => .ok (.psubsh f.rt f.rd f.sa)
  | 0b000010#6 => .ok (.pshufh f.rt f.rd f.sa)
  | 0b000011#6 => .ok (.punpcklhw f.rt f.rd f.sa)
  | 0b001000#6 => .ok (.pavgh f.rt f.rd f.sa)
  | 0b001001#6 => .ok (.pcmpeqw f.rt f.rd f.sa)
  | 0b001010#6 => .ok (.psllw f.rt f.rd f.sa)
  | 0b001011#6 => .ok (.psrlw f.rt f.rd f.sa)
  | 0b001100#6 => .ok (.fxAddu f.rt f.rd f.sa)
  | 0b001101#6 => .ok (.fxSubu f.rt f.rd f.sa)
  | 0b001110#6 => .ok (.fxSll f.rt f.rd f.sa)
  | 0b001111#6 => .ok (.fxSrl f.rt f.rd f.sa)
  | _ => .error .reservedCop2

/-- The COP2 functions of format 25 (30_encoding R213). -/
noncomputable def decodeCop2Fmt25 (f : Fields) : Except Reject Instr :=
  match f.funct with
  | 0b000000#6 => .ok (.paddush f.rt f.rd f.sa)
  | 0b000001#6 => .ok (.psubush f.rt f.rd f.sa)
  | 0b000010#6 => .ok (.packsswh f.rt f.rd f.sa)
  | 0b000011#6 => .ok (.punpckhhw f.rt f.rd f.sa)
  | 0b001000#6 => .ok (.pavgb f.rt f.rd f.sa)
  | 0b001001#6 => .ok (.pcmpgtw f.rt f.rd f.sa)
  | 0b001010#6 => .ok (.psllh f.rt f.rd f.sa)
  | 0b001011#6 => .ok (.psrlh f.rt f.rd f.sa)
  | 0b001101#6 => .ok (.pasubub f.rt f.rd f.sa)
  | 0b001100#6 => .ok (.fxOr f.rt f.rd f.sa)
  | 0b001110#6 => .ok (.fxDsll f.rt f.rd f.sa)
  | 0b001111#6 => .ok (.fxDsrl f.rt f.rd f.sa)
  | _ => .error .reservedCop2

/-- The COP2 functions of format 26 (30_encoding R213). -/
noncomputable def decodeCop2Fmt26 (f : Fields) : Except Reject Instr :=
  match f.funct with
  | 0b000000#6 => .ok (.paddh f.rt f.rd f.sa)
  | 0b000001#6 => .ok (.psubh f.rt f.rd f.sa)
  | 0b000010#6 => .ok (.packsshb f.rt f.rd f.sa)
  | 0b000011#6 => .ok (.punpcklbh f.rt f.rd f.sa)
  | 0b001000#6 => .ok (.pmaxsh f.rt f.rd f.sa)
  | 0b001001#6 => .ok (.pcmpeqh f.rt f.rd f.sa)
  | 0b001010#6 => .ok (.pmullh f.rt f.rd f.sa)
  | 0b001011#6 => .ok (.psraw f.rt f.rd f.sa)
  | 0b001110#6 => .ok (.pextrh f.rt f.rd f.sa)
  | 0b001100#6 => .ok (.fxAdd f.rt f.rd f.sa)
  | 0b001101#6 => .ok (.fxSub f.rt f.rd f.sa)
  | 0b001111#6 => .ok (.fxSra f.rt f.rd f.sa)
  | _ => .error .reservedCop2

/-- The COP2 functions of format 27 (30_encoding R213). -/
noncomputable def decodeCop2Fmt27 (f : Fields) : Except Reject Instr :=
  match f.funct with
  | 0b000000#6 => .ok (.paddw f.rt f.rd f.sa)
  | 0b000001#6 => .ok (.psubw f.rt f.rd f.sa)
  | 0b000010#6 => .ok (.packushb f.rt f.rd f.sa)
  | 0b000011#6 => .ok (.punpckhbh f.rt f.rd f.sa)
  | 0b001000#6 => .ok (.pminsh f.rt f.rd f.sa)
  | 0b001001#6 => .ok (.pcmpgth f.rt f.rd f.sa)
  | 0b001010#6 => .ok (.pmulhh f.rt f.rd f.sa)
  | 0b001011#6 => .ok (.psrah f.rt f.rd f.sa)
  | 0b001110#6 => .ok (.pmaddhw f.rt f.rd f.sa)
  | 0b001100#6 => .ok (.fxDadd f.rt f.rd f.sa)
  | 0b001101#6 => .ok (.fxDsub f.rt f.rd f.sa)
  | 0b001111#6 => .ok (.fxDsra f.rt f.rd f.sa)
  | _ => .error .reservedCop2

/-- The COP2 functions of format 28 (30_encoding R213). -/
noncomputable def decodeCop2Fmt28 (f : Fields) : Except Reject Instr :=
  match f.funct with
  | 0b000000#6 => .ok (.paddsb f.rt f.rd f.sa)
  | 0b000001#6 => .ok (.psubsb f.rt f.rd f.sa)
  | 0b001011#6 => .ok (.punpcklwd f.rt f.rd f.sa)
  | 0b000011#6 => .ok (.pinsrh0 f.rt f.rd f.sa)
  | 0b001000#6 => .ok (.pmaxub f.rt f.rd f.sa)
  | 0b001001#6 => .ok (.pcmpeqb f.rt f.rd f.sa)
  | 0b001010#6 => .ok (.pmuluw f.rt f.rd f.sa)
  | 0b001111#6 => .ok (.biadd f.rd f.sa)
  | 0b000010#6 => .ok (.fxXor f.rt f.rd f.sa)
  | 0b001100#6 => .ok (.fxSequ f.rt f.rd)
  | 0b001101#6 => .ok (.fxSltu f.rt f.rd)
  | 0b001110#6 => .ok (.fxSleu f.rt f.rd)
  | _ => .error .reservedCop2

/-- The COP2 functions of format 29 (30_encoding R213). -/
noncomputable def decodeCop2Fmt29 (f : Fields) : Except Reject Instr :=
  match f.funct with
  | 0b000000#6 => .ok (.paddusb f.rt f.rd f.sa)
  | 0b000001#6 => .ok (.psubusb f.rt f.rd f.sa)
  | 0b001011#6 => .ok (.punpckhwd f.rt f.rd f.sa)
  | 0b000011#6 => .ok (.pinsrh1 f.rt f.rd f.sa)
  | 0b001000#6 => .ok (.pminub f.rt f.rd f.sa)
  | 0b001001#6 => .ok (.pcmpgtb f.rt f.rd f.sa)
  | 0b001010#6 => .ok (.pmulhuh f.rt f.rd f.sa)
  | 0b001111#6 => .ok (.pmovmskb f.rd f.sa)
  | 0b000010#6 => .ok (.fxNor f.rt f.rd f.sa)
  | 0b001100#6 => .ok (.fxSeq f.rt f.rd)
  | 0b001101#6 => .ok (.fxSlt f.rt f.rd)
  | 0b001110#6 => .ok (.fxSle f.rt f.rd)
  | _ => .error .reservedCop2

/-- The COP2 functions of format 30 (30_encoding R213). -/
noncomputable def decodeCop2Fmt30 (f : Fields) : Except Reject Instr :=
  match f.funct with
  | 0b000000#6 => .ok (.paddb f.rt f.rd f.sa)
  | 0b000001#6 => .ok (.psubb f.rt f.rd f.sa)
  | 0b000011#6 => .ok (.pinsrh2 f.rt f.rd f.sa)
  | 0b000010#6 => .ok (.fxAnd f.rt f.rd f.sa)
  | _ => .error .reservedCop2

/-- The COP2 functions of format 31 (30_encoding R213). -/
noncomputable def decodeCop2Fmt31 (f : Fields) : Except Reject Instr :=
  match f.funct with
  | 0b000000#6 => .ok (.paddd f.rt f.rd f.sa)
  | 0b000001#6 => .ok (.psubd f.rt f.rd f.sa)
  | 0b000010#6 => .ok (.pandn f.rt f.rd f.sa)
  | 0b000011#6 => .ok (.pinsrh3 f.rt f.rd f.sa)
  | _ => .error .reservedCop2

/-- The COP2 map: the format, then the function (30_encoding R213). -/
noncomputable def decodeCop2 (f : Fields) : Except Reject Instr :=
  match f.rs with
  | 0b11000#5 => decodeCop2Fmt24 f
  | 0b11001#5 => decodeCop2Fmt25 f
  | 0b11010#5 => decodeCop2Fmt26 f
  | 0b11011#5 => decodeCop2Fmt27 f
  | 0b11100#5 => decodeCop2Fmt28 f
  | 0b11101#5 => decodeCop2Fmt29 f
  | 0b11110#5 => decodeCop2Fmt30 f
  | 0b11111#5 => decodeCop2Fmt31 f
  | _ => .error .reservedCop2

/-- MADD by format (30_encoding R214). -/
noncomputable def decodeMadd (f : Fields) : Except Reject Instr :=
  match f.rs with
  | 0b10000#5 => .ok (.maddS f.rt f.rd f.sa)
  | 0b10001#5 => .ok (.maddD f.rt f.rd f.sa)
  | 0b10110#5 => .ok (.maddPs f.rt f.rd f.sa)
  | _ => .error .reservedCop2

/-- MSUB by format (30_encoding R214). -/
noncomputable def decodeMsub (f : Fields) : Except Reject Instr :=
  match f.rs with
  | 0b10000#5 => .ok (.msubS f.rt f.rd f.sa)
  | 0b10001#5 => .ok (.msubD f.rt f.rd f.sa)
  | 0b10110#5 => .ok (.msubPs f.rt f.rd f.sa)
  | _ => .error .reservedCop2

/-- NMADD by format (30_encoding R214). -/
noncomputable def decodeNmadd (f : Fields) : Except Reject Instr :=
  match f.rs with
  | 0b10000#5 => .ok (.nmaddS f.rt f.rd f.sa)
  | 0b10001#5 => .ok (.nmaddD f.rt f.rd f.sa)
  | 0b10110#5 => .ok (.nmaddPs f.rt f.rd f.sa)
  | _ => .error .reservedCop2

/-- NMSUB by format (30_encoding R214). -/
noncomputable def decodeNmsub (f : Fields) : Except Reject Instr :=
  match f.rs with
  | 0b10000#5 => .ok (.nmsubS f.rt f.rd f.sa)
  | 0b10001#5 => .ok (.nmsubD f.rt f.rd f.sa)
  | 0b10110#5 => .ok (.nmsubPs f.rt f.rd f.sa)
  | _ => .error .reservedCop2

/-- The SPECIAL2 map (30_encoding R214). -/
noncomputable def decodeSpecial2 (f : Fields) : Except Reject Instr :=
  match f.funct with
  | 0b010000#6 => .ok (.multG f.rs f.rt f.rd)
  | 0b010001#6 => .ok (.dmultG f.rs f.rt f.rd)
  | 0b010010#6 => .ok (.multuG f.rs f.rt f.rd)
  | 0b010011#6 => .ok (.dmultuG f.rs f.rt f.rd)
  | 0b010100#6 => .ok (.divG f.rs f.rt f.rd)
  | 0b010101#6 => .ok (.ddivG f.rs f.rt f.rd)
  | 0b010110#6 => .ok (.divuG f.rs f.rt f.rd)
  | 0b010111#6 => .ok (.ddivuG f.rs f.rt f.rd)
  | 0b011000#6 => decodeMadd f
  | 0b011001#6 => decodeMsub f
  | 0b011010#6 => decodeNmadd f
  | 0b011011#6 => decodeNmsub f
  | 0b011100#6 => .ok (.modG f.rs f.rt f.rd)
  | 0b011101#6 => .ok (.dmodG f.rs f.rt f.rd)
  | 0b011110#6 => .ok (.moduG f.rs f.rt f.rd)
  | 0b011111#6 => .ok (.dmoduG f.rs f.rt f.rd)
  | _ => .error .reserved

/-- The CACHE operations: the fifteen of Table 51 by name, any other kept whole (45_cp0 R480). -/
def decodeCache (f : Fields) : Except Reject Instr :=
  match f.rt with
  | 0b00000#5 => .ok (.cache0 f.rs f.imm)
  | 0b00001#5 => .ok (.cache1 f.rs f.imm)
  | 0b00101#5 => .ok (.cache5 f.rs f.imm)
  | 0b01001#5 => .ok (.cache9 f.rs f.imm)
  | 0b10001#5 => .ok (.cache17 f.rs f.imm)
  | 0b10101#5 => .ok (.cache21 f.rs f.imm)
  | 0b11001#5 => .ok (.cache25 f.rs f.imm)
  | 0b11101#5 => .ok (.cache29 f.rs f.imm)
  | 0b00011#5 => .ok (.cache3 f.rs f.imm)
  | 0b00111#5 => .ok (.cache7 f.rs f.imm)
  | 0b01011#5 => .ok (.cache11 f.rs f.imm)
  | 0b10011#5 => .ok (.cache19 f.rs f.imm)
  | 0b10111#5 => .ok (.cache23 f.rs f.imm)
  | 0b11011#5 => .ok (.cache27 f.rs f.imm)
  | 0b11111#5 => .ok (.cache31 f.rs f.imm)
  | _ => .ok (.cache f.rs f.rt f.imm)

/-- Decoding by the major opcode (30_encoding R203, R219). -/
noncomputable def decodeFields (f : Fields) : Except Reject Instr :=
  match f.op with
  | 0b000000#6 => decodeSpecial f
  | 0b000001#6 => decodeRegimm f
  | 0b000010#6 => .ok (.j f.target)
  | 0b000011#6 => .ok (.jal f.target)
  | 0b000100#6 => .ok (.beq f.rs f.rt f.imm)
  | 0b000101#6 => .ok (.bne f.rs f.rt f.imm)
  | 0b000110#6 => .ok (.blez f.rs f.imm)
  | 0b000111#6 => .ok (.bgtz f.rs f.imm)
  | 0b001000#6 => .ok (.addi f.rs f.rt f.imm)
  | 0b001001#6 => .ok (.addiu f.rs f.rt f.imm)
  | 0b001010#6 => .ok (.slti f.rs f.rt f.imm)
  | 0b001011#6 => .ok (.sltiu f.rs f.rt f.imm)
  | 0b001100#6 => .ok (.andi f.rs f.rt f.imm)
  | 0b001101#6 => .ok (.ori f.rs f.rt f.imm)
  | 0b001110#6 => .ok (.xori f.rs f.rt f.imm)
  | 0b001111#6 => .ok (.lui f.rt f.imm)
  | 0b010000#6 => if f.rs[4] then decodeCop0Op f else decodeCop0Move f
  | 0b010001#6 => decodeCop1 f
  | 0b010010#6 => decodeCop2 f
  | 0b010100#6 => .ok (.beql f.rs f.rt f.imm)
  | 0b010101#6 => .ok (.bnel f.rs f.rt f.imm)
  | 0b010110#6 => .ok (.blezl f.rs f.imm)
  | 0b010111#6 => .ok (.bgtzl f.rs f.imm)
  | 0b011000#6 => .ok (.daddi f.rs f.rt f.imm)
  | 0b011001#6 => .ok (.daddiu f.rs f.rt f.imm)
  | 0b011010#6 => .ok (.ldl f.rs f.rt f.imm)
  | 0b011011#6 => .ok (.ldr f.rs f.rt f.imm)
  | 0b011100#6 => decodeSpecial2 f
  | 0b100000#6 => .ok (.lb f.rs f.rt f.imm)
  | 0b100001#6 => .ok (.lh f.rs f.rt f.imm)
  | 0b100010#6 => .ok (.lwl f.rs f.rt f.imm)
  | 0b100011#6 => .ok (.lw f.rs f.rt f.imm)
  | 0b100100#6 => .ok (.lbu f.rs f.rt f.imm)
  | 0b100101#6 => .ok (.lhu f.rs f.rt f.imm)
  | 0b100110#6 => .ok (.lwr f.rs f.rt f.imm)
  | 0b100111#6 => .ok (.lwu f.rs f.rt f.imm)
  | 0b101000#6 => .ok (.sb f.rs f.rt f.imm)
  | 0b101001#6 => .ok (.sh f.rs f.rt f.imm)
  | 0b101010#6 => .ok (.swl f.rs f.rt f.imm)
  | 0b101011#6 => .ok (.sw f.rs f.rt f.imm)
  | 0b101100#6 => .ok (.sdl f.rs f.rt f.imm)
  | 0b101101#6 => .ok (.sdr f.rs f.rt f.imm)
  | 0b101110#6 => .ok (.swr f.rs f.rt f.imm)
  | 0b101111#6 => decodeCache f
  | 0b110000#6 => .ok (.ll f.rs f.rt f.imm)
  | 0b110001#6 => .ok (.lwc1 f.rs f.rt f.imm)
  | 0b110100#6 => .ok (.lld f.rs f.rt f.imm)
  | 0b110101#6 => .ok (.ldc1 f.rs f.rt f.imm)
  | 0b110111#6 => .ok (.ld f.rs f.rt f.imm)
  | 0b111000#6 => .ok (.sc f.rs f.rt f.imm)
  | 0b111001#6 => .ok (.swc1 f.rs f.rt f.imm)
  | 0b111100#6 => .ok (.scd f.rs f.rt f.imm)
  | 0b111101#6 => .ok (.sdc1 f.rs f.rt f.imm)
  | 0b111111#6 => .ok (.sd f.rs f.rt f.imm)
  | _ => .error .reserved

/-- The decoder: a function of the instruction word alone (30_encoding R219). -/
noncomputable def decode (w : Word) : Except Reject Instr := decodeFields (fieldsOf w)

/-- The little-endian word of four bytes, the byte at the lowest address first (30_encoding R200,
20_memory R121). -/
def wordOfBytes (b0 b1 b2 b3 : Byte) : Word := b3 ++ b2 ++ b1 ++ b0

/-- Byte `i` (0 to 3) of a word, as memory stores it (20_memory R120). -/
def wordByte (w : Word) (i : Nat) : Byte := w.extractLsb' (8 * i) 8

/-- The instruction the decoder reads from a table word: its four bytes in memory order, given to `decode`. -/
noncomputable def decodeTableWord (nbits w : Nat) : Option Instr :=
  let v : Word := BitVec.ofNat 32 (w % 2 ^ nbits)
  (decode (wordOfBytes (wordByte v 0) (wordByte v 1) (wordByte v 2) (wordByte v 3))).toOption

/-! ### The encoder -/

/-- An I-type word's fields: opcode, two register fields and the 16-bit immediate. -/
def iType (op : BitVec 6) (rs rt : BitVec 5) (imm : Half) : Fields :=
  { op, rs, rt, rd := imm.extractLsb' 11 5, sa := imm.extractLsb' 6 5, funct := imm.extractLsb' 0 6 }

/-- A J-type word's fields: opcode and the 26-bit target. -/
def jType (op : BitVec 6) (t : BitVec 26) : Fields :=
  { op, rs := t.extractLsb' 21 5, rt := t.extractLsb' 16 5, rd := t.extractLsb' 11 5,
    sa := t.extractLsb' 6 5, funct := t.extractLsb' 0 6 }

/-- The fields of SYSCALL and BREAK: a 20-bit code and a function. -/
def code20Type (c : BitVec 20) (funct : BitVec 6) : Fields :=
  { op := 0, rs := c.extractLsb' 15 5, rt := c.extractLsb' 10 5, rd := c.extractLsb' 5 5,
    sa := c.extractLsb' 0 5, funct }

/-- The fields of the register traps: two registers, a 10-bit code and a function. -/
def code10Type (rs rt : BitVec 5) (c : BitVec 10) (funct : BitVec 6) : Fields :=
  { op := 0, rs, rt, rd := c.extractLsb' 5 5, sa := c.extractLsb' 0 5, funct }

/-- The fields of an instruction, from the same tables as the decoder (30_encoding R203 to R214). -/
def fieldsOfInstr : Instr → Fields
  | .lb base rt offset => iType 0b100000#6 base rt offset
  | .lbu base rt offset => iType 0b100100#6 base rt offset
  | .lh base rt offset => iType 0b100001#6 base rt offset
  | .lhu base rt offset => iType 0b100101#6 base rt offset
  | .lw base rt offset => iType 0b100011#6 base rt offset
  | .lwu base rt offset => iType 0b100111#6 base rt offset
  | .ld base rt offset => iType 0b110111#6 base rt offset
  | .lwl base rt offset => iType 0b100010#6 base rt offset
  | .lwr base rt offset => iType 0b100110#6 base rt offset
  | .ldl base rt offset => iType 0b011010#6 base rt offset
  | .ldr base rt offset => iType 0b011011#6 base rt offset
  | .sb base rt offset => iType 0b101000#6 base rt offset
  | .sh base rt offset => iType 0b101001#6 base rt offset
  | .sw base rt offset => iType 0b101011#6 base rt offset
  | .sd base rt offset => iType 0b111111#6 base rt offset
  | .swl base rt offset => iType 0b101010#6 base rt offset
  | .swr base rt offset => iType 0b101110#6 base rt offset
  | .sdl base rt offset => iType 0b101100#6 base rt offset
  | .sdr base rt offset => iType 0b101101#6 base rt offset
  | .ll base rt offset => iType 0b110000#6 base rt offset
  | .lld base rt offset => iType 0b110100#6 base rt offset
  | .sc base rt offset => iType 0b111000#6 base rt offset
  | .scd base rt offset => iType 0b111100#6 base rt offset
  | .lwc1 base ft offset => iType 0b110001#6 base ft offset
  | .ldc1 base ft offset => iType 0b110101#6 base ft offset
  | .swc1 base ft offset => iType 0b111001#6 base ft offset
  | .sdc1 base ft offset => iType 0b111101#6 base ft offset
  | .addi rs rt imm => iType 0b001000#6 rs rt imm
  | .addiu rs rt imm => iType 0b001001#6 rs rt imm
  | .daddi rs rt imm => iType 0b011000#6 rs rt imm
  | .daddiu rs rt imm => iType 0b011001#6 rs rt imm
  | .slti rs rt imm => iType 0b001010#6 rs rt imm
  | .sltiu rs rt imm => iType 0b001011#6 rs rt imm
  | .andi rs rt imm => iType 0b001100#6 rs rt imm
  | .ori rs rt imm => iType 0b001101#6 rs rt imm
  | .xori rs rt imm => iType 0b001110#6 rs rt imm
  | .lui rt imm => iType 0b001111#6 0 rt imm
  | .add rs rt rd => ⟨0b000000#6, rs, rt, rd, 0, 0b100000#6⟩
  | .addu rs rt rd => ⟨0b000000#6, rs, rt, rd, 0, 0b100001#6⟩
  | .sub rs rt rd => ⟨0b000000#6, rs, rt, rd, 0, 0b100010#6⟩
  | .subu rs rt rd => ⟨0b000000#6, rs, rt, rd, 0, 0b100011#6⟩
  | .dadd rs rt rd => ⟨0b000000#6, rs, rt, rd, 0, 0b101100#6⟩
  | .daddu rs rt rd => ⟨0b000000#6, rs, rt, rd, 0, 0b101101#6⟩
  | .dsub rs rt rd => ⟨0b000000#6, rs, rt, rd, 0, 0b101110#6⟩
  | .dsubu rs rt rd => ⟨0b000000#6, rs, rt, rd, 0, 0b101111#6⟩
  | .slt rs rt rd => ⟨0b000000#6, rs, rt, rd, 0, 0b101010#6⟩
  | .sltu rs rt rd => ⟨0b000000#6, rs, rt, rd, 0, 0b101011#6⟩
  | .and rs rt rd => ⟨0b000000#6, rs, rt, rd, 0, 0b100100#6⟩
  | .or rs rt rd => ⟨0b000000#6, rs, rt, rd, 0, 0b100101#6⟩
  | .xor rs rt rd => ⟨0b000000#6, rs, rt, rd, 0, 0b100110#6⟩
  | .nor rs rt rd => ⟨0b000000#6, rs, rt, rd, 0, 0b100111#6⟩
  | .movz rs rt rd => ⟨0b000000#6, rs, rt, rd, 0, 0b001010#6⟩
  | .movn rs rt rd => ⟨0b000000#6, rs, rt, rd, 0, 0b001011#6⟩
  | .sllv rs rt rd => ⟨0b000000#6, rs, rt, rd, 0, 0b000100#6⟩
  | .srlv rs rt rd => ⟨0b000000#6, rs, rt, rd, 0, 0b000110#6⟩
  | .srav rs rt rd => ⟨0b000000#6, rs, rt, rd, 0, 0b000111#6⟩
  | .dsllv rs rt rd => ⟨0b000000#6, rs, rt, rd, 0, 0b010100#6⟩
  | .dsrlv rs rt rd => ⟨0b000000#6, rs, rt, rd, 0, 0b010110#6⟩
  | .dsrav rs rt rd => ⟨0b000000#6, rs, rt, rd, 0, 0b010111#6⟩
  | .sll rt rd sa => ⟨0b000000#6, 0, rt, rd, sa, 0b000000#6⟩
  | .srl rt rd sa => ⟨0b000000#6, 0, rt, rd, sa, 0b000010#6⟩
  | .sra rt rd sa => ⟨0b000000#6, 0, rt, rd, sa, 0b000011#6⟩
  | .dsll rt rd sa => ⟨0b000000#6, 0, rt, rd, sa, 0b111000#6⟩
  | .dsrl rt rd sa => ⟨0b000000#6, 0, rt, rd, sa, 0b111010#6⟩
  | .dsra rt rd sa => ⟨0b000000#6, 0, rt, rd, sa, 0b111011#6⟩
  | .dsll32 rt rd sa => ⟨0b000000#6, 0, rt, rd, sa, 0b111100#6⟩
  | .dsrl32 rt rd sa => ⟨0b000000#6, 0, rt, rd, sa, 0b111110#6⟩
  | .dsra32 rt rd sa => ⟨0b000000#6, 0, rt, rd, sa, 0b111111#6⟩
  | .mult rs rt => ⟨0b000000#6, rs, rt, 0, 0, 0b011000#6⟩
  | .multu rs rt => ⟨0b000000#6, rs, rt, 0, 0, 0b011001#6⟩
  | .dmult rs rt => ⟨0b000000#6, rs, rt, 0, 0, 0b011100#6⟩
  | .dmultu rs rt => ⟨0b000000#6, rs, rt, 0, 0, 0b011101#6⟩
  | .div rs rt => ⟨0b000000#6, rs, rt, 0, 0, 0b011010#6⟩
  | .divu rs rt => ⟨0b000000#6, rs, rt, 0, 0, 0b011011#6⟩
  | .ddiv rs rt => ⟨0b000000#6, rs, rt, 0, 0, 0b011110#6⟩
  | .ddivu rs rt => ⟨0b000000#6, rs, rt, 0, 0, 0b011111#6⟩
  | .mfhi rd => ⟨0b000000#6, 0, 0, rd, 0, 0b010000#6⟩
  | .mflo rd => ⟨0b000000#6, 0, 0, rd, 0, 0b010010#6⟩
  | .mthi rs => ⟨0b000000#6, rs, 0, 0, 0, 0b010001#6⟩
  | .mtlo rs => ⟨0b000000#6, rs, 0, 0, 0, 0b010011#6⟩
  | .multG rs rt rd => ⟨0b011100#6, rs, rt, rd, 0, 0b010000#6⟩
  | .multuG rs rt rd => ⟨0b011100#6, rs, rt, rd, 0, 0b010010#6⟩
  | .dmultG rs rt rd => ⟨0b011100#6, rs, rt, rd, 0, 0b010001#6⟩
  | .dmultuG rs rt rd => ⟨0b011100#6, rs, rt, rd, 0, 0b010011#6⟩
  | .divG rs rt rd => ⟨0b011100#6, rs, rt, rd, 0, 0b010100#6⟩
  | .divuG rs rt rd => ⟨0b011100#6, rs, rt, rd, 0, 0b010110#6⟩
  | .ddivG rs rt rd => ⟨0b011100#6, rs, rt, rd, 0, 0b010101#6⟩
  | .ddivuG rs rt rd => ⟨0b011100#6, rs, rt, rd, 0, 0b010111#6⟩
  | .modG rs rt rd => ⟨0b011100#6, rs, rt, rd, 0, 0b011100#6⟩
  | .moduG rs rt rd => ⟨0b011100#6, rs, rt, rd, 0, 0b011110#6⟩
  | .dmodG rs rt rd => ⟨0b011100#6, rs, rt, rd, 0, 0b011101#6⟩
  | .dmoduG rs rt rd => ⟨0b011100#6, rs, rt, rd, 0, 0b011111#6⟩
  | .j target => jType 0b000010#6 target
  | .jal target => jType 0b000011#6 target
  | .jr rs => ⟨0b000000#6, rs, 0, 0, 0, 0b001000#6⟩
  | .jalr rs rd => ⟨0b000000#6, rs, 0, rd, 0, 0b001001#6⟩
  | .beq rs rt offset => iType 0b000100#6 rs rt offset
  | .bne rs rt offset => iType 0b000101#6 rs rt offset
  | .beql rs rt offset => iType 0b010100#6 rs rt offset
  | .bnel rs rt offset => iType 0b010101#6 rs rt offset
  | .blez rs offset => iType 0b000110#6 rs 0 offset
  | .bgtz rs offset => iType 0b000111#6 rs 0 offset
  | .blezl rs offset => iType 0b010110#6 rs 0 offset
  | .bgtzl rs offset => iType 0b010111#6 rs 0 offset
  | .bltz rs offset => iType 0b000001#6 rs 0b00000#5 offset
  | .bgez rs offset => iType 0b000001#6 rs 0b00001#5 offset
  | .bltzal rs offset => iType 0b000001#6 rs 0b10000#5 offset
  | .bgezal rs offset => iType 0b000001#6 rs 0b10001#5 offset
  | .bltzl rs offset => iType 0b000001#6 rs 0b00010#5 offset
  | .bgezl rs offset => iType 0b000001#6 rs 0b00011#5 offset
  | .bltzall rs offset => iType 0b000001#6 rs 0b10010#5 offset
  | .bgezall rs offset => iType 0b000001#6 rs 0b10011#5 offset
  | .syscall code20 => code20Type code20 0b001100#6
  | .brk code20 => code20Type code20 0b001101#6
  | .sync => ⟨0b000000#6, 0, 0, 0, 0, 0b001111#6⟩
  | .tge rs rt code10 => code10Type rs rt code10 0b110000#6
  | .tgeu rs rt code10 => code10Type rs rt code10 0b110001#6
  | .tlt rs rt code10 => code10Type rs rt code10 0b110010#6
  | .tltu rs rt code10 => code10Type rs rt code10 0b110011#6
  | .teq rs rt code10 => code10Type rs rt code10 0b110100#6
  | .tne rs rt code10 => code10Type rs rt code10 0b110110#6
  | .tgei rs imm => iType 0b000001#6 rs 0b01000#5 imm
  | .tgeiu rs imm => iType 0b000001#6 rs 0b01001#5 imm
  | .tlti rs imm => iType 0b000001#6 rs 0b01010#5 imm
  | .tltiu rs imm => iType 0b000001#6 rs 0b01011#5 imm
  | .teqi rs imm => iType 0b000001#6 rs 0b01100#5 imm
  | .tnei rs imm => iType 0b000001#6 rs 0b01110#5 imm
  | .mfc0 rt rd => ⟨0b010000#6, 0b00000#5, rt, rd, 0, 0⟩
  | .dmfc0 rt rd => ⟨0b010000#6, 0b00001#5, rt, rd, 0, 0⟩
  | .mtc0 rt rd => ⟨0b010000#6, 0b00100#5, rt, rd, 0, 0⟩
  | .dmtc0 rt rd => ⟨0b010000#6, 0b00101#5, rt, rd, 0, 0⟩
  | .tlbr => ⟨0b010000#6, 0b10000#5, 0, 0, 0, 0b000001#6⟩
  | .tlbwi => ⟨0b010000#6, 0b10000#5, 0, 0, 0, 0b000010#6⟩
  | .tlbwr => ⟨0b010000#6, 0b10000#5, 0, 0, 0, 0b000110#6⟩
  | .tlbp => ⟨0b010000#6, 0b10000#5, 0, 0, 0, 0b001000#6⟩
  | .eret => ⟨0b010000#6, 0b10000#5, 0, 0, 0, 0b011000#6⟩
  | .cache base cacheop offset => iType 0b101111#6 base cacheop offset
  | .cache0 base offset => iType 0b101111#6 base 0b00000#5 offset
  | .cache1 base offset => iType 0b101111#6 base 0b00001#5 offset
  | .cache5 base offset => iType 0b101111#6 base 0b00101#5 offset
  | .cache9 base offset => iType 0b101111#6 base 0b01001#5 offset
  | .cache17 base offset => iType 0b101111#6 base 0b10001#5 offset
  | .cache21 base offset => iType 0b101111#6 base 0b10101#5 offset
  | .cache25 base offset => iType 0b101111#6 base 0b11001#5 offset
  | .cache29 base offset => iType 0b101111#6 base 0b11101#5 offset
  | .cache3 base offset => iType 0b101111#6 base 0b00011#5 offset
  | .cache7 base offset => iType 0b101111#6 base 0b00111#5 offset
  | .cache11 base offset => iType 0b101111#6 base 0b01011#5 offset
  | .cache19 base offset => iType 0b101111#6 base 0b10011#5 offset
  | .cache23 base offset => iType 0b101111#6 base 0b10111#5 offset
  | .cache27 base offset => iType 0b101111#6 base 0b11011#5 offset
  | .cache31 base offset => iType 0b101111#6 base 0b11111#5 offset
  | .addS ft fs fd => ⟨0b010001#6, 0b10000#5, ft, fs, fd, 0b000000#6⟩
  | .addD ft fs fd => ⟨0b010001#6, 0b10001#5, ft, fs, fd, 0b000000#6⟩
  | .subS ft fs fd => ⟨0b010001#6, 0b10000#5, ft, fs, fd, 0b000001#6⟩
  | .subD ft fs fd => ⟨0b010001#6, 0b10001#5, ft, fs, fd, 0b000001#6⟩
  | .mulS ft fs fd => ⟨0b010001#6, 0b10000#5, ft, fs, fd, 0b000010#6⟩
  | .mulD ft fs fd => ⟨0b010001#6, 0b10001#5, ft, fs, fd, 0b000010#6⟩
  | .divS ft fs fd => ⟨0b010001#6, 0b10000#5, ft, fs, fd, 0b000011#6⟩
  | .divD ft fs fd => ⟨0b010001#6, 0b10001#5, ft, fs, fd, 0b000011#6⟩
  | .sqrtS fs fd => ⟨0b010001#6, 0b10000#5, 0, fs, fd, 0b000100#6⟩
  | .sqrtD fs fd => ⟨0b010001#6, 0b10001#5, 0, fs, fd, 0b000100#6⟩
  | .absS fs fd => ⟨0b010001#6, 0b10000#5, 0, fs, fd, 0b000101#6⟩
  | .absD fs fd => ⟨0b010001#6, 0b10001#5, 0, fs, fd, 0b000101#6⟩
  | .movS fs fd => ⟨0b010001#6, 0b10000#5, 0, fs, fd, 0b000110#6⟩
  | .movD fs fd => ⟨0b010001#6, 0b10001#5, 0, fs, fd, 0b000110#6⟩
  | .negS fs fd => ⟨0b010001#6, 0b10000#5, 0, fs, fd, 0b000111#6⟩
  | .negD fs fd => ⟨0b010001#6, 0b10001#5, 0, fs, fd, 0b000111#6⟩
  | .roundLS fs fd => ⟨0b010001#6, 0b10000#5, 0, fs, fd, 0b001000#6⟩
  | .roundLD fs fd => ⟨0b010001#6, 0b10001#5, 0, fs, fd, 0b001000#6⟩
  | .truncLS fs fd => ⟨0b010001#6, 0b10000#5, 0, fs, fd, 0b001001#6⟩
  | .truncLD fs fd => ⟨0b010001#6, 0b10001#5, 0, fs, fd, 0b001001#6⟩
  | .ceilLS fs fd => ⟨0b010001#6, 0b10000#5, 0, fs, fd, 0b001010#6⟩
  | .ceilLD fs fd => ⟨0b010001#6, 0b10001#5, 0, fs, fd, 0b001010#6⟩
  | .floorLS fs fd => ⟨0b010001#6, 0b10000#5, 0, fs, fd, 0b001011#6⟩
  | .floorLD fs fd => ⟨0b010001#6, 0b10001#5, 0, fs, fd, 0b001011#6⟩
  | .roundWS fs fd => ⟨0b010001#6, 0b10000#5, 0, fs, fd, 0b001100#6⟩
  | .roundWD fs fd => ⟨0b010001#6, 0b10001#5, 0, fs, fd, 0b001100#6⟩
  | .truncWS fs fd => ⟨0b010001#6, 0b10000#5, 0, fs, fd, 0b001101#6⟩
  | .truncWD fs fd => ⟨0b010001#6, 0b10001#5, 0, fs, fd, 0b001101#6⟩
  | .ceilWS fs fd => ⟨0b010001#6, 0b10000#5, 0, fs, fd, 0b001110#6⟩
  | .ceilWD fs fd => ⟨0b010001#6, 0b10001#5, 0, fs, fd, 0b001110#6⟩
  | .floorWS fs fd => ⟨0b010001#6, 0b10000#5, 0, fs, fd, 0b001111#6⟩
  | .floorWD fs fd => ⟨0b010001#6, 0b10001#5, 0, fs, fd, 0b001111#6⟩
  | .cvtWS fs fd => ⟨0b010001#6, 0b10000#5, 0, fs, fd, 0b100100#6⟩
  | .cvtWD fs fd => ⟨0b010001#6, 0b10001#5, 0, fs, fd, 0b100100#6⟩
  | .cvtLS fs fd => ⟨0b010001#6, 0b10000#5, 0, fs, fd, 0b100101#6⟩
  | .cvtLD fs fd => ⟨0b010001#6, 0b10001#5, 0, fs, fd, 0b100101#6⟩
  | .cvtSD fs fd => ⟨0b010001#6, 0b10001#5, 0, fs, fd, 0b100000#6⟩
  | .cvtSW fs fd => ⟨0b010001#6, 0b10100#5, 0, fs, fd, 0b100000#6⟩
  | .cvtSL fs fd => ⟨0b010001#6, 0b10101#5, 0, fs, fd, 0b100000#6⟩
  | .cvtDS fs fd => ⟨0b010001#6, 0b10000#5, 0, fs, fd, 0b100001#6⟩
  | .cvtDW fs fd => ⟨0b010001#6, 0b10100#5, 0, fs, fd, 0b100001#6⟩
  | .cvtDL fs fd => ⟨0b010001#6, 0b10101#5, 0, fs, fd, 0b100001#6⟩
  | .cFS ft fs => ⟨0b010001#6, 0b10000#5, ft, fs, 0, 0b110000#6⟩
  | .cFD ft fs => ⟨0b010001#6, 0b10001#5, ft, fs, 0, 0b110000#6⟩
  | .cUnS ft fs => ⟨0b010001#6, 0b10000#5, ft, fs, 0, 0b110001#6⟩
  | .cUnD ft fs => ⟨0b010001#6, 0b10001#5, ft, fs, 0, 0b110001#6⟩
  | .cEqS ft fs => ⟨0b010001#6, 0b10000#5, ft, fs, 0, 0b110010#6⟩
  | .cEqD ft fs => ⟨0b010001#6, 0b10001#5, ft, fs, 0, 0b110010#6⟩
  | .cUeqS ft fs => ⟨0b010001#6, 0b10000#5, ft, fs, 0, 0b110011#6⟩
  | .cUeqD ft fs => ⟨0b010001#6, 0b10001#5, ft, fs, 0, 0b110011#6⟩
  | .cOltS ft fs => ⟨0b010001#6, 0b10000#5, ft, fs, 0, 0b110100#6⟩
  | .cOltD ft fs => ⟨0b010001#6, 0b10001#5, ft, fs, 0, 0b110100#6⟩
  | .cUltS ft fs => ⟨0b010001#6, 0b10000#5, ft, fs, 0, 0b110101#6⟩
  | .cUltD ft fs => ⟨0b010001#6, 0b10001#5, ft, fs, 0, 0b110101#6⟩
  | .cOleS ft fs => ⟨0b010001#6, 0b10000#5, ft, fs, 0, 0b110110#6⟩
  | .cOleD ft fs => ⟨0b010001#6, 0b10001#5, ft, fs, 0, 0b110110#6⟩
  | .cUleS ft fs => ⟨0b010001#6, 0b10000#5, ft, fs, 0, 0b110111#6⟩
  | .cUleD ft fs => ⟨0b010001#6, 0b10001#5, ft, fs, 0, 0b110111#6⟩
  | .cSfS ft fs => ⟨0b010001#6, 0b10000#5, ft, fs, 0, 0b111000#6⟩
  | .cSfD ft fs => ⟨0b010001#6, 0b10001#5, ft, fs, 0, 0b111000#6⟩
  | .cNgleS ft fs => ⟨0b010001#6, 0b10000#5, ft, fs, 0, 0b111001#6⟩
  | .cNgleD ft fs => ⟨0b010001#6, 0b10001#5, ft, fs, 0, 0b111001#6⟩
  | .cSeqS ft fs => ⟨0b010001#6, 0b10000#5, ft, fs, 0, 0b111010#6⟩
  | .cSeqD ft fs => ⟨0b010001#6, 0b10001#5, ft, fs, 0, 0b111010#6⟩
  | .cNglS ft fs => ⟨0b010001#6, 0b10000#5, ft, fs, 0, 0b111011#6⟩
  | .cNglD ft fs => ⟨0b010001#6, 0b10001#5, ft, fs, 0, 0b111011#6⟩
  | .cLtS ft fs => ⟨0b010001#6, 0b10000#5, ft, fs, 0, 0b111100#6⟩
  | .cLtD ft fs => ⟨0b010001#6, 0b10001#5, ft, fs, 0, 0b111100#6⟩
  | .cNgeS ft fs => ⟨0b010001#6, 0b10000#5, ft, fs, 0, 0b111101#6⟩
  | .cNgeD ft fs => ⟨0b010001#6, 0b10001#5, ft, fs, 0, 0b111101#6⟩
  | .cLeS ft fs => ⟨0b010001#6, 0b10000#5, ft, fs, 0, 0b111110#6⟩
  | .cLeD ft fs => ⟨0b010001#6, 0b10001#5, ft, fs, 0, 0b111110#6⟩
  | .cNgtS ft fs => ⟨0b010001#6, 0b10000#5, ft, fs, 0, 0b111111#6⟩
  | .cNgtD ft fs => ⟨0b010001#6, 0b10001#5, ft, fs, 0, 0b111111#6⟩
  | .bc1f offset => iType 0b010001#6 0b01000#5 0b00000#5 offset
  | .bc1t offset => iType 0b010001#6 0b01000#5 0b00001#5 offset
  | .bc1fl offset => iType 0b010001#6 0b01000#5 0b00010#5 offset
  | .bc1tl offset => iType 0b010001#6 0b01000#5 0b00011#5 offset
  | .mfc1 rt fs => ⟨0b010001#6, 0b00000#5, rt, fs, 0, 0⟩
  | .dmfc1 rt fs => ⟨0b010001#6, 0b00001#5, rt, fs, 0, 0⟩
  | .cfc1 rt fs => ⟨0b010001#6, 0b00010#5, rt, fs, 0, 0⟩
  | .mtc1 rt fs => ⟨0b010001#6, 0b00100#5, rt, fs, 0, 0⟩
  | .dmtc1 rt fs => ⟨0b010001#6, 0b00101#5, rt, fs, 0, 0⟩
  | .ctc1 rt fs => ⟨0b010001#6, 0b00110#5, rt, fs, 0, 0⟩
  | .addPs ft fs fd => ⟨0b010001#6, 0b10110#5, ft, fs, fd, 0b000000#6⟩
  | .subPs ft fs fd => ⟨0b010001#6, 0b10110#5, ft, fs, fd, 0b000001#6⟩
  | .mulPs ft fs fd => ⟨0b010001#6, 0b10110#5, ft, fs, fd, 0b000010#6⟩
  | .absPs fs fd => ⟨0b010001#6, 0b10110#5, 0, fs, fd, 0b000101#6⟩
  | .movPs fs fd => ⟨0b010001#6, 0b10110#5, 0, fs, fd, 0b000110#6⟩
  | .negPs fs fd => ⟨0b010001#6, 0b10110#5, 0, fs, fd, 0b000111#6⟩
  | .cFPs ft fs => ⟨0b010001#6, 0b10110#5, ft, fs, 0, 0b110000#6⟩
  | .cUnPs ft fs => ⟨0b010001#6, 0b10110#5, ft, fs, 0, 0b110001#6⟩
  | .cEqPs ft fs => ⟨0b010001#6, 0b10110#5, ft, fs, 0, 0b110010#6⟩
  | .cUeqPs ft fs => ⟨0b010001#6, 0b10110#5, ft, fs, 0, 0b110011#6⟩
  | .cOltPs ft fs => ⟨0b010001#6, 0b10110#5, ft, fs, 0, 0b110100#6⟩
  | .cUltPs ft fs => ⟨0b010001#6, 0b10110#5, ft, fs, 0, 0b110101#6⟩
  | .cOlePs ft fs => ⟨0b010001#6, 0b10110#5, ft, fs, 0, 0b110110#6⟩
  | .cUlePs ft fs => ⟨0b010001#6, 0b10110#5, ft, fs, 0, 0b110111#6⟩
  | .cSfPs ft fs => ⟨0b010001#6, 0b10110#5, ft, fs, 0, 0b111000#6⟩
  | .cNglePs ft fs => ⟨0b010001#6, 0b10110#5, ft, fs, 0, 0b111001#6⟩
  | .cSeqPs ft fs => ⟨0b010001#6, 0b10110#5, ft, fs, 0, 0b111010#6⟩
  | .cNglPs ft fs => ⟨0b010001#6, 0b10110#5, ft, fs, 0, 0b111011#6⟩
  | .cLtPs ft fs => ⟨0b010001#6, 0b10110#5, ft, fs, 0, 0b111100#6⟩
  | .cNgePs ft fs => ⟨0b010001#6, 0b10110#5, ft, fs, 0, 0b111101#6⟩
  | .cLePs ft fs => ⟨0b010001#6, 0b10110#5, ft, fs, 0, 0b111110#6⟩
  | .cNgtPs ft fs => ⟨0b010001#6, 0b10110#5, ft, fs, 0, 0b111111#6⟩
  | .maddS ft fs fd => ⟨0b011100#6, 0b10000#5, ft, fs, fd, 0b011000#6⟩
  | .maddD ft fs fd => ⟨0b011100#6, 0b10001#5, ft, fs, fd, 0b011000#6⟩
  | .maddPs ft fs fd => ⟨0b011100#6, 0b10110#5, ft, fs, fd, 0b011000#6⟩
  | .msubS ft fs fd => ⟨0b011100#6, 0b10000#5, ft, fs, fd, 0b011001#6⟩
  | .msubD ft fs fd => ⟨0b011100#6, 0b10001#5, ft, fs, fd, 0b011001#6⟩
  | .msubPs ft fs fd => ⟨0b011100#6, 0b10110#5, ft, fs, fd, 0b011001#6⟩
  | .nmaddS ft fs fd => ⟨0b011100#6, 0b10000#5, ft, fs, fd, 0b011010#6⟩
  | .nmaddD ft fs fd => ⟨0b011100#6, 0b10001#5, ft, fs, fd, 0b011010#6⟩
  | .nmaddPs ft fs fd => ⟨0b011100#6, 0b10110#5, ft, fs, fd, 0b011010#6⟩
  | .nmsubS ft fs fd => ⟨0b011100#6, 0b10000#5, ft, fs, fd, 0b011011#6⟩
  | .nmsubD ft fs fd => ⟨0b011100#6, 0b10001#5, ft, fs, fd, 0b011011#6⟩
  | .nmsubPs ft fs fd => ⟨0b011100#6, 0b10110#5, ft, fs, fd, 0b011011#6⟩
  | .paddb ft fs fd => ⟨0b010010#6, 0b11110#5, ft, fs, fd, 0b000000#6⟩
  | .paddh ft fs fd => ⟨0b010010#6, 0b11010#5, ft, fs, fd, 0b000000#6⟩
  | .paddw ft fs fd => ⟨0b010010#6, 0b11011#5, ft, fs, fd, 0b000000#6⟩
  | .paddd ft fs fd => ⟨0b010010#6, 0b11111#5, ft, fs, fd, 0b000000#6⟩
  | .paddsb ft fs fd => ⟨0b010010#6, 0b11100#5, ft, fs, fd, 0b000000#6⟩
  | .paddsh ft fs fd => ⟨0b010010#6, 0b11000#5, ft, fs, fd, 0b000000#6⟩
  | .paddusb ft fs fd => ⟨0b010010#6, 0b11101#5, ft, fs, fd, 0b000000#6⟩
  | .paddush ft fs fd => ⟨0b010010#6, 0b11001#5, ft, fs, fd, 0b000000#6⟩
  | .psubb ft fs fd => ⟨0b010010#6, 0b11110#5, ft, fs, fd, 0b000001#6⟩
  | .psubh ft fs fd => ⟨0b010010#6, 0b11010#5, ft, fs, fd, 0b000001#6⟩
  | .psubw ft fs fd => ⟨0b010010#6, 0b11011#5, ft, fs, fd, 0b000001#6⟩
  | .psubd ft fs fd => ⟨0b010010#6, 0b11111#5, ft, fs, fd, 0b000001#6⟩
  | .psubsb ft fs fd => ⟨0b010010#6, 0b11100#5, ft, fs, fd, 0b000001#6⟩
  | .psubsh ft fs fd => ⟨0b010010#6, 0b11000#5, ft, fs, fd, 0b000001#6⟩
  | .psubusb ft fs fd => ⟨0b010010#6, 0b11101#5, ft, fs, fd, 0b000001#6⟩
  | .psubush ft fs fd => ⟨0b010010#6, 0b11001#5, ft, fs, fd, 0b000001#6⟩
  | .pshufh ft fs fd => ⟨0b010010#6, 0b11000#5, ft, fs, fd, 0b000010#6⟩
  | .packsswh ft fs fd => ⟨0b010010#6, 0b11001#5, ft, fs, fd, 0b000010#6⟩
  | .packsshb ft fs fd => ⟨0b010010#6, 0b11010#5, ft, fs, fd, 0b000010#6⟩
  | .packushb ft fs fd => ⟨0b010010#6, 0b11011#5, ft, fs, fd, 0b000010#6⟩
  | .pandn ft fs fd => ⟨0b010010#6, 0b11111#5, ft, fs, fd, 0b000010#6⟩
  | .punpcklhw ft fs fd => ⟨0b010010#6, 0b11000#5, ft, fs, fd, 0b000011#6⟩
  | .punpckhhw ft fs fd => ⟨0b010010#6, 0b11001#5, ft, fs, fd, 0b000011#6⟩
  | .punpcklbh ft fs fd => ⟨0b010010#6, 0b11010#5, ft, fs, fd, 0b000011#6⟩
  | .punpckhbh ft fs fd => ⟨0b010010#6, 0b11011#5, ft, fs, fd, 0b000011#6⟩
  | .punpcklwd ft fs fd => ⟨0b010010#6, 0b11100#5, ft, fs, fd, 0b001011#6⟩
  | .punpckhwd ft fs fd => ⟨0b010010#6, 0b11101#5, ft, fs, fd, 0b001011#6⟩
  | .pinsrh0 ft fs fd => ⟨0b010010#6, 0b11100#5, ft, fs, fd, 0b000011#6⟩
  | .pinsrh1 ft fs fd => ⟨0b010010#6, 0b11101#5, ft, fs, fd, 0b000011#6⟩
  | .pinsrh2 ft fs fd => ⟨0b010010#6, 0b11110#5, ft, fs, fd, 0b000011#6⟩
  | .pinsrh3 ft fs fd => ⟨0b010010#6, 0b11111#5, ft, fs, fd, 0b000011#6⟩
  | .pavgh ft fs fd => ⟨0b010010#6, 0b11000#5, ft, fs, fd, 0b001000#6⟩
  | .pavgb ft fs fd => ⟨0b010010#6, 0b11001#5, ft, fs, fd, 0b001000#6⟩
  | .pmaxsh ft fs fd => ⟨0b010010#6, 0b11010#5, ft, fs, fd, 0b001000#6⟩
  | .pminsh ft fs fd => ⟨0b010010#6, 0b11011#5, ft, fs, fd, 0b001000#6⟩
  | .pmaxub ft fs fd => ⟨0b010010#6, 0b11100#5, ft, fs, fd, 0b001000#6⟩
  | .pminub ft fs fd => ⟨0b010010#6, 0b11101#5, ft, fs, fd, 0b001000#6⟩
  | .pcmpeqw ft fs fd => ⟨0b010010#6, 0b11000#5, ft, fs, fd, 0b001001#6⟩
  | .pcmpgtw ft fs fd => ⟨0b010010#6, 0b11001#5, ft, fs, fd, 0b001001#6⟩
  | .pcmpeqh ft fs fd => ⟨0b010010#6, 0b11010#5, ft, fs, fd, 0b001001#6⟩
  | .pcmpgth ft fs fd => ⟨0b010010#6, 0b11011#5, ft, fs, fd, 0b001001#6⟩
  | .pcmpeqb ft fs fd => ⟨0b010010#6, 0b11100#5, ft, fs, fd, 0b001001#6⟩
  | .pcmpgtb ft fs fd => ⟨0b010010#6, 0b11101#5, ft, fs, fd, 0b001001#6⟩
  | .psllw ft fs fd => ⟨0b010010#6, 0b11000#5, ft, fs, fd, 0b001010#6⟩
  | .psllh ft fs fd => ⟨0b010010#6, 0b11001#5, ft, fs, fd, 0b001010#6⟩
  | .pmullh ft fs fd => ⟨0b010010#6, 0b11010#5, ft, fs, fd, 0b001010#6⟩
  | .pmulhh ft fs fd => ⟨0b010010#6, 0b11011#5, ft, fs, fd, 0b001010#6⟩
  | .pmuluw ft fs fd => ⟨0b010010#6, 0b11100#5, ft, fs, fd, 0b001010#6⟩
  | .pmulhuh ft fs fd => ⟨0b010010#6, 0b11101#5, ft, fs, fd, 0b001010#6⟩
  | .psrlw ft fs fd => ⟨0b010010#6, 0b11000#5, ft, fs, fd, 0b001011#6⟩
  | .psrlh ft fs fd => ⟨0b010010#6, 0b11001#5, ft, fs, fd, 0b001011#6⟩
  | .psraw ft fs fd => ⟨0b010010#6, 0b11010#5, ft, fs, fd, 0b001011#6⟩
  | .psrah ft fs fd => ⟨0b010010#6, 0b11011#5, ft, fs, fd, 0b001011#6⟩
  | .pasubub ft fs fd => ⟨0b010010#6, 0b11001#5, ft, fs, fd, 0b001101#6⟩
  | .biadd fs fd => ⟨0b010010#6, 0b11100#5, 0, fs, fd, 0b001111#6⟩
  | .pextrh ft fs fd => ⟨0b010010#6, 0b11010#5, ft, fs, fd, 0b001110#6⟩
  | .pmaddhw ft fs fd => ⟨0b010010#6, 0b11011#5, ft, fs, fd, 0b001110#6⟩
  | .pmovmskb fs fd => ⟨0b010010#6, 0b11101#5, 0, fs, fd, 0b001111#6⟩
  | .fxAdd ft fs fd => ⟨0b010010#6, 0b11010#5, ft, fs, fd, 0b001100#6⟩
  | .fxAddu ft fs fd => ⟨0b010010#6, 0b11000#5, ft, fs, fd, 0b001100#6⟩
  | .fxDadd ft fs fd => ⟨0b010010#6, 0b11011#5, ft, fs, fd, 0b001100#6⟩
  | .fxSub ft fs fd => ⟨0b010010#6, 0b11010#5, ft, fs, fd, 0b001101#6⟩
  | .fxSubu ft fs fd => ⟨0b010010#6, 0b11000#5, ft, fs, fd, 0b001101#6⟩
  | .fxDsub ft fs fd => ⟨0b010010#6, 0b11011#5, ft, fs, fd, 0b001101#6⟩
  | .fxOr ft fs fd => ⟨0b010010#6, 0b11001#5, ft, fs, fd, 0b001100#6⟩
  | .fxXor ft fs fd => ⟨0b010010#6, 0b11100#5, ft, fs, fd, 0b000010#6⟩
  | .fxNor ft fs fd => ⟨0b010010#6, 0b11101#5, ft, fs, fd, 0b000010#6⟩
  | .fxAnd ft fs fd => ⟨0b010010#6, 0b11110#5, ft, fs, fd, 0b000010#6⟩
  | .fxSll ft fs fd => ⟨0b010010#6, 0b11000#5, ft, fs, fd, 0b001110#6⟩
  | .fxSrl ft fs fd => ⟨0b010010#6, 0b11000#5, ft, fs, fd, 0b001111#6⟩
  | .fxSra ft fs fd => ⟨0b010010#6, 0b11010#5, ft, fs, fd, 0b001111#6⟩
  | .fxDsll ft fs fd => ⟨0b010010#6, 0b11001#5, ft, fs, fd, 0b001110#6⟩
  | .fxDsrl ft fs fd => ⟨0b010010#6, 0b11001#5, ft, fs, fd, 0b001111#6⟩
  | .fxDsra ft fs fd => ⟨0b010010#6, 0b11011#5, ft, fs, fd, 0b001111#6⟩
  | .fxSequ ft fs => ⟨0b010010#6, 0b11100#5, ft, fs, 0, 0b001100#6⟩
  | .fxSeq ft fs => ⟨0b010010#6, 0b11101#5, ft, fs, 0, 0b001100#6⟩
  | .fxSltu ft fs => ⟨0b010010#6, 0b11100#5, ft, fs, 0, 0b001101#6⟩
  | .fxSlt ft fs => ⟨0b010010#6, 0b11101#5, ft, fs, 0, 0b001101#6⟩
  | .fxSleu ft fs => ⟨0b010010#6, 0b11100#5, ft, fs, 0, 0b001110#6⟩
  | .fxSle ft fs => ⟨0b010010#6, 0b11101#5, ft, fs, 0, 0b001110#6⟩

/-- The word of an instruction. -/
def encode (i : Instr) : Word := wordOf (fieldsOfInstr i)

end Sys2Proof
end

