-- ==== Sys2Proof/Machine/Alu.lean ====
section
/-! DEFINITION. The integer ALU and shift instructions (41_alu). -/

namespace Sys2Proof.Machine

/-- A result for a register: nothing else changes (41_alu R290). -/
def setGpr (rd : RegNum) (v : DWord) (s : State) : Out := done (s.setR rd v)

/-- A result unless it overflows (41_alu R292, 60_exceptions R831). -/
def setGprOr (overflows : Bool) (rd : RegNum) (v : DWord) (s : State) : Out :=
  if overflows then raise .overflow s else setGpr rd v s

/-- A comparison's result: 1 or 0. -/
def bool64 (b : Bool) : DWord := if b then 1 else 0

/-- ADDI (R294) -/
def execAddi (rs rt : RegNum) (imm : Half) (s : State) : Out :=
  let a := low32 (s.r rs)
  let b : Word := imm.signExtend 32
  setGprOr (addOverflows a b) rt (sext64 (a + b)) s

/-- ADDIU (R295) -/
def execAddiu (rs rt : RegNum) (imm : Half) (s : State) : Out :=
  setGpr rt (sext64 (low32 (s.r rs) + imm.signExtend 32)) s

/-- DADDI (R296) -/
def execDaddi (rs rt : RegNum) (imm : Half) (s : State) : Out :=
  setGprOr (addOverflows (s.r rs) (sext64 imm)) rt (s.r rs + sext64 imm) s

/-- DADDIU (R297) -/
def execDaddiu (rs rt : RegNum) (imm : Half) (s : State) : Out := setGpr rt (s.r rs + sext64 imm) s

/-- SLTI (R298) -/
def execSlti (rs rt : RegNum) (imm : Half) (s : State) : Out :=
  setGpr rt (bool64 ((s.r rs).slt (sext64 imm))) s

/-- SLTIU (R299) -/
def execSltiu (rs rt : RegNum) (imm : Half) (s : State) : Out :=
  setGpr rt (bool64 ((s.r rs).ult (sext64 imm))) s

/-- ANDI (R300) -/
def execAndi (rs rt : RegNum) (imm : Half) (s : State) : Out := setGpr rt (s.r rs &&& zext64 imm) s

/-- ORI (R301) -/
def execOri (rs rt : RegNum) (imm : Half) (s : State) : Out := setGpr rt (s.r rs ||| zext64 imm) s

/-- XORI (R302) -/
def execXori (rs rt : RegNum) (imm : Half) (s : State) : Out := setGpr rt (s.r rs ^^^ zext64 imm) s

/-- LUI (R303) -/
def execLui (rt : RegNum) (imm : Half) (s : State) : Out := setGpr rt (sext64 (imm ++ (0 : BitVec 16))) s

/-- ADD (R304) -/
def execAdd (rs rt rd : RegNum) (s : State) : Out :=
  let a := low32 (s.r rs)
  let b := low32 (s.r rt)
  setGprOr (addOverflows a b) rd (sext64 (a + b)) s

/-- ADDU (R305) -/
def execAddu (rs rt rd : RegNum) (s : State) : Out := setGpr rd (sext64 (low32 (s.r rs) + low32 (s.r rt))) s

/-- SUB (R306) -/
def execSub (rs rt rd : RegNum) (s : State) : Out :=
  let a := low32 (s.r rs)
  let b := low32 (s.r rt)
  setGprOr (subOverflows a b) rd (sext64 (a - b)) s

/-- SUBU (R307) -/
def execSubu (rs rt rd : RegNum) (s : State) : Out := setGpr rd (sext64 (low32 (s.r rs) - low32 (s.r rt))) s

/-- DADD (R308) -/
def execDadd (rs rt rd : RegNum) (s : State) : Out :=
  setGprOr (addOverflows (s.r rs) (s.r rt)) rd (s.r rs + s.r rt) s

/-- DADDU (R309) -/
def execDaddu (rs rt rd : RegNum) (s : State) : Out := setGpr rd (s.r rs + s.r rt) s

/-- DSUB (R310) -/
def execDsub (rs rt rd : RegNum) (s : State) : Out :=
  setGprOr (subOverflows (s.r rs) (s.r rt)) rd (s.r rs - s.r rt) s

/-- DSUBU (R311) -/
def execDsubu (rs rt rd : RegNum) (s : State) : Out := setGpr rd (s.r rs - s.r rt) s

/-- SLT (R312) -/
def execSlt (rs rt rd : RegNum) (s : State) : Out := setGpr rd (bool64 ((s.r rs).slt (s.r rt))) s

/-- SLTU (R313) -/
def execSltu (rs rt rd : RegNum) (s : State) : Out := setGpr rd (bool64 ((s.r rs).ult (s.r rt))) s

/-- AND (R314) -/
def execAnd (rs rt rd : RegNum) (s : State) : Out := setGpr rd (s.r rs &&& s.r rt) s

/-- OR (R315) -/
def execOr (rs rt rd : RegNum) (s : State) : Out := setGpr rd (s.r rs ||| s.r rt) s

/-- XOR (R316) -/
def execXor (rs rt rd : RegNum) (s : State) : Out := setGpr rd (s.r rs ^^^ s.r rt) s

/-- NOR (R317) -/
def execNor (rs rt rd : RegNum) (s : State) : Out := setGpr rd (~~~(s.r rs ||| s.r rt)) s

/-- MOVZ (R318) -/
def execMovz (rs rt rd : RegNum) (s : State) : Out := if s.r rt = 0 then setGpr rd (s.r rs) s else done s

/-- MOVN (R319) -/
def execMovn (rs rt rd : RegNum) (s : State) : Out := if s.r rt ≠ 0 then setGpr rd (s.r rs) s else done s

/-- SLL (R320) -/
def execSll (rt rd sa : RegNum) (s : State) : Out := setGpr rd (sext64 (low32 (s.r rt) <<< sa.toNat)) s

/-- SRL (R321) -/
def execSrl (rt rd sa : RegNum) (s : State) : Out := setGpr rd (sext64 (low32 (s.r rt) >>> sa.toNat)) s

/-- SRA (R322) -/
def execSra (rt rd sa : RegNum) (s : State) : Out :=
  setGpr rd (sext64 ((low32 (s.r rt)).sshiftRight sa.toNat)) s

/-- SLLV (R323) -/
def execSllv (rs rt rd : RegNum) (s : State) : Out :=
  setGpr rd (sext64 (low32 (s.r rt) <<< ((s.r rs).extractLsb' 0 5).toNat)) s

/-- SRLV (R324) -/
def execSrlv (rs rt rd : RegNum) (s : State) : Out :=
  setGpr rd (sext64 (low32 (s.r rt) >>> ((s.r rs).extractLsb' 0 5).toNat)) s

/-- SRAV (R325) -/
def execSrav (rs rt rd : RegNum) (s : State) : Out :=
  setGpr rd (sext64 ((low32 (s.r rt)).sshiftRight ((s.r rs).extractLsb' 0 5).toNat)) s

/-- DSLL (R326) -/
def execDsll (rt rd sa : RegNum) (s : State) : Out := setGpr rd (s.r rt <<< sa.toNat) s

/-- DSLL32 (R332) -/
def execDsll32 (rt rd sa : RegNum) (s : State) : Out := setGpr rd (s.r rt <<< (sa.toNat + 32)) s

/-- DSLLV (R329) -/
def execDsllv (rs rt rd : RegNum) (s : State) : Out :=
  setGpr rd (s.r rt <<< ((s.r rs).extractLsb' 0 6).toNat) s

/-- DSRL (R327) -/
def execDsrl (rt rd sa : RegNum) (s : State) : Out := setGpr rd (s.r rt >>> sa.toNat) s

/-- DSRL32 (R333) -/
def execDsrl32 (rt rd sa : RegNum) (s : State) : Out := setGpr rd (s.r rt >>> (sa.toNat + 32)) s

/-- DSRLV (R330) -/
def execDsrlv (rs rt rd : RegNum) (s : State) : Out :=
  setGpr rd (s.r rt >>> ((s.r rs).extractLsb' 0 6).toNat) s

/-- DSRA (R328) -/
def execDsra (rt rd sa : RegNum) (s : State) : Out := setGpr rd ((s.r rt).sshiftRight sa.toNat) s

/-- DSRA32 (R334) -/
def execDsra32 (rt rd sa : RegNum) (s : State) : Out := setGpr rd ((s.r rt).sshiftRight (sa.toNat + 32)) s

/-- DSRAV (R331) -/
def execDsrav (rs rt rd : RegNum) (s : State) : Out :=
  setGpr rd ((s.r rt).sshiftRight ((s.r rs).extractLsb' 0 6).toNat) s

end Sys2Proof.Machine
end

