-- ==== Sys2Proof/Machine/Branch.lean ====
section
/-! DEFINITION. Jumps and branches (43_branch_jump) and the branches on the FP condition (46_fpu). -/

namespace Sys2Proof.Machine

/-- A branch: the slot next and then the target, or past the slot; a likely branch not taken nullifies the slot. No
branch stands in a delay slot (43_branch_jump R390, R392; log 46). -/
def branch (likely taken : Bool) (target : DWord) (s : State) : Out :=
  match s.delay with
  | some _ => .fault .branchInDelaySlot
  | none => .next (if taken then s.branchTo target else if likely then s.skipSlot else s.branchTo (s.pc + 8))

/-- A linking branch or jump: the link is written whether or not it is taken (43_branch_jump R405, R407). -/
def branchLink (likely taken : Bool) (rd : RegNum) (target : DWord) (s : State) : Out :=
  branch likely taken target (s.setR rd s.linkValue)

/-- `GPR[i] < 0`. -/
def State.negative (s : State) (i : RegNum) : Bool := (s.r i).msb

/-- A branch on CC0: the CU1 check, then the branch, which stops in a delay slot (46_fpu R608 to R612). -/
def branchFp (likely taken : Bool) (target : DWord) (s : State) : Out := withFpu s (branch likely taken target s)

/-- J (R395) -/
def execJ (target : BitVec 26) (s : State) : Out := branch false true (s.jumpTarget target) s

/-- JAL (R396) -/
def execJal (target : BitVec 26) (s : State) : Out := branchLink false true 31 (s.jumpTarget target) s

/-- JR (R397) -/
def execJr (rs : RegNum) (s : State) : Out := branch false true (s.r rs) s

/-- JALR (R398) -/
def execJalr (rs rd : RegNum) (s : State) : Out := branchLink false true rd (s.r rs) s

/-- BEQ (R399) -/
def execBeq (rs rt : RegNum) (offset : Half) (s : State) : Out :=
  branch false (s.r rs = s.r rt) (s.branchTarget offset) s

/-- BEQL (R408) -/
def execBeql (rs rt : RegNum) (offset : Half) (s : State) : Out :=
  branch true (s.r rs = s.r rt) (s.branchTarget offset) s

/-- BNE (R400) -/
def execBne (rs rt : RegNum) (offset : Half) (s : State) : Out :=
  branch false (s.r rs ≠ s.r rt) (s.branchTarget offset) s

/-- BNEL (R409) -/
def execBnel (rs rt : RegNum) (offset : Half) (s : State) : Out :=
  branch true (s.r rs ≠ s.r rt) (s.branchTarget offset) s

/-- BLEZ (R401) -/
def execBlez (rs : RegNum) (offset : Half) (s : State) : Out :=
  branch false (s.negative rs || s.r rs = 0) (s.branchTarget offset) s

/-- BLEZL (R410) -/
def execBlezl (rs : RegNum) (offset : Half) (s : State) : Out :=
  branch true (s.negative rs || s.r rs = 0) (s.branchTarget offset) s

/-- BGTZ (R402) -/
def execBgtz (rs : RegNum) (offset : Half) (s : State) : Out :=
  branch false (!s.negative rs && s.r rs ≠ 0) (s.branchTarget offset) s

/-- BGTZL (R411) -/
def execBgtzl (rs : RegNum) (offset : Half) (s : State) : Out :=
  branch true (!s.negative rs && s.r rs ≠ 0) (s.branchTarget offset) s

/-- BLTZ (R403) -/
def execBltz (rs : RegNum) (offset : Half) (s : State) : Out :=
  branch false (s.negative rs) (s.branchTarget offset) s

/-- BLTZL (R412) -/
def execBltzl (rs : RegNum) (offset : Half) (s : State) : Out :=
  branch true (s.negative rs) (s.branchTarget offset) s

/-- BGEZ (R404) -/
def execBgez (rs : RegNum) (offset : Half) (s : State) : Out :=
  branch false (!s.negative rs) (s.branchTarget offset) s

/-- BGEZL (R413) -/
def execBgezl (rs : RegNum) (offset : Half) (s : State) : Out :=
  branch true (!s.negative rs) (s.branchTarget offset) s

/-- BLTZAL (R405) -/
def execBltzal (rs : RegNum) (offset : Half) (s : State) : Out :=
  branchLink false (s.negative rs) 31 (s.branchTarget offset) s

/-- BLTZALL (R414) -/
def execBltzall (rs : RegNum) (offset : Half) (s : State) : Out :=
  branchLink true (s.negative rs) 31 (s.branchTarget offset) s

/-- BGEZAL (R406) -/
def execBgezal (rs : RegNum) (offset : Half) (s : State) : Out :=
  branchLink false (!s.negative rs) 31 (s.branchTarget offset) s

/-- BGEZALL (R415) -/
def execBgezall (rs : RegNum) (offset : Half) (s : State) : Out :=
  branchLink true (!s.negative rs) 31 (s.branchTarget offset) s

/-- BC1F (R609) -/
def execBc1f (offset : Half) (s : State) : Out := branchFp false (!fcsrCc0 s.fcsr) (s.branchTarget offset) s

/-- BC1T (R610) -/
def execBc1t (offset : Half) (s : State) : Out := branchFp false (fcsrCc0 s.fcsr) (s.branchTarget offset) s

/-- BC1FL (R611) -/
def execBc1fl (offset : Half) (s : State) : Out := branchFp true (!fcsrCc0 s.fcsr) (s.branchTarget offset) s

/-- BC1TL (R612) -/
def execBc1tl (offset : Half) (s : State) : Out := branchFp true (fcsrCc0 s.fcsr) (s.branchTarget offset) s

end Sys2Proof.Machine
end

