-- ==== Sys2Proof/Machine/CacheOps.lean ====
section
/-! DEFINITION. The CACHE instruction, its fifteen operations and the seventeen codes left (45_cp0 R480 to R496). -/

namespace Sys2Proof.Machine

/-- Every CACHE operation: the privilege check, the translation as a load, no Watch; then the operation, or nothing
on an uncached address (45_cp0 R480, R481; log 25). -/
def cacheOp (base : RegNum) (offset : Half) (op : DWord → PAddr → State → Result Unit) (s : State) : Out :=
  withCp0 s (
    let va := s.ea base offset
    match s.translate .load va with
    | .exc e => raise e s
    | .fault f => .fault f
    | .ok pa attr => if attr = 3 then (op va pa s).andThen fun _ t => done t else done s)

/-- Replace TagHi and TagLo. -/
def State.setTags (s : State) (hi lo : Word) : State := { s with cp0 := { s.cp0 with tagHi := hi, tagLo := lo } }

/-- The data line va[13:5] and va[1:0] name (45_cp0 R483). -/
def dIndex (va : DWord) : Nat := 4 * primarySet va + (va.extractLsb' 0 2).toNat

/-- The secondary line pa[16:5] and pa[1:0] name (45_cp0 R488). -/
def sIndex (pa : PAddr) : Nat := 4 * secondarySet pa + (pa.extractLsb' 0 2).toNat

/-- The doubleword of a line that address bits 4:3 name. -/
def lineDouble (data : BitVec 256) (i : BitVec 2) : DWord := data.extractLsb' (64 * i.toNat) 64

/-- Replace that doubleword. -/
def lineSetDouble (data : BitVec 256) (i : BitVec 2) (v : DWord) : BitVec 256 := writeLanes data (8 * i.toNat) 8 v

/-- Do `f` to every key of a list, in order. -/
def forKeys (f : Nat → State → Result Unit) : List Nat → State → Result Unit
  | [], s => .val () s
  | k :: ks, s => (f k s).bind fun _ t => forKeys f ks t

/-- The keys of the four ways of one set. -/
def waysOf (set : Nat) : List Nat := [4 * set, 4 * set + 1, 4 * set + 2, 4 * set + 3]

/-- The keys of the primary lines that can hold the physical line `p`: four sets, as index bits 13:12 are virtual
(45_cp0 R489). -/
def subsetKeys (p : PAddr) : List Nat :=
  let low := (p.extractLsb' 5 7).toNat
  waysOf low ++ waysOf (128 + low) ++ waysOf (256 + low) ++ waysOf (384 + low)

/-- Invalidate the instruction lines of `keys` that `p` holds of; only the valid bit changes. -/
def State.dropILines (s : State) (p : ILine → Bool) : List Nat → State
  | [] => s
  | k :: ks => State.dropILines (if p (s.iLine k) then s.setILine k { s.iLine k with valid := false } else s) p ks

/-- Invalidate a data line; only the state changes. -/
def State.dInvalidate (s : State) (k : Nat) : State := s.setDLine k { s.dLine k with state := 0 }

/-- Invalidate a secondary line; only the state changes. -/
def State.sInvalidate (s : State) (k : Nat) : State := s.setSLine k { s.sLine k with state := 0 }

/-- Write a data line back if it is dirty and `keep` says so, then invalidate it. -/
def dFlush (writeBack : Bool) (k : Nat) (s : State) : Result Unit :=
  if writeBack then (s.dWriteBack k).bind fun _ t => .val () (t.dInvalidate k) else .val () (s.dInvalidate k)

/-- Flush the data lines of `keys` that hold `pa` (45_cp0 R490, R491). -/
def dFlushHits (writeBack : Bool) (pa : PAddr) (keys : List Nat) (s : State) : Result Unit :=
  forKeys (fun k t => if (t.dLine k).holds pa then dFlush writeBack k t else .val () t) keys s

/-- Step 3 of the secondary write-backs: a dirty data line that is a subset of secondary line `k` is written into it,
which becomes dirty; every such line is invalidated (45_cp0 R489, R492). Of several dirty ones the last in the order of
`subsetKeys` ends in memory (log 28). -/
def sAbsorb (k : Nat) (p : PAddr) : Nat → State → Result Unit := fun j s =>
  let l := s.dLine j
  if l.holds p then
    let t := if l.state = dirtyState then
      s.setSLine k { s.sLine k with state := dirtyState, data := l.data } else s
    .val () (t.dInvalidate j)
  else .val () s

/-- Write back and invalidate a valid secondary line and its primary subsets (45_cp0 R489, R492). It acts on the
secondary lines also while chip_config0.disable_scache = 1, as all the (S) operations do (log 27). -/
def sFlush (k : Nat) (s : State) : Result Unit :=
  let p := secondaryAddr (s.sLine k).tag k
  (forKeys (sAbsorb k p) (subsetKeys p) (s.dropILines (fun l => l.holds p) (subsetKeys p))).bind fun _ t =>
    (t.sEvict k).bind fun _ u => .val () (u.sInvalidate k)

/-- CACHE_0 (R482): Index Invalidate (I): all four ways -/
def execCache0 (base : RegNum) (offset : Half) (s : State) : Out :=
  cacheOp base offset (fun va _ t => .val () (t.dropILines (fun _ => true) (waysOf (primarySet va)))) s

/-- CACHE_1 (R483): Index WriteBack Invalidate (D) -/
def execCache1 (base : RegNum) (offset : Half) (s : State) : Out :=
  cacheOp base offset (fun va _ t => dFlush true (dIndex va) t) s

/-- TagLo and TagHi for a data line (45_cp0 R484). -/
def dTags (l : DLine) : Word × Word :=
  (l.stateMod ++ (0 : BitVec 25) ++ l.tag.extractLsb' 24 4,
   l.tag.extractLsb' 0 24 ++ l.state ++ l.scWay ++ (0 : BitVec 4))

/-- CACHE_5 (R484): Index Load Tag (D) -/
def execCache5 (base : RegNum) (offset : Half) (s : State) : Out :=
  cacheOp base offset (fun va _ t => .val () (t.setTags (dTags (t.dLine (dIndex va))).1 (dTags (t.dLine (dIndex va))).2)) s

/-- The data line with tag, state and SCWay from TagLo and TagHi; StateMod and the data stay (45_cp0 R485). -/
def DLine.fromTags (l : DLine) (hi lo : Word) : DLine :=
  { l with
    tag := hi.extractLsb' 0 4 ++ lo.extractLsb' 8 24
    state := lo.extractLsb' 6 2
    scWay := lo.extractLsb' 4 2 }

/-- CACHE_9 (R485): Index Store Tag (D) -/
def execCache9 (base : RegNum) (offset : Half) (s : State) : Out :=
  cacheOp base offset (fun va _ t =>
    .val () (t.setDLine (dIndex va) ((t.dLine (dIndex va)).fromTags t.cp0.tagHi t.cp0.tagLo))) s

/-- CACHE_17 (R490): Hit Invalidate (D) -/
def execCache17 (base : RegNum) (offset : Half) (s : State) : Out :=
  cacheOp base offset (fun va pa t => dFlushHits false pa (waysOf (primarySet va)) t) s

/-- CACHE_21 (R491): Hit WriteBack Invalidate (D) -/
def execCache21 (base : RegNum) (offset : Half) (s : State) : Out :=
  cacheOp base offset (fun va pa t => dFlushHits true pa (waysOf (primarySet va)) t) s

/-- A doubleword into TagHi and TagLo (45_cp0 R486). -/
def State.setTagsDouble (s : State) (v : DWord) : State := s.setTags (v.extractLsb' 32 32) (v.extractLsb' 0 32)

/-- CACHE_25 (R486): Index Load Data (D) -/
def execCache25 (base : RegNum) (offset : Half) (s : State) : Out :=
  cacheOp base offset (fun va _ t =>
    .val () (t.setTagsDouble (lineDouble (t.dLine (dIndex va)).data (va.extractLsb' 3 2)))) s

/-- TagHi and TagLo as one doubleword (45_cp0 R487). -/
def State.tagsDouble (s : State) : DWord := s.cp0.tagHi ++ s.cp0.tagLo

/-- CACHE_29 (R487): Index Store Data (D) -/
def execCache29 (base : RegNum) (offset : Half) (s : State) : Out :=
  cacheOp base offset (fun va _ t =>
    let l := t.dLine (dIndex va)
    .val () (t.setDLine (dIndex va) { l with data := lineSetDouble l.data (va.extractLsb' 3 2) t.tagsDouble })) s

/-- CACHE_3 (R489): Index WriteBack Invalidate (S) -/
def execCache3 (base : RegNum) (offset : Half) (s : State) : Out :=
  cacheOp base offset (fun _ pa t => if (t.sLine (sIndex pa)).state = 0 then .val () t else sFlush (sIndex pa) t) s

/-- TagHi and TagLo for a secondary line (45_cp0 R488). -/
def sTags (l : SLine) : Word × Word :=
  ((l.tag.extractLsb' 19 4).setWidth 32, l.tag.extractLsb' 0 19 ++ (0 : BitVec 1) ++ l.state ++ (0 : BitVec 10))

/-- CACHE_7 (R488): Index Load Tag (S) -/
def execCache7 (base : RegNum) (offset : Half) (s : State) : Out :=
  cacheOp base offset (fun _ pa t => .val () (t.setTags (sTags (t.sLine (sIndex pa))).1 (sTags (t.sLine (sIndex pa))).2)) s

/-- The secondary line with tag and state from TagLo and TagHi; the data stay (45_cp0 R493). -/
def SLine.fromTags (l : SLine) (hi lo : Word) : SLine :=
  { l with tag := hi.extractLsb' 0 4 ++ lo.extractLsb' 13 19, state := lo.extractLsb' 10 2 }

/-- CACHE_11 (R493): Index Store Tag (S) -/
def execCache11 (base : RegNum) (offset : Half) (s : State) : Out :=
  cacheOp base offset (fun _ pa t =>
    .val () (t.setSLine (sIndex pa) ((t.sLine (sIndex pa)).fromTags t.cp0.tagHi t.cp0.tagLo))) s

/-- CACHE_19 (R494): Hit Invalidate (S) -/
def execCache19 (base : RegNum) (offset : Half) (s : State) : Out :=
  cacheOp base offset (fun _ pa t =>
    match t.sHit pa with
    | none => .val () t
    | some k =>
      (dFlushHits false pa (subsetKeys pa) (t.dropILines (fun l => l.holds pa) (subsetKeys pa))).bind fun _ u =>
        .val () (u.sInvalidate k)) s

/-- CACHE_23 (R492): Hit WriteBack Invalidate (S), with the secondary cache off too (log 27) -/
def execCache23 (base : RegNum) (offset : Half) (s : State) : Out :=
  cacheOp base offset (fun _ pa t => match t.sHit pa with | none => .val () t | some k => sFlush k t) s

/-- CACHE_27 (R495): Index Load Data (S) -/
def execCache27 (base : RegNum) (offset : Half) (s : State) : Out :=
  cacheOp base offset (fun _ pa t =>
    .val () (t.setTagsDouble (lineDouble (t.sLine (sIndex pa)).data (pa.extractLsb' 3 2)))) s

/-- CACHE_31 (R496): Index Store Data (S) -/
def execCache31 (base : RegNum) (offset : Half) (s : State) : Out :=
  cacheOp base offset (fun _ pa t =>
    let l := t.sLine (sIndex pa)
    .val () (t.setSLine (sIndex pa) { l with data := lineSetDouble l.data (pa.extractLsb' 3 2) t.tagsDouble })) s

/-- CACHE (R480): an operation Table 51 does not list: nothing after the checks (log 25) -/
def execCache (base : RegNum) (_cacheop : BitVec 5) (offset : Half) (s : State) : Out :=
  cacheOp base offset (fun _ _ t => .val () t) s

end Sys2Proof.Machine
end

