-- ==== Sys2Proof/Machine/FpNum.lean ====
section
/-! DEFINITION. Floating-point arithmetic on bit patterns (46_fpu R523 to R530, R540 to R590): operands are taken apart,
the result is computed exactly on integers and rounded once. A single-precision pattern stands in the low 32 bits. -/

namespace Sys2Proof.Machine

/-- A format: its precision with the hidden bit and the width of its exponent; the pattern is `p + ew` bits
(46_fpu R523). -/
structure FpFmt where
  p : Nat
  ew : Nat
  deriving DecidableEq, Repr

/-- Format S. -/
def FpFmt.single : FpFmt := ⟨24, 8⟩

/-- Format D. -/
def FpFmt.double : FpFmt := ⟨53, 11⟩

/-- The exponent bias. -/
def FpFmt.bias (f : FpFmt) : Nat := 2 ^ (f.ew - 1) - 1

/-- The classes of an operand (46_fpu R525); a NaN is signaling when its fraction's top bit is set (R524). -/
inductive FpClass where
  | zero
  | denormal
  | normal
  | inf
  | qnan
  | snan
  deriving DecidableEq, Repr

/-- An operand taken apart: a finite one has the value `mag * 2 ^ exp` with its sign. -/
structure FpVal where
  neg : Bool
  cls : FpClass
  mag : Nat
  exp : Int
  deriving DecidableEq, Repr

/-- The bits of a pattern as a number. -/
def FpFmt.bits (f : FpFmt) (x : DWord) : Nat := x.toNat % 2 ^ (f.p + f.ew)

/-- The class of the pattern with biased exponent `e` and fraction `fr` (46_fpu R523, R524). -/
def FpFmt.classOf (f : FpFmt) (e fr : Nat) : FpClass :=
  if e = 2 ^ f.ew - 1 then
    if fr = 0 then .inf else if 2 ^ (f.p - 2) ≤ fr then .snan else .qnan
  else if e = 0 then (if fr = 0 then .zero else .denormal)
  else .normal

/-- Take a pattern apart (46_fpu R523). -/
def FpFmt.unpack (f : FpFmt) (x : DWord) : FpVal :=
  let n := f.bits x
  let e := n / 2 ^ (f.p - 1) % 2 ^ f.ew
  let fr := n % 2 ^ (f.p - 1)
  { neg := 2 ^ (f.p + f.ew - 1) ≤ n
    cls := f.classOf e fr
    mag := if e = 0 then fr else 2 ^ (f.p - 1) + fr
    exp := (if e = 0 then (1 : Int) else (e : Int)) - (f.bias : Int) - ((f.p : Int) - 1) }

def FpVal.isNan (v : FpVal) : Bool := v.cls = .qnan || v.cls = .snan
def FpVal.isSnan (v : FpVal) : Bool := v.cls = .snan
def FpVal.isInf (v : FpVal) : Bool := v.cls = .inf
def FpVal.isZero (v : FpVal) : Bool := v.cls = .zero

/-! ### Patterns -/

/-- The pattern with a sign, biased exponent and fraction. -/
def FpFmt.pack (f : FpFmt) (neg : Bool) (e fr : Nat) : DWord :=
  BitVec.ofNat 64 ((if neg then 2 ^ (f.p + f.ew - 1) else 0) + e * 2 ^ (f.p - 1) + fr)

def FpFmt.zeroOf (f : FpFmt) (neg : Bool) : DWord := f.pack neg 0 0
def FpFmt.infOf (f : FpFmt) (neg : Bool) : DWord := f.pack neg (2 ^ f.ew - 1) 0
def FpFmt.maxOf (f : FpFmt) (neg : Bool) : DWord := f.pack neg (2 ^ f.ew - 2) (2 ^ (f.p - 1) - 1)
def FpFmt.minNormalOf (f : FpFmt) (neg : Bool) : DWord := f.pack neg 1 0

/-- The quiet NaN the unit supplies: 0x7FBFFFFF or 0x7FF7FFFFFFFFFFFF (46_fpu R524; log 43). -/
def FpFmt.defaultNan (f : FpFmt) : DWord := f.pack false (2 ^ f.ew - 1) (2 ^ (f.p - 2) - 1)

/-- The sign bit of a pattern. -/
def FpFmt.signBit (f : FpFmt) : DWord := BitVec.ofNat 64 (2 ^ (f.p + f.ew - 1))

/-! ### Outcomes -/

/-- What an operation delivers: the exceptions it signalled and the pattern of its result. -/
structure FpOut where
  exc : FpExc
  bits : DWord
  deriving DecidableEq, Repr

/-- A result without an exception. -/
def FpOut.exact (x : DWord) : FpOut := ⟨FpExc.none, x⟩

/-- The operation is left to software: Cause.E (46_fpu R529). -/
def FpOut.unimplemented : FpOut := ⟨{ unimplemented := true }, 0⟩

/-- Invalid Operation with the result that replaces it. -/
def FpOut.invalid (x : DWord) : FpOut := ⟨{ invalid := true }, x⟩

/-! ### Rounding (46_fpu R526) -/

/-- Whether a magnitude cut to `m` is rounded up: `rem` of `2 * half` was cut off, and more below it if `sticky`. -/
def roundsUp (rm : BitVec 2) (neg : Bool) (m rem half : Nat) (sticky : Bool) : Bool :=
  match rm with
  | 0b00#2 => half < rem || (rem = half && (sticky || m % 2 = 1))
  | 0b01#2 => false
  | 0b10#2 => !neg && (rem ≠ 0 || sticky)
  | _ => neg && (rem ≠ 0 || sticky)

/-- A rounded magnitude `m * 2 ^ exp` with `2 ^ (p-1) ≤ m < 2 ^ p`, and whether it is exact. -/
structure Rounded where
  m : Nat
  exp : Int
  exact : Bool
  deriving DecidableEq, Repr

/-- `RoundUnbounded` of `mag * 2 ^ exp`, `mag > 0`; `sticky` adds a positive part below one unit, and then `mag` has
more than `p` bits (46_fpu R526). -/
def roundUnbounded (p : Nat) (rm : BitVec 2) (neg : Bool) (mag : Nat) (exp : Int) (sticky : Bool) : Rounded :=
  let b := Nat.log2 mag + 1
  if b ≤ p then ⟨mag * 2 ^ (p - b), exp - ((p - b : Nat) : Int), !sticky⟩
  else
    let d := b - p
    let m := mag / 2 ^ d
    let rem := mag % 2 ^ d
    let m' := if roundsUp rm neg m rem (2 ^ (d - 1)) sticky then m + 1 else m
    let exact := rem = 0 && !sticky
    if m' = 2 ^ p then ⟨2 ^ (p - 1), exp + (d : Int) + 1, exact⟩ else ⟨m', exp + (d : Int), exact⟩

/-- What an overflow delivers (46_fpu R527, Table 48 row O). -/
def FpFmt.overflowed (f : FpFmt) (rm : BitVec 2) (neg : Bool) : DWord :=
  match rm with
  | 0b00#2 => f.infOf neg
  | 0b01#2 => f.maxOf neg
  | 0b10#2 => if neg then f.maxOf true else f.infOf false
  | _ => if neg then f.infOf true else f.maxOf false

/-- What a result too small delivers with FS set (46_fpu R527, Table 48 row U; log 43). -/
def FpFmt.flushed (f : FpFmt) (rm : BitVec 2) (neg : Bool) : DWord :=
  match rm with
  | 0b10#2 => if neg then f.zeroOf true else f.minNormalOf false
  | 0b11#2 => if neg then f.minNormalOf true else f.zeroOf false
  | _ => f.zeroOf neg

/-- `Deliver`: round the exact nonzero result, then overflow, underflow or the number (46_fpu R527). -/
def FpFmt.deliver (f : FpFmt) (fcsr : Word) (neg : Bool) (mag : Nat) (exp : Int) (sticky : Bool) : FpOut :=
  let rm := fcsrRm fcsr
  let r := roundUnbounded f.p rm neg mag exp sticky
  let e := r.exp + ((f.p : Int) - 1) + (f.bias : Int)
  if (2 ^ f.ew - 1 : Nat) ≤ e then ⟨{ overflow := true, inexact := true }, f.overflowed rm neg⟩
  else if e ≤ 0 then
    if bit fcsr 8 || bit fcsr 7 || !fcsrFs fcsr then .unimplemented
    else ⟨{ underflow := true, inexact := true }, f.flushed rm neg⟩
  else ⟨{ inexact := !r.exact }, f.pack neg e.toNat (r.m - 2 ^ (f.p - 1))⟩

/-! ### Operations -/

/-- The screening every arithmetic operation makes of its operands: denormal or quiet NaN first, then signaling NaN
(46_fpu R529; log 43). -/
def FpFmt.screen (f : FpFmt) (vs : List FpVal) (k : FpOut) : FpOut :=
  if vs.any fun v => v.cls = .denormal || v.cls = .qnan then .unimplemented
  else if vs.any FpVal.isSnan then .invalid f.defaultNan
  else k

/-- `2 ^ n` for a nonnegative integer exponent. -/
def pow2 (n : Int) : Nat := 2 ^ n.toNat

/-- The sum of two finite values; a zero sum has the common sign, else plus, or minus when rounding down
(46_fpu R540). -/
def FpFmt.sum (f : FpFmt) (fcsr : Word) (na : Bool) (ma : Nat) (ea : Int) (nb : Bool) (mb : Nat) (eb : Int) : FpOut :=
  let e := min ea eb
  let a : Int := (ma * pow2 (ea - e) : Nat)
  let b : Int := (mb * pow2 (eb - e) : Nat)
  let x := (if na then -a else a) + (if nb then -b else b)
  if x = 0 then .exact (f.zeroOf (if na = nb then na else fcsrRm fcsr = 3))
  else f.deliver fcsr (x < 0) x.natAbs e false

/-- ADD (46_fpu R540). -/
def FpFmt.addVals (f : FpFmt) (fcsr : Word) (a b : FpVal) : FpOut :=
  f.screen [a, b] <|
    if a.isInf && b.isInf && a.neg ≠ b.neg then .invalid f.defaultNan
    else if a.isInf then .exact (f.infOf a.neg)
    else if b.isInf then .exact (f.infOf b.neg)
    else f.sum fcsr a.neg a.mag a.exp b.neg b.mag b.exp

def FpFmt.add (f : FpFmt) (fcsr : Word) (a b : DWord) : FpOut := f.addVals fcsr (f.unpack a) (f.unpack b)

/-- SUB: ADD with the second sign inverted after screening (46_fpu R542). -/
def FpFmt.sub (f : FpFmt) (fcsr : Word) (a b : DWord) : FpOut :=
  let v := f.unpack b
  f.addVals fcsr (f.unpack a) { v with neg := !v.neg }

/-- MUL (46_fpu R544). -/
def FpFmt.mul (f : FpFmt) (fcsr : Word) (a b : DWord) : FpOut :=
  let u := f.unpack a
  let v := f.unpack b
  let n := u.neg ^^ v.neg
  f.screen [u, v] <|
    if (u.isInf && v.isZero) || (u.isZero && v.isInf) then .invalid f.defaultNan
    else if u.isInf || v.isInf then .exact (f.infOf n)
    else if u.isZero || v.isZero then .exact (f.zeroOf n)
    else f.deliver fcsr n (u.mag * v.mag) (u.exp + v.exp) false

/-- DIV (46_fpu R546). -/
def FpFmt.div (f : FpFmt) (fcsr : Word) (a b : DWord) : FpOut :=
  let u := f.unpack a
  let v := f.unpack b
  let n := u.neg ^^ v.neg
  f.screen [u, v] <|
    if (u.isInf && v.isInf) || (u.isZero && v.isZero) then .invalid f.defaultNan
    else if u.isInf then .exact (f.infOf n)
    else if v.isZero then ⟨{ divByZero := true }, f.infOf n⟩
    else if v.isInf || u.isZero then .exact (f.zeroOf n)
    else
      let k := f.p + 3
      let q := u.mag * 2 ^ k / v.mag
      f.deliver fcsr n q (u.exp - v.exp - (k : Int)) (u.mag * 2 ^ k % v.mag ≠ 0)

/-- The integer square root of `n`, bit by bit from bit `k - 1` down. -/
def isqrt (n : Nat) : Nat → Nat → Nat
  | 0, r => r
  | k + 1, r => if (r + 2 ^ k) * (r + 2 ^ k) ≤ n then isqrt n k (r + 2 ^ k) else isqrt n k r

/-- SQRT (46_fpu R548). -/
def FpFmt.sqrt (f : FpFmt) (fcsr : Word) (a : DWord) : FpOut :=
  let u := f.unpack a
  f.screen [u] <|
    if u.isZero then .exact (f.zeroOf u.neg)
    else if u.neg then .invalid f.defaultNan
    else if u.isInf then .exact (f.infOf false)
    else
      let k := f.p + 4 + (u.exp - (f.p : Int)) % 2
      let n := u.mag * pow2 k
      let r := isqrt n (f.p + 4) 0
      f.deliver fcsr false r ((u.exp - k) / 2) (r * r ≠ n)

/-- ABS and NEG: arithmetic on the sign bit after screening (46_fpu R550, R554). -/
def FpFmt.abs (f : FpFmt) (a : DWord) : FpOut := f.screen [f.unpack a] (.exact (a &&& ~~~f.signBit))
def FpFmt.neg (f : FpFmt) (a : DWord) : FpOut := f.screen [f.unpack a] (.exact (a ^^^ f.signBit))

/-- The four multiply-adds: `subtract` takes the addend from the product, `negate` inverts the rounded result unless it
is the default NaN (47_fpu_ps R655; log 43). -/
def FpFmt.madd (f : FpFmt) (fcsr : Word) (subtract negate : Bool) (d a b : DWord) : FpOut :=
  let w := f.unpack d
  let u := f.unpack a
  let v := f.unpack b
  let n := u.neg ^^ v.neg
  let t := w.neg ^^ subtract
  let flip (o : FpOut) : FpOut :=
    if negate && !o.exc.unimplemented then { o with bits := o.bits ^^^ f.signBit } else o
  f.screen [w, u, v] <|
    if (u.isZero && v.isInf) || (u.isInf && v.isZero) then .invalid f.defaultNan
    else if u.isInf || v.isInf then
      if w.isInf && t ≠ n then .invalid f.defaultNan else flip (.exact (f.infOf n))
    else if w.isInf then flip (.exact (f.infOf t))
    else flip (f.sum fcsr n (u.mag * v.mag) (u.exp + v.exp) t w.mag w.exp)

/-! ### Conversions -/

/-- From one floating-point format to another (46_fpu R582, R585). -/
def FpFmt.convert (f g : FpFmt) (fcsr : Word) (a : DWord) : FpOut :=
  let u := f.unpack a
  g.screen [u] <|
    if u.isInf then .exact (g.infOf u.neg)
    else if u.isZero then .exact (g.zeroOf u.neg)
    else g.deliver fcsr u.neg u.mag u.exp false

/-- From a signed integer (46_fpu R583, R584, R586, R587). -/
def FpFmt.fromInt (f : FpFmt) (fcsr : Word) (n : Int) : FpOut :=
  if n = 0 then .exact (f.zeroOf false) else f.deliver fcsr (n < 0) n.natAbs 0 false

/-- `RoundInt`: the integer, and whether it is exact (46_fpu R526). -/
def roundInt (rm : BitVec 2) (v : FpVal) : Int × Bool :=
  let sign (m : Nat) : Int := if v.neg then -(m : Int) else m
  if 0 ≤ v.exp then (sign (v.mag * pow2 v.exp), true)
  else
    let d := (-v.exp).toNat
    let m := v.mag / 2 ^ d
    let rem := v.mag % 2 ^ d
    (sign (if roundsUp rm v.neg m rem (2 ^ (d - 1)) false then m + 1 else m), rem = 0)

/-- `ToFixed` to a two's-complement integer of `w` bits (46_fpu R561; log 43). -/
def FpFmt.toFixed (f : FpFmt) (w : Nat) (rm : BitVec 2) (a : DWord) : FpOut :=
  let u := f.unpack a
  let bad : FpOut := .invalid (BitVec.ofNat 64 (if u.neg then 2 ^ (w - 1) else 2 ^ (w - 1) - 1))
  if u.cls = .denormal then .unimplemented
  else if u.isInf || u.isNan then bad
  else
    let r := roundInt rm u
    if r.1 < -(2 ^ (w - 1) : Nat) || (2 ^ (w - 1) : Nat) ≤ r.1 then bad
    else ⟨{ inexact := !r.2 }, (BitVec.ofInt w r.1).setWidth 64⟩

/-! ### Comparison (46_fpu R590) -/

/-- A number that orders patterns which are no NaN: sign and magnitude, both zeros alike. -/
def FpFmt.orderKey (f : FpFmt) (x : DWord) : Int :=
  let n := f.bits x
  let m : Int := (n % 2 ^ (f.p + f.ew - 1) : Nat)
  if 2 ^ (f.p + f.ew - 1) ≤ n then -m else m

/-- `Compare`: the condition, and Invalid for a signaling NaN or, with cond[3], any unordered pair. -/
def FpFmt.compare (f : FpFmt) (cond : BitVec 4) (a b : DWord) : Bool × FpExc :=
  let u := f.unpack a
  let v := f.unpack b
  let unordered := u.isNan || v.isNan
  let less := !unordered && f.orderKey a < f.orderKey b
  let equal := !unordered && f.orderKey a = f.orderKey b
  ((bit cond 2 && less) || (bit cond 1 && equal) || (bit cond 0 && unordered),
   { invalid := u.isSnan || v.isSnan || (bit cond 3 && unordered) })

end Sys2Proof.Machine
end

