-- ==== Sys2Proof/Machine/Fpu.lean ====
section
/-! DEFINITION. The floating-point instructions in formats S, D, W and L (46_fpu); the branches on CC0 are in Branch.lean. -/

namespace Sys2Proof.Machine

/-! ### Ending a floating-point operation (46_fpu R530, R560) -/

/-- `FPFinish`: Cause and Flags new, then the Floating-Point exception, or the result (46_fpu R530). -/
def fpFinish (x : FpExc) (write : State → State) (s : State) : Out :=
  let t := s.setFcsr (fcsrAfter s.fcsr x)
  if fcsrTraps t.fcsr then raise .floatingPoint t else done (write t)

/-- A 32-bit operand as the arithmetic takes it: the pattern in the low half (46_fpu R522). -/
def State.x32 (s : State) (n : RegNum) : DWord := zext64 (s.f32 n)

/-- An operation with a 32-bit result; `regs` are its 64-bit operands. -/
def finish32 (regs : List RegNum) (fd : RegNum) (o : FpOut) (s : State) : Out :=
  withFpu64 s regs (fpFinish o.exc (fun t => t.setF32 fd (low32 o.bits)) s)

/-- An operation with a 64-bit result; `regs` are its 64-bit operands. -/
def finish64 (regs : List RegNum) (fd : RegNum) (o : FpOut) (s : State) : Out :=
  withFpu64 s (fd :: regs) (fpFinish o.exc (fun t => t.setF64 fd o.bits) s)

/-- A divide or square root: Unimplemented while its unit is disabled, before the operands are looked at
(46_fpu R532, R560). -/
def withUnit (disabled : Bool) (s : State) (k : Out) : Out :=
  withFpu s (if disabled then fpFinish { unimplemented := true } (fun t => t) s else k)

/-- A compare in one format: CC0 gets the condition (46_fpu R590). -/
def finishCompare (regs : List RegNum) (c : Bool × FpExc) (s : State) : Out :=
  withFpu64 s regs (fpFinish c.2 (fun t => t.setFcsr (fcsrSetCc t.fcsr 0 c.1)) s)

/-- The four directions of a conversion to an integer (10_state R78, 46_fpu R561). -/
def toNearest : BitVec 2 := 0
def toZero : BitVec 2 := 1
def toPlus : BitVec 2 := 2
def toMinus : BitVec 2 := 3

/-! ### Arithmetic -/

/-- ADD.S (R540) -/
def execAddS (ft fs fd : RegNum) (s : State) : Out :=
  finish32 [] fd (FpFmt.single.add s.fcsr (s.x32 fs) (s.x32 ft)) s

/-- ADD.D (R541) -/
def execAddD (ft fs fd : RegNum) (s : State) : Out :=
  finish64 [fs, ft] fd (FpFmt.double.add s.fcsr (s.f64 fs) (s.f64 ft)) s

/-- SUB.S (R542) -/
def execSubS (ft fs fd : RegNum) (s : State) : Out :=
  finish32 [] fd (FpFmt.single.sub s.fcsr (s.x32 fs) (s.x32 ft)) s

/-- SUB.D (R543) -/
def execSubD (ft fs fd : RegNum) (s : State) : Out :=
  finish64 [fs, ft] fd (FpFmt.double.sub s.fcsr (s.f64 fs) (s.f64 ft)) s

/-- MUL.S (R544) -/
def execMulS (ft fs fd : RegNum) (s : State) : Out :=
  finish32 [] fd (FpFmt.single.mul s.fcsr (s.x32 fs) (s.x32 ft)) s

/-- MUL.D (R545) -/
def execMulD (ft fs fd : RegNum) (s : State) : Out :=
  finish64 [fs, ft] fd (FpFmt.double.mul s.fcsr (s.f64 fs) (s.f64 ft)) s

/-- DIV.S (R546) -/
def execDivS (ft fs fd : RegNum) (s : State) : Out :=
  withUnit s.noFdiv s (finish32 [] fd (FpFmt.single.div s.fcsr (s.x32 fs) (s.x32 ft)) s)

/-- DIV.D (R547) -/
def execDivD (ft fs fd : RegNum) (s : State) : Out :=
  withUnit s.noFdiv s (finish64 [fs, ft] fd (FpFmt.double.div s.fcsr (s.f64 fs) (s.f64 ft)) s)

/-- SQRT.S (R548) -/
def execSqrtS (fs fd : RegNum) (s : State) : Out :=
  withUnit s.noFsqr s (finish32 [] fd (FpFmt.single.sqrt s.fcsr (s.x32 fs)) s)

/-- SQRT.D (R549) -/
def execSqrtD (fs fd : RegNum) (s : State) : Out :=
  withUnit s.noFsqr s (finish64 [fs] fd (FpFmt.double.sqrt s.fcsr (s.f64 fs)) s)

/-- ABS.S (R550) -/
def execAbsS (fs fd : RegNum) (s : State) : Out := finish32 [] fd (FpFmt.single.abs (s.x32 fs)) s

/-- ABS.D (R551) -/
def execAbsD (fs fd : RegNum) (s : State) : Out := finish64 [fs] fd (FpFmt.double.abs (s.f64 fs)) s

/-- NEG.S (R554) -/
def execNegS (fs fd : RegNum) (s : State) : Out := finish32 [] fd (FpFmt.single.neg (s.x32 fs)) s

/-- NEG.D (R555) -/
def execNegD (fs fd : RegNum) (s : State) : Out := finish64 [fs] fd (FpFmt.double.neg (s.f64 fs)) s

/-- MOV.S (R552) -/
def execMovS (fs fd : RegNum) (s : State) : Out := withFpu s (done (s.setF32 fd (s.f32 fs)))

/-- MOV.D (R553) -/
def execMovD (fs fd : RegNum) (s : State) : Out := withFpu64 s [fs, fd] (done (s.setF64 fd (s.f64 fs)))

/-! ### Conversions -/

/-- ROUND.L.S (R562) -/
def execRoundLS (fs fd : RegNum) (s : State) : Out :=
  finish64 [] fd (FpFmt.single.toFixed 64 toNearest (s.x32 fs)) s

/-- ROUND.L.D (R563) -/
def execRoundLD (fs fd : RegNum) (s : State) : Out :=
  finish64 [fs] fd (FpFmt.double.toFixed 64 toNearest (s.f64 fs)) s

/-- TRUNC.L.S (R564) -/
def execTruncLS (fs fd : RegNum) (s : State) : Out :=
  finish64 [] fd (FpFmt.single.toFixed 64 toZero (s.x32 fs)) s

/-- TRUNC.L.D (R565) -/
def execTruncLD (fs fd : RegNum) (s : State) : Out :=
  finish64 [fs] fd (FpFmt.double.toFixed 64 toZero (s.f64 fs)) s

/-- CEIL.L.S (R566) -/
def execCeilLS (fs fd : RegNum) (s : State) : Out :=
  finish64 [] fd (FpFmt.single.toFixed 64 toPlus (s.x32 fs)) s

/-- CEIL.L.D (R567) -/
def execCeilLD (fs fd : RegNum) (s : State) : Out :=
  finish64 [fs] fd (FpFmt.double.toFixed 64 toPlus (s.f64 fs)) s

/-- FLOOR.L.S (R568) -/
def execFloorLS (fs fd : RegNum) (s : State) : Out :=
  finish64 [] fd (FpFmt.single.toFixed 64 toMinus (s.x32 fs)) s

/-- FLOOR.L.D (R569) -/
def execFloorLD (fs fd : RegNum) (s : State) : Out :=
  finish64 [fs] fd (FpFmt.double.toFixed 64 toMinus (s.f64 fs)) s

/-- CVT.L.S (R580) -/
def execCvtLS (fs fd : RegNum) (s : State) : Out :=
  finish64 [] fd (FpFmt.single.toFixed 64 (fcsrRm s.fcsr) (s.x32 fs)) s

/-- CVT.L.D (R581) -/
def execCvtLD (fs fd : RegNum) (s : State) : Out :=
  finish64 [fs] fd (FpFmt.double.toFixed 64 (fcsrRm s.fcsr) (s.f64 fs)) s

/-- ROUND.W.S (R570) -/
def execRoundWS (fs fd : RegNum) (s : State) : Out :=
  finish32 [] fd (FpFmt.single.toFixed 32 toNearest (s.x32 fs)) s

/-- ROUND.W.D (R571) -/
def execRoundWD (fs fd : RegNum) (s : State) : Out :=
  finish32 [fs] fd (FpFmt.double.toFixed 32 toNearest (s.f64 fs)) s

/-- TRUNC.W.S (R572) -/
def execTruncWS (fs fd : RegNum) (s : State) : Out :=
  finish32 [] fd (FpFmt.single.toFixed 32 toZero (s.x32 fs)) s

/-- TRUNC.W.D (R573) -/
def execTruncWD (fs fd : RegNum) (s : State) : Out :=
  finish32 [fs] fd (FpFmt.double.toFixed 32 toZero (s.f64 fs)) s

/-- CEIL.W.S (R574) -/
def execCeilWS (fs fd : RegNum) (s : State) : Out :=
  finish32 [] fd (FpFmt.single.toFixed 32 toPlus (s.x32 fs)) s

/-- CEIL.W.D (R575) -/
def execCeilWD (fs fd : RegNum) (s : State) : Out :=
  finish32 [fs] fd (FpFmt.double.toFixed 32 toPlus (s.f64 fs)) s

/-- FLOOR.W.S (R576) -/
def execFloorWS (fs fd : RegNum) (s : State) : Out :=
  finish32 [] fd (FpFmt.single.toFixed 32 toMinus (s.x32 fs)) s

/-- FLOOR.W.D (R577) -/
def execFloorWD (fs fd : RegNum) (s : State) : Out :=
  finish32 [fs] fd (FpFmt.double.toFixed 32 toMinus (s.f64 fs)) s

/-- CVT.W.S (R578) -/
def execCvtWS (fs fd : RegNum) (s : State) : Out :=
  finish32 [] fd (FpFmt.single.toFixed 32 (fcsrRm s.fcsr) (s.x32 fs)) s

/-- CVT.W.D (R579) -/
def execCvtWD (fs fd : RegNum) (s : State) : Out :=
  finish32 [fs] fd (FpFmt.double.toFixed 32 (fcsrRm s.fcsr) (s.f64 fs)) s

/-- CVT.S.D (R582) -/
def execCvtSD (fs fd : RegNum) (s : State) : Out :=
  finish32 [fs] fd (FpFmt.double.convert FpFmt.single s.fcsr (s.f64 fs)) s

/-- CVT.S.W (R583) -/
def execCvtSW (fs fd : RegNum) (s : State) : Out :=
  finish32 [] fd (FpFmt.single.fromInt s.fcsr (s.f32 fs).toInt) s

/-- CVT.S.L (R584) -/
def execCvtSL (fs fd : RegNum) (s : State) : Out :=
  finish32 [fs] fd (FpFmt.single.fromInt s.fcsr (s.f64 fs).toInt) s

/-- CVT.D.S (R585) -/
def execCvtDS (fs fd : RegNum) (s : State) : Out :=
  finish64 [] fd (FpFmt.single.convert FpFmt.double s.fcsr (s.x32 fs)) s

/-- CVT.D.W (R586) -/
def execCvtDW (fs fd : RegNum) (s : State) : Out :=
  finish64 [] fd (FpFmt.double.fromInt s.fcsr (s.f32 fs).toInt) s

/-- CVT.D.L (R587) -/
def execCvtDL (fs fd : RegNum) (s : State) : Out :=
  finish64 [fs] fd (FpFmt.double.fromInt s.fcsr (s.f64 fs).toInt) s

/-! ### Compares -/

/-- C.F.S (R592) -/
def execCFS (ft fs : RegNum) (s : State) : Out :=
  finishCompare [] (FpFmt.single.compare 0 (s.x32 fs) (s.x32 ft)) s

/-- C.F.D (R592) -/
def execCFD (ft fs : RegNum) (s : State) : Out :=
  finishCompare [fs, ft] (FpFmt.double.compare 0 (s.f64 fs) (s.f64 ft)) s

/-- C.UN.S (R593) -/
def execCUnS (ft fs : RegNum) (s : State) : Out :=
  finishCompare [] (FpFmt.single.compare 1 (s.x32 fs) (s.x32 ft)) s

/-- C.UN.D (R593) -/
def execCUnD (ft fs : RegNum) (s : State) : Out :=
  finishCompare [fs, ft] (FpFmt.double.compare 1 (s.f64 fs) (s.f64 ft)) s

/-- C.EQ.S (R594) -/
def execCEqS (ft fs : RegNum) (s : State) : Out :=
  finishCompare [] (FpFmt.single.compare 2 (s.x32 fs) (s.x32 ft)) s

/-- C.EQ.D (R594) -/
def execCEqD (ft fs : RegNum) (s : State) : Out :=
  finishCompare [fs, ft] (FpFmt.double.compare 2 (s.f64 fs) (s.f64 ft)) s

/-- C.UEQ.S (R595) -/
def execCUeqS (ft fs : RegNum) (s : State) : Out :=
  finishCompare [] (FpFmt.single.compare 3 (s.x32 fs) (s.x32 ft)) s

/-- C.UEQ.D (R595) -/
def execCUeqD (ft fs : RegNum) (s : State) : Out :=
  finishCompare [fs, ft] (FpFmt.double.compare 3 (s.f64 fs) (s.f64 ft)) s

/-- C.OLT.S (R596) -/
def execCOltS (ft fs : RegNum) (s : State) : Out :=
  finishCompare [] (FpFmt.single.compare 4 (s.x32 fs) (s.x32 ft)) s

/-- C.OLT.D (R596) -/
def execCOltD (ft fs : RegNum) (s : State) : Out :=
  finishCompare [fs, ft] (FpFmt.double.compare 4 (s.f64 fs) (s.f64 ft)) s

/-- C.ULT.S (R597) -/
def execCUltS (ft fs : RegNum) (s : State) : Out :=
  finishCompare [] (FpFmt.single.compare 5 (s.x32 fs) (s.x32 ft)) s

/-- C.ULT.D (R597) -/
def execCUltD (ft fs : RegNum) (s : State) : Out :=
  finishCompare [fs, ft] (FpFmt.double.compare 5 (s.f64 fs) (s.f64 ft)) s

/-- C.OLE.S (R598) -/
def execCOleS (ft fs : RegNum) (s : State) : Out :=
  finishCompare [] (FpFmt.single.compare 6 (s.x32 fs) (s.x32 ft)) s

/-- C.OLE.D (R598) -/
def execCOleD (ft fs : RegNum) (s : State) : Out :=
  finishCompare [fs, ft] (FpFmt.double.compare 6 (s.f64 fs) (s.f64 ft)) s

/-- C.ULE.S (R599) -/
def execCUleS (ft fs : RegNum) (s : State) : Out :=
  finishCompare [] (FpFmt.single.compare 7 (s.x32 fs) (s.x32 ft)) s

/-- C.ULE.D (R599) -/
def execCUleD (ft fs : RegNum) (s : State) : Out :=
  finishCompare [fs, ft] (FpFmt.double.compare 7 (s.f64 fs) (s.f64 ft)) s

/-- C.SF.S (R600) -/
def execCSfS (ft fs : RegNum) (s : State) : Out :=
  finishCompare [] (FpFmt.single.compare 8 (s.x32 fs) (s.x32 ft)) s

/-- C.SF.D (R600) -/
def execCSfD (ft fs : RegNum) (s : State) : Out :=
  finishCompare [fs, ft] (FpFmt.double.compare 8 (s.f64 fs) (s.f64 ft)) s

/-- C.NGLE.S (R601) -/
def execCNgleS (ft fs : RegNum) (s : State) : Out :=
  finishCompare [] (FpFmt.single.compare 9 (s.x32 fs) (s.x32 ft)) s

/-- C.NGLE.D (R601) -/
def execCNgleD (ft fs : RegNum) (s : State) : Out :=
  finishCompare [fs, ft] (FpFmt.double.compare 9 (s.f64 fs) (s.f64 ft)) s

/-- C.SEQ.S (R602) -/
def execCSeqS (ft fs : RegNum) (s : State) : Out :=
  finishCompare [] (FpFmt.single.compare 10 (s.x32 fs) (s.x32 ft)) s

/-- C.SEQ.D (R602) -/
def execCSeqD (ft fs : RegNum) (s : State) : Out :=
  finishCompare [fs, ft] (FpFmt.double.compare 10 (s.f64 fs) (s.f64 ft)) s

/-- C.NGL.S (R603) -/
def execCNglS (ft fs : RegNum) (s : State) : Out :=
  finishCompare [] (FpFmt.single.compare 11 (s.x32 fs) (s.x32 ft)) s

/-- C.NGL.D (R603) -/
def execCNglD (ft fs : RegNum) (s : State) : Out :=
  finishCompare [fs, ft] (FpFmt.double.compare 11 (s.f64 fs) (s.f64 ft)) s

/-- C.LT.S (R604) -/
def execCLtS (ft fs : RegNum) (s : State) : Out :=
  finishCompare [] (FpFmt.single.compare 12 (s.x32 fs) (s.x32 ft)) s

/-- C.LT.D (R604) -/
def execCLtD (ft fs : RegNum) (s : State) : Out :=
  finishCompare [fs, ft] (FpFmt.double.compare 12 (s.f64 fs) (s.f64 ft)) s

/-- C.NGE.S (R605) -/
def execCNgeS (ft fs : RegNum) (s : State) : Out :=
  finishCompare [] (FpFmt.single.compare 13 (s.x32 fs) (s.x32 ft)) s

/-- C.NGE.D (R605) -/
def execCNgeD (ft fs : RegNum) (s : State) : Out :=
  finishCompare [fs, ft] (FpFmt.double.compare 13 (s.f64 fs) (s.f64 ft)) s

/-- C.LE.S (R606) -/
def execCLeS (ft fs : RegNum) (s : State) : Out :=
  finishCompare [] (FpFmt.single.compare 14 (s.x32 fs) (s.x32 ft)) s

/-- C.LE.D (R606) -/
def execCLeD (ft fs : RegNum) (s : State) : Out :=
  finishCompare [fs, ft] (FpFmt.double.compare 14 (s.f64 fs) (s.f64 ft)) s

/-- C.NGT.S (R607) -/
def execCNgtS (ft fs : RegNum) (s : State) : Out :=
  finishCompare [] (FpFmt.single.compare 15 (s.x32 fs) (s.x32 ft)) s

/-- C.NGT.D (R607) -/
def execCNgtD (ft fs : RegNum) (s : State) : Out :=
  finishCompare [fs, ft] (FpFmt.double.compare 15 (s.f64 fs) (s.f64 ft)) s

/-! ### Moves (46_fpu R613 to R618) -/

/-- MFC1 (R613) -/
def execMfc1 (rt fs : RegNum) (s : State) : Out := withFpu s (done (s.setR rt (sext64 (s.f32 fs))))

/-- DMFC1 (R614) -/
def execDmfc1 (rt fs : RegNum) (s : State) : Out := withFpu64 s [fs] (done (s.setR rt (s.f64 fs)))

/-- MTC1 (R615) -/
def execMtc1 (rt fs : RegNum) (s : State) : Out := withFpu s (done (s.setF32 fs (low32 (s.r rt))))

/-- DMTC1 (R616) -/
def execDmtc1 (rt fs : RegNum) (s : State) : Out := withFpu64 s [fs] (done (s.setF64 fs (s.r rt)))

/-- The FPU control registers as CFC1 reads them: FCR0, FCSR, every other one 0 (46_fpu R617). -/
def State.readFcr (s : State) (n : RegNum) : DWord :=
  if n = 0 then sext64 Config.fcr0 else if n = 31 then sext64 s.fcsr else 0

/-- CFC1 (R617) -/
def execCfc1 (rt fs : RegNum) (s : State) : Out := withFpu s (done (s.setR rt (s.readFcr fs)))

/-- CTC1's write of FCSR: bits 22:18 are fixed at 0 (46_fpu R618, 10_state R73). -/
def fcsrFromGpr (v : DWord) : Word := low32 v &&& 0xFF83FFFF

/-- CTC1 (R618): FCSR written, then the trap if a Cause bit is set with its Enable, or E -/
def execCtc1 (rt fs : RegNum) (s : State) : Out :=
  withFpu s (
    if fs = 31 then
      let t := s.setFcsr (fcsrFromGpr (s.r rt))
      if fcsrTraps t.fcsr then raise .floatingPoint t else done t
    else done s)

end Sys2Proof.Machine
end

