-- ==== Sys2Proof/Machine/FpuFixed.lean ====
section
/-! DEFINITION. The scalar fixed-point instructions on the floating-point registers (49_fpu_fixed). -/

namespace Sys2Proof.Machine

/-- A fixed-point result on the FPRs (49_fpu_fixed R751). -/
def fixed2 (op : DWord → DWord → DWord) (ft fs fd : RegNum) (s : State) : Out :=
  withFpu64 s [fs, ft, fd] (done (s.setF64 fd (op (s.f64 fs) (s.f64 ft))))

/-- A fixed-point result that traps on overflow, nothing written (49_fpu_fixed R753). -/
def fixedOr (overflows : DWord → DWord → Bool) (op : DWord → DWord → DWord) (ft fs fd : RegNum) (s : State) : Out :=
  withFpu64 s [fs, ft, fd] (
    if overflows (s.f64 fs) (s.f64 ft) then raise .overflow s
    else done (s.setF64 fd (op (s.f64 fs) (s.f64 ft))))

/-- A compare on the FPRs: CC0 alone changes (49_fpu_fixed R780). -/
def fixedCompare (op : DWord → DWord → Bool) (ft fs : RegNum) (s : State) : Out :=
  withFpu64 s [fs, ft] (done (s.setFcsr (fcsrSetCc s.fcsr 0 (op (s.f64 fs) (s.f64 ft)))))

/-- A left or logical right shift whose count is a whole register: zero from the width on (49_fpu_fixed R754). -/
def shiftBy {w : Nat} (op : BitVec w → Nat → BitVec w) (x : BitVec w) (count : DWord) : BitVec w :=
  if count.toNat < w then op x count.toNat else 0

/-- An arithmetic right shift: copies of the sign from the width on (49_fpu_fixed R754). -/
def shiftSigned {w : Nat} (x : BitVec w) (count : DWord) : BitVec w := x.sshiftRight (min count.toNat (w - 1))

/-- Add (R756) -/
def execFxAdd (ft fs fd : RegNum) (s : State) : Out :=
  fixedOr (fun x y => addOverflows (low32 x) (low32 y)) (fun x y => sext64 (low32 x + low32 y)) ft fs fd s

/-- Addu (R757) -/
def execFxAddu (ft fs fd : RegNum) (s : State) : Out :=
  fixed2 (fun x y => sext64 (low32 x + low32 y)) ft fs fd s

/-- Dadd (R758) -/
def execFxDadd (ft fs fd : RegNum) (s : State) : Out := fixedOr addOverflows (· + ·) ft fs fd s

/-- Sub (R759) -/
def execFxSub (ft fs fd : RegNum) (s : State) : Out :=
  fixedOr (fun x y => subOverflows (low32 x) (low32 y)) (fun x y => sext64 (low32 x - low32 y)) ft fs fd s

/-- Subu (R760) -/
def execFxSubu (ft fs fd : RegNum) (s : State) : Out :=
  fixed2 (fun x y => sext64 (low32 x - low32 y)) ft fs fd s

/-- Dsub (R761) -/
def execFxDsub (ft fs fd : RegNum) (s : State) : Out := fixedOr subOverflows (· - ·) ft fs fd s

/-- Or (R762) -/
def execFxOr (ft fs fd : RegNum) (s : State) : Out := fixed2 (· ||| ·) ft fs fd s

/-- Xor (R763) -/
def execFxXor (ft fs fd : RegNum) (s : State) : Out := fixed2 (· ^^^ ·) ft fs fd s

/-- Nor (R764) -/
def execFxNor (ft fs fd : RegNum) (s : State) : Out := fixed2 (fun x y => ~~~(x ||| y)) ft fs fd s

/-- And (R765) -/
def execFxAnd (ft fs fd : RegNum) (s : State) : Out := fixed2 (· &&& ·) ft fs fd s

/-- Sll (R766) -/
def execFxSll (ft fs fd : RegNum) (s : State) : Out :=
  fixed2 (fun x y => sext64 (shiftBy (fun v n => v <<< n) (low32 x) y)) ft fs fd s

/-- Srl (R767) -/
def execFxSrl (ft fs fd : RegNum) (s : State) : Out :=
  fixed2 (fun x y => sext64 (shiftBy (fun v n => v >>> n) (low32 x) y)) ft fs fd s

/-- Sra (R768) -/
def execFxSra (ft fs fd : RegNum) (s : State) : Out :=
  fixed2 (fun x y => sext64 (shiftSigned (low32 x) y)) ft fs fd s

/-- Dsll (R769) -/
def execFxDsll (ft fs fd : RegNum) (s : State) : Out := fixed2 (shiftBy fun v n => v <<< n) ft fs fd s

/-- Dsrl (R770) -/
def execFxDsrl (ft fs fd : RegNum) (s : State) : Out := fixed2 (shiftBy fun v n => v >>> n) ft fs fd s

/-- Dsra (R771) -/
def execFxDsra (ft fs fd : RegNum) (s : State) : Out := fixed2 shiftSigned ft fs fd s

/-- Sequ (R781) -/
def execFxSequ (ft fs : RegNum) (s : State) : Out := fixedCompare (fun x y => x == y) ft fs s

/-- Seq (R782) -/
def execFxSeq (ft fs : RegNum) (s : State) : Out := fixedCompare (fun x y => x == y) ft fs s

/-- Sltu (R783) -/
def execFxSltu (ft fs : RegNum) (s : State) : Out := fixedCompare BitVec.ult ft fs s

/-- Slt (R784) -/
def execFxSlt (ft fs : RegNum) (s : State) : Out := fixedCompare BitVec.slt ft fs s

/-- Sleu (R785) -/
def execFxSleu (ft fs : RegNum) (s : State) : Out := fixedCompare BitVec.ule ft fs s

/-- Sle (R786) -/
def execFxSle (ft fs : RegNum) (s : State) : Out := fixedCompare BitVec.sle ft fs s

end Sys2Proof.Machine
end

