-- ==== Sys2Proof/Machine/LoadStore.lean ====
section
/-! DEFINITION. The loads and stores (40_loads_stores). -/

namespace Sys2Proof.Machine

/-- The loads of one width: to register 0 a prefetch, else the datum, extended (40_loads_stores R242, R243, R246). -/
def loadGpr (n : Nat) (extend : DWord → DWord) (base rt : RegNum) (offset : Half) (s : State) : Out :=
  if rt = 0 then done (s.prefetch (s.ea base offset) n)
  else (s.load (s.ea base offset) n).andThen fun m t => done (t.setR rt (extend m))

/-- The stores of one width (40_loads_stores R242). -/
def storeGpr (n : Nat) (base rt : RegNum) (offset : Half) (s : State) : Out :=
  (s.store (s.ea base offset) n (s.r rt)).andThen fun _ t => done t

/-- A left or right load: `m` bytes from `va0`, merged into `rt` (40_loads_stores R252 to R255). -/
def loadPart (base rt : RegNum) (offset : Half) (va0 : DWord → DWord) (count : DWord → Nat)
    (merge : DWord → DWord → DWord → DWord) (s : State) : Out :=
  let va := s.ea base offset
  if rt = 0 then done (s.prefetch va 1)
  else (s.loadBytes va (va0 va) (count va)).andThen fun m t => done (t.setR rt (merge va m (t.r rt)))

/-- A left or right store: the low `m` bytes of a part of `rt` from `va0` up (40_loads_stores R260 to R263). -/
def storePart (base rt : RegNum) (offset : Half) (va0 : DWord → DWord) (count : DWord → Nat)
    (part : DWord → DWord → DWord) (s : State) : Out :=
  let va := s.ea base offset
  (s.storeBytes va (va0 va) (count va) (part va (s.r rt))).andThen fun _ t => done t

/-- The position of `va` in its aligned word. -/
def inWord (va : DWord) : Nat := (va.extractLsb' 0 2).toNat

/-- The position of `va` in its aligned doubleword. -/
def inDouble (va : DWord) : Nat := (va.extractLsb' 0 3).toNat

/-- The aligned word holding `va`. -/
def wordBase (va : DWord) : DWord := va &&& ~~~3

/-- The aligned doubleword holding `va`. -/
def doubleBase (va : DWord) : DWord := va &&& ~~~7

/-- LWL's result: the bytes up to `va` on top, the rest of the low word kept (40_loads_stores R252; log 48). -/
def mergeWordLeft (va m old : DWord) : DWord :=
  let k := 24 - 8 * inWord va
  sext64 ((low32 m <<< k) ||| (low32 old &&& BitVec.ofNat 32 (2 ^ k - 1)))

/-- LWR's result: the bytes from `va` at the bottom, the rest of the low word kept, and the merged word sign-extended
also where its sign is an old bit (40_loads_stores R253; log 48). -/
def mergeWordRight (va m old : DWord) : DWord :=
  let k := 32 - 8 * inWord va
  sext64 ((low32 old &&& ~~~BitVec.ofNat 32 (2 ^ k - 1)) ||| low32 m)

/-- LDL's result (40_loads_stores R254). -/
def mergeDoubleLeft (va m old : DWord) : DWord :=
  let k := 56 - 8 * inDouble va
  (m <<< k) ||| (old &&& BitVec.ofNat 64 (2 ^ k - 1))

/-- LDR's result (40_loads_stores R255). -/
def mergeDoubleRight (va m old : DWord) : DWord :=
  let k := 64 - 8 * inDouble va
  (old &&& ~~~BitVec.ofNat 64 (2 ^ k - 1)) ||| m

/-- A load-linked: the load, and the link bit set (40_loads_stores R268, R269). -/
def loadLinked (n : Nat) (extend : DWord → DWord) (base rt : RegNum) (offset : Half) (s : State) : Out :=
  if rt = 0 then done (s.prefetch (s.ea base offset) n)
  else (s.load (s.ea base offset) n).andThen fun m t => done ((t.setR rt (extend m)).setLlbit true)

/-- A store-conditional: the address checks always, the store if the link bit is set, which is then cleared
(40_loads_stores R270, R271). -/
def storeConditional (n : Nat) (base rt : RegNum) (offset : Half) (s : State) : Out :=
  let va := s.ea base offset
  if aligned n va then
    (s.access .store va fun s attr pa => if s.llbit then s.writeAttr attr va pa n (s.r rt) else .val () s).andThen
      fun _ t => done ((t.setR rt (if s.llbit then 1 else 0)).setLlbit false)
  else raise (.addressError true va) s

/-- LB (R244) -/
def execLb (base rt : RegNum) (offset : Half) (s : State) : Out :=
  loadGpr 1 (fun m => sext64 (m.extractLsb' 0 8)) base rt offset s

/-- LBU (R245) -/
def execLbu (base rt : RegNum) (offset : Half) (s : State) : Out :=
  loadGpr 1 (fun m => zext64 (m.extractLsb' 0 8)) base rt offset s

/-- LH (R247) -/
def execLh (base rt : RegNum) (offset : Half) (s : State) : Out :=
  loadGpr 2 (fun m => sext64 (m.extractLsb' 0 16)) base rt offset s

/-- LHU (R248) -/
def execLhu (base rt : RegNum) (offset : Half) (s : State) : Out :=
  loadGpr 2 (fun m => zext64 (m.extractLsb' 0 16)) base rt offset s

/-- LW (R249) -/
def execLw (base rt : RegNum) (offset : Half) (s : State) : Out :=
  loadGpr 4 (fun m => sext64 (low32 m)) base rt offset s

/-- LWU (R250) -/
def execLwu (base rt : RegNum) (offset : Half) (s : State) : Out :=
  loadGpr 4 (fun m => zext64 (low32 m)) base rt offset s

/-- LD (R251) -/
def execLd (base rt : RegNum) (offset : Half) (s : State) : Out := loadGpr 8 (fun m => m) base rt offset s

/-- LWL (R252) -/
def execLwl (base rt : RegNum) (offset : Half) (s : State) : Out :=
  loadPart base rt offset wordBase (fun va => inWord va + 1) mergeWordLeft s

/-- LWR (R253) -/
def execLwr (base rt : RegNum) (offset : Half) (s : State) : Out :=
  loadPart base rt offset (fun va => va) (fun va => 4 - inWord va) mergeWordRight s

/-- LDL (R254) -/
def execLdl (base rt : RegNum) (offset : Half) (s : State) : Out :=
  loadPart base rt offset doubleBase (fun va => inDouble va + 1) mergeDoubleLeft s

/-- LDR (R255) -/
def execLdr (base rt : RegNum) (offset : Half) (s : State) : Out :=
  loadPart base rt offset (fun va => va) (fun va => 8 - inDouble va) mergeDoubleRight s

/-- SB (R256) -/
def execSb (base rt : RegNum) (offset : Half) (s : State) : Out := storeGpr 1 base rt offset s

/-- SH (R257) -/
def execSh (base rt : RegNum) (offset : Half) (s : State) : Out := storeGpr 2 base rt offset s

/-- SW (R258) -/
def execSw (base rt : RegNum) (offset : Half) (s : State) : Out := storeGpr 4 base rt offset s

/-- SD (R259) -/
def execSd (base rt : RegNum) (offset : Half) (s : State) : Out := storeGpr 8 base rt offset s

/-- SWL (R260) -/
def execSwl (base rt : RegNum) (offset : Half) (s : State) : Out :=
  storePart base rt offset wordBase (fun va => inWord va + 1)
    (fun va v => (zext64 (low32 v)) >>> (24 - 8 * inWord va)) s

/-- SWR (R261) -/
def execSwr (base rt : RegNum) (offset : Half) (s : State) : Out :=
  storePart base rt offset (fun va => va) (fun va => 4 - inWord va) (fun _ v => v) s

/-- SDL (R262) -/
def execSdl (base rt : RegNum) (offset : Half) (s : State) : Out :=
  storePart base rt offset doubleBase (fun va => inDouble va + 1) (fun va v => v >>> (56 - 8 * inDouble va)) s

/-- SDR (R263) -/
def execSdr (base rt : RegNum) (offset : Half) (s : State) : Out :=
  storePart base rt offset (fun va => va) (fun va => 8 - inDouble va) (fun _ v => v) s

/-- LL (R268) -/
def execLl (base rt : RegNum) (offset : Half) (s : State) : Out :=
  loadLinked 4 (fun m => sext64 (low32 m)) base rt offset s

/-- LLD (R269) -/
def execLld (base rt : RegNum) (offset : Half) (s : State) : Out := loadLinked 8 (fun m => m) base rt offset s

/-- SC (R270) -/
def execSc (base rt : RegNum) (offset : Half) (s : State) : Out := storeConditional 4 base rt offset s

/-- SCD (R271) -/
def execScd (base rt : RegNum) (offset : Half) (s : State) : Out := storeConditional 8 base rt offset s

/-- LWC1 (R264) -/
def execLwc1 (base ft : RegNum) (offset : Half) (s : State) : Out :=
  withFpu s ((s.load (s.ea base offset) 4).andThen fun m t => done (t.setF32 ft (low32 m)))

/-- LDC1 (R265) -/
def execLdc1 (base ft : RegNum) (offset : Half) (s : State) : Out :=
  withFpu64 s [ft] ((s.load (s.ea base offset) 8).andThen fun m t => done (t.setF64 ft m))

/-- SWC1 (R266) -/
def execSwc1 (base ft : RegNum) (offset : Half) (s : State) : Out :=
  withFpu s ((s.store (s.ea base offset) 4 (zext64 (s.f32 ft))).andThen fun _ t => done t)

/-- SDC1 (R267) -/
def execSdc1 (base ft : RegNum) (offset : Half) (s : State) : Out :=
  withFpu64 s [ft] ((s.store (s.ea base offset) 8 (s.f64 ft)).andThen fun _ t => done t)

end Sys2Proof.Machine
end

