-- ==== Sys2Proof/Machine/MulDiv.lean ====
section
/-! DEFINITION. Multiply, divide, HI and LO, and the .G instructions (42_muldiv). -/

namespace Sys2Proof.Machine

/-- A product into HI and LO (42_muldiv R357 to R360). -/
def setProduct (hi lo : DWord) (s : State) : Out := done (s.setHiLo hi lo)

/-- Quotient and remainder into LO and HI; by a zero divisor both are free values (42_muldiv R353; log 11). -/
def setQuotient (zeroDivisor : Bool) (quotient remainder : DWord) (s : State) : Out :=
  if zeroDivisor then
    let t := s.free.2
    done (t.free.2.setHiLo (BitVec.ofNat 64 t.free.1) (BitVec.ofNat 64 s.free.1))
  else done (s.setHiLo remainder quotient)

/-- One result of a division into `rd`; by a zero divisor a free value (42_muldiv R353; log 11). -/
def setDivided (zeroDivisor : Bool) (rd : RegNum) (v : DWord) (s : State) : Out :=
  if zeroDivisor then done (s.free.2.setR rd (BitVec.ofNat 64 s.free.1)) else done (s.setR rd v)

/-- The full signed product. -/
def smulFull {w : Nat} (a b : BitVec w) : BitVec (w + w) := a.signExtend (w + w) * b.signExtend (w + w)

/-- The full unsigned product. -/
def umulFull {w : Nat} (a b : BitVec w) : BitVec (w + w) := a.setWidth (w + w) * b.setWidth (w + w)

/-- MULT (R357) -/
def execMult (rs rt : RegNum) (s : State) : Out :=
  let p := smulFull (low32 (s.r rs)) (low32 (s.r rt))
  setProduct (sext64 (p.extractLsb' 32 32)) (sext64 (p.extractLsb' 0 32)) s

/-- MULTU (R358) -/
def execMultu (rs rt : RegNum) (s : State) : Out :=
  let p := umulFull (low32 (s.r rs)) (low32 (s.r rt))
  setProduct (sext64 (p.extractLsb' 32 32)) (sext64 (p.extractLsb' 0 32)) s

/-- DMULT (R359) -/
def execDmult (rs rt : RegNum) (s : State) : Out :=
  let p := smulFull (s.r rs) (s.r rt)
  setProduct (p.extractLsb' 64 64) (p.extractLsb' 0 64) s

/-- DMULTU (R360) -/
def execDmultu (rs rt : RegNum) (s : State) : Out :=
  let p := umulFull (s.r rs) (s.r rt)
  setProduct (p.extractLsb' 64 64) (p.extractLsb' 0 64) s

/-- DIV (R361) -/
def execDiv (rs rt : RegNum) (s : State) : Out :=
  let a := low32 (s.r rs)
  let b := low32 (s.r rt)
  setQuotient (b = 0) (sext64 (a.sdiv b)) (sext64 (a.srem b)) s

/-- DDIV (R363) -/
def execDdiv (rs rt : RegNum) (s : State) : Out :=
  setQuotient (s.r rt = 0) ((s.r rs).sdiv (s.r rt)) ((s.r rs).srem (s.r rt)) s

/-- DIVU (R362) -/
def execDivu (rs rt : RegNum) (s : State) : Out :=
  let a := low32 (s.r rs)
  let b := low32 (s.r rt)
  setQuotient (b = 0) (sext64 (a.udiv b)) (sext64 (a.umod b)) s

/-- DDIVU (R364) -/
def execDdivu (rs rt : RegNum) (s : State) : Out :=
  setQuotient (s.r rt = 0) ((s.r rs).udiv (s.r rt)) ((s.r rs).umod (s.r rt)) s

/-- MFHI (R365) -/
def execMfhi (rd : RegNum) (s : State) : Out := done (s.setR rd s.hi)

/-- MFLO (R367) -/
def execMflo (rd : RegNum) (s : State) : Out := done (s.setR rd s.lo)

/-- MTHI (R366) -/
def execMthi (rs : RegNum) (s : State) : Out := done (s.setHi (s.r rs))

/-- MTLO (R368) -/
def execMtlo (rs : RegNum) (s : State) : Out := done (s.setLo (s.r rs))

/-- MULT.G (R369) -/
def execMultG (rs rt rd : RegNum) (s : State) : Out :=
  done (s.setR rd (sext64 ((smulFull (low32 (s.r rs)) (low32 (s.r rt))).extractLsb' 0 32)))

/-- MULTU.G (R370) -/
def execMultuG (rs rt rd : RegNum) (s : State) : Out :=
  done (s.setR rd (sext64 ((umulFull (low32 (s.r rs)) (low32 (s.r rt))).extractLsb' 0 32)))

/-- DMULT.G (R371) -/
def execDmultG (rs rt rd : RegNum) (s : State) : Out :=
  done (s.setR rd ((smulFull (s.r rs) (s.r rt)).extractLsb' 0 64))

/-- DMULTU.G (R372) -/
def execDmultuG (rs rt rd : RegNum) (s : State) : Out :=
  done (s.setR rd ((umulFull (s.r rs) (s.r rt)).extractLsb' 0 64))

/-- DIV.G (R373) -/
def execDivG (rs rt rd : RegNum) (s : State) : Out :=
  let a := low32 (s.r rs)
  let b := low32 (s.r rt)
  setDivided (b = 0) rd (sext64 (a.sdiv b)) s

/-- DDIV.G (R375) -/
def execDdivG (rs rt rd : RegNum) (s : State) : Out := setDivided (s.r rt = 0) rd ((s.r rs).sdiv (s.r rt)) s

/-- DIVU.G (R374) -/
def execDivuG (rs rt rd : RegNum) (s : State) : Out :=
  let a := low32 (s.r rs)
  let b := low32 (s.r rt)
  setDivided (b = 0) rd (sext64 (a.udiv b)) s

/-- DDIVU.G (R376) -/
def execDdivuG (rs rt rd : RegNum) (s : State) : Out := setDivided (s.r rt = 0) rd ((s.r rs).udiv (s.r rt)) s

/-- MOD.G (R377) -/
def execModG (rs rt rd : RegNum) (s : State) : Out :=
  let a := low32 (s.r rs)
  let b := low32 (s.r rt)
  setDivided (b = 0) rd (sext64 (a.srem b)) s

/-- DMOD.G (R379) -/
def execDmodG (rs rt rd : RegNum) (s : State) : Out := setDivided (s.r rt = 0) rd ((s.r rs).srem (s.r rt)) s

/-- MODU.G (R378) -/
def execModuG (rs rt rd : RegNum) (s : State) : Out :=
  let a := low32 (s.r rs)
  let b := low32 (s.r rt)
  setDivided (b = 0) rd (sext64 (a.umod b)) s

/-- DMODU.G (R380) -/
def execDmoduG (rs rt rd : RegNum) (s : State) : Out := setDivided (s.r rt = 0) rd ((s.r rs).umod (s.r rt)) s

end Sys2Proof.Machine
end

