-- ==== Sys2Proof/Machine/Multimedia.lean ====
section
/-! DEFINITION. The packed-integer instructions on the floating-point registers (48_multimedia). -/

namespace Sys2Proof.Machine

/-- Element `i` of a packed value, `w` bits wide; element 0 is the lowest (48_multimedia, conventions). -/
def lane (w : Nat) (x : DWord) (i : Nat) : BitVec w := x.extractLsb' (w * i) w

/-- The packed value of the first `n` elements of `f`. -/
def pack {w : Nat} (f : Nat → BitVec w) : Nat → DWord
  | 0 => 0
  | n + 1 => pack f n ||| (f n).setWidth 64 <<< (w * n)

/-- An operation on each of `n` pairs of elements. -/
def lanes2 {w : Nat} (n : Nat) (op : BitVec w → BitVec w → BitVec w) (x y : DWord) : DWord :=
  pack (fun i => op (lane w x i) (lane w y i)) n

/-- An operation on each of `n` elements. -/
def lanes1 {w : Nat} (n : Nat) (op : BitVec w → BitVec w) (x : DWord) : DWord := pack (fun i => op (lane w x i)) n

/-- Eight bytes, four halfwords, two words. -/
def bytes2 (op : Byte → Byte → Byte) : DWord → DWord → DWord := lanes2 8 op
def halves2 (op : Half → Half → Half) : DWord → DWord → DWord := lanes2 4 op
def words2 (op : Word → Word → Word) : DWord → DWord → DWord := lanes2 2 op

/-- `SatS8`, `SatS16`: the nearest signed value of `w` bits (48_multimedia R674). -/
def satS (w : Nat) (v : Int) : BitVec w :=
  if v > 2 ^ (w - 1) - 1 then BitVec.ofNat w (2 ^ (w - 1) - 1)
  else if v < -2 ^ (w - 1) then BitVec.ofNat w (2 ^ (w - 1))
  else BitVec.ofInt w v

/-- `SatU8`, `SatU16`: the nearest unsigned value of `w` bits (48_multimedia R674). -/
def satU (w : Nat) (v : Int) : BitVec w :=
  if v > 2 ^ w - 1 then BitVec.allOnes w else if v < 0 then 0 else BitVec.ofInt w v

/-- The unsigned reading as an integer. -/
def unsigned {w : Nat} (x : BitVec w) : Int := x.toNat

/-- All ones if the condition holds, else zero: a packed compare's element (48_multimedia, 7). -/
def maskIf {w : Nat} (c : Bool) : BitVec w := if c then BitVec.allOnes w else 0

/-- The rounded average of two unsigned elements (48_multimedia R711, R712). -/
def average {w : Nat} (x y : BitVec w) : BitVec w := BitVec.ofNat w ((x.toNat + y.toNat + 1) / 2)

/-- The high half of a product of halfwords (48_multimedia R727, R729). -/
def highHalf (p : BitVec (16 + 16)) : Half := p.extractLsb' 16 16

/-- The full signed product of two halfwords (48_multimedia R726). -/
def halfProduct (x y : Half) : BitVec (16 + 16) := x.signExtend (16 + 16) * y.signExtend (16 + 16)

/-- The shift count of the packed shifts: the low seven bits of the operand; the elements' own shifts give zeros, or
copies of the sign, from their width on (48_multimedia R723). -/
def shiftCount (t : DWord) : Nat := (t.extractLsb' 0 7).toNat

/-- Interleave the elements of `x` and `y` from element `base` on: `x` even, `y` odd (48_multimedia R701 to R706). -/
def unpackFrom (w base n : Nat) (x y : DWord) : DWord :=
  pack (fun i => if i % 2 = 0 then lane w x (base + i / 2) else lane w y (base + i / 2)) n

/-- Narrow the elements of `x` into the low half and of `y` into the high half (48_multimedia R697 to R699). -/
def packFrom (w : Nat) {v : Nat} (n : Nat) (sat : BitVec w → BitVec v) (x y : DWord) : DWord :=
  pack (fun i => if i < n then sat (lane w x i) else sat (lane w y (i - n))) (2 * n)

/-- Replace halfword `i` of `x` by the low halfword of `y` (48_multimedia R707 to R710). -/
def insertHalf (i : Nat) (x y : DWord) : DWord := writeLanes x (2 * i) 2 y

/-- The sum of the first `n` bytes of `x` (48_multimedia R736). -/
def byteSum (x : DWord) : Nat → Nat
  | 0 => 0
  | n + 1 => byteSum x n + (lane 8 x n).toNat

/-- One word of PMADDHW: two products of adjacent halfwords added (48_multimedia R738). -/
def dotPair (x y : DWord) (i : Nat) : Word :=
  halfProduct (lane 16 x (2 * i)) (lane 16 y (2 * i)) + halfProduct (lane 16 x (2 * i + 1)) (lane 16 y (2 * i + 1))

/-- A packed operation: CU1, the operands, the result into `fd`; FCSR is left alone (48_multimedia R672, R673). -/
def packed2 (op : DWord → DWord → DWord) (ft fs fd : RegNum) (s : State) : Out :=
  withFpu64 s [fs, ft, fd] (done (s.setF64 fd (op (s.f64 fs) (s.f64 ft))))

/-- A packed operation of one operand. -/
def packed1 (op : DWord → DWord) (fs fd : RegNum) (s : State) : Out :=
  withFpu64 s [fs, fd] (done (s.setF64 fd (op (s.f64 fs))))

/-- PADDB (R680) -/
def execPaddb (ft fs fd : RegNum) (s : State) : Out := packed2 (bytes2 (· + ·)) ft fs fd s

/-- PADDH (R681) -/
def execPaddh (ft fs fd : RegNum) (s : State) : Out := packed2 (halves2 (· + ·)) ft fs fd s

/-- PADDW (R682) -/
def execPaddw (ft fs fd : RegNum) (s : State) : Out := packed2 (words2 (· + ·)) ft fs fd s

/-- PADDD (R683) -/
def execPaddd (ft fs fd : RegNum) (s : State) : Out := packed2 (· + ·) ft fs fd s

/-- PADDSB (R684) -/
def execPaddsb (ft fs fd : RegNum) (s : State) : Out :=
  packed2 (bytes2 fun x y => satS 8 (x.toInt + y.toInt)) ft fs fd s

/-- PADDUSB (R686) -/
def execPaddusb (ft fs fd : RegNum) (s : State) : Out :=
  packed2 (bytes2 fun x y => satU 8 (unsigned x + unsigned y)) ft fs fd s

/-- PADDSH (R685) -/
def execPaddsh (ft fs fd : RegNum) (s : State) : Out :=
  packed2 (halves2 fun x y => satS 16 (x.toInt + y.toInt)) ft fs fd s

/-- PADDUSH (R687) -/
def execPaddush (ft fs fd : RegNum) (s : State) : Out :=
  packed2 (halves2 fun x y => satU 16 (unsigned x + unsigned y)) ft fs fd s

/-- PSUBB (R688) -/
def execPsubb (ft fs fd : RegNum) (s : State) : Out := packed2 (bytes2 (· - ·)) ft fs fd s

/-- PSUBH (R689) -/
def execPsubh (ft fs fd : RegNum) (s : State) : Out := packed2 (halves2 (· - ·)) ft fs fd s

/-- PSUBW (R690) -/
def execPsubw (ft fs fd : RegNum) (s : State) : Out := packed2 (words2 (· - ·)) ft fs fd s

/-- PSUBD (R691) -/
def execPsubd (ft fs fd : RegNum) (s : State) : Out := packed2 (· - ·) ft fs fd s

/-- PSUBSB (R692) -/
def execPsubsb (ft fs fd : RegNum) (s : State) : Out :=
  packed2 (bytes2 fun x y => satS 8 (x.toInt - y.toInt)) ft fs fd s

/-- PSUBUSB (R694) -/
def execPsubusb (ft fs fd : RegNum) (s : State) : Out :=
  packed2 (bytes2 fun x y => satU 8 (unsigned x - unsigned y)) ft fs fd s

/-- PSUBSH (R693) -/
def execPsubsh (ft fs fd : RegNum) (s : State) : Out :=
  packed2 (halves2 fun x y => satS 16 (x.toInt - y.toInt)) ft fs fd s

/-- PSUBUSH (R695) -/
def execPsubush (ft fs fd : RegNum) (s : State) : Out :=
  packed2 (halves2 fun x y => satU 16 (unsigned x - unsigned y)) ft fs fd s

/-- PSHUFH (R696) -/
def execPshufh (ft fs fd : RegNum) (s : State) : Out :=
  packed2 (fun x y => pack (fun i => lane 16 x (lane 2 y i).toNat) 4) ft fs fd s

/-- PACKSSWH (R697) -/
def execPacksswh (ft fs fd : RegNum) (s : State) : Out :=
  packed2 (packFrom 32 2 fun x => satS 16 x.toInt) ft fs fd s

/-- PACKSSHB (R698) -/
def execPacksshb (ft fs fd : RegNum) (s : State) : Out :=
  packed2 (packFrom 16 4 fun x => satS 8 x.toInt) ft fs fd s

/-- PACKUSHB (R699) -/
def execPackushb (ft fs fd : RegNum) (s : State) : Out :=
  packed2 (packFrom 16 4 fun x => satU 8 x.toInt) ft fs fd s

/-- PANDN (R700) -/
def execPandn (ft fs fd : RegNum) (s : State) : Out := packed2 (fun x y => ~~~x &&& y) ft fs fd s

/-- PUNPCKLHW (R701) -/
def execPunpcklhw (ft fs fd : RegNum) (s : State) : Out := packed2 (unpackFrom 16 0 4) ft fs fd s

/-- PUNPCKHHW (R702) -/
def execPunpckhhw (ft fs fd : RegNum) (s : State) : Out := packed2 (unpackFrom 16 2 4) ft fs fd s

/-- PUNPCKLBH (R703) -/
def execPunpcklbh (ft fs fd : RegNum) (s : State) : Out := packed2 (unpackFrom 8 0 8) ft fs fd s

/-- PUNPCKHBH (R704) -/
def execPunpckhbh (ft fs fd : RegNum) (s : State) : Out := packed2 (unpackFrom 8 4 8) ft fs fd s

/-- PUNPCKLWD (R705) -/
def execPunpcklwd (ft fs fd : RegNum) (s : State) : Out := packed2 (unpackFrom 32 0 2) ft fs fd s

/-- PUNPCKHWD (R706) -/
def execPunpckhwd (ft fs fd : RegNum) (s : State) : Out := packed2 (unpackFrom 32 1 2) ft fs fd s

/-- PINSRH_0 (R707) -/
def execPinsrh0 (ft fs fd : RegNum) (s : State) : Out := packed2 (insertHalf 0) ft fs fd s

/-- PINSRH_1 (R708) -/
def execPinsrh1 (ft fs fd : RegNum) (s : State) : Out := packed2 (insertHalf 1) ft fs fd s

/-- PINSRH_2 (R709) -/
def execPinsrh2 (ft fs fd : RegNum) (s : State) : Out := packed2 (insertHalf 2) ft fs fd s

/-- PINSRH_3 (R710) -/
def execPinsrh3 (ft fs fd : RegNum) (s : State) : Out := packed2 (insertHalf 3) ft fs fd s

/-- PAVGH (R711) -/
def execPavgh (ft fs fd : RegNum) (s : State) : Out := packed2 (halves2 average) ft fs fd s

/-- PAVGB (R712) -/
def execPavgb (ft fs fd : RegNum) (s : State) : Out := packed2 (bytes2 average) ft fs fd s

/-- PMAXSH (R713) -/
def execPmaxsh (ft fs fd : RegNum) (s : State) : Out :=
  packed2 (halves2 fun x y => if y.slt x then x else y) ft fs fd s

/-- PMINSH (R714) -/
def execPminsh (ft fs fd : RegNum) (s : State) : Out :=
  packed2 (halves2 fun x y => if x.slt y then x else y) ft fs fd s

/-- PMAXUB (R715) -/
def execPmaxub (ft fs fd : RegNum) (s : State) : Out :=
  packed2 (bytes2 fun x y => if y.ult x then x else y) ft fs fd s

/-- PMINUB (R716) -/
def execPminub (ft fs fd : RegNum) (s : State) : Out :=
  packed2 (bytes2 fun x y => if x.ult y then x else y) ft fs fd s

/-- PCMPEQW (R717) -/
def execPcmpeqw (ft fs fd : RegNum) (s : State) : Out :=
  packed2 (words2 fun x y => maskIf (x == y)) ft fs fd s

/-- PCMPGTW (R718) -/
def execPcmpgtw (ft fs fd : RegNum) (s : State) : Out :=
  packed2 (words2 fun x y => maskIf (y.slt x)) ft fs fd s

/-- PCMPEQH (R719) -/
def execPcmpeqh (ft fs fd : RegNum) (s : State) : Out :=
  packed2 (halves2 fun x y => maskIf (x == y)) ft fs fd s

/-- PCMPGTH (R720) -/
def execPcmpgth (ft fs fd : RegNum) (s : State) : Out :=
  packed2 (halves2 fun x y => maskIf (y.slt x)) ft fs fd s

/-- PCMPEQB (R721) -/
def execPcmpeqb (ft fs fd : RegNum) (s : State) : Out :=
  packed2 (bytes2 fun x y => maskIf (x == y)) ft fs fd s

/-- PCMPGTB (R722) -/
def execPcmpgtb (ft fs fd : RegNum) (s : State) : Out :=
  packed2 (bytes2 fun x y => maskIf (y.slt x)) ft fs fd s

/-- PSLLW (R724) -/
def execPsllw (ft fs fd : RegNum) (s : State) : Out :=
  packed2 (fun x y => lanes1 (w := 32) 2 (· <<< shiftCount y) x) ft fs fd s

/-- PSLLH (R725) -/
def execPsllh (ft fs fd : RegNum) (s : State) : Out :=
  packed2 (fun x y => lanes1 (w := 16) 4 (· <<< shiftCount y) x) ft fs fd s

/-- PMULLH (R726) -/
def execPmullh (ft fs fd : RegNum) (s : State) : Out :=
  packed2 (halves2 fun x y => (halfProduct x y).extractLsb' 0 16) ft fs fd s

/-- PMULHH (R727) -/
def execPmulhh (ft fs fd : RegNum) (s : State) : Out :=
  packed2 (halves2 fun x y => highHalf (halfProduct x y)) ft fs fd s

/-- PMULUW (R728) -/
def execPmuluw (ft fs fd : RegNum) (s : State) : Out :=
  packed2 (fun x y => zext64 (lane 32 x 0) * zext64 (lane 32 y 0)) ft fs fd s

/-- PMULHUH (R729) -/
def execPmulhuh (ft fs fd : RegNum) (s : State) : Out :=
  packed2 (halves2 fun x y => highHalf (x.setWidth (16 + 16) * y.setWidth (16 + 16))) ft fs fd s

/-- PSRLW (R731) -/
def execPsrlw (ft fs fd : RegNum) (s : State) : Out :=
  packed2 (fun x y => lanes1 (w := 32) 2 (· >>> shiftCount y) x) ft fs fd s

/-- PSRLH (R732) -/
def execPsrlh (ft fs fd : RegNum) (s : State) : Out :=
  packed2 (fun x y => lanes1 (w := 16) 4 (· >>> shiftCount y) x) ft fs fd s

/-- PSRAW (R733) -/
def execPsraw (ft fs fd : RegNum) (s : State) : Out :=
  packed2 (fun x y => lanes1 (w := 32) 2 (·.sshiftRight (shiftCount y)) x) ft fs fd s

/-- PSRAH (R734) -/
def execPsrah (ft fs fd : RegNum) (s : State) : Out :=
  packed2 (fun x y => lanes1 (w := 16) 4 (·.sshiftRight (shiftCount y)) x) ft fs fd s

/-- PASUBUB (R735) -/
def execPasubub (ft fs fd : RegNum) (s : State) : Out :=
  packed2 (bytes2 fun x y => if y.ult x then x - y else y - x) ft fs fd s

/-- BIADD (R736) -/
def execBiadd (fs fd : RegNum) (s : State) : Out := packed1 (fun x => BitVec.ofNat 64 (byteSum x 8)) fs fd s

/-- PEXTRH (R737) -/
def execPextrh (ft fs fd : RegNum) (s : State) : Out :=
  packed2 (fun x y => zext64 (lane 16 x (lane 2 y 0).toNat)) ft fs fd s

/-- PMADDHW (R738) -/
def execPmaddhw (ft fs fd : RegNum) (s : State) : Out := packed2 (fun x y => pack (dotPair x y) 2) ft fs fd s

/-- PMOVMSKB (R739) -/
def execPmovmskb (fs fd : RegNum) (s : State) : Out :=
  packed1 (fun x => pack (fun i => ofBool (lane 8 x i).msb) 8) fs fd s

end Sys2Proof.Machine
end

