-- ==== Sys2Proof/Machine/Paired.lean ====
section
/-! DEFINITION. The paired-single instructions and the multiply-adds (47_fpu_ps_madd). -/

namespace Sys2Proof.Machine

/-- The high half of a paired operand, as a single-precision operand (47_fpu_ps R621). -/
def hiHalf (x : DWord) : DWord := zext64 (x.extractLsb' 32 32)

/-- The low half of a paired operand (47_fpu_ps R621). -/
def loHalf (x : DWord) : DWord := zext64 (low32 x)

/-- Both halves' outcomes as one: the exceptions together, the results side by side (47_fpu_ps R621). -/
def pairOut (hi lo : FpOut) : FpOut := ⟨hi.exc.or lo.exc, low32 hi.bits ++ low32 lo.bits⟩

/-- An operation of two operands on both halves (47_fpu_ps R621). -/
def paired2 (op : DWord → DWord → FpOut) (fs ft fd : RegNum) (s : State) : Out :=
  let a := s.f64 fs
  let b := s.f64 ft
  finish64 [fs, ft] fd (pairOut (op (hiHalf a) (hiHalf b)) (op (loHalf a) (loHalf b))) s

/-- An operation of one operand on both halves (47_fpu_ps R621). -/
def paired1 (op : DWord → FpOut) (fs fd : RegNum) (s : State) : Out :=
  let a := s.f64 fs
  finish64 [fs] fd (pairOut (op (hiHalf a)) (op (loHalf a))) s

/-- `ComparePS`: CC0 from the low half, CC1 from the high half (47_fpu_ps R636). -/
def pairedCompare (cond : BitVec 4) (fs ft : RegNum) (s : State) : Out :=
  let hi := FpFmt.single.compare cond (hiHalf (s.f64 fs)) (hiHalf (s.f64 ft))
  let lo := FpFmt.single.compare cond (loHalf (s.f64 fs)) (loHalf (s.f64 ft))
  withFpu64 s [fs, ft]
    (fpFinish (hi.2.or lo.2) (fun t => t.setFcsr (fcsrSetCc (fcsrSetCc t.fcsr 0 lo.1) 1 hi.1)) s)

/-- A multiply-add in format S: `fd` is addend and destination (47_fpu_ps R655). -/
def maddSingle (subtract negate : Bool) (ft fs fd : RegNum) (s : State) : Out :=
  finish32 [] fd (FpFmt.single.madd s.fcsr subtract negate (s.x32 fd) (s.x32 fs) (s.x32 ft)) s

/-- A multiply-add in format D. -/
def maddDouble (subtract negate : Bool) (ft fs fd : RegNum) (s : State) : Out :=
  finish64 [fs, ft] fd (FpFmt.double.madd s.fcsr subtract negate (s.f64 fd) (s.f64 fs) (s.f64 ft)) s

/-- A multiply-add on both halves. -/
def maddPaired (subtract negate : Bool) (ft fs fd : RegNum) (s : State) : Out :=
  let op := FpFmt.single.madd s.fcsr subtract negate
  let d := s.f64 fd
  let a := s.f64 fs
  let b := s.f64 ft
  finish64 [fs, ft] fd
    (pairOut (op (hiHalf d) (hiHalf a) (hiHalf b)) (op (loHalf d) (loHalf a) (loHalf b))) s

/-- ADD.PS (R622) -/
def execAddPs (ft fs fd : RegNum) (s : State) : Out := paired2 (FpFmt.single.add s.fcsr) fs ft fd s

/-- SUB.PS (R623) -/
def execSubPs (ft fs fd : RegNum) (s : State) : Out := paired2 (FpFmt.single.sub s.fcsr) fs ft fd s

/-- MUL.PS (R624) -/
def execMulPs (ft fs fd : RegNum) (s : State) : Out := paired2 (FpFmt.single.mul s.fcsr) fs ft fd s

/-- ABS.PS (R625) -/
def execAbsPs (fs fd : RegNum) (s : State) : Out := paired1 FpFmt.single.abs fs fd s

/-- MOV.PS (R626) -/
def execMovPs (fs fd : RegNum) (s : State) : Out := withFpu64 s [fs, fd] (done (s.setF64 fd (s.f64 fs)))

/-- NEG.PS (R627) -/
def execNegPs (fs fd : RegNum) (s : State) : Out := paired1 FpFmt.single.neg fs fd s

/-- C.F.PS (R637) -/
def execCFPs (ft fs : RegNum) (s : State) : Out := pairedCompare 0 fs ft s

/-- C.UN.PS (R638) -/
def execCUnPs (ft fs : RegNum) (s : State) : Out := pairedCompare 1 fs ft s

/-- C.EQ.PS (R639) -/
def execCEqPs (ft fs : RegNum) (s : State) : Out := pairedCompare 2 fs ft s

/-- C.UEQ.PS (R640) -/
def execCUeqPs (ft fs : RegNum) (s : State) : Out := pairedCompare 3 fs ft s

/-- C.OLT.PS (R641) -/
def execCOltPs (ft fs : RegNum) (s : State) : Out := pairedCompare 4 fs ft s

/-- C.ULT.PS (R642) -/
def execCUltPs (ft fs : RegNum) (s : State) : Out := pairedCompare 5 fs ft s

/-- C.OLE.PS (R643) -/
def execCOlePs (ft fs : RegNum) (s : State) : Out := pairedCompare 6 fs ft s

/-- C.ULE.PS (R644) -/
def execCUlePs (ft fs : RegNum) (s : State) : Out := pairedCompare 7 fs ft s

/-- C.SF.PS (R645) -/
def execCSfPs (ft fs : RegNum) (s : State) : Out := pairedCompare 8 fs ft s

/-- C.NGLE.PS (R646) -/
def execCNglePs (ft fs : RegNum) (s : State) : Out := pairedCompare 9 fs ft s

/-- C.SEQ.PS (R647) -/
def execCSeqPs (ft fs : RegNum) (s : State) : Out := pairedCompare 10 fs ft s

/-- C.NGL.PS (R648) -/
def execCNglPs (ft fs : RegNum) (s : State) : Out := pairedCompare 11 fs ft s

/-- C.LT.PS (R649) -/
def execCLtPs (ft fs : RegNum) (s : State) : Out := pairedCompare 12 fs ft s

/-- C.NGE.PS (R650) -/
def execCNgePs (ft fs : RegNum) (s : State) : Out := pairedCompare 13 fs ft s

/-- C.LE.PS (R651) -/
def execCLePs (ft fs : RegNum) (s : State) : Out := pairedCompare 14 fs ft s

/-- C.NGT.PS (R652) -/
def execCNgtPs (ft fs : RegNum) (s : State) : Out := pairedCompare 15 fs ft s

/-- MADD.S (R656) -/
def execMaddS (ft fs fd : RegNum) (s : State) : Out := maddSingle false false ft fs fd s

/-- MADD.D (R657) -/
def execMaddD (ft fs fd : RegNum) (s : State) : Out := maddDouble false false ft fs fd s

/-- MADD.PS (R658) -/
def execMaddPs (ft fs fd : RegNum) (s : State) : Out := maddPaired false false ft fs fd s

/-- MSUB.S (R659) -/
def execMsubS (ft fs fd : RegNum) (s : State) : Out := maddSingle true false ft fs fd s

/-- MSUB.D (R660) -/
def execMsubD (ft fs fd : RegNum) (s : State) : Out := maddDouble true false ft fs fd s

/-- MSUB.PS (R661) -/
def execMsubPs (ft fs fd : RegNum) (s : State) : Out := maddPaired true false ft fs fd s

/-- NMADD.S (R662) -/
def execNmaddS (ft fs fd : RegNum) (s : State) : Out := maddSingle false true ft fs fd s

/-- NMADD.D (R663) -/
def execNmaddD (ft fs fd : RegNum) (s : State) : Out := maddDouble false true ft fs fd s

/-- NMADD.PS (R664) -/
def execNmaddPs (ft fs fd : RegNum) (s : State) : Out := maddPaired false true ft fs fd s

/-- NMSUB.S (R665) -/
def execNmsubS (ft fs fd : RegNum) (s : State) : Out := maddSingle true true ft fs fd s

/-- NMSUB.D (R666) -/
def execNmsubD (ft fs fd : RegNum) (s : State) : Out := maddDouble true true ft fs fd s

/-- NMSUB.PS (R667) -/
def execNmsubPs (ft fs fd : RegNum) (s : State) : Out := maddPaired true true ft fs fd s

end Sys2Proof.Machine
end

