-- ==== Sys2Proof/Machine/System.lean ====
section
/-! DEFINITION. The CP0 moves, the TLB instructions and ERET (45_cp0). -/

namespace Sys2Proof.Machine

/-- A move from CP0: registers 24 and 25 are readable in every mode (45_cp0 R464). -/
def moveFromCp0 (rt rd : RegNum) (narrow : DWord → DWord) (s : State) : Out :=
  let k := done (s.setR rt (narrow (s.readCp0 rd)))
  if readableByAll rd then k else withCp0 s k

/-- MFC0 (R465) -/
def execMfc0 (rt rd : RegNum) (s : State) : Out := moveFromCp0 rt rd (fun v => sext64 (low32 v)) s

/-- DMFC0 (R469) -/
def execDmfc0 (rt rd : RegNum) (s : State) : Out := moveFromCp0 rt rd (fun v => v) s

/-- MTC0 (R474) -/
def execMtc0 (rt rd : RegNum) (s : State) : Out := withCp0 s (done (s.writeCp0 rd (sext64 (low32 (s.r rt)))))

/-- DMTC0 (R475) -/
def execDmtc0 (rt rd : RegNum) (s : State) : Out := withCp0 s (done (s.writeCp0 rd (s.r rt)))

/-- TLBR (R471) -/
def execTlbr (s : State) : Out := withCp0 s (withMask s.tlbMask (done s.readTlb))

/-- TLBWI (R472) -/
def execTlbwi (s : State) : Out :=
  withCp0 s (withMask s.pageMaskField (done (s.writeTlb (s.cp0.index.extractLsb' 0 6))))

/-- TLBWR (R473) -/
def execTlbwr (s : State) : Out := withCp0 s (withMask s.pageMaskField (done (s.writeTlb s.cp0.random)))

/-- TLBP (R470) -/
def execTlbp (s : State) : Out := withCp0 s (withMask s.tlbMask (s.probeTlb.andThen fun _ t => done t))

/-- ERET (R476): the privilege check, then the return; it has no delay slot, and none may hold it -/
def execEret (s : State) : Out :=
  withCp0 s (match s.delay with
    | some _ => .fault .branchInDelaySlot
    | none => .next (returnFromException s))

end Sys2Proof.Machine
end

