-- ==== Sys2Proof/Machine/Trap.lean ====
section
/-! DEFINITION. System call, breakpoint, SYNC and the conditional traps (44_trap_special). -/

namespace Sys2Proof.Machine

/-- A conditional trap (44_trap_special R437, 60_exceptions R832). -/
def trapIf (c : Bool) (s : State) : Out := if c then raise .trap s else done s

/-- SYSCALL (R432) -/
def execSyscall (_code20 : BitVec 20) (s : State) : Out := raise .systemCall s

/-- BREAK (R433) -/
def execBrk (_code20 : BitVec 20) (s : State) : Out := raise .breakpoint s

/-- SYNC (R436): every earlier access of the one core is already performed -/
def execSync (s : State) : Out := done s

/-- TGE (R438) -/
def execTge (rs rt : RegNum) (_code10 : BitVec 10) (s : State) : Out := trapIf (!(s.r rs).slt (s.r rt)) s

/-- TGEU (R439) -/
def execTgeu (rs rt : RegNum) (_code10 : BitVec 10) (s : State) : Out := trapIf (!(s.r rs).ult (s.r rt)) s

/-- TLT (R440) -/
def execTlt (rs rt : RegNum) (_code10 : BitVec 10) (s : State) : Out := trapIf ((s.r rs).slt (s.r rt)) s

/-- TLTU (R441) -/
def execTltu (rs rt : RegNum) (_code10 : BitVec 10) (s : State) : Out := trapIf ((s.r rs).ult (s.r rt)) s

/-- TEQ (R442) -/
def execTeq (rs rt : RegNum) (_code10 : BitVec 10) (s : State) : Out := trapIf ((s.r rs) = (s.r rt)) s

/-- TNE (R443) -/
def execTne (rs rt : RegNum) (_code10 : BitVec 10) (s : State) : Out := trapIf ((s.r rs) ≠ (s.r rt)) s

/-- TGEI (R445) -/
def execTgei (rs : RegNum) (imm : Half) (s : State) : Out := trapIf (!(s.r rs).slt (sext64 imm)) s

/-- TGEIU (R446) -/
def execTgeiu (rs : RegNum) (imm : Half) (s : State) : Out := trapIf (!(s.r rs).ult (sext64 imm)) s

/-- TLTI (R447) -/
def execTlti (rs : RegNum) (imm : Half) (s : State) : Out := trapIf ((s.r rs).slt (sext64 imm)) s

/-- TLTIU (R448) -/
def execTltiu (rs : RegNum) (imm : Half) (s : State) : Out := trapIf ((s.r rs).ult (sext64 imm)) s

/-- TEQI (R450) -/
def execTeqi (rs : RegNum) (imm : Half) (s : State) : Out := trapIf ((s.r rs) = (sext64 imm)) s

/-- TNEI (R451) -/
def execTnei (rs : RegNum) (imm : Half) (s : State) : Out := trapIf ((s.r rs) ≠ (sext64 imm)) s

end Sys2Proof.Machine
end

