-- ==== Sys2Proof/Machine/Dispatch.lean ====
section
/-! DEFINITION. The meaning of every instruction: one arm per constructor of Instr, each one call. -/

namespace Sys2Proof.Machine

def exec (i : Instr) (s : State) : Host.Outcome State Fault Refusal :=
  match i with
  | .lb base rt offset => Sys2Proof.Machine.execLb base rt offset s
  | .lbu base rt offset => Sys2Proof.Machine.execLbu base rt offset s
  | .lh base rt offset => Sys2Proof.Machine.execLh base rt offset s
  | .lhu base rt offset => Sys2Proof.Machine.execLhu base rt offset s
  | .lw base rt offset => Sys2Proof.Machine.execLw base rt offset s
  | .lwu base rt offset => Sys2Proof.Machine.execLwu base rt offset s
  | .ld base rt offset => Sys2Proof.Machine.execLd base rt offset s
  | .lwl base rt offset => Sys2Proof.Machine.execLwl base rt offset s
  | .lwr base rt offset => Sys2Proof.Machine.execLwr base rt offset s
  | .ldl base rt offset => Sys2Proof.Machine.execLdl base rt offset s
  | .ldr base rt offset => Sys2Proof.Machine.execLdr base rt offset s
  | .sb base rt offset => Sys2Proof.Machine.execSb base rt offset s
  | .sh base rt offset => Sys2Proof.Machine.execSh base rt offset s
  | .sw base rt offset => Sys2Proof.Machine.execSw base rt offset s
  | .sd base rt offset => Sys2Proof.Machine.execSd base rt offset s
  | .swl base rt offset => Sys2Proof.Machine.execSwl base rt offset s
  | .swr base rt offset => Sys2Proof.Machine.execSwr base rt offset s
  | .sdl base rt offset => Sys2Proof.Machine.execSdl base rt offset s
  | .sdr base rt offset => Sys2Proof.Machine.execSdr base rt offset s
  | .ll base rt offset => Sys2Proof.Machine.execLl base rt offset s
  | .lld base rt offset => Sys2Proof.Machine.execLld base rt offset s
  | .sc base rt offset => Sys2Proof.Machine.execSc base rt offset s
  | .scd base rt offset => Sys2Proof.Machine.execScd base rt offset s
  | .lwc1 base ft offset => Sys2Proof.Machine.execLwc1 base ft offset s
  | .ldc1 base ft offset => Sys2Proof.Machine.execLdc1 base ft offset s
  | .swc1 base ft offset => Sys2Proof.Machine.execSwc1 base ft offset s
  | .sdc1 base ft offset => Sys2Proof.Machine.execSdc1 base ft offset s
  | .addi rs rt imm => Sys2Proof.Machine.execAddi rs rt imm s
  | .addiu rs rt imm => Sys2Proof.Machine.execAddiu rs rt imm s
  | .daddi rs rt imm => Sys2Proof.Machine.execDaddi rs rt imm s
  | .daddiu rs rt imm => Sys2Proof.Machine.execDaddiu rs rt imm s
  | .slti rs rt imm => Sys2Proof.Machine.execSlti rs rt imm s
  | .sltiu rs rt imm => Sys2Proof.Machine.execSltiu rs rt imm s
  | .andi rs rt imm => Sys2Proof.Machine.execAndi rs rt imm s
  | .ori rs rt imm => Sys2Proof.Machine.execOri rs rt imm s
  | .xori rs rt imm => Sys2Proof.Machine.execXori rs rt imm s
  | .lui rt imm => Sys2Proof.Machine.execLui rt imm s
  | .add rs rt rd => Sys2Proof.Machine.execAdd rs rt rd s
  | .addu rs rt rd => Sys2Proof.Machine.execAddu rs rt rd s
  | .sub rs rt rd => Sys2Proof.Machine.execSub rs rt rd s
  | .subu rs rt rd => Sys2Proof.Machine.execSubu rs rt rd s
  | .dadd rs rt rd => Sys2Proof.Machine.execDadd rs rt rd s
  | .daddu rs rt rd => Sys2Proof.Machine.execDaddu rs rt rd s
  | .dsub rs rt rd => Sys2Proof.Machine.execDsub rs rt rd s
  | .dsubu rs rt rd => Sys2Proof.Machine.execDsubu rs rt rd s
  | .slt rs rt rd => Sys2Proof.Machine.execSlt rs rt rd s
  | .sltu rs rt rd => Sys2Proof.Machine.execSltu rs rt rd s
  | .and rs rt rd => Sys2Proof.Machine.execAnd rs rt rd s
  | .or rs rt rd => Sys2Proof.Machine.execOr rs rt rd s
  | .xor rs rt rd => Sys2Proof.Machine.execXor rs rt rd s
  | .nor rs rt rd => Sys2Proof.Machine.execNor rs rt rd s
  | .movz rs rt rd => Sys2Proof.Machine.execMovz rs rt rd s
  | .movn rs rt rd => Sys2Proof.Machine.execMovn rs rt rd s
  | .sllv rs rt rd => Sys2Proof.Machine.execSllv rs rt rd s
  | .srlv rs rt rd => Sys2Proof.Machine.execSrlv rs rt rd s
  | .srav rs rt rd => Sys2Proof.Machine.execSrav rs rt rd s
  | .dsllv rs rt rd => Sys2Proof.Machine.execDsllv rs rt rd s
  | .dsrlv rs rt rd => Sys2Proof.Machine.execDsrlv rs rt rd s
  | .dsrav rs rt rd => Sys2Proof.Machine.execDsrav rs rt rd s
  | .sll rt rd sa => Sys2Proof.Machine.execSll rt rd sa s
  | .srl rt rd sa => Sys2Proof.Machine.execSrl rt rd sa s
  | .sra rt rd sa => Sys2Proof.Machine.execSra rt rd sa s
  | .dsll rt rd sa => Sys2Proof.Machine.execDsll rt rd sa s
  | .dsrl rt rd sa => Sys2Proof.Machine.execDsrl rt rd sa s
  | .dsra rt rd sa => Sys2Proof.Machine.execDsra rt rd sa s
  | .dsll32 rt rd sa => Sys2Proof.Machine.execDsll32 rt rd sa s
  | .dsrl32 rt rd sa => Sys2Proof.Machine.execDsrl32 rt rd sa s
  | .dsra32 rt rd sa => Sys2Proof.Machine.execDsra32 rt rd sa s
  | .mult rs rt => Sys2Proof.Machine.execMult rs rt s
  | .multu rs rt => Sys2Proof.Machine.execMultu rs rt s
  | .dmult rs rt => Sys2Proof.Machine.execDmult rs rt s
  | .dmultu rs rt => Sys2Proof.Machine.execDmultu rs rt s
  | .div rs rt => Sys2Proof.Machine.execDiv rs rt s
  | .divu rs rt => Sys2Proof.Machine.execDivu rs rt s
  | .ddiv rs rt => Sys2Proof.Machine.execDdiv rs rt s
  | .ddivu rs rt => Sys2Proof.Machine.execDdivu rs rt s
  | .mfhi rd => Sys2Proof.Machine.execMfhi rd s
  | .mflo rd => Sys2Proof.Machine.execMflo rd s
  | .mthi rs => Sys2Proof.Machine.execMthi rs s
  | .mtlo rs => Sys2Proof.Machine.execMtlo rs s
  | .multG rs rt rd => Sys2Proof.Machine.execMultG rs rt rd s
  | .multuG rs rt rd => Sys2Proof.Machine.execMultuG rs rt rd s
  | .dmultG rs rt rd => Sys2Proof.Machine.execDmultG rs rt rd s
  | .dmultuG rs rt rd => Sys2Proof.Machine.execDmultuG rs rt rd s
  | .divG rs rt rd => Sys2Proof.Machine.execDivG rs rt rd s
  | .divuG rs rt rd => Sys2Proof.Machine.execDivuG rs rt rd s
  | .ddivG rs rt rd => Sys2Proof.Machine.execDdivG rs rt rd s
  | .ddivuG rs rt rd => Sys2Proof.Machine.execDdivuG rs rt rd s
  | .modG rs rt rd => Sys2Proof.Machine.execModG rs rt rd s
  | .moduG rs rt rd => Sys2Proof.Machine.execModuG rs rt rd s
  | .dmodG rs rt rd => Sys2Proof.Machine.execDmodG rs rt rd s
  | .dmoduG rs rt rd => Sys2Proof.Machine.execDmoduG rs rt rd s
  | .j target => Sys2Proof.Machine.execJ target s
  | .jal target => Sys2Proof.Machine.execJal target s
  | .jr rs => Sys2Proof.Machine.execJr rs s
  | .jalr rs rd => Sys2Proof.Machine.execJalr rs rd s
  | .beq rs rt offset => Sys2Proof.Machine.execBeq rs rt offset s
  | .bne rs rt offset => Sys2Proof.Machine.execBne rs rt offset s
  | .beql rs rt offset => Sys2Proof.Machine.execBeql rs rt offset s
  | .bnel rs rt offset => Sys2Proof.Machine.execBnel rs rt offset s
  | .blez rs offset => Sys2Proof.Machine.execBlez rs offset s
  | .bgtz rs offset => Sys2Proof.Machine.execBgtz rs offset s
  | .blezl rs offset => Sys2Proof.Machine.execBlezl rs offset s
  | .bgtzl rs offset => Sys2Proof.Machine.execBgtzl rs offset s
  | .bltz rs offset => Sys2Proof.Machine.execBltz rs offset s
  | .bgez rs offset => Sys2Proof.Machine.execBgez rs offset s
  | .bltzal rs offset => Sys2Proof.Machine.execBltzal rs offset s
  | .bgezal rs offset => Sys2Proof.Machine.execBgezal rs offset s
  | .bltzl rs offset => Sys2Proof.Machine.execBltzl rs offset s
  | .bgezl rs offset => Sys2Proof.Machine.execBgezl rs offset s
  | .bltzall rs offset => Sys2Proof.Machine.execBltzall rs offset s
  | .bgezall rs offset => Sys2Proof.Machine.execBgezall rs offset s
  | .syscall code20 => Sys2Proof.Machine.execSyscall code20 s
  | .brk code20 => Sys2Proof.Machine.execBrk code20 s
  | .sync => Sys2Proof.Machine.execSync s
  | .tge rs rt code10 => Sys2Proof.Machine.execTge rs rt code10 s
  | .tgeu rs rt code10 => Sys2Proof.Machine.execTgeu rs rt code10 s
  | .tlt rs rt code10 => Sys2Proof.Machine.execTlt rs rt code10 s
  | .tltu rs rt code10 => Sys2Proof.Machine.execTltu rs rt code10 s
  | .teq rs rt code10 => Sys2Proof.Machine.execTeq rs rt code10 s
  | .tne rs rt code10 => Sys2Proof.Machine.execTne rs rt code10 s
  | .tgei rs imm => Sys2Proof.Machine.execTgei rs imm s
  | .tgeiu rs imm => Sys2Proof.Machine.execTgeiu rs imm s
  | .tlti rs imm => Sys2Proof.Machine.execTlti rs imm s
  | .tltiu rs imm => Sys2Proof.Machine.execTltiu rs imm s
  | .teqi rs imm => Sys2Proof.Machine.execTeqi rs imm s
  | .tnei rs imm => Sys2Proof.Machine.execTnei rs imm s
  | .mfc0 rt rd => Sys2Proof.Machine.execMfc0 rt rd s
  | .dmfc0 rt rd => Sys2Proof.Machine.execDmfc0 rt rd s
  | .mtc0 rt rd => Sys2Proof.Machine.execMtc0 rt rd s
  | .dmtc0 rt rd => Sys2Proof.Machine.execDmtc0 rt rd s
  | .tlbr => Sys2Proof.Machine.execTlbr s
  | .tlbwi => Sys2Proof.Machine.execTlbwi s
  | .tlbwr => Sys2Proof.Machine.execTlbwr s
  | .tlbp => Sys2Proof.Machine.execTlbp s
  | .eret => Sys2Proof.Machine.execEret s
  | .cache base cacheop offset => Sys2Proof.Machine.execCache base cacheop offset s
  | .cache0 base offset => Sys2Proof.Machine.execCache0 base offset s
  | .cache1 base offset => Sys2Proof.Machine.execCache1 base offset s
  | .cache5 base offset => Sys2Proof.Machine.execCache5 base offset s
  | .cache9 base offset => Sys2Proof.Machine.execCache9 base offset s
  | .cache17 base offset => Sys2Proof.Machine.execCache17 base offset s
  | .cache21 base offset => Sys2Proof.Machine.execCache21 base offset s
  | .cache25 base offset => Sys2Proof.Machine.execCache25 base offset s
  | .cache29 base offset => Sys2Proof.Machine.execCache29 base offset s
  | .cache3 base offset => Sys2Proof.Machine.execCache3 base offset s
  | .cache7 base offset => Sys2Proof.Machine.execCache7 base offset s
  | .cache11 base offset => Sys2Proof.Machine.execCache11 base offset s
  | .cache19 base offset => Sys2Proof.Machine.execCache19 base offset s
  | .cache23 base offset => Sys2Proof.Machine.execCache23 base offset s
  | .cache27 base offset => Sys2Proof.Machine.execCache27 base offset s
  | .cache31 base offset => Sys2Proof.Machine.execCache31 base offset s
  | .addS ft fs fd => Sys2Proof.Machine.execAddS ft fs fd s
  | .addD ft fs fd => Sys2Proof.Machine.execAddD ft fs fd s
  | .subS ft fs fd => Sys2Proof.Machine.execSubS ft fs fd s
  | .subD ft fs fd => Sys2Proof.Machine.execSubD ft fs fd s
  | .mulS ft fs fd => Sys2Proof.Machine.execMulS ft fs fd s
  | .mulD ft fs fd => Sys2Proof.Machine.execMulD ft fs fd s
  | .divS ft fs fd => Sys2Proof.Machine.execDivS ft fs fd s
  | .divD ft fs fd => Sys2Proof.Machine.execDivD ft fs fd s
  | .sqrtS fs fd => Sys2Proof.Machine.execSqrtS fs fd s
  | .sqrtD fs fd => Sys2Proof.Machine.execSqrtD fs fd s
  | .absS fs fd => Sys2Proof.Machine.execAbsS fs fd s
  | .absD fs fd => Sys2Proof.Machine.execAbsD fs fd s
  | .movS fs fd => Sys2Proof.Machine.execMovS fs fd s
  | .movD fs fd => Sys2Proof.Machine.execMovD fs fd s
  | .negS fs fd => Sys2Proof.Machine.execNegS fs fd s
  | .negD fs fd => Sys2Proof.Machine.execNegD fs fd s
  | .roundLS fs fd => Sys2Proof.Machine.execRoundLS fs fd s
  | .roundLD fs fd => Sys2Proof.Machine.execRoundLD fs fd s
  | .truncLS fs fd => Sys2Proof.Machine.execTruncLS fs fd s
  | .truncLD fs fd => Sys2Proof.Machine.execTruncLD fs fd s
  | .ceilLS fs fd => Sys2Proof.Machine.execCeilLS fs fd s
  | .ceilLD fs fd => Sys2Proof.Machine.execCeilLD fs fd s
  | .floorLS fs fd => Sys2Proof.Machine.execFloorLS fs fd s
  | .floorLD fs fd => Sys2Proof.Machine.execFloorLD fs fd s
  | .roundWS fs fd => Sys2Proof.Machine.execRoundWS fs fd s
  | .roundWD fs fd => Sys2Proof.Machine.execRoundWD fs fd s
  | .truncWS fs fd => Sys2Proof.Machine.execTruncWS fs fd s
  | .truncWD fs fd => Sys2Proof.Machine.execTruncWD fs fd s
  | .ceilWS fs fd => Sys2Proof.Machine.execCeilWS fs fd s
  | .ceilWD fs fd => Sys2Proof.Machine.execCeilWD fs fd s
  | .floorWS fs fd => Sys2Proof.Machine.execFloorWS fs fd s
  | .floorWD fs fd => Sys2Proof.Machine.execFloorWD fs fd s
  | .cvtWS fs fd => Sys2Proof.Machine.execCvtWS fs fd s
  | .cvtWD fs fd => Sys2Proof.Machine.execCvtWD fs fd s
  | .cvtLS fs fd => Sys2Proof.Machine.execCvtLS fs fd s
  | .cvtLD fs fd => Sys2Proof.Machine.execCvtLD fs fd s
  | .cvtSD fs fd => Sys2Proof.Machine.execCvtSD fs fd s
  | .cvtSW fs fd => Sys2Proof.Machine.execCvtSW fs fd s
  | .cvtSL fs fd => Sys2Proof.Machine.execCvtSL fs fd s
  | .cvtDS fs fd => Sys2Proof.Machine.execCvtDS fs fd s
  | .cvtDW fs fd => Sys2Proof.Machine.execCvtDW fs fd s
  | .cvtDL fs fd => Sys2Proof.Machine.execCvtDL fs fd s
  | .cFS ft fs => Sys2Proof.Machine.execCFS ft fs s
  | .cFD ft fs => Sys2Proof.Machine.execCFD ft fs s
  | .cUnS ft fs => Sys2Proof.Machine.execCUnS ft fs s
  | .cUnD ft fs => Sys2Proof.Machine.execCUnD ft fs s
  | .cEqS ft fs => Sys2Proof.Machine.execCEqS ft fs s
  | .cEqD ft fs => Sys2Proof.Machine.execCEqD ft fs s
  | .cUeqS ft fs => Sys2Proof.Machine.execCUeqS ft fs s
  | .cUeqD ft fs => Sys2Proof.Machine.execCUeqD ft fs s
  | .cOltS ft fs => Sys2Proof.Machine.execCOltS ft fs s
  | .cOltD ft fs => Sys2Proof.Machine.execCOltD ft fs s
  | .cUltS ft fs => Sys2Proof.Machine.execCUltS ft fs s
  | .cUltD ft fs => Sys2Proof.Machine.execCUltD ft fs s
  | .cOleS ft fs => Sys2Proof.Machine.execCOleS ft fs s
  | .cOleD ft fs => Sys2Proof.Machine.execCOleD ft fs s
  | .cUleS ft fs => Sys2Proof.Machine.execCUleS ft fs s
  | .cUleD ft fs => Sys2Proof.Machine.execCUleD ft fs s
  | .cSfS ft fs => Sys2Proof.Machine.execCSfS ft fs s
  | .cSfD ft fs => Sys2Proof.Machine.execCSfD ft fs s
  | .cNgleS ft fs => Sys2Proof.Machine.execCNgleS ft fs s
  | .cNgleD ft fs => Sys2Proof.Machine.execCNgleD ft fs s
  | .cSeqS ft fs => Sys2Proof.Machine.execCSeqS ft fs s
  | .cSeqD ft fs => Sys2Proof.Machine.execCSeqD ft fs s
  | .cNglS ft fs => Sys2Proof.Machine.execCNglS ft fs s
  | .cNglD ft fs => Sys2Proof.Machine.execCNglD ft fs s
  | .cLtS ft fs => Sys2Proof.Machine.execCLtS ft fs s
  | .cLtD ft fs => Sys2Proof.Machine.execCLtD ft fs s
  | .cNgeS ft fs => Sys2Proof.Machine.execCNgeS ft fs s
  | .cNgeD ft fs => Sys2Proof.Machine.execCNgeD ft fs s
  | .cLeS ft fs => Sys2Proof.Machine.execCLeS ft fs s
  | .cLeD ft fs => Sys2Proof.Machine.execCLeD ft fs s
  | .cNgtS ft fs => Sys2Proof.Machine.execCNgtS ft fs s
  | .cNgtD ft fs => Sys2Proof.Machine.execCNgtD ft fs s
  | .bc1f offset => Sys2Proof.Machine.execBc1f offset s
  | .bc1t offset => Sys2Proof.Machine.execBc1t offset s
  | .bc1fl offset => Sys2Proof.Machine.execBc1fl offset s
  | .bc1tl offset => Sys2Proof.Machine.execBc1tl offset s
  | .mfc1 rt fs => Sys2Proof.Machine.execMfc1 rt fs s
  | .dmfc1 rt fs => Sys2Proof.Machine.execDmfc1 rt fs s
  | .cfc1 rt fs => Sys2Proof.Machine.execCfc1 rt fs s
  | .mtc1 rt fs => Sys2Proof.Machine.execMtc1 rt fs s
  | .dmtc1 rt fs => Sys2Proof.Machine.execDmtc1 rt fs s
  | .ctc1 rt fs => Sys2Proof.Machine.execCtc1 rt fs s
  | .addPs ft fs fd => Sys2Proof.Machine.execAddPs ft fs fd s
  | .subPs ft fs fd => Sys2Proof.Machine.execSubPs ft fs fd s
  | .mulPs ft fs fd => Sys2Proof.Machine.execMulPs ft fs fd s
  | .absPs fs fd => Sys2Proof.Machine.execAbsPs fs fd s
  | .movPs fs fd => Sys2Proof.Machine.execMovPs fs fd s
  | .negPs fs fd => Sys2Proof.Machine.execNegPs fs fd s
  | .cFPs ft fs => Sys2Proof.Machine.execCFPs ft fs s
  | .cUnPs ft fs => Sys2Proof.Machine.execCUnPs ft fs s
  | .cEqPs ft fs => Sys2Proof.Machine.execCEqPs ft fs s
  | .cUeqPs ft fs => Sys2Proof.Machine.execCUeqPs ft fs s
  | .cOltPs ft fs => Sys2Proof.Machine.execCOltPs ft fs s
  | .cUltPs ft fs => Sys2Proof.Machine.execCUltPs ft fs s
  | .cOlePs ft fs => Sys2Proof.Machine.execCOlePs ft fs s
  | .cUlePs ft fs => Sys2Proof.Machine.execCUlePs ft fs s
  | .cSfPs ft fs => Sys2Proof.Machine.execCSfPs ft fs s
  | .cNglePs ft fs => Sys2Proof.Machine.execCNglePs ft fs s
  | .cSeqPs ft fs => Sys2Proof.Machine.execCSeqPs ft fs s
  | .cNglPs ft fs => Sys2Proof.Machine.execCNglPs ft fs s
  | .cLtPs ft fs => Sys2Proof.Machine.execCLtPs ft fs s
  | .cNgePs ft fs => Sys2Proof.Machine.execCNgePs ft fs s
  | .cLePs ft fs => Sys2Proof.Machine.execCLePs ft fs s
  | .cNgtPs ft fs => Sys2Proof.Machine.execCNgtPs ft fs s
  | .maddS ft fs fd => Sys2Proof.Machine.execMaddS ft fs fd s
  | .maddD ft fs fd => Sys2Proof.Machine.execMaddD ft fs fd s
  | .maddPs ft fs fd => Sys2Proof.Machine.execMaddPs ft fs fd s
  | .msubS ft fs fd => Sys2Proof.Machine.execMsubS ft fs fd s
  | .msubD ft fs fd => Sys2Proof.Machine.execMsubD ft fs fd s
  | .msubPs ft fs fd => Sys2Proof.Machine.execMsubPs ft fs fd s
  | .nmaddS ft fs fd => Sys2Proof.Machine.execNmaddS ft fs fd s
  | .nmaddD ft fs fd => Sys2Proof.Machine.execNmaddD ft fs fd s
  | .nmaddPs ft fs fd => Sys2Proof.Machine.execNmaddPs ft fs fd s
  | .nmsubS ft fs fd => Sys2Proof.Machine.execNmsubS ft fs fd s
  | .nmsubD ft fs fd => Sys2Proof.Machine.execNmsubD ft fs fd s
  | .nmsubPs ft fs fd => Sys2Proof.Machine.execNmsubPs ft fs fd s
  | .paddb ft fs fd => Sys2Proof.Machine.execPaddb ft fs fd s
  | .paddh ft fs fd => Sys2Proof.Machine.execPaddh ft fs fd s
  | .paddw ft fs fd => Sys2Proof.Machine.execPaddw ft fs fd s
  | .paddd ft fs fd => Sys2Proof.Machine.execPaddd ft fs fd s
  | .paddsb ft fs fd => Sys2Proof.Machine.execPaddsb ft fs fd s
  | .paddsh ft fs fd => Sys2Proof.Machine.execPaddsh ft fs fd s
  | .paddusb ft fs fd => Sys2Proof.Machine.execPaddusb ft fs fd s
  | .paddush ft fs fd => Sys2Proof.Machine.execPaddush ft fs fd s
  | .psubb ft fs fd => Sys2Proof.Machine.execPsubb ft fs fd s
  | .psubh ft fs fd => Sys2Proof.Machine.execPsubh ft fs fd s
  | .psubw ft fs fd => Sys2Proof.Machine.execPsubw ft fs fd s
  | .psubd ft fs fd => Sys2Proof.Machine.execPsubd ft fs fd s
  | .psubsb ft fs fd => Sys2Proof.Machine.execPsubsb ft fs fd s
  | .psubsh ft fs fd => Sys2Proof.Machine.execPsubsh ft fs fd s
  | .psubusb ft fs fd => Sys2Proof.Machine.execPsubusb ft fs fd s
  | .psubush ft fs fd => Sys2Proof.Machine.execPsubush ft fs fd s
  | .pshufh ft fs fd => Sys2Proof.Machine.execPshufh ft fs fd s
  | .packsswh ft fs fd => Sys2Proof.Machine.execPacksswh ft fs fd s
  | .packsshb ft fs fd => Sys2Proof.Machine.execPacksshb ft fs fd s
  | .packushb ft fs fd => Sys2Proof.Machine.execPackushb ft fs fd s
  | .pandn ft fs fd => Sys2Proof.Machine.execPandn ft fs fd s
  | .punpcklhw ft fs fd => Sys2Proof.Machine.execPunpcklhw ft fs fd s
  | .punpckhhw ft fs fd => Sys2Proof.Machine.execPunpckhhw ft fs fd s
  | .punpcklbh ft fs fd => Sys2Proof.Machine.execPunpcklbh ft fs fd s
  | .punpckhbh ft fs fd => Sys2Proof.Machine.execPunpckhbh ft fs fd s
  | .punpcklwd ft fs fd => Sys2Proof.Machine.execPunpcklwd ft fs fd s
  | .punpckhwd ft fs fd => Sys2Proof.Machine.execPunpckhwd ft fs fd s
  | .pinsrh0 ft fs fd => Sys2Proof.Machine.execPinsrh0 ft fs fd s
  | .pinsrh1 ft fs fd => Sys2Proof.Machine.execPinsrh1 ft fs fd s
  | .pinsrh2 ft fs fd => Sys2Proof.Machine.execPinsrh2 ft fs fd s
  | .pinsrh3 ft fs fd => Sys2Proof.Machine.execPinsrh3 ft fs fd s
  | .pavgh ft fs fd => Sys2Proof.Machine.execPavgh ft fs fd s
  | .pavgb ft fs fd => Sys2Proof.Machine.execPavgb ft fs fd s
  | .pmaxsh ft fs fd => Sys2Proof.Machine.execPmaxsh ft fs fd s
  | .pminsh ft fs fd => Sys2Proof.Machine.execPminsh ft fs fd s
  | .pmaxub ft fs fd => Sys2Proof.Machine.execPmaxub ft fs fd s
  | .pminub ft fs fd => Sys2Proof.Machine.execPminub ft fs fd s
  | .pcmpeqw ft fs fd => Sys2Proof.Machine.execPcmpeqw ft fs fd s
  | .pcmpgtw ft fs fd => Sys2Proof.Machine.execPcmpgtw ft fs fd s
  | .pcmpeqh ft fs fd => Sys2Proof.Machine.execPcmpeqh ft fs fd s
  | .pcmpgth ft fs fd => Sys2Proof.Machine.execPcmpgth ft fs fd s
  | .pcmpeqb ft fs fd => Sys2Proof.Machine.execPcmpeqb ft fs fd s
  | .pcmpgtb ft fs fd => Sys2Proof.Machine.execPcmpgtb ft fs fd s
  | .psllw ft fs fd => Sys2Proof.Machine.execPsllw ft fs fd s
  | .psllh ft fs fd => Sys2Proof.Machine.execPsllh ft fs fd s
  | .pmullh ft fs fd => Sys2Proof.Machine.execPmullh ft fs fd s
  | .pmulhh ft fs fd => Sys2Proof.Machine.execPmulhh ft fs fd s
  | .pmuluw ft fs fd => Sys2Proof.Machine.execPmuluw ft fs fd s
  | .pmulhuh ft fs fd => Sys2Proof.Machine.execPmulhuh ft fs fd s
  | .psrlw ft fs fd => Sys2Proof.Machine.execPsrlw ft fs fd s
  | .psrlh ft fs fd => Sys2Proof.Machine.execPsrlh ft fs fd s
  | .psraw ft fs fd => Sys2Proof.Machine.execPsraw ft fs fd s
  | .psrah ft fs fd => Sys2Proof.Machine.execPsrah ft fs fd s
  | .pasubub ft fs fd => Sys2Proof.Machine.execPasubub ft fs fd s
  | .biadd fs fd => Sys2Proof.Machine.execBiadd fs fd s
  | .pextrh ft fs fd => Sys2Proof.Machine.execPextrh ft fs fd s
  | .pmaddhw ft fs fd => Sys2Proof.Machine.execPmaddhw ft fs fd s
  | .pmovmskb fs fd => Sys2Proof.Machine.execPmovmskb fs fd s
  | .fxAdd ft fs fd => Sys2Proof.Machine.execFxAdd ft fs fd s
  | .fxAddu ft fs fd => Sys2Proof.Machine.execFxAddu ft fs fd s
  | .fxDadd ft fs fd => Sys2Proof.Machine.execFxDadd ft fs fd s
  | .fxSub ft fs fd => Sys2Proof.Machine.execFxSub ft fs fd s
  | .fxSubu ft fs fd => Sys2Proof.Machine.execFxSubu ft fs fd s
  | .fxDsub ft fs fd => Sys2Proof.Machine.execFxDsub ft fs fd s
  | .fxOr ft fs fd => Sys2Proof.Machine.execFxOr ft fs fd s
  | .fxXor ft fs fd => Sys2Proof.Machine.execFxXor ft fs fd s
  | .fxNor ft fs fd => Sys2Proof.Machine.execFxNor ft fs fd s
  | .fxAnd ft fs fd => Sys2Proof.Machine.execFxAnd ft fs fd s
  | .fxSll ft fs fd => Sys2Proof.Machine.execFxSll ft fs fd s
  | .fxSrl ft fs fd => Sys2Proof.Machine.execFxSrl ft fs fd s
  | .fxSra ft fs fd => Sys2Proof.Machine.execFxSra ft fs fd s
  | .fxDsll ft fs fd => Sys2Proof.Machine.execFxDsll ft fs fd s
  | .fxDsrl ft fs fd => Sys2Proof.Machine.execFxDsrl ft fs fd s
  | .fxDsra ft fs fd => Sys2Proof.Machine.execFxDsra ft fs fd s
  | .fxSequ ft fs => Sys2Proof.Machine.execFxSequ ft fs s
  | .fxSeq ft fs => Sys2Proof.Machine.execFxSeq ft fs s
  | .fxSltu ft fs => Sys2Proof.Machine.execFxSltu ft fs s
  | .fxSlt ft fs => Sys2Proof.Machine.execFxSlt ft fs s
  | .fxSleu ft fs => Sys2Proof.Machine.execFxSleu ft fs s
  | .fxSle ft fs => Sys2Proof.Machine.execFxSle ft fs s

end Sys2Proof.Machine
end

