-- ==== Sys2Proof/Machine/Run.lean ====
section
/-! DEFINITION. Running one instruction word: the decoded instruction's meaning, or the exception of a word that is
none (30_encoding R215, R219). The tables after it are the decoder's with the meanings in place of the constructors;
`stepWord_eq_runWord` proves them equal and gives Lean's compiler the form it can run. -/

namespace Sys2Proof.Machine

/-- The exception a word that is no instruction takes (30_encoding R215, 46_fpu R531, 48_multimedia R675, 47_fpu_ps
R668). -/
def rejectOut (r : Reject) (s : State) : Out :=
  match r with
  | .reserved => raise .reservedInstruction s
  | .reservedCop0 => withCp0 s (raise .reservedInstruction s)
  | .reservedCop1 => withFpu s (fpFinish { unimplemented := true } (fun t => t) s)
  | .reservedCop2 => withFpu s (raise .reservedInstruction s)

/-- What the step does with the decoder's answer. -/
def decodedOut (d : Except Reject Instr) (s : State) : Out :=
  match d with
  | .ok i => exec i s
  | .error r => rejectOut r s

/-- Run the instruction word `w`. -/
noncomputable def stepWord (w : Word) (s : State) : Out := decodedOut (decode w) s

/-! ### The same, table by table -/

/-- `decodeSpecial` with each meaning called at once. -/
def runSpecial (f : Fields) (s : State) : Out :=
  match f.funct with
  | 0b100000#6 => execAdd f.rs f.rt f.rd s
  | 0b100001#6 => execAddu f.rs f.rt f.rd s
  | 0b100010#6 => execSub f.rs f.rt f.rd s
  | 0b100011#6 => execSubu f.rs f.rt f.rd s
  | 0b101100#6 => execDadd f.rs f.rt f.rd s
  | 0b101101#6 => execDaddu f.rs f.rt f.rd s
  | 0b101110#6 => execDsub f.rs f.rt f.rd s
  | 0b101111#6 => execDsubu f.rs f.rt f.rd s
  | 0b101010#6 => execSlt f.rs f.rt f.rd s
  | 0b101011#6 => execSltu f.rs f.rt f.rd s
  | 0b100100#6 => execAnd f.rs f.rt f.rd s
  | 0b100101#6 => execOr f.rs f.rt f.rd s
  | 0b100110#6 => execXor f.rs f.rt f.rd s
  | 0b100111#6 => execNor f.rs f.rt f.rd s
  | 0b001010#6 => execMovz f.rs f.rt f.rd s
  | 0b001011#6 => execMovn f.rs f.rt f.rd s
  | 0b000100#6 => execSllv f.rs f.rt f.rd s
  | 0b000110#6 => execSrlv f.rs f.rt f.rd s
  | 0b000111#6 => execSrav f.rs f.rt f.rd s
  | 0b010100#6 => execDsllv f.rs f.rt f.rd s
  | 0b010110#6 => execDsrlv f.rs f.rt f.rd s
  | 0b010111#6 => execDsrav f.rs f.rt f.rd s
  | 0b000000#6 => execSll f.rt f.rd f.sa s
  | 0b000010#6 => execSrl f.rt f.rd f.sa s
  | 0b000011#6 => execSra f.rt f.rd f.sa s
  | 0b111000#6 => execDsll f.rt f.rd f.sa s
  | 0b111010#6 => execDsrl f.rt f.rd f.sa s
  | 0b111011#6 => execDsra f.rt f.rd f.sa s
  | 0b111100#6 => execDsll32 f.rt f.rd f.sa s
  | 0b111110#6 => execDsrl32 f.rt f.rd f.sa s
  | 0b111111#6 => execDsra32 f.rt f.rd f.sa s
  | 0b011000#6 => execMult f.rs f.rt s
  | 0b011001#6 => execMultu f.rs f.rt s
  | 0b011100#6 => execDmult f.rs f.rt s
  | 0b011101#6 => execDmultu f.rs f.rt s
  | 0b011010#6 => execDiv f.rs f.rt s
  | 0b011011#6 => execDivu f.rs f.rt s
  | 0b011110#6 => execDdiv f.rs f.rt s
  | 0b011111#6 => execDdivu f.rs f.rt s
  | 0b010000#6 => execMfhi f.rd s
  | 0b010010#6 => execMflo f.rd s
  | 0b010001#6 => execMthi f.rs s
  | 0b010011#6 => execMtlo f.rs s
  | 0b001000#6 => execJr f.rs s
  | 0b001001#6 => execJalr f.rs f.rd s
  | 0b001100#6 => execSyscall f.code20 s
  | 0b001101#6 => execBrk f.code20 s
  | 0b001111#6 => execSync s
  | 0b110000#6 => execTge f.rs f.rt f.code10 s
  | 0b110001#6 => execTgeu f.rs f.rt f.code10 s
  | 0b110010#6 => execTlt f.rs f.rt f.code10 s
  | 0b110011#6 => execTltu f.rs f.rt f.code10 s
  | 0b110100#6 => execTeq f.rs f.rt f.code10 s
  | 0b110110#6 => execTne f.rs f.rt f.code10 s
  | _ => rejectOut .reserved s

/-- `decodeRegimm` with each meaning called at once. -/
def runRegimm (f : Fields) (s : State) : Out :=
  match f.rt with
  | 0b00000#5 => execBltz f.rs f.imm s
  | 0b00001#5 => execBgez f.rs f.imm s
  | 0b10000#5 => execBltzal f.rs f.imm s
  | 0b10001#5 => execBgezal f.rs f.imm s
  | 0b00010#5 => execBltzl f.rs f.imm s
  | 0b00011#5 => execBgezl f.rs f.imm s
  | 0b10010#5 => execBltzall f.rs f.imm s
  | 0b10011#5 => execBgezall f.rs f.imm s
  | 0b01000#5 => execTgei f.rs f.imm s
  | 0b01001#5 => execTgeiu f.rs f.imm s
  | 0b01010#5 => execTlti f.rs f.imm s
  | 0b01011#5 => execTltiu f.rs f.imm s
  | 0b01100#5 => execTeqi f.rs f.imm s
  | 0b01110#5 => execTnei f.rs f.imm s
  | _ => rejectOut .reserved s

/-- `decodeCop0Move` with each meaning called at once. -/
def runCop0Move (f : Fields) (s : State) : Out :=
  match f.rs with
  | 0b00000#5 => execMfc0 f.rt f.rd s
  | 0b00001#5 => execDmfc0 f.rt f.rd s
  | 0b00100#5 => execMtc0 f.rt f.rd s
  | 0b00101#5 => execDmtc0 f.rt f.rd s
  | _ => rejectOut .reservedCop0 s

/-- `decodeCop0Op` with each meaning called at once. -/
def runCop0Op (f : Fields) (s : State) : Out :=
  match f.funct with
  | 0b000001#6 => execTlbr s
  | 0b000010#6 => execTlbwi s
  | 0b000110#6 => execTlbwr s
  | 0b001000#6 => execTlbp s
  | 0b011000#6 => execEret s
  | _ => rejectOut .reservedCop0 s

/-- `decodeBc1` with each meaning called at once. -/
def runBc1 (f : Fields) (s : State) : Out :=
  match f.rt with
  | 0b00000#5 => execBc1f f.imm s
  | 0b00001#5 => execBc1t f.imm s
  | 0b00010#5 => execBc1fl f.imm s
  | 0b00011#5 => execBc1tl f.imm s
  | _ => rejectOut .reservedCop1 s

/-- `decodeCop1S` with each meaning called at once. -/
def runCop1S (f : Fields) (s : State) : Out :=
  match f.funct with
  | 0b000000#6 => execAddS f.rt f.rd f.sa s
  | 0b000001#6 => execSubS f.rt f.rd f.sa s
  | 0b000010#6 => execMulS f.rt f.rd f.sa s
  | 0b000011#6 => execDivS f.rt f.rd f.sa s
  | 0b000100#6 => execSqrtS f.rd f.sa s
  | 0b000101#6 => execAbsS f.rd f.sa s
  | 0b000110#6 => execMovS f.rd f.sa s
  | 0b000111#6 => execNegS f.rd f.sa s
  | 0b001000#6 => execRoundLS f.rd f.sa s
  | 0b001001#6 => execTruncLS f.rd f.sa s
  | 0b001010#6 => execCeilLS f.rd f.sa s
  | 0b001011#6 => execFloorLS f.rd f.sa s
  | 0b001100#6 => execRoundWS f.rd f.sa s
  | 0b001101#6 => execTruncWS f.rd f.sa s
  | 0b001110#6 => execCeilWS f.rd f.sa s
  | 0b001111#6 => execFloorWS f.rd f.sa s
  | 0b100100#6 => execCvtWS f.rd f.sa s
  | 0b100101#6 => execCvtLS f.rd f.sa s
  | 0b100001#6 => execCvtDS f.rd f.sa s
  | 0b110000#6 => execCFS f.rt f.rd s
  | 0b110001#6 => execCUnS f.rt f.rd s
  | 0b110010#6 => execCEqS f.rt f.rd s
  | 0b110011#6 => execCUeqS f.rt f.rd s
  | 0b110100#6 => execCOltS f.rt f.rd s
  | 0b110101#6 => execCUltS f.rt f.rd s
  | 0b110110#6 => execCOleS f.rt f.rd s
  | 0b110111#6 => execCUleS f.rt f.rd s
  | 0b111000#6 => execCSfS f.rt f.rd s
  | 0b111001#6 => execCNgleS f.rt f.rd s
  | 0b111010#6 => execCSeqS f.rt f.rd s
  | 0b111011#6 => execCNglS f.rt f.rd s
  | 0b111100#6 => execCLtS f.rt f.rd s
  | 0b111101#6 => execCNgeS f.rt f.rd s
  | 0b111110#6 => execCLeS f.rt f.rd s
  | 0b111111#6 => execCNgtS f.rt f.rd s
  | _ => rejectOut .reservedCop1 s

/-- `decodeCop1D` with each meaning called at once. -/
def runCop1D (f : Fields) (s : State) : Out :=
  match f.funct with
  | 0b000000#6 => execAddD f.rt f.rd f.sa s
  | 0b000001#6 => execSubD f.rt f.rd f.sa s
  | 0b000010#6 => execMulD f.rt f.rd f.sa s
  | 0b000011#6 => execDivD f.rt f.rd f.sa s
  | 0b000100#6 => execSqrtD f.rd f.sa s
  | 0b000101#6 => execAbsD f.rd f.sa s
  | 0b000110#6 => execMovD f.rd f.sa s
  | 0b000111#6 => execNegD f.rd f.sa s
  | 0b001000#6 => execRoundLD f.rd f.sa s
  | 0b001001#6 => execTruncLD f.rd f.sa s
  | 0b001010#6 => execCeilLD f.rd f.sa s
  | 0b001011#6 => execFloorLD f.rd f.sa s
  | 0b001100#6 => execRoundWD f.rd f.sa s
  | 0b001101#6 => execTruncWD f.rd f.sa s
  | 0b001110#6 => execCeilWD f.rd f.sa s
  | 0b001111#6 => execFloorWD f.rd f.sa s
  | 0b100100#6 => execCvtWD f.rd f.sa s
  | 0b100101#6 => execCvtLD f.rd f.sa s
  | 0b100000#6 => execCvtSD f.rd f.sa s
  | 0b110000#6 => execCFD f.rt f.rd s
  | 0b110001#6 => execCUnD f.rt f.rd s
  | 0b110010#6 => execCEqD f.rt f.rd s
  | 0b110011#6 => execCUeqD f.rt f.rd s
  | 0b110100#6 => execCOltD f.rt f.rd s
  | 0b110101#6 => execCUltD f.rt f.rd s
  | 0b110110#6 => execCOleD f.rt f.rd s
  | 0b110111#6 => execCUleD f.rt f.rd s
  | 0b111000#6 => execCSfD f.rt f.rd s
  | 0b111001#6 => execCNgleD f.rt f.rd s
  | 0b111010#6 => execCSeqD f.rt f.rd s
  | 0b111011#6 => execCNglD f.rt f.rd s
  | 0b111100#6 => execCLtD f.rt f.rd s
  | 0b111101#6 => execCNgeD f.rt f.rd s
  | 0b111110#6 => execCLeD f.rt f.rd s
  | 0b111111#6 => execCNgtD f.rt f.rd s
  | _ => rejectOut .reservedCop1 s

/-- `decodeCop1W` with each meaning called at once. -/
def runCop1W (f : Fields) (s : State) : Out :=
  match f.funct with
  | 0b100000#6 => execCvtSW f.rd f.sa s
  | 0b100001#6 => execCvtDW f.rd f.sa s
  | _ => rejectOut .reservedCop1 s

/-- `decodeCop1L` with each meaning called at once. -/
def runCop1L (f : Fields) (s : State) : Out :=
  match f.funct with
  | 0b100000#6 => execCvtSL f.rd f.sa s
  | 0b100001#6 => execCvtDL f.rd f.sa s
  | _ => rejectOut .reservedCop1 s

/-- `decodeCop1Ps` with each meaning called at once. -/
def runCop1Ps (f : Fields) (s : State) : Out :=
  match f.funct with
  | 0b000000#6 => execAddPs f.rt f.rd f.sa s
  | 0b000001#6 => execSubPs f.rt f.rd f.sa s
  | 0b000010#6 => execMulPs f.rt f.rd f.sa s
  | 0b000101#6 => execAbsPs f.rd f.sa s
  | 0b000110#6 => execMovPs f.rd f.sa s
  | 0b000111#6 => execNegPs f.rd f.sa s
  | 0b110000#6 => execCFPs f.rt f.rd s
  | 0b110001#6 => execCUnPs f.rt f.rd s
  | 0b110010#6 => execCEqPs f.rt f.rd s
  | 0b110011#6 => execCUeqPs f.rt f.rd s
  | 0b110100#6 => execCOltPs f.rt f.rd s
  | 0b110101#6 => execCUltPs f.rt f.rd s
  | 0b110110#6 => execCOlePs f.rt f.rd s
  | 0b110111#6 => execCUlePs f.rt f.rd s
  | 0b111000#6 => execCSfPs f.rt f.rd s
  | 0b111001#6 => execCNglePs f.rt f.rd s
  | 0b111010#6 => execCSeqPs f.rt f.rd s
  | 0b111011#6 => execCNglPs f.rt f.rd s
  | 0b111100#6 => execCLtPs f.rt f.rd s
  | 0b111101#6 => execCNgePs f.rt f.rd s
  | 0b111110#6 => execCLePs f.rt f.rd s
  | 0b111111#6 => execCNgtPs f.rt f.rd s
  | _ => rejectOut .reservedCop1 s

/-- `decodeCop1` with each meaning called at once. -/
def runCop1 (f : Fields) (s : State) : Out :=
  match f.rs with
  | 0b00000#5 => execMfc1 f.rt f.rd s
  | 0b00001#5 => execDmfc1 f.rt f.rd s
  | 0b00010#5 => execCfc1 f.rt f.rd s
  | 0b00100#5 => execMtc1 f.rt f.rd s
  | 0b00101#5 => execDmtc1 f.rt f.rd s
  | 0b00110#5 => execCtc1 f.rt f.rd s
  | 0b01000#5 => runBc1 f s
  | 0b10000#5 => runCop1S f s
  | 0b10001#5 => runCop1D f s
  | 0b10100#5 => runCop1W f s
  | 0b10101#5 => runCop1L f s
  | 0b10110#5 => runCop1Ps f s
  | _ => rejectOut .reservedCop1 s

/-- `decodeCop2Fmt24` with each meaning called at once. -/
def runCop2Fmt24 (f : Fields) (s : State) : Out :=
  match f.funct with
  | 0b000000#6 => execPaddsh f.rt f.rd f.sa s
  | 0b000001#6 => execPsubsh f.rt f.rd f.sa s
  | 0b000010#6 => execPshufh f.rt f.rd f.sa s
  | 0b000011#6 => execPunpcklhw f.rt f.rd f.sa s
  | 0b001000#6 => execPavgh f.rt f.rd f.sa s
  | 0b001001#6 => execPcmpeqw f.rt f.rd f.sa s
  | 0b001010#6 => execPsllw f.rt f.rd f.sa s
  | 0b001011#6 => execPsrlw f.rt f.rd f.sa s
  | 0b001100#6 => execFxAddu f.rt f.rd f.sa s
  | 0b001101#6 => execFxSubu f.rt f.rd f.sa s
  | 0b001110#6 => execFxSll f.rt f.rd f.sa s
  | 0b001111#6 => execFxSrl f.rt f.rd f.sa s
  | _ => rejectOut .reservedCop2 s

/-- `decodeCop2Fmt25` with each meaning called at once. -/
def runCop2Fmt25 (f : Fields) (s : State) : Out :=
  match f.funct with
  | 0b000000#6 => execPaddush f.rt f.rd f.sa s
  | 0b000001#6 => execPsubush f.rt f.rd f.sa s
  | 0b000010#6 => execPacksswh f.rt f.rd f.sa s
  | 0b000011#6 => execPunpckhhw f.rt f.rd f.sa s
  | 0b001000#6 => execPavgb f.rt f.rd f.sa s
  | 0b001001#6 => execPcmpgtw f.rt f.rd f.sa s
  | 0b001010#6 => execPsllh f.rt f.rd f.sa s
  | 0b001011#6 => execPsrlh f.rt f.rd f.sa s
  | 0b001101#6 => execPasubub f.rt f.rd f.sa s
  | 0b001100#6 => execFxOr f.rt f.rd f.sa s
  | 0b001110#6 => execFxDsll f.rt f.rd f.sa s
  | 0b001111#6 => execFxDsrl f.rt f.rd f.sa s
  | _ => rejectOut .reservedCop2 s

/-- `decodeCop2Fmt26` with each meaning called at once. -/
def runCop2Fmt26 (f : Fields) (s : State) : Out :=
  match f.funct with
  | 0b000000#6 => execPaddh f.rt f.rd f.sa s
  | 0b000001#6 => execPsubh f.rt f.rd f.sa s
  | 0b000010#6 => execPacksshb f.rt f.rd f.sa s
  | 0b000011#6 => execPunpcklbh f.rt f.rd f.sa s
  | 0b001000#6 => execPmaxsh f.rt f.rd f.sa s
  | 0b001001#6 => execPcmpeqh f.rt f.rd f.sa s
  | 0b001010#6 => execPmullh f.rt f.rd f.sa s
  | 0b001011#6 => execPsraw f.rt f.rd f.sa s
  | 0b001110#6 => execPextrh f.rt f.rd f.sa s
  | 0b001100#6 => execFxAdd f.rt f.rd f.sa s
  | 0b001101#6 => execFxSub f.rt f.rd f.sa s
  | 0b001111#6 => execFxSra f.rt f.rd f.sa s
  | _ => rejectOut .reservedCop2 s

/-- `decodeCop2Fmt27` with each meaning called at once. -/
def runCop2Fmt27 (f : Fields) (s : State) : Out :=
  match f.funct with
  | 0b000000#6 => execPaddw f.rt f.rd f.sa s
  | 0b000001#6 => execPsubw f.rt f.rd f.sa s
  | 0b000010#6 => execPackushb f.rt f.rd f.sa s
  | 0b000011#6 => execPunpckhbh f.rt f.rd f.sa s
  | 0b001000#6 => execPminsh f.rt f.rd f.sa s
  | 0b001001#6 => execPcmpgth f.rt f.rd f.sa s
  | 0b001010#6 => execPmulhh f.rt f.rd f.sa s
  | 0b001011#6 => execPsrah f.rt f.rd f.sa s
  | 0b001110#6 => execPmaddhw f.rt f.rd f.sa s
  | 0b001100#6 => execFxDadd f.rt f.rd f.sa s
  | 0b001101#6 => execFxDsub f.rt f.rd f.sa s
  | 0b001111#6 => execFxDsra f.rt f.rd f.sa s
  | _ => rejectOut .reservedCop2 s

/-- `decodeCop2Fmt28` with each meaning called at once. -/
def runCop2Fmt28 (f : Fields) (s : State) : Out :=
  match f.funct with
  | 0b000000#6 => execPaddsb f.rt f.rd f.sa s
  | 0b000001#6 => execPsubsb f.rt f.rd f.sa s
  | 0b001011#6 => execPunpcklwd f.rt f.rd f.sa s
  | 0b000011#6 => execPinsrh0 f.rt f.rd f.sa s
  | 0b001000#6 => execPmaxub f.rt f.rd f.sa s
  | 0b001001#6 => execPcmpeqb f.rt f.rd f.sa s
  | 0b001010#6 => execPmuluw f.rt f.rd f.sa s
  | 0b001111#6 => execBiadd f.rd f.sa s
  | 0b000010#6 => execFxXor f.rt f.rd f.sa s
  | 0b001100#6 => execFxSequ f.rt f.rd s
  | 0b001101#6 => execFxSltu f.rt f.rd s
  | 0b001110#6 => execFxSleu f.rt f.rd s
  | _ => rejectOut .reservedCop2 s

/-- `decodeCop2Fmt29` with each meaning called at once. -/
def runCop2Fmt29 (f : Fields) (s : State) : Out :=
  match f.funct with
  | 0b000000#6 => execPaddusb f.rt f.rd f.sa s
  | 0b000001#6 => execPsubusb f.rt f.rd f.sa s
  | 0b001011#6 => execPunpckhwd f.rt f.rd f.sa s
  | 0b000011#6 => execPinsrh1 f.rt f.rd f.sa s
  | 0b001000#6 => execPminub f.rt f.rd f.sa s
  | 0b001001#6 => execPcmpgtb f.rt f.rd f.sa s
  | 0b001010#6 => execPmulhuh f.rt f.rd f.sa s
  | 0b001111#6 => execPmovmskb f.rd f.sa s
  | 0b000010#6 => execFxNor f.rt f.rd f.sa s
  | 0b001100#6 => execFxSeq f.rt f.rd s
  | 0b001101#6 => execFxSlt f.rt f.rd s
  | 0b001110#6 => execFxSle f.rt f.rd s
  | _ => rejectOut .reservedCop2 s

/-- `decodeCop2Fmt30` with each meaning called at once. -/
def runCop2Fmt30 (f : Fields) (s : State) : Out :=
  match f.funct with
  | 0b000000#6 => execPaddb f.rt f.rd f.sa s
  | 0b000001#6 => execPsubb f.rt f.rd f.sa s
  | 0b000011#6 => execPinsrh2 f.rt f.rd f.sa s
  | 0b000010#6 => execFxAnd f.rt f.rd f.sa s
  | _ => rejectOut .reservedCop2 s

/-- `decodeCop2Fmt31` with each meaning called at once. -/
def runCop2Fmt31 (f : Fields) (s : State) : Out :=
  match f.funct with
  | 0b000000#6 => execPaddd f.rt f.rd f.sa s
  | 0b000001#6 => execPsubd f.rt f.rd f.sa s
  | 0b000010#6 => execPandn f.rt f.rd f.sa s
  | 0b000011#6 => execPinsrh3 f.rt f.rd f.sa s
  | _ => rejectOut .reservedCop2 s

/-- `decodeCop2` with each meaning called at once. -/
def runCop2 (f : Fields) (s : State) : Out :=
  match f.rs with
  | 0b11000#5 => runCop2Fmt24 f s
  | 0b11001#5 => runCop2Fmt25 f s
  | 0b11010#5 => runCop2Fmt26 f s
  | 0b11011#5 => runCop2Fmt27 f s
  | 0b11100#5 => runCop2Fmt28 f s
  | 0b11101#5 => runCop2Fmt29 f s
  | 0b11110#5 => runCop2Fmt30 f s
  | 0b11111#5 => runCop2Fmt31 f s
  | _ => rejectOut .reservedCop2 s

/-- `decodeMadd` with each meaning called at once. -/
def runMadd (f : Fields) (s : State) : Out :=
  match f.rs with
  | 0b10000#5 => execMaddS f.rt f.rd f.sa s
  | 0b10001#5 => execMaddD f.rt f.rd f.sa s
  | 0b10110#5 => execMaddPs f.rt f.rd f.sa s
  | _ => rejectOut .reservedCop2 s

/-- `decodeMsub` with each meaning called at once. -/
def runMsub (f : Fields) (s : State) : Out :=
  match f.rs with
  | 0b10000#5 => execMsubS f.rt f.rd f.sa s
  | 0b10001#5 => execMsubD f.rt f.rd f.sa s
  | 0b10110#5 => execMsubPs f.rt f.rd f.sa s
  | _ => rejectOut .reservedCop2 s

/-- `decodeNmadd` with each meaning called at once. -/
def runNmadd (f : Fields) (s : State) : Out :=
  match f.rs with
  | 0b10000#5 => execNmaddS f.rt f.rd f.sa s
  | 0b10001#5 => execNmaddD f.rt f.rd f.sa s
  | 0b10110#5 => execNmaddPs f.rt f.rd f.sa s
  | _ => rejectOut .reservedCop2 s

/-- `decodeNmsub` with each meaning called at once. -/
def runNmsub (f : Fields) (s : State) : Out :=
  match f.rs with
  | 0b10000#5 => execNmsubS f.rt f.rd f.sa s
  | 0b10001#5 => execNmsubD f.rt f.rd f.sa s
  | 0b10110#5 => execNmsubPs f.rt f.rd f.sa s
  | _ => rejectOut .reservedCop2 s

/-- `decodeSpecial2` with each meaning called at once. -/
def runSpecial2 (f : Fields) (s : State) : Out :=
  match f.funct with
  | 0b010000#6 => execMultG f.rs f.rt f.rd s
  | 0b010001#6 => execDmultG f.rs f.rt f.rd s
  | 0b010010#6 => execMultuG f.rs f.rt f.rd s
  | 0b010011#6 => execDmultuG f.rs f.rt f.rd s
  | 0b010100#6 => execDivG f.rs f.rt f.rd s
  | 0b010101#6 => execDdivG f.rs f.rt f.rd s
  | 0b010110#6 => execDivuG f.rs f.rt f.rd s
  | 0b010111#6 => execDdivuG f.rs f.rt f.rd s
  | 0b011000#6 => runMadd f s
  | 0b011001#6 => runMsub f s
  | 0b011010#6 => runNmadd f s
  | 0b011011#6 => runNmsub f s
  | 0b011100#6 => execModG f.rs f.rt f.rd s
  | 0b011101#6 => execDmodG f.rs f.rt f.rd s
  | 0b011110#6 => execModuG f.rs f.rt f.rd s
  | 0b011111#6 => execDmoduG f.rs f.rt f.rd s
  | _ => rejectOut .reserved s

/-- `decodeCache` with each meaning called at once. -/
def runCache (f : Fields) (s : State) : Out :=
  match f.rt with
  | 0b00000#5 => execCache0 f.rs f.imm s
  | 0b00001#5 => execCache1 f.rs f.imm s
  | 0b00101#5 => execCache5 f.rs f.imm s
  | 0b01001#5 => execCache9 f.rs f.imm s
  | 0b10001#5 => execCache17 f.rs f.imm s
  | 0b10101#5 => execCache21 f.rs f.imm s
  | 0b11001#5 => execCache25 f.rs f.imm s
  | 0b11101#5 => execCache29 f.rs f.imm s
  | 0b00011#5 => execCache3 f.rs f.imm s
  | 0b00111#5 => execCache7 f.rs f.imm s
  | 0b01011#5 => execCache11 f.rs f.imm s
  | 0b10011#5 => execCache19 f.rs f.imm s
  | 0b10111#5 => execCache23 f.rs f.imm s
  | 0b11011#5 => execCache27 f.rs f.imm s
  | 0b11111#5 => execCache31 f.rs f.imm s
  | _ => execCache f.rs f.rt f.imm s

/-- `decodeFields` with each meaning called at once. -/
def runFields (f : Fields) (s : State) : Out :=
  match f.op with
  | 0b000000#6 => runSpecial f s
  | 0b000001#6 => runRegimm f s
  | 0b000010#6 => execJ f.target s
  | 0b000011#6 => execJal f.target s
  | 0b000100#6 => execBeq f.rs f.rt f.imm s
  | 0b000101#6 => execBne f.rs f.rt f.imm s
  | 0b000110#6 => execBlez f.rs f.imm s
  | 0b000111#6 => execBgtz f.rs f.imm s
  | 0b001000#6 => execAddi f.rs f.rt f.imm s
  | 0b001001#6 => execAddiu f.rs f.rt f.imm s
  | 0b001010#6 => execSlti f.rs f.rt f.imm s
  | 0b001011#6 => execSltiu f.rs f.rt f.imm s
  | 0b001100#6 => execAndi f.rs f.rt f.imm s
  | 0b001101#6 => execOri f.rs f.rt f.imm s
  | 0b001110#6 => execXori f.rs f.rt f.imm s
  | 0b001111#6 => execLui f.rt f.imm s
  | 0b010000#6 => if f.rs[4] then runCop0Op f s else runCop0Move f s
  | 0b010001#6 => runCop1 f s
  | 0b010010#6 => runCop2 f s
  | 0b010100#6 => execBeql f.rs f.rt f.imm s
  | 0b010101#6 => execBnel f.rs f.rt f.imm s
  | 0b010110#6 => execBlezl f.rs f.imm s
  | 0b010111#6 => execBgtzl f.rs f.imm s
  | 0b011000#6 => execDaddi f.rs f.rt f.imm s
  | 0b011001#6 => execDaddiu f.rs f.rt f.imm s
  | 0b011010#6 => execLdl f.rs f.rt f.imm s
  | 0b011011#6 => execLdr f.rs f.rt f.imm s
  | 0b011100#6 => runSpecial2 f s
  | 0b100000#6 => execLb f.rs f.rt f.imm s
  | 0b100001#6 => execLh f.rs f.rt f.imm s
  | 0b100010#6 => execLwl f.rs f.rt f.imm s
  | 0b100011#6 => execLw f.rs f.rt f.imm s
  | 0b100100#6 => execLbu f.rs f.rt f.imm s
  | 0b100101#6 => execLhu f.rs f.rt f.imm s
  | 0b100110#6 => execLwr f.rs f.rt f.imm s
  | 0b100111#6 => execLwu f.rs f.rt f.imm s
  | 0b101000#6 => execSb f.rs f.rt f.imm s
  | 0b101001#6 => execSh f.rs f.rt f.imm s
  | 0b101010#6 => execSwl f.rs f.rt f.imm s
  | 0b101011#6 => execSw f.rs f.rt f.imm s
  | 0b101100#6 => execSdl f.rs f.rt f.imm s
  | 0b101101#6 => execSdr f.rs f.rt f.imm s
  | 0b101110#6 => execSwr f.rs f.rt f.imm s
  | 0b101111#6 => runCache f s
  | 0b110000#6 => execLl f.rs f.rt f.imm s
  | 0b110001#6 => execLwc1 f.rs f.rt f.imm s
  | 0b110100#6 => execLld f.rs f.rt f.imm s
  | 0b110101#6 => execLdc1 f.rs f.rt f.imm s
  | 0b110111#6 => execLd f.rs f.rt f.imm s
  | 0b111000#6 => execSc f.rs f.rt f.imm s
  | 0b111001#6 => execSwc1 f.rs f.rt f.imm s
  | 0b111100#6 => execScd f.rs f.rt f.imm s
  | 0b111101#6 => execSdc1 f.rs f.rt f.imm s
  | 0b111111#6 => execSd f.rs f.rt f.imm s
  | _ => rejectOut .reserved s

/-- `stepWord` by tables. -/
def runWord (w : Word) (s : State) : Out := runFields (fieldsOf w) s

/-! ### Each table is the decoder's -/

theorem runSpecial_eq (f : Fields) (s : State) : runSpecial f s = decodedOut (decodeSpecial f) s := by
  obtain ⟨op, rs, rt, rd, sa, ⟨⟨n, hn⟩⟩⟩ := f
  interval_cases n <;> rfl

theorem runRegimm_eq (f : Fields) (s : State) : runRegimm f s = decodedOut (decodeRegimm f) s := by
  obtain ⟨op, rs, ⟨⟨n, hn⟩⟩, rd, sa, funct⟩ := f
  interval_cases n <;> rfl

theorem runCop0Move_eq (f : Fields) (s : State) : runCop0Move f s = decodedOut (decodeCop0Move f) s := by
  obtain ⟨op, ⟨⟨n, hn⟩⟩, rt, rd, sa, funct⟩ := f
  interval_cases n <;> rfl

theorem runCop0Op_eq (f : Fields) (s : State) : runCop0Op f s = decodedOut (decodeCop0Op f) s := by
  obtain ⟨op, rs, rt, rd, sa, ⟨⟨n, hn⟩⟩⟩ := f
  interval_cases n <;> rfl

theorem runBc1_eq (f : Fields) (s : State) : runBc1 f s = decodedOut (decodeBc1 f) s := by
  obtain ⟨op, rs, ⟨⟨n, hn⟩⟩, rd, sa, funct⟩ := f
  interval_cases n <;> rfl

theorem runCop1S_eq (f : Fields) (s : State) : runCop1S f s = decodedOut (decodeCop1S f) s := by
  obtain ⟨op, rs, rt, rd, sa, ⟨⟨n, hn⟩⟩⟩ := f
  interval_cases n <;> rfl

theorem runCop1D_eq (f : Fields) (s : State) : runCop1D f s = decodedOut (decodeCop1D f) s := by
  obtain ⟨op, rs, rt, rd, sa, ⟨⟨n, hn⟩⟩⟩ := f
  interval_cases n <;> rfl

theorem runCop1W_eq (f : Fields) (s : State) : runCop1W f s = decodedOut (decodeCop1W f) s := by
  obtain ⟨op, rs, rt, rd, sa, ⟨⟨n, hn⟩⟩⟩ := f
  interval_cases n <;> rfl

theorem runCop1L_eq (f : Fields) (s : State) : runCop1L f s = decodedOut (decodeCop1L f) s := by
  obtain ⟨op, rs, rt, rd, sa, ⟨⟨n, hn⟩⟩⟩ := f
  interval_cases n <;> rfl

theorem runCop1Ps_eq (f : Fields) (s : State) : runCop1Ps f s = decodedOut (decodeCop1Ps f) s := by
  obtain ⟨op, rs, rt, rd, sa, ⟨⟨n, hn⟩⟩⟩ := f
  interval_cases n <;> rfl

theorem runCop1_eq (f : Fields) (s : State) : runCop1 f s = decodedOut (decodeCop1 f) s := by
  obtain ⟨op, rs, rt, rd, sa, funct⟩ := f
  by_cases h0 : rs = 0b01000#5
  · subst h0; exact runBc1_eq _ s
  by_cases h1 : rs = 0b10000#5
  · subst h1; exact runCop1S_eq _ s
  by_cases h2 : rs = 0b10001#5
  · subst h2; exact runCop1D_eq _ s
  by_cases h3 : rs = 0b10100#5
  · subst h3; exact runCop1W_eq _ s
  by_cases h4 : rs = 0b10101#5
  · subst h4; exact runCop1L_eq _ s
  by_cases h5 : rs = 0b10110#5
  · subst h5; exact runCop1Ps_eq _ s
  obtain ⟨⟨n, hn⟩⟩ := rs
  interval_cases n <;>
    first | exact absurd rfl h0 | exact absurd rfl h1 | exact absurd rfl h2 | exact absurd rfl h3 | exact absurd rfl h4 | exact absurd rfl h5 | rfl

theorem runCop2Fmt24_eq (f : Fields) (s : State) : runCop2Fmt24 f s = decodedOut (decodeCop2Fmt24 f) s := by
  obtain ⟨op, rs, rt, rd, sa, ⟨⟨n, hn⟩⟩⟩ := f
  interval_cases n <;> rfl

theorem runCop2Fmt25_eq (f : Fields) (s : State) : runCop2Fmt25 f s = decodedOut (decodeCop2Fmt25 f) s := by
  obtain ⟨op, rs, rt, rd, sa, ⟨⟨n, hn⟩⟩⟩ := f
  interval_cases n <;> rfl

theorem runCop2Fmt26_eq (f : Fields) (s : State) : runCop2Fmt26 f s = decodedOut (decodeCop2Fmt26 f) s := by
  obtain ⟨op, rs, rt, rd, sa, ⟨⟨n, hn⟩⟩⟩ := f
  interval_cases n <;> rfl

theorem runCop2Fmt27_eq (f : Fields) (s : State) : runCop2Fmt27 f s = decodedOut (decodeCop2Fmt27 f) s := by
  obtain ⟨op, rs, rt, rd, sa, ⟨⟨n, hn⟩⟩⟩ := f
  interval_cases n <;> rfl

theorem runCop2Fmt28_eq (f : Fields) (s : State) : runCop2Fmt28 f s = decodedOut (decodeCop2Fmt28 f) s := by
  obtain ⟨op, rs, rt, rd, sa, ⟨⟨n, hn⟩⟩⟩ := f
  interval_cases n <;> rfl

theorem runCop2Fmt29_eq (f : Fields) (s : State) : runCop2Fmt29 f s = decodedOut (decodeCop2Fmt29 f) s := by
  obtain ⟨op, rs, rt, rd, sa, ⟨⟨n, hn⟩⟩⟩ := f
  interval_cases n <;> rfl

theorem runCop2Fmt30_eq (f : Fields) (s : State) : runCop2Fmt30 f s = decodedOut (decodeCop2Fmt30 f) s := by
  obtain ⟨op, rs, rt, rd, sa, ⟨⟨n, hn⟩⟩⟩ := f
  interval_cases n <;> rfl

theorem runCop2Fmt31_eq (f : Fields) (s : State) : runCop2Fmt31 f s = decodedOut (decodeCop2Fmt31 f) s := by
  obtain ⟨op, rs, rt, rd, sa, ⟨⟨n, hn⟩⟩⟩ := f
  interval_cases n <;> rfl

theorem runCop2_eq (f : Fields) (s : State) : runCop2 f s = decodedOut (decodeCop2 f) s := by
  obtain ⟨op, rs, rt, rd, sa, funct⟩ := f
  by_cases h0 : rs = 0b11000#5
  · subst h0; exact runCop2Fmt24_eq _ s
  by_cases h1 : rs = 0b11001#5
  · subst h1; exact runCop2Fmt25_eq _ s
  by_cases h2 : rs = 0b11010#5
  · subst h2; exact runCop2Fmt26_eq _ s
  by_cases h3 : rs = 0b11011#5
  · subst h3; exact runCop2Fmt27_eq _ s
  by_cases h4 : rs = 0b11100#5
  · subst h4; exact runCop2Fmt28_eq _ s
  by_cases h5 : rs = 0b11101#5
  · subst h5; exact runCop2Fmt29_eq _ s
  by_cases h6 : rs = 0b11110#5
  · subst h6; exact runCop2Fmt30_eq _ s
  by_cases h7 : rs = 0b11111#5
  · subst h7; exact runCop2Fmt31_eq _ s
  obtain ⟨⟨n, hn⟩⟩ := rs
  interval_cases n <;>
    first | exact absurd rfl h0 | exact absurd rfl h1 | exact absurd rfl h2 | exact absurd rfl h3 | exact absurd rfl h4 | exact absurd rfl h5 | exact absurd rfl h6 | exact absurd rfl h7 | rfl

theorem runMadd_eq (f : Fields) (s : State) : runMadd f s = decodedOut (decodeMadd f) s := by
  obtain ⟨op, ⟨⟨n, hn⟩⟩, rt, rd, sa, funct⟩ := f
  interval_cases n <;> rfl

theorem runMsub_eq (f : Fields) (s : State) : runMsub f s = decodedOut (decodeMsub f) s := by
  obtain ⟨op, ⟨⟨n, hn⟩⟩, rt, rd, sa, funct⟩ := f
  interval_cases n <;> rfl

theorem runNmadd_eq (f : Fields) (s : State) : runNmadd f s = decodedOut (decodeNmadd f) s := by
  obtain ⟨op, ⟨⟨n, hn⟩⟩, rt, rd, sa, funct⟩ := f
  interval_cases n <;> rfl

theorem runNmsub_eq (f : Fields) (s : State) : runNmsub f s = decodedOut (decodeNmsub f) s := by
  obtain ⟨op, ⟨⟨n, hn⟩⟩, rt, rd, sa, funct⟩ := f
  interval_cases n <;> rfl

theorem runSpecial2_eq (f : Fields) (s : State) : runSpecial2 f s = decodedOut (decodeSpecial2 f) s := by
  obtain ⟨op, rs, rt, rd, sa, funct⟩ := f
  by_cases h0 : funct = 0b011000#6
  · subst h0; exact runMadd_eq _ s
  by_cases h1 : funct = 0b011001#6
  · subst h1; exact runMsub_eq _ s
  by_cases h2 : funct = 0b011010#6
  · subst h2; exact runNmadd_eq _ s
  by_cases h3 : funct = 0b011011#6
  · subst h3; exact runNmsub_eq _ s
  obtain ⟨⟨n, hn⟩⟩ := funct
  interval_cases n <;>
    first | exact absurd rfl h0 | exact absurd rfl h1 | exact absurd rfl h2 | exact absurd rfl h3 | rfl

theorem runCache_eq (f : Fields) (s : State) : runCache f s = decodedOut (decodeCache f) s := by
  obtain ⟨op, rs, ⟨⟨n, hn⟩⟩, rd, sa, funct⟩ := f
  interval_cases n <;> rfl

theorem runFields_eq (f : Fields) (s : State) : runFields f s = decodedOut (decodeFields f) s := by
  obtain ⟨op, rs, rt, rd, sa, funct⟩ := f
  by_cases h0 : op = 0b000000#6
  · subst h0; exact runSpecial_eq _ s
  by_cases h1 : op = 0b000001#6
  · subst h1; exact runRegimm_eq _ s
  by_cases h2 : op = 0b010001#6
  · subst h2; exact runCop1_eq _ s
  by_cases h3 : op = 0b010010#6
  · subst h3; exact runCop2_eq _ s
  by_cases h4 : op = 0b011100#6
  · subst h4; exact runSpecial2_eq _ s
  by_cases h5 : op = 0b101111#6
  · subst h5; exact runCache_eq _ s
  by_cases h6 : op = 0b010000#6
  · subst h6
    show (if rs[4] then _ else _) = decodedOut (if rs[4] then _ else _) s
    by_cases h : rs[4] = true
    · rw [if_pos h, if_pos h]; exact runCop0Op_eq _ s
    · rw [if_neg h, if_neg h]; exact runCop0Move_eq _ s
  obtain ⟨⟨n, hn⟩⟩ := op
  interval_cases n <;>
    first | exact absurd rfl h0 | exact absurd rfl h1 | exact absurd rfl h2 | exact absurd rfl h3 | exact absurd rfl h4 | exact absurd rfl h5 | exact absurd rfl h6 | rfl

@[csimp] theorem stepWord_eq_runWord : @stepWord = @runWord := by
  funext w s
  exact (runFields_eq (fieldsOf w) s).symm

end Sys2Proof.Machine
end

