-- ==== Sys2Proof/Machine/Step.lean ====
section
/-! DEFINITION. One step: the instruction boundary, then an event, or the fetch and the instruction
(60_exceptions R807). -/

namespace Sys2Proof.Machine

/-- One step of the machine. -/
def step (s : State) : Host.Outcome State Fault Refusal :=
  match s.boundary.event with
  | some t => .next t
  | none => s.boundary.fetch.andThen fun w t => stepWord w t

/-- The state with the instruction of the opcode table whose bits are `w` where the next step fetches. -/
def State.withFetchWord (s : State) (nbits w : Nat) : State := s.placeWord (BitVec.ofNat 32 (w % 2 ^ nbits))

end Sys2Proof.Machine
end

