-- ==== Sys2Proof/Safety.lean ====
section
/-! DEFINITION. The terms the claims use: the invariant of the machine, and what it means that an instruction completes
with a result and changes nothing else (its frame). -/

namespace Sys2Proof.Machine

/-! ### The invariant -/

/-- Every reserved field of the CP0 registers is clear, and Random is not below Wired (10_state R32 to R67). -/
structure Cp0.Legal (c : Cp0) : Prop where
  index : c.index &&& 0x7FFFFFC0 = 0
  random : c.wired ≤ c.random
  entryLo0 : c.entryLo0 &&& 0x1FFFFFFC00000000 = 0
  entryLo1 : c.entryLo1 &&& 0x1FFFFFFC00000000 = 0
  context : c.context &&& 0xF = 0
  pageMask : c.pageMask &&& 0xFE001FFF = 0
  entryHi : c.entryHi &&& 0x3FFFFF0000001F00 = 0
  status : c.status &&& 0x0A2F00E0 = 0
  cause : c.cause &&& 0x4FFFFC83 = 0
  watch : c.watch &&& 0x4 = 0
  xContext : c.xContext &&& 0xF = 0
  diagnostic : c.diagnostic &&& 0xFFFFFFFFFFFFFF0E = 0
  perfControl : c.perfControl &&& 0xFFFFE000 = 0

/-- The read-only bits of the device registers stand at their reset values (65_platform R924, R932, R950). -/
structure DevicesLegal (s : State) : Prop where
  header : ∀ i : Fin 64, s.io.header[i] &&& ~~~headerMask i = 0
  regs : ∀ i : Fin 64, s.io.regs[i] &&& ~~~regMask i = (ioAtReset s.cfg)[i] &&& ~~~regMask i
  ddr : ∀ i : Fin 29, i ≠ 16 → s.ddr[i] &&& ddrFixed i = ddrAtReset[i] &&& ddrFixed i

/-- The invariant of the machine: memory and the caches are in canonical form, GPR[0] holds 0, the reserved fields are
clear, the shared page mask is one of Table 21, and the ITLB holds at most sixteen entries. -/
structure Inv (s : State) : Prop where
  memory : Memory.wf s.mem
  icache : sparseWf ILine.empty s.icache
  dcache : sparseWf DLine.empty s.dcache
  scache : sparseWf SLine.empty s.scache
  zero : s.gpr[0] = 0
  fcsr : s.fcsr &&& 0x007C0000 = 0
  cp0 : s.cp0.Legal
  mask : legalMask s.tlbMask
  itlb : s.itlb.length ≤ 16
  devices : DevicesLegal s

/-! ### Results with their frames -/

/-- The pc after an instruction that is no branch: the pending target in a delay slot, else the next word. -/
def State.nextPc (s : State) : DWord := s.delay.getD (s.pc + 4)

/-- Every byte of memory reads in `t` as in `s`. -/
def SameMemory (s t : State) : Prop := ∀ a, memByte t.mem a = memByte s.mem a

/-- GPR[rd] holds `v`, unless it is GPR[0]; the other general registers are as in `s`. -/
def GprIs (s t : State) (rd : RegNum) (v : DWord) : Prop := ∀ i, t.r i = if i = rd ∧ i ≠ 0 then v else s.r i

/-- The answer is a next state in which the instruction is done and, besides the pc and the delay slot, nothing is
changed. -/
def OnlyAdvances (o : Out) (s : State) : Prop :=
  ∃ t, o = .next t ∧ t.pc = s.nextPc ∧ t.delay = none ∧ SameMemory s t ∧ t = { s with pc := t.pc, delay := t.delay }

/-- The answer is a next state: GPR[rd] holds `v` (GPR[0] stays 0), the instruction is done, nothing else changed. -/
def GprResult (o : Out) (s : State) (rd : RegNum) (v : DWord) : Prop :=
  ∃ t, o = .next t ∧ GprIs s t rd v ∧ t.pc = s.nextPc ∧ t.delay = none ∧ SameMemory s t ∧
    t = { s with gpr := t.gpr, pc := t.pc, delay := t.delay }

/-- The answer is a next state: HI and LO hold these values, the instruction is done, nothing else changed. -/
def HiLoResult (o : Out) (s : State) (hi lo : DWord) : Prop :=
  ∃ t, o = .next t ∧ t.hi = hi ∧ t.lo = lo ∧ t.pc = s.nextPc ∧ t.delay = none ∧ SameMemory s t ∧
    t = { s with hi := t.hi, lo := t.lo, pc := t.pc, delay := t.delay }

/-- The answer is a next state: the pc and the delay slot are these, GPR[rd] holds `v`, nothing else changed. -/
def FlowResult (o : Out) (s : State) (pc : DWord) (delay : Option DWord) (rd : RegNum) (v : DWord) : Prop :=
  ∃ t, o = .next t ∧ GprIs s t rd v ∧ t.pc = pc ∧ t.delay = delay ∧ SameMemory s t ∧
    t = { s with gpr := t.gpr, pc := t.pc, delay := t.delay }

/-- The bits of the FPRs outside the 64-bit operand `fd` are as in `s`: the other registers, and with FR = 0, where
the operand is the low halves of a pair, the upper half of every register (46_fpu R522). -/
def OtherFprs (s t : State) (fd : RegNum) : Prop :=
  (∀ n : RegNum, n ≠ fd → (s.fr = true ∨ n ≠ fd ||| 1) → t.fpr[n.toNat] = s.fpr[n.toNat]) ∧
  (s.fr = false → ∀ n : RegNum, (t.fpr[n.toNat]).extractLsb' 32 32 = (s.fpr[n.toNat]).extractLsb' 32 32)

/-- The answer is a next state: the 64-bit FPR operand `fd` holds a value `P` accepts, FCSR is `fcsr`, the instruction
is done, nothing else changed. -/
def FprResult (o : Out) (s : State) (fd : RegNum) (fcsr : Word) (P : DWord → Prop) : Prop :=
  ∃ t, o = .next t ∧ P (t.f64 fd) ∧ OtherFprs s t fd ∧ t.fcsr = fcsr ∧ t.pc = s.nextPc ∧ t.delay = none ∧
    SameMemory s t ∧ t = { s with fpr := t.fpr, fcsr := t.fcsr, pc := t.pc, delay := t.delay }

/-- The answer is a next state: the 32-bit FPR operand `fd` holds `v`, FCSR is `fcsr`, the instruction is done, the
upper half of the register (46_fpu R522, D58; log 18), the other FPRs and everything else are unchanged. -/
def Fpr32Result (o : Out) (s : State) (fd : RegNum) (fcsr : Word) (v : Word) : Prop :=
  ∃ t, o = .next t ∧ t.fpr[fd.toNat] = (s.fpr[fd.toNat]).extractLsb' 32 32 ++ v ∧
    (∀ n : RegNum, n ≠ fd → t.fpr[n.toNat] = s.fpr[n.toNat]) ∧
    t.fcsr = fcsr ∧ t.pc = s.nextPc ∧ t.delay = none ∧ SameMemory s t ∧
    t = { s with fpr := t.fpr, fcsr := t.fcsr, pc := t.pc, delay := t.delay }

/-- The answer is a next state: FCSR is `fcsr`, the instruction is done, nothing else changed. -/
def FcsrResult (o : Out) (s : State) (fcsr : Word) : Prop :=
  ∃ t, o = .next t ∧ t.fcsr = fcsr ∧ t.pc = s.nextPc ∧ t.delay = none ∧ SameMemory s t ∧
    t = { s with fcsr := t.fcsr, pc := t.pc, delay := t.delay }

/-- The answer is a next state: the CP0 registers are `c`, the instruction is done, nothing else changed. -/
def Cp0Result (o : Out) (s : State) (c : Cp0) : Prop :=
  ∃ t, o = .next t ∧ t.cp0 = c ∧ t.pc = s.nextPc ∧ t.delay = none ∧ SameMemory s t ∧
    t = { s with cp0 := t.cp0, pc := t.pc, delay := t.delay }

/-- What an exception entry looks like in `t`, taken from `s` (60_exceptions R810 to R812): the pc at the vector's
`offset`, EXL set, and with EXL clear before, EPC and Cause.BD describing the instruction; ExcCode and CE as given.
Status otherwise, every other register but BadVAddr, Context, XContext and EntryHi, and memory are as before. The
model's own hold of Random goes on, since no instruction has completed (log 13). -/
structure Entered (s t : State) (offset : DWord) (code : BitVec 5) (unit : BitVec 2) : Prop where
  pc : t.pc = (if s.bev then 0xFFFFFFFFBFC00200 else 0xFFFFFFFF80000000) + offset
  noSlot : t.delay = none
  status : t.cp0.status = s.cp0.status ||| 2
  epc : t.cp0.epc = if s.exl then s.cp0.epc else if s.delay.isSome then s.pc - 4 else s.pc
  bd : bit t.cp0.cause 31 = if s.exl then bit s.cp0.cause 31 else s.delay.isSome
  code : t.cp0.cause.extractLsb' 2 5 = code
  unit : t.cp0.cause.extractLsb' 28 2 = unit
  requests : t.cp0.cause.extractLsb' 8 2 = s.cp0.cause.extractLsb' 8 2
  held : t.randomHold = (s.randomHold || s.randomHeld)
  memory : SameMemory s t
  frame : t = { s with pc := t.pc, delay := t.delay, cp0 := { s.cp0 with
    status := t.cp0.status, epc := t.cp0.epc, cause := t.cp0.cause, badVAddr := t.cp0.badVAddr,
    context := t.cp0.context, xContext := t.cp0.xContext, entryHi := t.cp0.entryHi }, randomHold := t.randomHold }

/-- The answer is the entry of an exception that records no address: BadVAddr, Context, XContext and EntryHi stay. -/
def Traps (o : Out) (s : State) (code : BitVec 5) (unit : BitVec 2) : Prop :=
  ∃ t, o = .next t ∧ Entered s t 0x180 code unit ∧ t.cp0.badVAddr = s.cp0.badVAddr ∧ t.cp0.context = s.cp0.context ∧
    t.cp0.xContext = s.cp0.xContext ∧ t.cp0.entryHi = s.cp0.entryHi

/-- The answer is an Address Error at `va`: BadVAddr is `va`, Context, XContext and EntryHi stay. -/
def AddressTraps (o : Out) (s : State) (store : Bool) (va : DWord) : Prop :=
  ∃ t, o = .next t ∧ Entered s t 0x180 (if store then 5 else 4) 0 ∧ t.cp0.badVAddr = va ∧ t.cp0.context = s.cp0.context ∧
    t.cp0.xContext = s.cp0.xContext ∧ t.cp0.entryHi = s.cp0.entryHi

/-- The privilege check of the CP0 instructions passes: Kernel mode or CU0 (45_cp0 R461). -/
def Privileged (s : State) : Prop := s.cu0 = true ∨ s.mode = some .kernel

/-- A floating-point instruction may run: CU1 is set, and every register of `regs` can hold a 64-bit operand
(60_exceptions R836, 10_state R71). -/
def FpuReady (s : State) (regs : List RegNum) : Prop := s.cu1 = true ∧ ∀ n ∈ regs, s.fprOk n = true

/-! ### Accesses -/

/-- An access of kind `k` at `va` reaches plain uncached memory: it translates to `pa` with attribute 2 or 7 (which
act alike by D49; log 38), no Watch exception is due at once, and `first` leads to the DRAM byte `a`, or for a load to
the ROM byte `a`, with no bus error for a read. -/
structure PlainAccess (s : State) (k : Access) (va : DWord) (pa first : PAddr) (a : Nat) : Prop where
  translated : s.translate k va = .ok pa 2 ∨ s.translate k va = .ok pa 7
  unwatched : s.watchMatch k va = true → s.exl = true ∨ s.erl = true
  memory : s.target first = .dram a ∨ (k = .load ∧ s.target first = .rom a)
  noError : k = .load → s.busErrorAt .load first = false

/-- An access of kind `k` at `va` hits line `key` of the data cache, no Watch exception is due at once, and a store
that finds the line clean has its upgrade granted. -/
structure CacheHit (s : State) (k : Access) (va : DWord) (pa : PAddr) (key : Nat) : Prop where
  translated : s.translate k va = .ok pa 3
  unwatched : s.watchMatch k va = true → s.exl = true ∨ s.erl = true
  hit : s.dHit va pa = some key
  granted : k = .store → (s.dLine key).state = 3 ∨ s.busErrorAt .store (pa.extractLsb' 5 35 ++ 0#5) = false

/-- The state an access that completes starts its result from: a Watch match (made while EXL or ERL is set, else the
access does not complete) is remembered (60_exceptions R843). -/
def State.afterWatch (s : State) (k : Access) (va : DWord) : State :=
  { s with watchPostponed := s.watchPostponed || s.watchMatch k va }

/-- `i` is a load of `base + o` into register `rt` that may run (an integer load to GPR[0] is none; those of the FPU
need theirs), `n` the alignment it asks for, `back` how far below its address its first byte lies, `m` how many bytes
it reads (40_loads_stores R240, R252 to R255). -/
inductive LoadForm (s : State) (base rt : RegNum) (o : Half) : Instr → Nat → Nat → Nat → Prop
  | lb : rt ≠ 0 → LoadForm s base rt o (.lb base rt o) 1 0 1
  | lbu : rt ≠ 0 → LoadForm s base rt o (.lbu base rt o) 1 0 1
  | lh : rt ≠ 0 → LoadForm s base rt o (.lh base rt o) 2 0 2
  | lhu : rt ≠ 0 → LoadForm s base rt o (.lhu base rt o) 2 0 2
  | lw : rt ≠ 0 → LoadForm s base rt o (.lw base rt o) 4 0 4
  | lwu : rt ≠ 0 → LoadForm s base rt o (.lwu base rt o) 4 0 4
  | ld : rt ≠ 0 → LoadForm s base rt o (.ld base rt o) 8 0 8
  | lwl : rt ≠ 0 → LoadForm s base rt o (.lwl base rt o) 1 ((s.r base + o.signExtend 64).toNat % 4)
      ((s.r base + o.signExtend 64).toNat % 4 + 1)
  | lwr : rt ≠ 0 → LoadForm s base rt o (.lwr base rt o) 1 0 (4 - (s.r base + o.signExtend 64).toNat % 4)
  | ldl : rt ≠ 0 → LoadForm s base rt o (.ldl base rt o) 1 ((s.r base + o.signExtend 64).toNat % 8)
      ((s.r base + o.signExtend 64).toNat % 8 + 1)
  | ldr : rt ≠ 0 → LoadForm s base rt o (.ldr base rt o) 1 0 (8 - (s.r base + o.signExtend 64).toNat % 8)
  | ll : rt ≠ 0 → LoadForm s base rt o (.ll base rt o) 4 0 4
  | lld : rt ≠ 0 → LoadForm s base rt o (.lld base rt o) 8 0 8
  | lwc1 : s.cu1 = true → LoadForm s base rt o (.lwc1 base rt o) 4 0 4
  | ldc1 : FpuReady s [rt] → LoadForm s base rt o (.ldc1 base rt o) 8 0 8

/-- The same for the stores; the low `m` bytes of `v` are what it stores. -/
inductive StoreForm (s : State) (base rt : RegNum) (o : Half) : Instr → Nat → Nat → Nat → DWord → Prop
  | sb : StoreForm s base rt o (.sb base rt o) 1 0 1 (s.r rt)
  | sh : StoreForm s base rt o (.sh base rt o) 2 0 2 (s.r rt)
  | sw : StoreForm s base rt o (.sw base rt o) 4 0 4 (s.r rt)
  | sd : StoreForm s base rt o (.sd base rt o) 8 0 8 (s.r rt)
  | swl : StoreForm s base rt o (.swl base rt o) 1 ((s.r base + o.signExtend 64).toNat % 4)
      ((s.r base + o.signExtend 64).toNat % 4 + 1)
      (((s.r rt).setWidth 32).setWidth 64 >>> (24 - 8 * ((s.r base + o.signExtend 64).toNat % 4)))
  | swr : StoreForm s base rt o (.swr base rt o) 1 0 (4 - (s.r base + o.signExtend 64).toNat % 4) (s.r rt)
  | sdl : StoreForm s base rt o (.sdl base rt o) 1 ((s.r base + o.signExtend 64).toNat % 8)
      ((s.r base + o.signExtend 64).toNat % 8 + 1)
      (s.r rt >>> (56 - 8 * ((s.r base + o.signExtend 64).toNat % 8)))
  | sdr : StoreForm s base rt o (.sdr base rt o) 1 0 (8 - (s.r base + o.signExtend 64).toNat % 8) (s.r rt)
  | sc : StoreForm s base rt o (.sc base rt o) 4 0 4 (s.r rt)
  | scd : StoreForm s base rt o (.scd base rt o) 8 0 8 (s.r rt)
  | swc1 : s.cu1 = true → StoreForm s base rt o (.swc1 base rt o) 4 0 4 ((s.f32 rt).setWidth 64)
  | sdc1 : FpuReady s [rt] → StoreForm s base rt o (.sdc1 base rt o) 8 0 8 (s.f64 rt)

/-- A load or a store, as `k` says. -/
def AccessForm (s : State) (k : Access) (base rt : RegNum) (o : Half) (i : Instr) (n back : Nat) : Prop :=
  (k = .load ∧ ∃ m, LoadForm s base rt o i n back m) ∨ (k = .store ∧ ∃ m v, StoreForm s base rt o i n back m v)

/-- The `n` bytes of memory from `a` read `f 0` to `f (n - 1)` in `t`, every other byte reads as in `s`. -/
def BytesStored (s t : State) (a n : Nat) (f : Nat → Byte) : Prop :=
  ∀ b, memByte t.mem b = if a ≤ b ∧ b < a + n then f (b - a) else memByte s.mem b

/-! ### What answers on the bus (65_platform R905, R930) -/

/-- The widths a target takes (65_platform R906, R927, R931). -/
def Target.Takes : Target → Nat → Prop
  | .dram _, _ => True
  | .rom _, _ => True
  | .window _, n => n = 8
  | .ddr _, n => n = 8
  | .header _, n => n = 1 ∨ n = 2 ∨ n = 4
  | .regs _, n => n = 1 ∨ n = 2 ∨ n = 4
  | .outside _, _ => False
  | .hole, _ => False

/-- How an access of the core stops that its target does not take. -/
def Target.stop : Target → Out
  | .outside r => .refused r
  | .hole => .fault .unclaimedAddress
  | _ => .fault .deviceWidth

/-- The low `n` bytes of `x` are what `T` answers a read with, its first byte at place `off` of a word. -/
def Answers (s : State) (T : Target) (off n : Nat) (x : DWord) : Prop :=
  match T with
  | .dram a => ∀ j, j < n → byteOf x j = memByte s.mem (a + j)
  | .rom a => ∀ j, j < n → byteOf x j = memByte s.mem (a + j)
  | .window i => x = s.windows[i]
  | .ddr i => x = s.ddr[i]
  | .header i => ∀ j, j < n → byteOf x j = byteOf s.io.header[i] (off + j)
  | .regs i => ∀ j, j < n → byteOf x j = byteOf (s.regRead i) (off + j)
  | .outside _ => False
  | .hole => False

/-- The store of the low `n` bytes of `v` to `T`, its first byte at place `off` of a word, leaves `t`. DRAM holds the
bytes, and ROM ignores them. A window register holds the doubleword; a CONF_CTL register its writable bits, and START
in CONF_CTL_03 completes the initialisation at once. A word of the PCI header or of the register block changes in its
writable bits; intenset and intenclr set and clear bits of inten, and intenclr the recorded pulses; a new polarity can
be an edge (65_platform R901, R924, R927, R932, R934, R942; log 34 to 36). -/
def Stored (s t : State) (T : Target) (off n : Nat) (v : DWord) : Prop :=
  let part (b : Nat) := decide (8 * off ≤ b ∧ b < 8 * (off + n)); let bitOf (b : Nat) := v.getLsbD (b - 8 * off)
  match T with
  | .dram a => BytesStored s t a n (byteOf v) ∧ t = { s with mem := t.mem }
  | .rom _ => t = s
  | .window i => t.windows[i] = v ∧ (∀ j, j ≠ i → t.windows[j] = s.windows[j]) ∧ t = { s with windows := t.windows }
  | .ddr i => t.ddr[i] = (s.ddr[i] &&& ddrFixed i) ||| (v &&& ~~~ddrFixed i) ∧
      (∀ j, j ≠ i → t.ddr[j] = if i = 3 ∧ v.getLsbD 40 = true ∧ j = 16 then s.ddr[j] ||| 0x0500000000000000
        else s.ddr[j]) ∧
      t = { s with ddr := t.ddr }
  | .header i => (∀ b, b < 32 → (t.io.header[i]).getLsbD b =
        if part b && (headerMask i).getLsbD b then bitOf b else (s.io.header[i]).getLsbD b) ∧
      (∀ j, j ≠ i → t.io.header[j] = s.io.header[j]) ∧ t = { s with io := { s.io with header := t.io.header } }
  | .regs i => (i = 12 → (∀ b, b < 32 → (t.io.regs[14]).getLsbD b =
          ((s.io.regs[14]).getLsbD b || (part b && decide (b < 11) && bitOf b))) ∧
        (∀ j : Fin 64, j ≠ 14 → t.io.regs[j] = s.io.regs[j]) ∧ t.io.intLatch = s.io.intLatch) ∧
      (i = 13 → (∀ b, b < 32 → (t.io.regs[14]).getLsbD b =
          ((s.io.regs[14]).getLsbD b && !(part b && decide (b < 11) && bitOf b))) ∧
        (∀ b, b < 15 → t.io.intLatch.getLsbD b = (s.io.intLatch.getLsbD b && !(part b && bitOf b))) ∧
        (∀ j : Fin 64, j ≠ 14 → t.io.regs[j] = s.io.regs[j])) ∧
      (i ≠ 12 → i ≠ 13 → (∀ b, b < 32 → (t.io.regs[i]).getLsbD b =
          if part b && (regMask i).getLsbD b then bitOf b else (s.io.regs[i]).getLsbD b) ∧
        (∀ j, j ≠ i → t.io.regs[j] = s.io.regs[j]) ∧
        (∀ b, b < 15 → t.io.intLatch.getLsbD b = (s.io.intLatch.getLsbD b || ((t.io.regs[9]).getLsbD b &&
          (s.pins.getLsbD b == (t.io.regs[11]).getLsbD b) && !(s.pins.getLsbD b == (s.io.regs[11]).getLsbD b))))) ∧
      t = { s with io := { s.io with regs := t.io.regs, intLatch := t.io.intLatch } }
  | .outside _ => t = s
  | .hole => t = s

/-! ### Beneath the primary caches -/

/-- A block read of kind `k` at `p` is answered by the bytes of memory from `a` on: DRAM, or ROM where liocfg permits
block reads (65_platform R930, R931). -/
def BlockAt (s : State) (k : Access) (p : PAddr) (a : Nat) : Prop :=
  s.busErrorAt k p = false ∧ (s.target p = .dram a ∨ (s.target p = .rom a ∧ s.io.regs[2].getLsbD 14 = true))

/-- A dirty line at `p` can be written: DRAM takes it, ROM drops it (65_platform R934; log 39). -/
def LinePlace (s : State) (p : PAddr) : Prop := ∃ a, s.target p = .dram a ∨ s.target p = .rom a

/-- The line `data` has been written to `p`. -/
def LineWritten (s t : State) (p : PAddr) (data : BitVec 256) : Prop :=
  (∃ a, s.target p = .dram a ∧ BytesStored s t a 32 (byteOf data)) ∨ ((∃ a, s.target p = .rom a) ∧ SameMemory s t)

/-- The set of the secondary cache that line `p` belongs to. -/
def inSecondarySet (p : PAddr) (w : Nat) : Prop := w / 4 = (p.extractLsb' 5 12).toNat

/-- The address of secondary line `w`. -/
def State.sLineAddr (s : State) (w : Nat) : PAddr := (s.sLine w).tag ++ BitVec.ofNat 12 (w / 4) ++ 0#5

/-- The address of data line `v`. -/
def State.dLineAddr (s : State) (v : Nat) : PAddr := (s.dLine v).tag ++ BitVec.ofNat 7 (v / 4) ++ 0#5

/-- Each dirty line of the secondary set of `p` can be written to memory. -/
def SecondaryVictimsReady (s : State) (p : PAddr) : Prop :=
  ∀ w, inSecondarySet p w → (s.sLine w).state = 3 → LinePlace s (s.sLineAddr w)

/-- The line `data` at `p` came into secondary way `w` in state `state`, and the line it replaced, if dirty, went to
memory (10_state R102). -/
structure SecondaryFill (s t : State) (p : PAddr) (w : Nat) (state : BitVec 2) (data : BitVec 256) : Prop where
  way : inSecondarySet p w
  lines : ∀ i, t.sLine i = if i = w then ⟨p.extractLsb' 17 23, state, data⟩ else s.sLine i
  clean : (s.sLine w).state ≠ 3 → SameMemory s t
  dirty : (s.sLine w).state = 3 → LineWritten s t (s.sLineAddr w) (s.sLine w).data

/-- A dirty primary line at `p` can be written back. -/
def WritableBelow (s : State) (p : PAddr) : Prop :=
  if s.io.disableScache then LinePlace s p else s.sHit p = none → SecondaryVictimsReady s p

/-- `data` at `p` has been written back: to memory while the secondary cache is off, else to the secondary line that
holds `p`, else to a newly filled one; the line is dirty there (10_state R102; log 26, 27). -/
def WrittenBelow (s t : State) (p : PAddr) (data : BitVec 256) : Prop :=
  if s.io.disableScache then t.scache = s.scache ∧ LineWritten s t p data
  else
    match s.sHit p with
    | some j => SameMemory s t ∧ ∀ i, t.sLine i = if i = j then { s.sLine j with state := 3, data := data } else s.sLine i
    | none => ∃ w, SecondaryFill s t p w 3 data

/-- The line `data` at `p` has come up for a primary miss, from the secondary line that holds it, else, or while that
cache is off, from memory, and then into secondary way `way` too (10_state R102, 20_memory R172; log 26, 27). -/
def LineFetched (s t : State) (k : Access) (p : PAddr) (data : BitVec 256) (way : BitVec 2) : Prop :=
  (∃ j, s.io.disableScache = false ∧ s.sHit p = some j ∧ data = (s.sLine j).data ∧ way = BitVec.ofNat 2 j ∧
    t.scache = s.scache ∧ t.mem = s.mem) ∨
  (∃ a, BlockAt s k p a ∧ (∀ i, i < 32 → byteOf data i = memByte s.mem (a + i)) ∧
    ((s.io.disableScache = true ∧ way = 0 ∧ t.scache = s.scache ∧ t.mem = s.mem) ∨
      (s.io.disableScache = false ∧ s.sHit p = none ∧
        ∃ w, way = BitVec.ofNat 2 w ∧ SecondaryFill s t p w 1 data)))

/-- A cached access of kind `k` at `va` that missed has brought the line of `pa` into data line `v`: the line came up
(which leaves `u`), and then the line it replaced, if dirty, was written back; no other data line changed (20_memory
R173; the order of the two is the model's choice, log 49; log 9, 10, 26, 27). -/
def LineFilled (s t : State) (k : Access) (va : DWord) (pa : PAddr) (v : Nat) : Prop :=
  v / 4 = (va.extractLsb' 5 9).toNat ∧
  (∃ (u : State) (data : BitVec 256) (way : BitVec 2), u = { s with scache := u.scache, mem := u.mem } ∧
    LineFetched s u k (pa.extractLsb' 5 35 ++ 0#5) data way ∧
    (∀ j, t.dLine j = if j = v then ⟨pa.extractLsb' 12 28, 1, way, 0, data⟩ else s.dLine j) ∧
    ((s.dLine v).state = 3 → WrittenBelow u t (s.dLineAddr v) (s.dLine v).data) ∧
    ((s.dLine v).state ≠ 3 → t.scache = u.scache ∧ t.mem = u.mem)) ∧
  t = { s with dcache := t.dcache, scache := t.scache, mem := t.mem, draws := t.draws, freeCount := t.freeCount }

/-- That can happen: the line has a source, and each dirty line that may have to make room has its place. -/
def FillReady (s : State) (k : Access) (va : DWord) (pa : PAddr) : Prop :=
  let line := pa.extractLsb' 5 35 ++ 0#5
  ((s.io.disableScache = false ∧ s.sHit line ≠ none) ∨
    ((∃ a, BlockAt s k line a) ∧ (s.io.disableScache = false → SecondaryVictimsReady s line))) ∧
  ∀ v, v / 4 = (va.extractLsb' 5 9).toNat → (s.dLine v).state = 3 →
    if s.io.disableScache then LinePlace s (s.dLineAddr v)
    else (s.sHit line ≠ none ∧ s.sHit (s.dLineAddr v) ≠ none) ∨ SecondaryVictimsReady s (s.dLineAddr v)

/-! ### Moves to CP0 -/

/-- What register `n` reads after `v` is written to it, where it read `old` (45_cp0 R466, R467). -/
def cp0AfterWrite (n : RegNum) (old v : DWord) : DWord :=
  match n with
  | 0#5 => sext64 (low32 v &&& 0x8000003F)
  | 2#5 => v &&& 0xE0000003FFFFFFFF
  | 3#5 => v &&& 0xE0000003FFFFFFFF
  | 4#5 => maskedWrite 0xFFFFFFFFFF800000 old v
  | 5#5 => sext64 (low32 v &&& 0x01FFE000)
  | 6#5 => v &&& 0x3F
  | 9#5 => sext64 (low32 v)
  | 10#5 => v &&& 0xC00000FFFFFFE0FF
  | 11#5 => sext64 (low32 v)
  | 12#5 => sext64 (low32 v &&& 0xF5D0FF1F)
  | 13#5 => maskedWrite 0x300 old v
  | 14#5 => v
  | 16#5 => maskedWrite 0xF old v
  | 18#5 => v &&& 0xFFFFFFFFFFFFFFFB
  | 20#5 => maskedWrite 0xFFFFFFFE00000000 old v
  | 22#5 => v &&& 0xF1
  | 24#5 => sext64 (low32 v &&& 0x1FFF)
  | 25#5 => v
  | 28#5 => sext64 (low32 v)
  | 29#5 => sext64 (low32 v)
  | 30#5 => v
  | _ => old

/-- The registers a write to register `n` can make read differently: itself; Random with Wired; Cause, whose IP bit 7
shows the timer and the counters, with Count, Compare and the counter registers (45_cp0 R467). -/
def cp0Touched (n : RegNum) : List RegNum :=
  if n = 6 then [6, 1] else if n = 9 ∨ n = 11 ∨ n = 24 ∨ n = 25 then [n, 13] else [n]

/-- Every CP0 register the model stores but Random and register `n` is the same in `c` and `d` (45_cp0 R467: "Only the
listed fields change"). -/
def Cp0Others (c d : Cp0) (n : RegNum) : Prop :=
  (n ≠ 0 → d.index = c.index) ∧ (n ≠ 2 → d.entryLo0 = c.entryLo0) ∧ (n ≠ 3 → d.entryLo1 = c.entryLo1) ∧
  (n ≠ 4 → d.context = c.context) ∧ (n ≠ 5 → d.pageMask = c.pageMask) ∧ (n ≠ 6 → d.wired = c.wired) ∧
  d.badVAddr = c.badVAddr ∧ (n ≠ 9 → d.count = c.count) ∧ (n ≠ 10 → d.entryHi = c.entryHi) ∧
  (n ≠ 11 → d.compare = c.compare) ∧ (n ≠ 12 → d.status = c.status) ∧ (n ≠ 13 → d.cause = c.cause) ∧
  (n ≠ 14 → d.epc = c.epc) ∧ (n ≠ 16 → d.configLow = c.configLow) ∧ (n ≠ 18 → d.watch = c.watch) ∧
  (n ≠ 20 → d.xContext = c.xContext) ∧ (n ≠ 22 → d.diagnostic = c.diagnostic) ∧
  (n ≠ 24 → d.perfControl = c.perfControl) ∧ (n ≠ 25 → d.perfCounter = c.perfCounter) ∧
  (n ≠ 28 → d.tagLo = c.tagLo) ∧ (n ≠ 29 → d.tagHi = c.tagHi) ∧ (n ≠ 30 → d.errorEpc = c.errorEpc)

/-- The answer is a next state: `v` has been written to CP0 register `n` with its side effects, the instruction is
done, nothing else changed: no other stored register but Random with Wired, and of Cause IP[1:0] alone, and those only
for `n` 13; a write of Wired starts the model's own hold of Random (45_cp0 R467, R468; log 13). -/
def Cp0Written (o : Out) (s : State) (n : RegNum) (v : DWord) : Prop :=
  ∃ t, o = .next t ∧ (n ≠ 1 → t.readCp0 n = cp0AfterWrite n (s.readCp0 n) v) ∧
    (∀ m, m ∉ cp0Touched n → t.readCp0 m = s.readCp0 m) ∧ Cp0Others s.cp0 t.cp0 n ∧
    (n = 13 → t.cp0.cause = maskedWrite 0x300 s.cp0.cause (low32 v)) ∧
    t.cp0.random = (if n = 6 then 63 else s.cp0.random) ∧
    t.timerPending = (if n = 11 then false else s.timerPending || (n == 9 && low32 v == s.cp0.compare)) ∧
    t.watchPostponed = (if n = 18 then false else s.watchPostponed) ∧
    t.itlb = (if n = 22 ∧ v.getLsbD 2 = true then [] else s.itlb) ∧
    t.randomHold = (n == 6 || s.randomHold) ∧
    t.pc = s.nextPc ∧ t.delay = none ∧ SameMemory s t ∧
    t = { s with
      cp0 := t.cp0, timerPending := t.timerPending, watchPostponed := t.watchPostponed, itlb := t.itlb,
      randomHold := t.randomHold, pc := t.pc, delay := t.delay }

/-! ### Stores and memory -/

/-- The answer is a next state: the `n` bytes from physical address `a` hold `f 0` to `f (n - 1)`, every other byte
is as before, the instruction is done, nothing else changed. -/
def StoreResult (o : Out) (s : State) (a n : Nat) (f : Nat → Byte) : Prop :=
  ∃ t, o = .next t ∧ (∀ i, i < n → memByte t.mem (a + i) = f i) ∧
    (∀ b, b < a ∨ a + n ≤ b → memByte t.mem b = memByte s.mem b) ∧ t.pc = s.nextPc ∧ t.delay = none ∧
    t = { s with mem := t.mem, pc := t.pc, delay := t.delay }

/-- The word of four bytes from `a`, the lowest address lowest (20_memory R120). -/
def wordAt (m : List Host.Cell) (a : Nat) : Word :=
  memByte m (a + 3) ++ memByte m (a + 2) ++ memByte m (a + 1) ++ memByte m a

/-- The doubleword of eight bytes from `a`. -/
def doubleAt (m : List Host.Cell) (a : Nat) : DWord := wordAt m (a + 4) ++ wordAt m a

/-! ### Floating-point operations -/

/-- What an operation that signals `x` ends in: the Floating-Point exception with the new Cause bits in FCSR and
nothing written, or `result` of the new FCSR (46_fpu R530). -/
def FpEnds (o : Out) (s : State) (x : FpExc) (result : Word → Prop) : Prop :=
  let f := fcsrAfter s.fcsr x
  if fcsrTraps f then Traps o (s.setFcsr f) 15 0 else result f

/-- The value of a finite operand taken apart (46_fpu R523). -/
noncomputable def FpVal.toReal (v : FpVal) : ℝ := (if v.neg then -1 else 1) * (v.mag : ℝ) * (2 : ℝ) ^ v.exp

/-- The value of an operand that is no NaN: an infinity is beyond every finite value (46_fpu R523). -/
noncomputable def FpVal.toEReal (v : FpVal) : EReal :=
  if v.isInf then (if v.neg then ⊥ else ⊤) else (v.toReal : EReal)

/-- `z` has a significand `m` of `p` bits with an unbounded exponent (46_fpu R526). -/
def HasSignificand (p : Nat) (z : ℝ) (m : Nat) : Prop :=
  2 ^ (p - 1) ≤ m ∧ m < 2 ^ p ∧ ∃ q : ℤ, |z| = (m : ℝ) * (2 : ℝ) ^ q

/-- `r` is `RoundUnbounded` of `x` with precision `p`: to nearest, ties to the even significand; toward zero; up;
down (46_fpu R526). -/
def RoundsTo (p : Nat) (rm : BitVec 2) (x r : ℝ) : Prop :=
  let number (z : ℝ) := ∃ m, HasSignificand p z m
  number r ∧
    (rm = 0 → (∀ z, number z → |x - r| ≤ |x - z|) ∧
      ((∃ z, number z ∧ z ≠ r ∧ |x - z| = |x - r|) → ∃ m, HasSignificand p r m ∧ m % 2 = 0)) ∧
    (rm = 1 → 0 < x * r ∧ |r| ≤ |x| ∧ ∀ z, number z → |z| ≤ |x| → |z| ≤ |r|) ∧
    (rm = 2 → x ≤ r ∧ ∀ z, number z → x ≤ z → r ≤ z) ∧
    (rm = 3 → r ≤ x ∧ ∀ z, number z → z ≤ x → z ≤ r)

/-- `n` is `RoundInt` of `x` (46_fpu R526). -/
def RoundsToInt (rm : BitVec 2) (x : ℝ) (n : ℤ) : Prop :=
  (rm = 0 → (∀ z : ℤ, |x - n| ≤ |x - z|) ∧ ((∃ z : ℤ, z ≠ n ∧ |x - z| = |x - n|) → n % 2 = 0)) ∧
  (rm = 1 → |(n : ℝ)| ≤ |x| ∧ 0 ≤ x * n ∧ ∀ z : ℤ, |(z : ℝ)| ≤ |x| → |z| ≤ |n|) ∧
  (rm = 2 → x ≤ n ∧ ∀ z : ℤ, x ≤ z → n ≤ z) ∧
  (rm = 3 → n ≤ x ∧ ∀ z : ℤ, (z : ℝ) ≤ x → z ≤ n)

/-- `o` is what `Deliver` gives for the exact nonzero result `x` in format `f` (46_fpu R527): the rounded value where
the format has it as a normalized number, else overflow, or underflow where FS allows it, or Unimplemented. -/
def Delivers (f : FpFmt) (fcsr : Word) (x : ℝ) (o : FpOut) : Prop :=
  ∃ r, RoundsTo f.p (fcsrRm fcsr) x r ∧
    let maxFinite : ℝ := ((2 : ℝ) ^ f.p - 1) * (2 : ℝ) ^ ((f.bias : ℤ) - f.p + 1)
    let minNormal : ℝ := (2 : ℝ) ^ (1 - (f.bias : ℤ))
    (maxFinite < |r| → o.exc = { overflow := true, inexact := true } ∧
      (0 < x → o.bits = f.overflowed (fcsrRm fcsr) false) ∧ (x < 0 → o.bits = f.overflowed (fcsrRm fcsr) true)) ∧
    (|r| < minNormal → fcsr.getLsbD 8 = true ∨ fcsr.getLsbD 7 = true ∨ fcsr.getLsbD 24 = false →
      o = FpOut.unimplemented) ∧
    (|r| < minNormal → fcsr.getLsbD 8 = false → fcsr.getLsbD 7 = false → fcsr.getLsbD 24 = true →
      o.exc = { underflow := true, inexact := true } ∧
      (0 < x → o.bits = f.flushed (fcsrRm fcsr) false) ∧ (x < 0 → o.bits = f.flushed (fcsrRm fcsr) true)) ∧
    (minNormal ≤ |r| → |r| ≤ maxFinite → (∃ b : Bool, (b = true ↔ r ≠ x) ∧ o.exc = { inexact := b }) ∧
      (f.unpack o.bits).cls = .normal ∧ (f.unpack o.bits).toReal = r)

end Sys2Proof.Machine
end

