-- ==== Sys2Proof/Certificates/Slice0/Obligations.lean ====
section
/-! DEFINITION. The statements for the provers, from the numbered rules of spec/. OBLIGATIONS.json says of each which
rules it states, or that it is the model's own and which log entry it rests on. -/

section
open Sys2Proof Sys2Proof.Machine

/-! ### Words, steps, the whole machine -/

/-- Decoding the word of any well-formed instruction gives it back, with every operand at every value its field
admits (30_encoding sections 1 to 3); and the decoder answers well-formed instructions only: the generic CACHE never
stands for a listed operation (45_cp0 section 5). -/
def Obligations.DecodeEncodeRoundTrip : Prop :=
  (∀ i : Instr, i.wellFormed = true → decode (encode i) = .ok i) ∧
  (∀ (w : Word) (i : Instr), decode w = .ok i → i.wellFormed = true)

/-- A word of each family, written out bit by bit from its encoding, decodes to its instruction. -/
def Obligations.SampleWordsDecode : Prop :=
  -- 100011 base rt offset: lw r2, 8(r4)
  decode 0b10001100100000100000000000001000 = .ok (.lw 4 2 8) ∧
  -- 000000 rs rt rd 00000 100001: addu r3, r1, r2
  decode 0b00000000001000100001100000100001 = .ok (.addu 1 2 3) ∧
  -- 011100 rs rt rd 00000 011100: mod.g r3, r1, r2
  decode 0b01110000001000100001100000011100 = .ok (.modG 1 2 3) ∧
  -- 000100 rs rt offset: beq r1, r2, +3
  decode 0b00010000001000100000000000000011 = .ok (.beq 1 2 3) ∧
  -- 000000 code20 001100: syscall 1
  decode 0b00000000000000000000000001001100 = .ok (.syscall 1) ∧
  -- 010000 00100 rt rd 00000000000: mtc0 r10, EPC
  decode 0b01000000100010100111000000000000 = .ok (.mtc0 10 14) ∧
  -- 101111 base 10101 offset: cache 21, 0(r4)
  decode 0b10111100100101010000000000000000 = .ok (.cache21 4 0) ∧
  -- 010001 10001 ft fs fd 000010: mul.d f6, f2, f4
  decode 0b01000110001001000001000110000010 = .ok (.mulD 4 2 6) ∧
  -- 010001 10110 ft fs fd 000000: add.ps f6, f2, f4
  decode 0b01000110110001000001000110000000 = .ok (.addPs 4 2 6) ∧
  -- 010010 11110 ft fs fd 000000: paddb f6, f2, f4
  decode 0b01001011110001000001000110000000 = .ok (.paddb 4 2 6) ∧
  -- 010010 11010 ft fs fd 001100: add f6, f2, f4
  decode 0b01001011010001000001000110001100 = .ok (.fxAdd 4 2 6)

/-- A step with no event pending runs the instruction the decoder reads from the word the fetch delivers. The boundary
(the inputs, the counters) comes before the fetch, and both are in the state the instruction starts from. -/
def Obligations.StepRunsTheDecodedInstruction : Prop :=
  ∀ (s t : State) (w : Word) (i : Instr), s.boundary.event = none → s.boundary.fetch = .val w t →
    decode w = .ok i → step s = exec i t

/-- Before the instruction a step changes only the inputs, the pins and the latches behind them, the pending requests,
Count, Random, the performance counters, their helpers, and what the stores of PCI bus masters change in memory and the
device registers; every other field, the caches among them, is as it was. The requests of the moment join the pending
ones, one of a kind already pending making no second entry. The stores are made one after the other, each as
PhysicalAddressMap says (the model's boundary, log 15, 40). -/
def Obligations.BoundaryFrame : Prop :=
  ∀ s : State, let i := s.nextInput
    let u := i.pciWrites.foldl State.pciStore { s with inputs := s.inputs.tail }
    s.boundary = { s with
      inputs := s.inputs.tail, io := { u.io with intLatch := s.boundary.io.intLatch }, pins := i.pins.getD s.pins,
      coldResetPending := s.coldResetPending || i.coldReset, softResetPending := s.softResetPending || i.softReset,
      nmiPending := s.nmiPending || i.nmi, timerPending := s.boundary.timerPending, mem := u.mem,
      windows := u.windows, ddr := u.ddr, countPhase := s.boundary.countPhase, randomHold := false,
      randomHeld := s.randomHold,
      cp0 := { s.cp0 with
        count := s.boundary.cp0.count, random := s.boundary.cp0.random, perfCounter := s.boundary.cp0.perfCounter } }

/-- A fetch delivers the four bytes at the pc, the lowest address in bits 7:0: uncached from DRAM or ROM, or with Bus
Error; cached from the instruction line that holds the address, whatever memory and the data cache hold, else from the
secondary line, else from memory, and the line is then in the instruction cache. A pc that is not a multiple of 4
raises Address Error. The state the translation leaves is that of InstructionTlb; where the lines go is a free choice,
and the error of a line decided on its first address and the write-back of a dirty secondary line alone, after the new
line is read, are choices too (log 9, 10, 26, 27, 47, 49). That attribute 7 acts like 2 is a choice of the spec (D49;
log 38). -/
def Obligations.FetchReadsTheWordAtThePc : Prop :=
  ∀ (s t : State) (pa : PAddr) (attr : BitVec 3), sparseWf ILine.empty s.icache → sparseWf SLine.empty s.scache →
    Memory.wf s.mem →
    let line := pa.extractLsb' 5 35 ++ 0#5; let at' := pa.toNat % 32
    let word (d : BitVec 256) : Word := byteOf d (at' + 3) ++ byteOf d (at' + 2) ++ byteOf d (at' + 1) ++ byteOf d at'
    let fills (u : State) (d : BitVec 256) := ∃ v, v / 4 = (s.pc.extractLsb' 5 9).toNat ∧
      ∀ k, u.iLine k = if k = v then ⟨pa.extractLsb' 12 28, true, d⟩ else s.iLine k
    (s.pc.toNat % 4 ≠ 0 → s.fetch = .exc (.addressError false s.pc) s) ∧
    (s.pc.toNat % 4 = 0 → s.translateFetch s.pc = (.ok pa attr, t) →
      (∀ a, attr ≠ 3 → s.busErrorAt .fetch pa = false → s.target pa = .dram a ∨ s.target pa = .rom a →
        s.fetch = .val (wordAt s.mem a) t) ∧
      (attr ≠ 3 → s.busErrorAt .fetch pa = true → s.fetch = .exc (.busError true) t) ∧
      (∀ k, attr = 3 → s.iHit s.pc pa = some k → s.fetch = .val (word (s.iLine k).data) t) ∧
      (∀ j, attr = 3 → s.iHit s.pc pa = none → s.io.disableScache = false → s.sHit line = some j →
        ∃ u, s.fetch = .val (word (s.sLine j).data) u ∧ fills u (s.sLine j).data ∧
          u = { t with icache := u.icache, draws := u.draws, freeCount := u.freeCount }) ∧
      (∀ a, attr = 3 → s.iHit s.pc pa = none → s.io.disableScache = true → BlockAt s .fetch line a →
        ∃ d u, (∀ i, i < 32 → byteOf d i = memByte s.mem (a + i)) ∧ s.fetch = .val (word d) u ∧ fills u d ∧
          u = { t with icache := u.icache, draws := u.draws, freeCount := u.freeCount }) ∧
      (∀ a, attr = 3 → s.iHit s.pc pa = none → s.io.disableScache = false → s.sHit line = none →
        BlockAt s .fetch line a → SecondaryVictimsReady s line →
        ∃ d w u, (∀ i, i < 32 → byteOf d i = memByte s.mem (a + i)) ∧ s.fetch = .val (word d) u ∧ fills u d ∧
          SecondaryFill s u line w 1 d ∧
          u = { t with
            icache := u.icache, scache := u.scache, mem := u.mem, draws := u.draws, freeCount := u.freeCount }) ∧
      (attr = 3 → s.iHit s.pc pa = none → s.io.disableScache = true ∨ s.sHit line = none →
        s.busErrorAt .fetch line = true → s.fetch = .exc (.busError true) t))

/-- The events come before the instruction, in the order Cold Reset, Soft Reset, NMI, the postponed Watch, an
interrupt; a step that meets one takes it and runs no instruction. Each is stated with its whole next state: a cold
reset forgets every request; a Soft Reset clears its own request and the latched external ones and keeps an NMI
pending; an NMI clears its own request; the Watch clears the postponed request; an interrupt clears none. With none of
them no event is taken. That each is taken at the very next boundary, and what a Soft Reset leaves, are choices of the
spec (D34, D35, C38; log 13, 15, 41). -/
def Obligations.EventsComeFirst : Prop :=
  ∀ s : State, let b := s.boundary
    let watch := b.watchPostponed = true ∧ b.exl = false ∧ b.erl = false
    let interrupt := b.ie = true ∧ b.exl = false ∧ b.erl = false ∧ b.ip &&& b.cp0.status.extractLsb' 8 8 ≠ 0
    let restart (t : State) : State := { t with
      pc := 0xFFFFFFFFBFC00000, delay := none, randomHold := b.randomHold || b.randomHeld, cp0 := { b.cp0 with
        errorEpc := if b.delay.isSome then b.pc - 4 else b.pc, status := b.cp0.status ||| 0x00500004 } }
    (b.coldResetPending = true → ∃ t, step s = .next t ∧
      t = State.coldReset b.cfg b.mem b.pc b.pins b.inputs b.draws b.freeCount ∧ t.coldResetPending = false ∧
      t.softResetPending = false ∧ t.nmiPending = false ∧ t.timerPending = false ∧ t.watchPostponed = false) ∧
    (b.coldResetPending = false → b.softResetPending = true →
      step s = .next (restart { b with softResetPending := false, io := { b.io with intLatch := 0 } })) ∧
    (b.coldResetPending = false → b.softResetPending = false → b.nmiPending = true →
      step s = .next (restart { b with nmiPending := false })) ∧
    (b.coldResetPending = false → b.softResetPending = false → b.nmiPending = false → watch →
      Traps (step s) { b with watchPostponed := false } 23 0) ∧
    (b.coldResetPending = false → b.softResetPending = false → b.nmiPending = false → ¬watch → interrupt →
      Traps (step s) b 0 0) ∧
    (b.coldResetPending = false → b.softResetPending = false → b.nmiPending = false → ¬watch → ¬interrupt →
      b.event = none)

/-- A word that is no instruction takes the exception of its table: Reserved Instruction; for COP0 after the privilege
check; for COP1 Floating-Point with Cause.E; for COP2 and the multiply-adds after the CU1 check. Which exception a
reserved cell takes is the reading of the spec (D52; log 42). -/
def Obligations.ReservedWordsTrap : Prop :=
  ∀ (s t : State) (w : Word) (r : Reject), s.boundary.event = none → s.boundary.fetch = .val w t →
    decode w = .error r →
    (r = .reserved → Traps (step s) t 10 0) ∧
    (r = .reservedCop0 → t.cu0 = true ∨ t.mode = some .kernel → Traps (step s) t 10 0) ∧
    (r = .reservedCop0 → t.cu0 = false → t.mode = some .user ∨ t.mode = some .supervisor → Traps (step s) t 11 0) ∧
    (r = .reservedCop1 → t.cu1 = true →
      Traps (step s) (t.setFcsr ((t.fcsr &&& ~~~0x3F000) ||| 0x20000)) 15 0) ∧
    (r = .reservedCop2 → t.cu1 = true → Traps (step s) t 10 0) ∧
    (r = .reservedCop1 ∨ r = .reservedCop2 → t.cu1 = false → Traps (step s) t 11 1)

/-- The state after reset meets the invariant of the machine. The values of what the spec leaves open at reset are the
model's choice (log 1 to 7). -/
def Obligations.ResetMeetsTheInvariant : Prop := Inv State.reset

/-- Every step that answers a next state keeps the invariant: canonical memory and caches, GPR[0] = 0, reserved
fields clear, a legal page mask, Random at or above Wired, read-only device bits at their reset values. -/
def Obligations.StepKeepsTheInvariant : Prop :=
  ∀ s t : State, Inv s → step s = .next t → Inv t

/-- What a cold reset leaves: the pc at the reset vector, Status, Random, Wired, the
performance control register, the constant fields of Config, and every earlier request forgotten: the resets, the NMI,
the timer, the postponed Watch and the bits that enable Watch, the software interrupts, the recorded pulses and the
link bit. The cleared requests are the choice of the spec (D19, D50; log 3), the places of Config's fields that of
log 4 (D6), and that memory keeps its contents through a reset is the model's (log 7, 41). -/
def Obligations.ColdResetValues : Prop :=
  ∀ (cfg : Config.Params) (mem : List Host.Cell) (pc : DWord) (pins : BitVec 15) (ins : List Input) (ds : List Nat)
    (n : Nat), let s := State.coldReset cfg mem pc pins ins ds n
    s.pc = 0xFFFFFFFFBFC00000 ∧ s.delay = none ∧ s.status = 0x30400004 ∧ s.mode = some .kernel ∧
    s.cp0.random = 63 ∧ s.cp0.wired = 0 ∧ s.cp0.errorEpc = pc ∧ s.cp0.perfControl = 0 ∧
    s.config.extractLsb' 4 8 = 0x93 ∧ s.readCp0 15 = 0x6302 ∧ s.timerPending = false ∧ s.nmiPending = false ∧
    s.softResetPending = false ∧ s.coldResetPending = false ∧ s.watchPostponed = false ∧ s.llbit = false ∧
    s.cp0.cause.extractLsb' 8 2 = 0 ∧ s.cp0.watch.extractLsb' 0 2 = 0 ∧ s.io.intLatch = 0 ∧ s.mem = mem

/-! ### Integer arithmetic -/

/-- ADDIU, DADDIU, SLTI, SLTIU, ANDI, ORI, XORI, LUI, ADDU, SUBU, DADDU, DSUBU, SLT, SLTU, AND, OR, XOR and NOR complete
in every state: the destination gets the value, nothing else changes. That the word forms take the low words of
registers that hold no word is the decision of the spec (D16; log 20). -/
def Obligations.AluResults : Prop :=
  ∀ (s : State) (rs rt rd : RegNum) (imm : Half), let a := s.r rs; let b := s.r rt
    GprResult (exec (.addiu rs rt imm) s) s rt
      ((BitVec.ofInt 32 ((low32 (s.r rs)).toInt + imm.toInt)).signExtend 64) ∧
    GprResult (exec (.daddiu rs rt imm) s) s rt (BitVec.ofInt 64 ((s.r rs).toInt + imm.toInt)) ∧
    GprResult (exec (.slti rs rt imm) s) s rt (if (s.r rs).toInt < imm.toInt then 1 else 0) ∧
    GprResult (exec (.sltiu rs rt imm) s) s rt (if (s.r rs).toNat < (imm.signExtend 64).toNat then 1 else 0) ∧
    GprResult (exec (.andi rs rt imm) s) s rt (s.r rs &&& imm.setWidth 64) ∧
    GprResult (exec (.ori rs rt imm) s) s rt (s.r rs ||| imm.setWidth 64) ∧
    GprResult (exec (.xori rs rt imm) s) s rt (s.r rs ^^^ imm.setWidth 64) ∧
    GprResult (exec (.lui rt imm) s) s rt (BitVec.ofInt 64 (imm.toInt * 2 ^ 16)) ∧
    GprResult (exec (.addu rs rt rd) s) s rd
      ((BitVec.ofInt 32 ((low32 a).toInt + (low32 b).toInt)).signExtend 64) ∧
    GprResult (exec (.subu rs rt rd) s) s rd
      ((BitVec.ofInt 32 ((low32 a).toInt - (low32 b).toInt)).signExtend 64) ∧
    GprResult (exec (.daddu rs rt rd) s) s rd (BitVec.ofInt 64 (a.toInt + b.toInt)) ∧
    GprResult (exec (.dsubu rs rt rd) s) s rd (BitVec.ofInt 64 (a.toInt - b.toInt)) ∧
    GprResult (exec (.slt rs rt rd) s) s rd (if a.toInt < b.toInt then 1 else 0) ∧
    GprResult (exec (.sltu rs rt rd) s) s rd (if a.toNat < b.toNat then 1 else 0) ∧
    GprResult (exec (.and rs rt rd) s) s rd (a &&& b) ∧
    GprResult (exec (.or rs rt rd) s) s rd (a ||| b) ∧
    GprResult (exec (.xor rs rt rd) s) s rd (a ^^^ b) ∧
    GprResult (exec (.nor rs rt rd) s) s rd (~~~(a ||| b))

/-- ADD, ADDI, SUB, DADD, DADDI and DSUB: a sum or difference outside the signed range raises Integer Overflow, and
then no register is written; else the destination gets it and nothing else changes. That the word forms take the low
words of registers that hold no word is the decision of the spec (D16; log 20). -/
def Obligations.AluTrapsOnOverflow : Prop :=
  ∀ (s : State) (rs rt rd : RegNum) (imm : Half),
    let a := (low32 (s.r rs)).toInt; let b := (low32 (s.r rt)).toInt
    let x := (s.r rs).toInt; let y := (s.r rt).toInt
    let word (o : Out) (r : RegNum) (v : Int) :=
      if -2 ^ 31 ≤ v ∧ v < 2 ^ 31 then GprResult o s r (BitVec.ofInt 64 v) else Traps o s 12 0
    let double (o : Out) (r : RegNum) (v : Int) :=
      if -2 ^ 63 ≤ v ∧ v < 2 ^ 63 then GprResult o s r (BitVec.ofInt 64 v) else Traps o s 12 0
    word (exec (.add rs rt rd) s) rd (a + b) ∧ word (exec (.addi rs rt imm) s) rt (a + imm.toInt) ∧
    word (exec (.sub rs rt rd) s) rd (a - b) ∧ double (exec (.dadd rs rt rd) s) rd (x + y) ∧
    double (exec (.daddi rs rt imm) s) rt (x + imm.toInt) ∧ double (exec (.dsub rs rt rd) s) rd (x - y)

/-- The fifteen shifts. On words: SLL, SRL, SRA by the field, SLLV, SRLV, SRAV by the low five bits of rs. On
doublewords: by the field, by the field plus 32, by the low six bits of rs. That the word forms take the low word of
a register that holds no word is the decision of the spec (D16; log 20). -/
def Obligations.ShiftResults : Prop :=
  ∀ (s : State) (rs rt rd sa : RegNum), let a := low32 (s.r rt); let m := (s.r rs).toNat % 32
    let x := s.r rt; let n := (s.r rs).toNat % 64
    GprResult (exec (.sll rt rd sa) s) s rd ((BitVec.ofNat 32 (a.toNat * 2 ^ sa.toNat)).signExtend 64) ∧
    GprResult (exec (.srl rt rd sa) s) s rd ((BitVec.ofNat 32 (a.toNat / 2 ^ sa.toNat)).signExtend 64) ∧
    GprResult (exec (.sra rt rd sa) s) s rd (BitVec.ofInt 64 (a.toInt / 2 ^ sa.toNat)) ∧
    GprResult (exec (.sllv rs rt rd) s) s rd ((BitVec.ofNat 32 (a.toNat * 2 ^ m)).signExtend 64) ∧
    GprResult (exec (.srlv rs rt rd) s) s rd ((BitVec.ofNat 32 (a.toNat / 2 ^ m)).signExtend 64) ∧
    GprResult (exec (.srav rs rt rd) s) s rd (BitVec.ofInt 64 (a.toInt / 2 ^ m)) ∧
    GprResult (exec (.dsll rt rd sa) s) s rd (BitVec.ofNat 64 (x.toNat * 2 ^ sa.toNat)) ∧
    GprResult (exec (.dsrl rt rd sa) s) s rd (BitVec.ofNat 64 (x.toNat / 2 ^ sa.toNat)) ∧
    GprResult (exec (.dsra rt rd sa) s) s rd (BitVec.ofInt 64 (x.toInt / 2 ^ sa.toNat)) ∧
    GprResult (exec (.dsll32 rt rd sa) s) s rd (BitVec.ofNat 64 (x.toNat * 2 ^ (sa.toNat + 32))) ∧
    GprResult (exec (.dsrl32 rt rd sa) s) s rd (BitVec.ofNat 64 (x.toNat / 2 ^ (sa.toNat + 32))) ∧
    GprResult (exec (.dsra32 rt rd sa) s) s rd (BitVec.ofInt 64 (x.toInt / 2 ^ (sa.toNat + 32))) ∧
    GprResult (exec (.dsllv rs rt rd) s) s rd (BitVec.ofNat 64 (x.toNat * 2 ^ n)) ∧
    GprResult (exec (.dsrlv rs rt rd) s) s rd (BitVec.ofNat 64 (x.toNat / 2 ^ n)) ∧
    GprResult (exec (.dsrav rs rt rd) s) s rd (BitVec.ofInt 64 (x.toInt / 2 ^ n))

/-- MOVZ and MOVN copy rs where rt is, or is not, zero, and else do nothing; MFHI, MFLO, MTHI and MTLO copy one register
and leave the other of HI and LO alone. -/
def Obligations.MoveResults : Prop :=
  ∀ (s : State) (rs rt rd : RegNum),
    (s.r rt = 0 → GprResult (exec (.movz rs rt rd) s) s rd (s.r rs) ∧ OnlyAdvances (exec (.movn rs rt rd) s) s) ∧
    (s.r rt ≠ 0 → GprResult (exec (.movn rs rt rd) s) s rd (s.r rs) ∧ OnlyAdvances (exec (.movz rs rt rd) s) s) ∧
    GprResult (exec (.mfhi rd) s) s rd s.hi ∧ GprResult (exec (.mflo rd) s) s rd s.lo ∧
    HiLoResult (exec (.mthi rs) s) s (s.r rs) s.lo ∧ HiLoResult (exec (.mtlo rs) s) s s.hi (s.r rs)

/-! ### Multiply and divide -/

/-- MULT, MULTU, DMULT and DMULTU: the two halves of the exact product in HI and LO. That the word forms take the low
words of registers that hold no word is the decision of the spec (D16; log 20). -/
def Obligations.Products : Prop :=
  ∀ (s : State) (rs rt : RegNum), let a := s.r rs; let b := s.r rt
    let p := (low32 a).toInt * (low32 b).toInt; let q := (low32 a).toNat * (low32 b).toNat
    HiLoResult (exec (.mult rs rt) s) s ((BitVec.ofInt 32 (p / 2 ^ 32)).signExtend 64)
      ((BitVec.ofInt 32 p).signExtend 64) ∧
    HiLoResult (exec (.multu rs rt) s) s ((BitVec.ofNat 32 (q / 2 ^ 32)).signExtend 64)
      ((BitVec.ofNat 32 q).signExtend 64) ∧
    HiLoResult (exec (.dmult rs rt) s) s (BitVec.ofInt 64 (a.toInt * b.toInt / 2 ^ 64))
      (BitVec.ofInt 64 (a.toInt * b.toInt)) ∧
    HiLoResult (exec (.dmultu rs rt) s) s (BitVec.ofNat 64 (a.toNat * b.toNat / 2 ^ 64))
      (BitVec.ofNat 64 (a.toNat * b.toNat))

/-- DIV, DIVU, DDIV and DDIVU by a divisor that is not zero: the truncated quotient in LO and the remainder in HI; the
most negative number by -1 gives itself and 0. A divisor of zero, in these and in the eight .G forms that divide,
raises nothing: the instruction completes and only its result is left open. The value at -1, the low words of
registers that hold no word, and the form of "any value" are choices (D15, D16; log 10, 11, 20, 21). -/
def Obligations.Divisions : Prop :=
  ∀ (s : State) (rs rt rd : RegNum), let a := s.r rs; let b := s.r rt
    let hiLo (o : Out) := ∃ hi lo t, o = .next t ∧ t.pc = s.nextPc ∧ t.delay = none ∧ SameMemory s t ∧
      t = { s with
        hi := hi, lo := lo, pc := t.pc, delay := t.delay, draws := t.draws, freeCount := t.freeCount }
    let one (o : Out) := ∃ v t, o = .next t ∧ GprIs s t rd v ∧ t.pc = s.nextPc ∧ t.delay = none ∧ SameMemory s t ∧
      t = { s with gpr := t.gpr, pc := t.pc, delay := t.delay, draws := t.draws, freeCount := t.freeCount }
    (low32 b ≠ 0 → HiLoResult (exec (.div rs rt) s) s
      ((BitVec.ofInt 32 ((low32 a).toInt.tmod (low32 b).toInt)).signExtend 64)
      ((BitVec.ofInt 32 ((low32 a).toInt.tdiv (low32 b).toInt)).signExtend 64)) ∧
    (low32 b ≠ 0 → HiLoResult (exec (.divu rs rt) s) s
      ((BitVec.ofNat 32 ((low32 a).toNat % (low32 b).toNat)).signExtend 64)
      ((BitVec.ofNat 32 ((low32 a).toNat / (low32 b).toNat)).signExtend 64)) ∧
    (b ≠ 0 → HiLoResult (exec (.ddiv rs rt) s) s (BitVec.ofInt 64 (a.toInt.tmod b.toInt))
      (BitVec.ofInt 64 (a.toInt.tdiv b.toInt))) ∧
    (b ≠ 0 → HiLoResult (exec (.ddivu rs rt) s) s (BitVec.ofNat 64 (a.toNat % b.toNat))
      (BitVec.ofNat 64 (a.toNat / b.toNat))) ∧
    (low32 (s.r rt) = 0 → hiLo (exec (.div rs rt) s) ∧ hiLo (exec (.divu rs rt) s) ∧ one (exec (.divG rs rt rd) s) ∧
      one (exec (.divuG rs rt rd) s) ∧ one (exec (.modG rs rt rd) s) ∧ one (exec (.moduG rs rt rd) s)) ∧
    (s.r rt = 0 → hiLo (exec (.ddiv rs rt) s) ∧ hiLo (exec (.ddivu rs rt) s) ∧ one (exec (.ddivG rs rt rd) s) ∧
      one (exec (.ddivuG rs rt rd) s) ∧ one (exec (.dmodG rs rt rd) s) ∧ one (exec (.dmoduG rs rt rd) s))

/-- The .G products, quotients and remainders write rd alone; HI and LO stay. The most negative number by -1 gives
itself and 0, and the word forms take the low words of registers that hold no word, by the choice of the spec (D15, D16;
log 20, 21). -/
def Obligations.GInstructionResults : Prop :=
  ∀ (s : State) (rs rt rd : RegNum), let a := s.r rs; let b := s.r rt
    let x := (low32 a).toInt; let y := (low32 b).toInt; let m := (low32 a).toNat; let n := (low32 b).toNat
    let word (o : Out) (v : Int) := GprResult o s rd ((BitVec.ofInt 32 v).signExtend 64)
    let double (o : Out) (v : Int) := GprResult o s rd (BitVec.ofInt 64 v)
    word (exec (.multG rs rt rd) s) (x * y) ∧ word (exec (.multuG rs rt rd) s) (m * n : Nat) ∧
    double (exec (.dmultG rs rt rd) s) (a.toInt * b.toInt) ∧
    double (exec (.dmultuG rs rt rd) s) (a.toNat * b.toNat : Nat) ∧
    (low32 b ≠ 0 → word (exec (.divG rs rt rd) s) (x.tdiv y) ∧ word (exec (.divuG rs rt rd) s) (m / n : Nat) ∧
      word (exec (.modG rs rt rd) s) (x.tmod y) ∧ word (exec (.moduG rs rt rd) s) (m % n : Nat)) ∧
    (b ≠ 0 → double (exec (.ddivG rs rt rd) s) (a.toInt.tdiv b.toInt) ∧
      double (exec (.ddivuG rs rt rd) s) (a.toNat / b.toNat : Nat) ∧
      double (exec (.dmodG rs rt rd) s) (a.toInt.tmod b.toInt) ∧
      double (exec (.dmoduG rs rt rd) s) (a.toNat % b.toNat : Nat))

/-! ### Jumps, branches, traps -/

/-- J, JAL, JR, JALR and every branch outside a delay slot. The slot is next, then the target if there is no condition
or it holds, else the address after the slot; a likely branch not taken nullifies its slot. The link is the address
after the slot, written always. The branches on CC0 ask for CU1. -/
def Obligations.JumpsAndBranches : Prop :=
  ∀ (s : State) (rs rt rd : RegNum) (target : BitVec 26) (offset : Half), s.delay = none →
    let x := (s.r rs).toInt
    let region := (s.pc + 4).extractLsb' 28 36 ++ target ++ 0#2
    let goes (o : Out) (c : Prop) [Decidable c] (link : RegNum) := FlowResult o s (s.pc + 4)
      (some (if c then s.pc + 4 + (offset ++ 0#2).signExtend 64 else s.pc + 8)) link (s.pc + 8)
    let likely (o : Out) (c : Prop) [Decidable c] (link : RegNum) :=
      FlowResult o s (if c then s.pc + 4 else s.pc + 8)
        (if c then some (s.pc + 4 + (offset ++ 0#2).signExtend 64) else none) link (s.pc + 8)
    FlowResult (exec (.j target) s) s (s.pc + 4) (some region) 0 0 ∧
    FlowResult (exec (.jal target) s) s (s.pc + 4) (some region) 31 (s.pc + 8) ∧
    FlowResult (exec (.jr rs) s) s (s.pc + 4) (some (s.r rs)) 0 0 ∧
    FlowResult (exec (.jalr rs rd) s) s (s.pc + 4) (some (s.r rs)) rd (s.pc + 8) ∧
    goes (exec (.beq rs rt offset) s) (s.r rs = s.r rt) 0 ∧ goes (exec (.bne rs rt offset) s) (s.r rs ≠ s.r rt) 0 ∧
    goes (exec (.blez rs offset) s) (x ≤ 0) 0 ∧ goes (exec (.bgtz rs offset) s) (0 < x) 0 ∧
    goes (exec (.bltz rs offset) s) (x < 0) 0 ∧ goes (exec (.bgez rs offset) s) (0 ≤ x) 0 ∧
    goes (exec (.bltzal rs offset) s) (x < 0) 31 ∧ goes (exec (.bgezal rs offset) s) (0 ≤ x) 31 ∧
    (s.cu1 = true → goes (exec (.bc1f offset) s) (s.fcsr.getLsbD 23 = false) 0 ∧
      goes (exec (.bc1t offset) s) (s.fcsr.getLsbD 23 = true) 0) ∧
    likely (exec (.beql rs rt offset) s) (s.r rs = s.r rt) 0 ∧ likely (exec (.bnel rs rt offset) s) (s.r rs ≠ s.r rt) 0 ∧
    likely (exec (.blezl rs offset) s) (x ≤ 0) 0 ∧ likely (exec (.bgtzl rs offset) s) (0 < x) 0 ∧
    likely (exec (.bltzl rs offset) s) (x < 0) 0 ∧ likely (exec (.bgezl rs offset) s) (0 ≤ x) 0 ∧
    likely (exec (.bltzall rs offset) s) (x < 0) 31 ∧ likely (exec (.bgezall rs offset) s) (0 ≤ x) 31 ∧
    (s.cu1 = true → likely (exec (.bc1fl offset) s) (s.fcsr.getLsbD 23 = false) 0 ∧
      likely (exec (.bc1tl offset) s) (s.fcsr.getLsbD 23 = true) 0)

/-- Every jump and branch in a delay slot stops the machine; so do a BC1 after its check of CU1, and an ERET after the
privilege check. The stop is the model's form of "refuse" (U3; log 46). -/
def Obligations.NoBranchInADelaySlot : Prop :=
  ∀ (s : State) (rs rt rd : RegNum) (o : Half) (t : BitVec 26), s.delay ≠ none →
    (∀ i ∈ [Instr.j t, .jal t, .jr rs, .jalr rs rd, .beq rs rt o, .bne rs rt o, .blez rs o, .bgtz rs o, .bltz rs o,
      .bgez rs o, .bltzal rs o, .bgezal rs o, .beql rs rt o, .bnel rs rt o, .blezl rs o, .bgtzl rs o, .bltzl rs o,
      .bgezl rs o, .bltzall rs o, .bgezall rs o], exec i s = .fault .branchInDelaySlot) ∧
    (s.cu1 = true → ∀ i ∈ [Instr.bc1f o, .bc1t o, .bc1fl o, .bc1tl o], exec i s = .fault .branchInDelaySlot) ∧
    (Privileged s → exec .eret s = .fault .branchInDelaySlot)

/-- SYSCALL and BREAK enter their exception with any code field, in every mode; SYNC only advances; the twelve
conditional traps enter Trap where the comparison holds, and else only advance. That an entry renews the model's own
hold of Random is log 13. -/
def Obligations.TrapsAndSystemCalls : Prop :=
  ∀ (s : State) (rs rt : RegNum) (imm : Half) (code : BitVec 10) (code20 : BitVec 20),
    Traps (exec (.syscall code20) s) s 8 0 ∧ Traps (exec (.brk code20) s) s 9 0 ∧ OnlyAdvances (exec .sync s) s ∧
    (let a := s.r rs; let b := s.r rt; let m : DWord := imm.signExtend 64
    let traps (o : Out) (c : Prop) := (c → Traps o s 13 0) ∧ (¬c → OnlyAdvances o s)
    traps (exec (.tge rs rt code) s) (b.toInt ≤ a.toInt) ∧ traps (exec (.tgeu rs rt code) s) (b.toNat ≤ a.toNat) ∧
    traps (exec (.tlt rs rt code) s) (a.toInt < b.toInt) ∧ traps (exec (.tltu rs rt code) s) (a.toNat < b.toNat) ∧
    traps (exec (.teq rs rt code) s) (a = b) ∧ traps (exec (.tne rs rt code) s) (a ≠ b) ∧
    traps (exec (.tgei rs imm) s) (m.toInt ≤ a.toInt) ∧ traps (exec (.tgeiu rs imm) s) (m.toNat ≤ a.toNat) ∧
    traps (exec (.tlti rs imm) s) (a.toInt < m.toInt) ∧ traps (exec (.tltiu rs imm) s) (a.toNat < m.toNat) ∧
    traps (exec (.teqi rs imm) s) (a = m) ∧ traps (exec (.tnei rs imm) s) (a ≠ m))

/-! ### Exceptions -/

/-- Exception entry: the code of the exception and for Coprocessor Unusable the unit, EPC and BD unless EXL was set, EXL set, the vector BEV selects at offset
0x180, but 0x000 for a TLB Refill taken with EXL clear; an Address Error records its address, the three TLB exceptions
theirs with its page in Context, XContext and EntryHi; nothing else changes. What happens with EXL set, the 0 in CE,
the registers that stay and EntryHi.R are choices of the spec (D41, D44, D24, D45; log 32); the model's own hold of
Random goes on (log 13). -/
def Obligations.ExceptionEntry : Prop :=
  ∀ (s : State) (e : Exc), let c := (takeException e s).cp0
    let keepsPages := c.context = s.cp0.context ∧ c.xContext = s.cp0.xContext ∧ c.entryHi = s.cp0.entryHi
    let tlb (va : DWord) := e = .tlbModified va ∨ ∃ store, e = .tlbRefill store va ∨ e = .tlbInvalid store va
    let code : BitVec 5 := match e with
      | .interrupt => 0
      | .tlbModified _ => 1
      | .tlbRefill false _ | .tlbInvalid false _ => 2
      | .tlbRefill true _ | .tlbInvalid true _ => 3
      | .addressError false _ => 4
      | .addressError true _ => 5
      | .busError true => 6
      | .busError false => 7
      | .systemCall => 8
      | .breakpoint => 9
      | .reservedInstruction => 10
      | .coprocessorUnusable _ => 11
      | .overflow => 12
      | .trap => 13
      | .floatingPoint => 15
      | .watch => 23
    let unit : BitVec 2 := match e with
      | .coprocessorUnusable n => n
      | _ => 0
    ((∀ store va, e ≠ .tlbRefill store va) ∨ s.exl = true → Entered s (takeException e s) 0x180 code unit) ∧
    (∀ store va, s.exl = false → e = .tlbRefill store va →
      Entered s (takeException e s) 0 (if store then 3 else 2) 0) ∧
    (∀ store va, e = .addressError store va → c.badVAddr = va ∧ keepsPages) ∧
    ((∀ store va, e ≠ .addressError store va) → (∀ va, ¬tlb va) → c.badVAddr = s.cp0.badVAddr ∧ keepsPages) ∧
    (∀ va, tlb va → c.badVAddr = va ∧
      c.context.extractLsb' 4 19 = va.extractLsb' 13 19 ∧
      c.context.extractLsb' 23 41 = s.cp0.context.extractLsb' 23 41 ∧
      c.xContext.extractLsb' 4 27 = va.extractLsb' 13 27 ∧ c.xContext.extractLsb' 31 2 = va.extractLsb' 62 2 ∧
      c.xContext.extractLsb' 33 31 = s.cp0.xContext.extractLsb' 33 31 ∧
      c.entryHi.extractLsb' 62 2 = va.extractLsb' 62 2 ∧ c.entryHi.extractLsb' 13 27 = va.extractLsb' 13 27 ∧
      c.entryHi.extractLsb' 0 8 = s.cp0.entryHi.extractLsb' 0 8)

/-- ERET, in Kernel mode or with CU0 and not in a delay slot: to EPC, ERL cleared if it was set, else EXL; the link
bit is cleared; nothing else changes. -/
def Obligations.ExceptionReturn : Prop :=
  ∀ s : State, s.delay = none → Privileged s →
    ∃ t, exec .eret s = .next t ∧ t.pc = s.cp0.epc ∧ t.delay = none ∧ t.llbit = false ∧
      t.cp0.status = (if s.erl then s.cp0.status &&& ~~~4 else s.cp0.status &&& ~~~2) ∧ SameMemory s t ∧
      t = { s with pc := t.pc, delay := t.delay, llbit := t.llbit, cp0 := { s.cp0 with status := t.cp0.status } }

/-- In User or Supervisor mode without CU0 every privileged instruction raises Coprocessor Unusable with unit 0, and
has no other effect; the reads of the two performance registers complete instead. KSU = 11 stops the machine. That
stop is the model's form of "refuse" (U20; log 46). -/
def Obligations.PrivilegeCheck : Prop :=
  ∀ (s : State) (base rt rd op : RegNum) (o : Half), s.cu0 = false →
    let privileged : List Instr := [.mtc0 rt rd, .dmtc0 rt rd, .tlbp, .tlbr, .tlbwi, .tlbwr, .cache0 base o,
      .cache1 base o, .cache3 base o, .cache5 base o, .cache7 base o, .cache9 base o, .cache11 base o, .cache17 base o,
      .cache19 base o, .cache21 base o, .cache23 base o, .cache25 base o, .cache27 base o, .cache29 base o,
      .cache31 base o, .cache base op o, .eret]
    (∀ m, s.mode = some m → m ≠ .kernel →
      (∀ i ∈ privileged, Traps (exec i s) s 11 0) ∧
      (rd ≠ 24 → rd ≠ 25 → Traps (exec (.mfc0 rt rd) s) s 11 0 ∧ Traps (exec (.dmfc0 rt rd) s) s 11 0) ∧
      (rd = 24 ∨ rd = 25 → GprResult (exec (.mfc0 rt rd) s) s rt ((low32 (s.readCp0 rd)).signExtend 64) ∧
        GprResult (exec (.dmfc0 rt rd) s) s rt (s.readCp0 rd))) ∧
    (s.mode = none → ∀ i ∈ privileged, exec i s = .fault .undefinedMode)

/-- With CU1 clear every instruction of coprocessor 1 and 2, the floating-point loads and stores and the multiply-adds
raise Coprocessor Unusable with unit 1, and have no other effect, in a delay slot too. With CU1 set, FR clear and the
units enabled, an odd register that holds a 64-bit operand stops the machine: fs, ft or fd of an instruction in format D
or PS (but fd of a conversion from D to W or S), fs or fd of a conversion from or to L, the fd of a conversion
to D or L, the FPR of DMFC1, DMTC1, LDC1 and SDC1, and every register of COP2. Which words CU1 gates, and the stop, are
choices of the spec (D18, U10; log 19, 44). -/
def Obligations.FpuUnusable : Prop :=
  ∀ (s : State) (i : Instr), let f := fieldsOfInstr i
    let multiplyAdd := f.op = 0b011100 ∧ f.funct ∈ [0b011000#6, 0b011001, 0b011010, 0b011011]
    let wide := f.rs = 0b10001 ∨ f.rs = 0b10110
    let odd (n : RegNum) := n.getLsbD 0 = true
    let oddOperand :=
      ((f.op = 0b010010 ∨ (multiplyAdd ∧ wide)) ∧ (odd f.rd ∨ odd f.rt ∨ odd f.sa)) ∨
      (f.op = 0b010001 ∧ wide ∧ (odd f.rd ∨ odd f.rt ∨ (odd f.sa ∧
        ¬(f.rs = 0b10001 ∧ f.funct ∈ [0b001100#6, 0b001101, 0b001110, 0b001111, 0b100100, 0b100000])))) ∨
      (f.op = 0b010001 ∧ f.rs = 0b10101 ∧ (odd f.rd ∨ (odd f.sa ∧ f.funct = 0b100001))) ∨
      (f.op = 0b010001 ∧ (f.rs = 0b10000 ∨ f.rs = 0b10100) ∧ odd f.sa ∧
        f.funct ∈ [0b001000#6, 0b001001, 0b001010, 0b001011, 0b100101, 0b100001]) ∨
      (f.op = 0b010001 ∧ (f.rs = 0b00001 ∨ f.rs = 0b00101) ∧ odd f.rd) ∨
      ((f.op = 0b110101 ∨ f.op = 0b111101) ∧ odd f.rt)
    (s.cu1 = false → f.op ∈ [0b010001#6, 0b010010, 0b110001, 0b110101, 0b111001, 0b111101] ∨ multiplyAdd →
      Traps (exec i s) s 11 1) ∧
    (s.cu1 = true → s.fr = false → s.noFdiv = false → s.noFsqr = false → oddOperand → exec i s = .fault .oddFpr)

/-! ### Coprocessor 0, the TLB, the caches -/

/-- A move from CP0, where it may run, gives the register with its reserved fields 0: MFC0 the low word sign-extended,
DMFC0 the whole value. The 0 of the reserved numbers, the widths, the places of Config's fields and the fields of Watch
are choices of the spec (D3, D9, D6, D7; log 4, 22, 23, 31). -/
def Obligations.MovesFromCp0 : Prop :=
  ∀ (s : State) (rt rd : RegNum), Privileged s ∨ rd = 24 ∨ rd = 25 → s.cp0.Legal →
    let value : DWord := match rd with
      | 0#5 => s.cp0.index.signExtend 64
      | 1#5 => s.cp0.random.setWidth 64
      | 2#5 => s.cp0.entryLo0
      | 3#5 => s.cp0.entryLo1
      | 4#5 => s.cp0.context
      | 5#5 => s.cp0.pageMask.signExtend 64
      | 6#5 => s.cp0.wired.setWidth 64
      | 8#5 => s.cp0.badVAddr
      | 9#5 => s.cp0.count.signExtend 64
      | 10#5 => s.cp0.entryHi
      | 11#5 => s.cp0.compare.signExtend 64
      | 12#5 => s.cp0.status.signExtend 64
      | 13#5 => ((s.cp0.cause &&& ~~~(0xFF00 : Word)) ||| (s.ip.setWidth 32 <<< 8)).signExtend 64
      | 14#5 => s.cp0.epc
      | 15#5 => 0x6302
      | 16#5 => (s.cfg.configHi ++ 0x93#8 ++ s.cp0.configLow).signExtend 64
      | 18#5 => s.cp0.watch
      | 20#5 => s.cp0.xContext
      | 22#5 => s.cp0.diagnostic
      | 24#5 => s.cp0.perfControl.signExtend 64
      | 25#5 => s.cp0.perfCounter
      | 28#5 => s.cp0.tagLo.signExtend 64
      | 29#5 => s.cp0.tagHi.signExtend 64
      | 30#5 => s.cp0.errorEpc
      | _ => 0
    GprResult (exec (.mfc0 rt rd) s) s rt ((low32 value).signExtend 64) ∧
    GprResult (exec (.dmfc0 rt rd) s) s rt value

/-- A move to CP0, where it may run, changes the writable fields of its register and has that register's side effects:
MTC0 with the low word sign-extended, DMTC0 with all of rt. No other stored register changes but Random with Wired, and
of Cause only IP[1:0] by a write of Cause. That a write of Count equal to Compare requests the timer at once, that the
reserved numbers and unused bits are ignored, the widths, the writable bits of Config and the model's own hold of Random
after a write of Wired are choices of the model and the spec (D3, D6, D9, U31; log 4, 12, 13, 22 to 24, 31). -/
def Obligations.MovesToCp0 : Prop :=
  ∀ (s : State) (rt rd : RegNum), Privileged s →
    Cp0Written (exec (.mtc0 rt rd) s) s rd ((low32 (s.r rt)).signExtend 64) ∧
    Cp0Written (exec (.dmtc0 rt rd) s) s rd (s.r rt)

/-- Time at a boundary. Count advances every other cycle, and the timer is requested when one of the values it takes is
Compare. Random stands at its bound until an instruction completes after reset or a write of Wired; else it becomes the
value supplied if that is not below Wired, or goes down by one, from Wired to 63. The performance counters, while their
count enables cover the mode, count cycles (event 0 of counter 0), instructions (event 0 of counter 1) or what is
supplied. The phase of Count, what is supplied and the positions of the enables are choices (log 12, 13, 14). -/
def Obligations.CountersAndRandom : Prop :=
  ∀ s : State, let i := s.nextInput; let b := s.boundary
    let n := (i.pclk + if s.countPhase then 1 else 0) / 2
    let down : BitVec 6 := if s.cp0.random ≤ s.cp0.wired then 63 else s.cp0.random - 1
    let control := s.cp0.perfControl; let c := s.cp0.perfCounter
    let counts := s.cp0.status.getLsbD 2 = false ∧ (if s.cp0.status.getLsbD 1 then control.getLsbD 0 = true else
      (s.cp0.status.extractLsb' 3 2 = 0 ∧ control.getLsbD 1 = true) ∨
        (s.cp0.status.extractLsb' 3 2 = 1 ∧ control.getLsbD 2 = true) ∨
        (s.cp0.status.extractLsb' 3 2 = 2 ∧ control.getLsbD 3 = true))
    let n0 := if control.extractLsb' 5 4 = 0 then i.pclk else i.events0
    let n1 := if control.extractLsb' 9 4 = 0 then 1 else i.events1
    b.cp0.count = s.cp0.count + BitVec.ofNat 32 n ∧
    (b.timerPending = true ↔ s.timerPending = true ∨
      ∃ k, 1 ≤ k ∧ k ≤ n ∧ s.cp0.count + BitVec.ofNat 32 k = s.cp0.compare) ∧
    (b.countPhase = true ↔ (i.pclk + if s.countPhase then 1 else 0) % 2 = 1) ∧
    (s.randomHold = true → b.cp0.random = s.cp0.random) ∧
    (s.randomHold = false → b.cp0.random =
      match i.random with | some x => if s.cp0.wired ≤ x then x else down | none => down) ∧
    (counts → b.cp0.perfCounter.extractLsb' 0 32 = c.extractLsb' 0 32 + BitVec.ofNat 32 n0 ∧
      b.cp0.perfCounter.extractLsb' 32 32 = c.extractLsb' 32 32 + BitVec.ofNat 32 n1) ∧
    (¬counts → b.cp0.perfCounter = c)

/-- How the interrupt sources reach Cause.IP. A source is pending while its pin is at the level intpol names, or, in
pulse mode, since its latch is set; sources 11 to 14 are IP[5:2], unmasked; any enabled one of sources 0 to 10 is IP[6];
the timer and the enabled performance counters are IP[7]; IP[1:0] are the stored bits. intisr reads as the pending
sources that are enabled. At a boundary the new levels arrive after the stores of the PCI masters, and each pulse source
that becomes active is latched. The registers' meaning is the decision of the spec and the model (D61; log 36, 40). -/
def Obligations.InterruptRequests : Prop :=
  ∀ s : State, let edge := s.io.regs[9]; let pol := s.io.regs[11]; let en := s.io.regs[14]
    let level (pins : BitVec 15) (j : Nat) := pins.getLsbD j == pol.getLsbD j
    let pending (j : Nat) := if edge.getLsbD j then s.io.intLatch.getLsbD j else level s.pins j
    let pins := s.nextInput.pins.getD s.pins
    (∀ k, k < 4 → s.ip.getLsbD (2 + k) = pending (11 + k)) ∧
    (s.ip.getLsbD 6 = true ↔ ∃ j, j < 11 ∧ pending j = true ∧ en.getLsbD j = true) ∧
    (s.ip.getLsbD 7 = true ↔ s.timerPending = true ∨ (s.cp0.perfControl.getLsbD 4 = true ∧
      (s.cp0.perfCounter.getLsbD 31 = true ∨ s.cp0.perfCounter.getLsbD 63 = true))) ∧
    (s.ip.getLsbD 0 = s.cp0.cause.getLsbD 8 ∧ s.ip.getLsbD 1 = s.cp0.cause.getLsbD 9) ∧
    (∀ j, j < 32 → (s.regRead 15).getLsbD j = (decide (j < 15) && pending j && en.getLsbD j)) ∧
    let u := s.nextInput.pciWrites.foldl State.pciStore { s with inputs := s.inputs.tail }
    let level' (pins : BitVec 15) (j : Nat) := pins.getLsbD j == (u.io.regs[11]).getLsbD j
    (∀ j, j < 15 → s.boundary.io.intLatch.getLsbD j =
      (u.io.intLatch.getLsbD j || ((u.io.regs[9]).getLsbD j && level' pins j && !level' s.pins j)))

/-- TLBWI writes the entry Index names and TLBWR the one Random names, from EntryHi and the two EntryLo: G is the AND
of both, the masked page bits are cleared, the mask becomes the one of all entries; nothing else changes. TLBR copies
the entry Index names into PageMask, EntryHi and the two EntryLo, its G bit into both, reserved fields 0. A page mask
outside Table 21 stops the machine, the model's form of "refuse" (U22; log 46). -/
def Obligations.TlbWritesAndReads : Prop :=
  (∀ s : State, Privileged s → let hi := s.cp0.entryHi; let m := s.cp0.pageMask.extractLsb' 13 12
    let page (lo : DWord) : TlbHalf := ⟨lo.extractLsb' 62 2, lo.getLsbD 61, lo.extractLsb' 6 28, lo.extractLsb' 3 3,
      lo.getLsbD 2, lo.getLsbD 1⟩
    let writes (o : Out) (i : BitVec 6) := ∃ t, o = .next t ∧ t.tlbMask = m ∧
      t.tlb[i.toNat] = ⟨hi.extractLsb' 62 2, hi.extractLsb' 13 27 &&& ~~~m.setWidth 27,
        s.cp0.entryLo0.getLsbD 0 && s.cp0.entryLo1.getLsbD 0, hi.extractLsb' 0 8, page s.cp0.entryLo0,
        page s.cp0.entryLo1⟩ ∧
      (∀ j : BitVec 6, j ≠ i → t.tlb[j.toNat] = s.tlb[j.toNat]) ∧ t.pc = s.nextPc ∧ t.delay = none ∧
      SameMemory s t ∧ t = { s with tlb := t.tlb, tlbMask := t.tlbMask, pc := t.pc, delay := t.delay }
    (m ∈ [0#12, 3, 0xF, 0x3F, 0xFF, 0x3FF, 0xFFF] →
      writes (exec .tlbwi s) (s.cp0.index.extractLsb' 0 6) ∧ writes (exec .tlbwr s) s.cp0.random) ∧
    (m ∉ [0#12, 3, 0xF, 0x3F, 0xFF, 0x3FF, 0xFFF] →
      exec .tlbwi s = .fault .illegalPageMask ∧ exec .tlbwr s = .fault .illegalPageMask)) ∧
  (∀ s : State, Privileged s → s.tlbMask ∈ [0#12, 3, 0xF, 0x3F, 0xFF, 0x3FF, 0xFFF] →
    let e := s.tlb[(s.cp0.index.extractLsb' 0 6).toNat]
    let lo (c : DWord) (p : TlbHalf) := c.extractLsb' 62 2 = p.uc ∧ c.getLsbD 61 = p.e ∧ c.extractLsb' 34 27 = 0 ∧
      c.extractLsb' 6 28 = p.pfn ∧ c.extractLsb' 3 3 = p.c ∧ c.getLsbD 2 = p.d ∧ c.getLsbD 1 = p.v ∧ c.getLsbD 0 = e.g
    ∃ t, exec .tlbr s = .next t ∧ t.cp0.pageMask.extractLsb' 13 12 = s.tlbMask ∧
      t.cp0.pageMask &&& 0xFE001FFF = 0 ∧ t.cp0.entryHi.extractLsb' 62 2 = e.r ∧
      t.cp0.entryHi.extractLsb' 40 22 = 0 ∧ t.cp0.entryHi.extractLsb' 13 27 = e.vpn2 &&& ~~~s.tlbMask.setWidth 27 ∧
      t.cp0.entryHi.extractLsb' 8 5 = 0 ∧ t.cp0.entryHi.extractLsb' 0 8 = e.asid ∧
      lo t.cp0.entryLo0 e.lo0 ∧ lo t.cp0.entryLo1 e.lo1 ∧ t.pc = s.nextPc ∧ t.delay = none ∧ SameMemory s t ∧
      t = { s with pc := t.pc, delay := t.delay, cp0 := { s.cp0 with
        pageMask := t.cp0.pageMask, entryHi := t.cp0.entryHi, entryLo0 := t.cp0.entryLo0,
        entryLo1 := t.cp0.entryLo1 } }) ∧
  (∀ s : State, Privileged s → s.tlbMask ∉ [0#12, 3, 0xF, 0x3F, 0xFF, 0x3FF, 0xFFF] →
    exec .tlbr s = .fault .illegalPageMask)

/-- TLBP: with one matching entry Index is its number; with none P is set and the low six bits are left open; with
several the machine stops. The form of what is left open, and that stop, are the model's (U21; log 10, 46). -/
def Obligations.TlbProbe : Prop :=
  ∀ s : State, Privileged s → s.tlbMask ∈ [0#12, 3, 0xF, 0x3F, 0xFF, 0x3FF, 0xFFF] →
    let hits (i : Fin 64) : Prop := let e := s.tlb[i]
      e.r = s.cp0.entryHi.extractLsb' 62 2 ∧ (e.g = true ∨ e.asid = s.cp0.entryHi.extractLsb' 0 8) ∧
      e.vpn2 &&& ~~~s.tlbMask.setWidth 27 = s.cp0.entryHi.extractLsb' 13 27 &&& ~~~s.tlbMask.setWidth 27
    (∀ i : Fin 64, (∀ j, hits j ↔ j = i) →
      Cp0Result (exec .tlbp s) s { s.cp0 with index := BitVec.ofNat 32 i.val }) ∧
    ((∀ j, ¬hits j) → ∃ (x : BitVec 6) (t : State), exec .tlbp s = .next t ∧
      t.cp0 = { s.cp0 with index := 1#1 ++ 0#25 ++ x } ∧ t.pc = s.nextPc ∧ t.delay = none ∧ SameMemory s t ∧
      t = { s with cp0 := t.cp0, pc := t.pc, delay := t.delay, draws := t.draws, freeCount := t.freeCount }) ∧
    (∀ i j, i ≠ j → hits i → hits j → exec .tlbp s = .fault .multipleTlbMatch)

/-- The rows of Table 19 as the model's segment function has them: which addresses each mode may use, which go by the
TLB, and the physical address and attribute of the unmapped ones; every address is in exactly one row. -/
def Obligations.SegmentTable : Prop :=
  ∀ (m : Mode) (k0 : BitVec 3) (va : DWord), let a := va.toNat; let seg := segmentOf m k0 va
    (a < 2 ^ 40 → seg = .mapped) ∧
    (2 ^ 40 ≤ a → a < 2 ^ 62 → seg = .error) ∧
    (2 ^ 62 ≤ a → a < 2 ^ 62 + 2 ^ 40 → seg = if m = .user then .error else .mapped) ∧
    (2 ^ 62 + 2 ^ 40 ≤ a → a < 2 ^ 63 → seg = .error) ∧
    (2 ^ 63 ≤ a → a < 0xC000000000000000 → seg =
      if m = .kernel ∧ a / 2 ^ 36 % 2 ^ 23 = 0 then .unmapped (BitVec.ofNat 40 (a % 2 ^ 36)) (BitVec.ofNat 3 (a / 2 ^ 59))
      else .error) ∧
    (0xC000000000000000 ≤ a → a < 0xC00000FF80000000 → seg = if m = .kernel then .mapped else .error) ∧
    (0xC00000FF80000000 ≤ a → a < 0xFFFFFFFF80000000 → seg = .error) ∧
    (0xFFFFFFFF80000000 ≤ a → a < 0xFFFFFFFFA0000000 → seg =
      if m = .kernel then .unmapped (BitVec.ofNat 40 (a - 0xFFFFFFFF80000000)) k0 else .error) ∧
    (0xFFFFFFFFA0000000 ≤ a → a < 0xFFFFFFFFC0000000 → seg =
      if m = .kernel then .unmapped (BitVec.ofNat 40 (a - 0xFFFFFFFFA0000000)) 2 else .error) ∧
    (0xFFFFFFFFC0000000 ≤ a → a < 0xFFFFFFFFE0000000 → seg = if m = .user then .error else .mapped) ∧
    (0xFFFFFFFFE0000000 ≤ a → seg = if m = .kernel then .mapped else .error)

/-- Translation of a mapped address through the one entry that matches it: the page the select bit names; V clear is
TLB Invalid, and so is a fetch with E set where the parameter honours it; a store with D clear is TLB Modified; else the
frame over the offset, with the page's attribute; a reserved attribute stops the machine. With no entry it is TLB
Refill; with several the machine stops. The stops, and whether a fetch honours E, are choices (U21, D4; log 30, 46). -/
def Obligations.TlbTranslation : Prop :=
  ∀ (s : State) (k : Access) (va : DWord) (j : Fin 7), s.tlbMask.toNat = 2 ^ (2 * j.val) - 1 →
    let size := 2 ^ (12 + 2 * j.val)
    let hits (i : Fin 64) : Prop := let e := s.tlb[i]
      e.r = va.extractLsb' 62 2 ∧ (e.g = true ∨ e.asid = s.cp0.entryHi.extractLsb' 0 8) ∧
      e.vpn2.toNat / 2 ^ (2 * j.val) = va.toNat % 2 ^ 40 / (2 * size)
    ((∀ i, ¬hits i) → s.translateMapped k va = .exc (.tlbRefill (k == .store) va)) ∧
    (∀ i, (∀ i', hits i' ↔ i' = i) →
      let p := if va.toNat / size % 2 = 0 then (s.tlb[i]).lo0 else (s.tlb[i]).lo1
      (p.v = false → s.translateMapped k va = .exc (.tlbInvalid (k == .store) va)) ∧
      (k = .fetch → s.cfg.nxEnforced = true → p.e = true → s.translateMapped k va = .exc (.tlbInvalid false va)) ∧
      (p.v = true → k = .store → p.d = false → s.translateMapped k va = .exc (.tlbModified va)) ∧
      (p.v = true → (k = .store → p.d = true) → (k = .fetch → s.cfg.nxEnforced = true → p.e = false) →
        s.translateMapped k va = if p.c = 2 ∨ p.c = 3 ∨ p.c = 7
          then .ok (BitVec.ofNat 40 (p.pfn.toNat * 2 ^ 12 / size * size + va.toNat % size)) p.c
          else .fault .reservedAttribute)) ∧
    (∀ i i', i ≠ i' → hits i → hits i' → s.translateMapped k va = .fault .multipleTlbMatch)

/-- The instruction TLB. A fetch from a mapped segment goes by the copy of a page that matches it, also where the JTLB
has changed since: V clear, or E set where the parameter honours it, is TLB Invalid, else the frame over the offset with
the attribute. With no such copy the JTLB decides; the page it delivers, with its entry's R, G and ASID, may enter the
copies, in a free place or not at all; a page that raises an exception is not copied. Other segments leave the copies
alone. How and when copies are made is a free choice, that an invalid page is none of them and the stop on a reserved
attribute are the model's (log 10, 29, 30, 46). -/
def Obligations.InstructionTlb : Prop :=
  ∀ (s : State) (m : Mode) (va : DWord), s.mode = some m →
    let seg := segmentOf m (s.cp0.configLow.extractLsb' 0 3) va
    let hits (e : ItlbEntry) : Bool := e.r = va.extractLsb' 62 2 &&
      e.vpn = (va.extractLsb' 12 28 &&& ~~~e.mask.setWidth 28) && (e.g || e.asid = s.cp0.entryHi.extractLsb' 0 8)
    let frame (e : ItlbEntry) : PAddr := ((e.page.pfn &&& ~~~e.mask.setWidth 28) |||
      (va.extractLsb' 12 28 &&& e.mask.setWidth 28)) ++ va.extractLsb' 0 12
    let matches' (i : Fin 64) : Prop := let e := s.tlb[i]
      e.r = va.extractLsb' 62 2 ∧ (e.g = true ∨ e.asid = s.cp0.entryHi.extractLsb' 0 8) ∧
      e.vpn2 &&& ~~~s.tlbMask.setWidth 27 = va.extractLsb' 13 27 &&& ~~~s.tlbMask.setWidth 27
    let mask := s.tlbMask.setWidth 28
    let odd := va.extractLsb' 12 28 &&& ((mask <<< 1 ||| 1) &&& ~~~mask) ≠ 0
    (seg = .error → s.translateFetch va = (.exc (.addressError false va), s)) ∧
    (∀ pa attr, seg = .unmapped pa attr → s.translateFetch va =
      (if attr = 2 ∨ attr = 3 ∨ attr = 7 then .ok pa attr else .fault .reservedAttribute, s)) ∧
    (∀ e, seg = .mapped → s.itlb.find? hits = some e →
      (e.page.v = false ∨ (s.cfg.nxEnforced = true ∧ e.page.e = true) →
        s.translateFetch va = (.exc (.tlbInvalid false va), s)) ∧
      (e.page.v = true → s.cfg.nxEnforced = false ∨ e.page.e = false →
        s.translateFetch va = (if e.page.c = 2 ∨ e.page.c = 3 ∨ e.page.c = 7
          then .ok (frame e) e.page.c else .fault .reservedAttribute, s))) ∧
    (seg = .mapped → (∀ e ∈ s.itlb, hits e = false) →
      (∀ e, s.translateMapped .fetch va = .exc e → s.translateFetch va = (.exc e, s)) ∧
      (∀ pa attr, s.translateMapped .fetch va = .ok pa attr → ∃ t c, s.translateFetch va = (.ok pa attr, t) ∧
        t = { s with itlb := t.itlb, draws := t.draws, freeCount := t.freeCount } ∧
        (∀ e ∈ t.itlb, e ∈ s.itlb ∨ e = c) ∧ t.itlb.length ≤ s.itlb.length + 1 ∧
        hits c = true ∧ c.mask = s.tlbMask ∧ pa = frame c ∧ c.page.c = attr ∧ c.page.v = true ∧
        (s.cfg.nxEnforced = true → c.page.e = false) ∧
        ∃ i : Fin 64, (∀ i', matches' i' ↔ i' = i) ∧ c.r = (s.tlb[i]).r ∧ c.g = (s.tlb[i]).g ∧
          c.asid = (s.tlb[i]).asid ∧ c.page = if odd then (s.tlb[i]).lo1 else (s.tlb[i]).lo0))

/-- The index operations of CACHE on a cached address, where it may run: load and store tag and data of the data cache
by va and of the secondary cache by pa, and the invalidation of four instruction lines. Which half TagHi holds is
derived in the spec; that Store Tag leaves StateMod, and that the operations act as usual while the secondary cache is
off, are the model's choices (log 26, 27). -/
def Obligations.CacheIndexOperations : Prop :=
  ∀ (s : State) (base : RegNum) (o : Half) (pa : PAddr), Privileged s →
    let va := s.r base + o.signExtend 64
    s.translate .load va = .ok pa 3 → sparseWf DLine.empty s.dcache → sparseWf SLine.empty s.scache →
    sparseWf ILine.empty s.icache →
    let di := 4 * (va.extractLsb' 5 9).toNat + (va.extractLsb' 0 2).toNat
    let si := 4 * (pa.extractLsb' 5 12).toNat + (pa.extractLsb' 0 2).toNat
    let d := s.dLine di; let l := s.sLine si
    let tags (out : Out) (hi lo : Word) := Cp0Result out s { s.cp0 with tagHi := hi, tagLo := lo }
    let setsD (out : Out) (x : DLine) := ∃ t, out = .next t ∧ t.dLine di = x ∧ (∀ k, k ≠ di → t.dLine k = s.dLine k) ∧
      t.pc = s.nextPc ∧ t.delay = none ∧ SameMemory s t ∧
      t = { s with dcache := t.dcache, pc := t.pc, delay := t.delay }
    let setsS (out : Out) (x : SLine) := ∃ t, out = .next t ∧ t.sLine si = x ∧ (∀ k, k ≠ si → t.sLine k = s.sLine k) ∧
      t.pc = s.nextPc ∧ t.delay = none ∧ SameMemory s t ∧
      t = { s with scache := t.scache, pc := t.pc, delay := t.delay }
    let dAt := 64 * (va.extractLsb' 3 2).toNat
    let sAt := 64 * (pa.extractLsb' 3 2).toNat
    let put (data : BitVec 256) (at' : Nat) : BitVec 256 := (data &&& ~~~((0xFFFFFFFFFFFFFFFF : BitVec 256) <<< at')) |||
      ((s.cp0.tagHi ++ s.cp0.tagLo).setWidth 256 <<< at')
    tags (exec (.cache5 base o) s) (d.stateMod ++ 0#25 ++ d.tag.extractLsb' 24 4)
      (d.tag.extractLsb' 0 24 ++ d.state ++ d.scWay ++ 0#4) ∧
    tags (exec (.cache25 base o) s) (d.data.extractLsb' (dAt + 32) 32) (d.data.extractLsb' dAt 32) ∧
    tags (exec (.cache7 base o) s) (0#28 ++ l.tag.extractLsb' 19 4) (l.tag.extractLsb' 0 19 ++ 0#1 ++ l.state ++ 0#10) ∧
    tags (exec (.cache27 base o) s) (l.data.extractLsb' (sAt + 32) 32) (l.data.extractLsb' sAt 32) ∧
    setsD (exec (.cache9 base o) s) { d with
      tag := s.cp0.tagHi.extractLsb' 0 4 ++ s.cp0.tagLo.extractLsb' 8 24, state := s.cp0.tagLo.extractLsb' 6 2,
      scWay := s.cp0.tagLo.extractLsb' 4 2 } ∧
    setsD (exec (.cache29 base o) s) { d with data := put d.data dAt } ∧
    setsS (exec (.cache11 base o) s) { l with
      tag := s.cp0.tagHi.extractLsb' 0 4 ++ s.cp0.tagLo.extractLsb' 13 19, state := s.cp0.tagLo.extractLsb' 10 2 } ∧
    setsS (exec (.cache31 base o) s) { l with data := put l.data sAt } ∧
    (∃ t, exec (.cache0 base o) s = .next t ∧
      (∀ k, t.iLine k = if k / 4 = (va.extractLsb' 5 9).toNat then { s.iLine k with valid := false } else s.iLine k) ∧
      t.pc = s.nextPc ∧ t.delay = none ∧ SameMemory s t ∧
      t = { s with icache := t.icache, pc := t.pc, delay := t.delay })

/-- Hit Invalidate (D) drops every line of the set that holds pa without writing it back. Hit and Index WriteBack
Invalidate (D) do so too, a dirty line going first to the secondary line that holds its address, to a newly filled one
where none does, or to memory while the secondary cache is off. Where several ways hold pa, all of them are dropped, and
of several dirty ones, which go one after the other from the lowest way up, the data of the last stays. The states of
the lines, the way taken and the place of the dirty line are choices (log 10, 26, 27, 28). -/
def Obligations.DataCacheInvalidation : Prop :=
  ∀ (s : State) (base : RegNum) (o : Half) (pa : PAddr), Privileged s →
    let va := s.r base + o.signExtend 64
    s.translate .load va = .ok pa 3 → sparseWf DLine.empty s.dcache → sparseWf SLine.empty s.scache →
    Memory.wf s.mem →
    let set := (va.extractLsb' 5 9).toNat
    let di := 4 * set + (va.extractLsb' 0 2).toNat
    let addr (k : Nat) : PAddr := (s.dLine k).tag ++ BitVec.ofNat 7 (k / 4) ++ 0#5
    let drops (p : Nat → Prop) [DecidablePred p] (t : State) := t.pc = s.nextPc ∧ t.delay = none ∧
      (∀ k, t.dLine k = if p k then { s.dLine k with state := 0 } else s.dLine k) ∧
      t = { s with
        dcache := t.dcache, scache := t.scache, mem := t.mem, pc := t.pc, delay := t.delay, draws := t.draws,
        freeCount := t.freeCount }
    let drop (out : Out) (p : Nat → Prop) [DecidablePred p] := ∃ t, out = .next t ∧ drops p t ∧
      t = { s with dcache := t.dcache, pc := t.pc, delay := t.delay }
    let matches' (k : Nat) : Prop := k / 4 = set ∧ (s.dLine k).holds pa = true
    drop (exec (.cache17 base o) s) matches' ∧
    ((∀ k, matches' k → (s.dLine k).state ≠ 3) → drop (exec (.cache21 base o) s) matches') ∧
    (∀ k, matches' k → (s.dLine k).state = 3 → (∀ k', k < k' → matches' k' → (s.dLine k').state ≠ 3) →
      WritableBelow s (addr k) →
      ∃ t, exec (.cache21 base o) s = .next t ∧ drops matches' t ∧ WrittenBelow s t (addr k) (s.dLine k).data) ∧
    ((s.dLine di).state ≠ 3 → drop (exec (.cache1 base o) s) (· = di)) ∧
    ((s.dLine di).state = 3 → WritableBelow s (addr di) →
      ∃ t, exec (.cache1 base o) s = .next t ∧ drops (· = di) t ∧ WrittenBelow s t (addr di) (s.dLine di).data)

/-- The invalidating operations on the secondary cache. One that finds nothing does nothing; else the line is invalid,
and so are the instruction lines and the data lines that hold its address. With WriteBack the dirty one of those data
lines first goes into the secondary line (of several the last), and a line that is dirty then is written: to DRAM, or
dropped over ROM; where the address has neither the machine stops. No other byte of memory changes. So it is with the
secondary cache off too. The states of the lines, which of several dirty lines counts and those last points are
choices (log 26, 27, 28, 39). -/
def Obligations.SecondaryCacheInvalidation : Prop :=
  ∀ (s : State) (base : RegNum) (o : Half) (pa : PAddr), Privileged s →
    let va := s.r base + o.signExtend 64
    s.translate .load va = .ok pa 3 → sparseWf ILine.empty s.icache → sparseWf DLine.empty s.dcache →
    sparseWf SLine.empty s.scache → Memory.wf s.mem →
    let si := 4 * (pa.extractLsb' 5 12).toNat + (pa.extractLsb' 0 2).toNat
    let subset (p : PAddr) (j : Nat) : Prop := j < 2048 ∧ BitVec.ofNat 7 (j / 4) = p.extractLsb' 5 7 ∧
      (s.dLine j).holds p = true
    let dirty (p : PAddr) (j : Nat) : Prop := subset p j ∧ (s.dLine j).state = 3
    let invalidates (out : Out) (k : Nat) (p : PAddr) (data : BitVec 256) (memory : State → Prop) :=
      ∃ t, out = .next t ∧ t.pc = s.nextPc ∧ t.delay = none ∧ memory t ∧
        (∀ i, t.sLine i = if i = k then { s.sLine k with state := 0, data := data } else s.sLine i) ∧
        (∀ i, t.dLine i = if subset p i then { s.dLine i with state := 0 } else s.dLine i) ∧
        (∀ i, t.iLine i = if i < 2048 ∧ BitVec.ofNat 7 (i / 4) = p.extractLsb' 5 7 ∧ (s.iLine i).holds p = true
          then { s.iLine i with valid := false } else s.iLine i) ∧
        t = { s with
          icache := t.icache, dcache := t.dcache, scache := t.scache, mem := t.mem, pc := t.pc, delay := t.delay }
    let writesBack (out : Out) (k : Nat) := let p := s.sLineAddr k
      let ends (data : BitVec 256) := (LinePlace s p → invalidates out k p data fun t => LineWritten s t p data) ∧
        (¬LinePlace s p → out = (s.target p).stop)
      (∀ j, dirty p j → (∀ j', j < j' → ¬dirty p j') → ends (s.dLine j).data) ∧
      ((∀ j, ¬dirty p j) → (s.sLine k).state = 3 → ends (s.sLine k).data) ∧
      ((∀ j, ¬dirty p j) → (s.sLine k).state ≠ 3 → invalidates out k p (s.sLine k).data (SameMemory s))
    ((s.sLine si).state = 0 → OnlyAdvances (exec (.cache3 base o) s) s) ∧
    ((s.sLine si).state ≠ 0 → writesBack (exec (.cache3 base o) s) si) ∧
    (s.sHit pa = none → OnlyAdvances (exec (.cache19 base o) s) s ∧ OnlyAdvances (exec (.cache23 base o) s) s) ∧
    (∀ k, s.sHit pa = some k → writesBack (exec (.cache23 base o) s) k ∧
      invalidates (exec (.cache19 base o) s) k pa (s.sLine k).data (SameMemory s))

/-- CACHE on an address whose attribute is uncached, and the generic CACHE on any address, do nothing after the
checks (the model's choice where the operation is undefined, log 25). That attribute 7 acts like 2 is a choice of the
spec (D49; log 38). -/
def Obligations.CacheWithoutEffect : Prop :=
  ∀ (s : State) (base op : RegNum) (o : Half) (pa : PAddr) (attr : BitVec 3), Privileged s →
    s.translate .load (s.r base + o.signExtend 64) = .ok pa attr →
    OnlyAdvances (exec (.cache base op o) s) s ∧
    (attr ≠ 3 → ∀ i ∈ [Instr.cache0 base o, .cache1 base o, .cache3 base o, .cache5 base o, .cache7 base o,
      .cache9 base o, .cache11 base o, .cache17 base o, .cache19 base o, .cache21 base o, .cache23 base o,
      .cache25 base o, .cache27 base o, .cache29 base o, .cache31 base o], OnlyAdvances (exec i s) s)

/-! ### Loads and stores -/

/-- Aligned loads from uncached DRAM or ROM into a register other than GPR[0]: the bytes, little-endian, extended; LL
and LLD set the link bit too, and record no address. A Watch match made while EXL or ERL is set is remembered. What
sets the link bit is the decision of the spec (D19; log 17), and so is that attribute 7 acts like 2 (D49; log 38). -/
def Obligations.Loads : Prop :=
  ∀ (s : State) (base rt : RegNum) (o : Half) (pa : PAddr) (a : Nat), rt ≠ 0 →
    let va := s.r base + o.signExtend 64; let u := s.afterWatch .load va
    PlainAccess s .load va pa pa a →
    let b (i : Nat) := memByte s.mem (a + i)
    let links (out : Out) (v : DWord) := ∃ t, out = .next t ∧ GprIs s t rt v ∧ t.llbit = true ∧ t.pc = s.nextPc ∧
      t.delay = none ∧ SameMemory s t ∧ t = { u with gpr := t.gpr, llbit := t.llbit, pc := t.pc, delay := t.delay }
    GprResult (exec (.lb base rt o) s) u rt ((b 0).signExtend 64) ∧
    GprResult (exec (.lbu base rt o) s) u rt ((b 0).setWidth 64) ∧
    (va.toNat % 2 = 0 → GprResult (exec (.lh base rt o) s) u rt ((b 1 ++ b 0).signExtend 64) ∧
      GprResult (exec (.lhu base rt o) s) u rt ((b 1 ++ b 0).setWidth 64)) ∧
    (va.toNat % 4 = 0 → let w := wordAt s.mem a
      GprResult (exec (.lw base rt o) s) u rt (w.signExtend 64) ∧
      GprResult (exec (.lwu base rt o) s) u rt (w.setWidth 64) ∧ links (exec (.ll base rt o) s) (w.signExtend 64)) ∧
    (va.toNat % 8 = 0 → let x := doubleAt s.mem a
      GprResult (exec (.ld base rt o) s) u rt x ∧ links (exec (.lld base rt o) s) x)

/-- LWL, LWR, LDL and LDR from uncached DRAM or ROM, byte by byte: the bytes from the aligned address up to va enter at
the top, or the bytes from va on at the bottom; the other bytes of the register are kept; a word is sign-extended. That
LWR sign-extends also where it keeps bits 31:24 is the decision of the spec (D38; log 48), and so is that attribute 7
acts like 2 (D49; log 38). -/
def Obligations.PartialLoads : Prop :=
  ∀ (s : State) (base rt : RegNum) (o : Half) (pa : PAddr) (a : Nat), rt ≠ 0 →
    let va := s.r base + o.signExtend 64; let u := s.afterWatch .load va
    let w := va.toNat % 4; let d := va.toNat % 8; let old (k : Nat) := byteOf (s.r rt) k
    let word (out : Out) (f : Nat → Byte) :=
      ∃ v : Word, (∀ k, k < 4 → byteOf v k = f k) ∧ GprResult out u rt (v.signExtend 64)
    let double (out : Out) (f : Nat → Byte) := ∃ v : DWord, (∀ k, k < 8 → byteOf v k = f k) ∧ GprResult out u rt v
    (PlainAccess s .load va pa (pa - BitVec.ofNat 40 w) a → word (exec (.lwl base rt o) s) fun k =>
      if k + w < 3 then old k else memByte s.mem (a + (k + w - 3))) ∧
    (PlainAccess s .load va pa pa a → word (exec (.lwr base rt o) s) fun k =>
      if k + w < 4 then memByte s.mem (a + k) else old k) ∧
    (PlainAccess s .load va pa (pa - BitVec.ofNat 40 d) a → double (exec (.ldl base rt o) s) fun k =>
      if k + d < 7 then old k else memByte s.mem (a + (k + d - 7))) ∧
    (PlainAccess s .load va pa pa a → double (exec (.ldr base rt o) s) fun k =>
      if k + d < 8 then memByte s.mem (a + k) else old k)

/-- A load whose destination is GPR[0] completes in every state, raises nothing and changes no register. On a cached
address whose line is not in the data cache it may bring the line in, as a load does; otherwise it changes nothing
else, and on an uncached one, or one that is not a multiple of the width a load of one piece has, it uses up no free
value either. Whether the line is brought in is a free value, and how it comes in, before the dirty line it replaces
goes out, is the model's choice (log 9, 10, 26, 27, 45, 49). That attribute 7 acts like 2 is a choice of the spec (D49;
log 38). -/
def Obligations.LoadsToRegisterZero : Prop :=
  ∀ (s : State) (base : RegNum) (o : Half), let va := s.r base + o.signExtend 64
    ∀ i ∈ [Instr.lb base 0 o, .lbu base 0 o, .lh base 0 o, .lhu base 0 o, .lw base 0 o, .lwu base 0 o, .ld base 0 o,
      .lwl base 0 o, .lwr base 0 o, .ldl base 0 o, .ldr base 0 o, .ll base 0 o, .lld base 0 o],
    (∃ t, exec i s = .next t ∧ t.pc = s.nextPc ∧ t.delay = none ∧
      t = { s with
        pc := t.pc, delay := t.delay, dcache := t.dcache, scache := t.scache, mem := t.mem, draws := t.draws,
        freeCount := t.freeCount } ∧
      (sparseWf DLine.empty s.dcache → sparseWf SLine.empty s.scache → Memory.wf s.mem →
        (t.dcache = s.dcache ∧ t.scache = s.scache ∧ t.mem = s.mem) ∨
        ∃ pa v, s.translate .load va = .ok pa 3 ∧ s.dHit va pa = none ∧
          LineFilled s { t with pc := s.pc, delay := s.delay } .load va pa v)) ∧
    ((∀ pa, s.translate .load va ≠ .ok pa 3) → OnlyAdvances (exec i s) s) ∧
    (∀ n, (i, n) ∈ [(Instr.lh base 0 o, 2), (.lhu base 0 o, 2), (.lw base 0 o, 4), (.lwu base 0 o, 4), (.ll base 0 o, 4),
      (.ld base 0 o, 8), (.lld base 0 o, 8)] → va.toNat % n ≠ 0 → OnlyAdvances (exec i s) s)

/-- SB, SH, SW and SD to uncached DRAM store their bytes, the lowest at the address; SWL, SWR, SDL and SDR the top bytes
up to va, or the bottom bytes from va on, inside the aligned word or doubleword. Nothing else changes, but that a Watch
match made while EXL or ERL is set is remembered. No Bus Error, whatever the address. That a store under attribute 7
reaches memory at once, as under 2, and is not gathered into a block, is a choice of the spec (D49; log 38). -/
def Obligations.Stores : Prop :=
  ∀ (s : State) (base rt : RegNum) (o : Half) (pa : PAddr) (a : Nat), Memory.wf s.mem →
    let va := s.r base + o.signExtend 64; let u := s.afterWatch .store va
    let w := va.toNat % 4; let d := va.toNat % 8; let f (i : Nat) := byteOf (s.r rt) i
    (PlainAccess s .store va pa pa a →
      StoreResult (exec (.sb base rt o) s) u a 1 f ∧
      (va.toNat % 2 = 0 → StoreResult (exec (.sh base rt o) s) u a 2 f) ∧
      (va.toNat % 4 = 0 → StoreResult (exec (.sw base rt o) s) u a 4 f) ∧
      (va.toNat % 8 = 0 → StoreResult (exec (.sd base rt o) s) u a 8 f) ∧
      StoreResult (exec (.swr base rt o) s) u a (4 - w) f ∧ StoreResult (exec (.sdr base rt o) s) u a (8 - d) f) ∧
    (PlainAccess s .store va pa (pa - BitVec.ofNat 40 w) a →
      StoreResult (exec (.swl base rt o) s) u a (w + 1) fun i => f (3 - w + i)) ∧
    (PlainAccess s .store va pa (pa - BitVec.ofNat 40 d) a →
      StoreResult (exec (.sdl base rt o) s) u a (d + 1) fun i => f (7 - d + i))

/-- SC and SCD to uncached DRAM: with the link bit set the store is made and rt becomes 1; else nothing is stored and
rt becomes 0; the link bit is cleared in both cases. When the link bit is set is the decision of the spec (D19; log
17). So is that under attribute 7 the store is made at once, as under 2 (D49; log 38); of SC and SCD with an uncached or
uncached-accelerated address "the source gives no statement; the model performs the same steps" (R272). -/
def Obligations.StoreConditional : Prop :=
  ∀ (s : State) (base rt : RegNum) (o : Half) (pa : PAddr) (a : Nat), Memory.wf s.mem →
    let va := s.r base + o.signExtend 64; let u := s.afterWatch .store va
    PlainAccess s .store va pa pa a →
    let conditional (out : Out) (n : Nat) := ∃ t, out = .next t ∧ GprIs s t rt (if s.llbit then 1 else 0) ∧
      t.llbit = false ∧ (∀ i, s.llbit = true → i < n → memByte t.mem (a + i) = byteOf (s.r rt) i) ∧
      (∀ b, s.llbit = false ∨ b < a ∨ a + n ≤ b → memByte t.mem b = memByte s.mem b) ∧
      t.pc = s.nextPc ∧ t.delay = none ∧
      t = { u with gpr := t.gpr, llbit := t.llbit, mem := t.mem, pc := t.pc, delay := t.delay }
    (va.toNat % 4 = 0 → conditional (exec (.sc base rt o) s) 4) ∧
    (va.toNat % 8 = 0 → conditional (exec (.scd base rt o) s) 8)

/-- LWC1, LDC1, SWC1 and SDC1 with uncached DRAM, or from ROM: the word or doubleword moves between memory and the FPR
operand; FCSR, the bits of the FPRs outside the operand and everything else stay. The kept upper half of a register and
the pairs with FR clear are choices of the spec (D58, D29; log 18, 19), and so is that attribute 7 acts like 2, each
store reaching memory at once (D49; log 38). -/
def Obligations.FpLoadsAndStores : Prop :=
  ∀ (s : State) (base ft : RegNum) (o : Half) (pa : PAddr) (a : Nat), let va := s.r base + o.signExtend 64
    let u := s.afterWatch .load va; let u' := s.afterWatch .store va
    (FpuReady s [] → PlainAccess s .load va pa pa a → va.toNat % 4 = 0 →
      Fpr32Result (exec (.lwc1 base ft o) s) u ft s.fcsr (wordAt s.mem a)) ∧
    (FpuReady s [ft] → PlainAccess s .load va pa pa a → va.toNat % 8 = 0 →
      FprResult (exec (.ldc1 base ft o) s) u ft s.fcsr (· = doubleAt s.mem a)) ∧
    (FpuReady s [] → Memory.wf s.mem → PlainAccess s .store va pa pa a → va.toNat % 4 = 0 →
      StoreResult (exec (.swc1 base ft o) s) u' a 4 (byteOf (s.f32 ft))) ∧
    (FpuReady s [ft] → Memory.wf s.mem → PlainAccess s .store va pa pa a → va.toNat % 8 = 0 →
      StoreResult (exec (.sdc1 base ft o) s) u' a 8 (byteOf (s.f64 ft)))

/-- A load, a store or a fetch whose address is not a multiple of its width raises Address Error with that address,
whatever the address means; memory and the destination stay. That an entry renews the model's own hold of Random is
log 13. -/
def Obligations.MisalignedAccesses : Prop :=
  ∀ (s : State) (base rt : RegNum) (o : Half), let va := s.r base + o.signExtend 64
    (s.pc.toNat % 4 ≠ 0 → s.fetch = .exc (.addressError false s.pc) s) ∧
    (va.toNat % 2 ≠ 0 → (rt ≠ 0 → AddressTraps (exec (.lh base rt o) s) s false va ∧
      AddressTraps (exec (.lhu base rt o) s) s false va) ∧ AddressTraps (exec (.sh base rt o) s) s true va) ∧
    (va.toNat % 4 ≠ 0 → (rt ≠ 0 → AddressTraps (exec (.lw base rt o) s) s false va ∧
      AddressTraps (exec (.lwu base rt o) s) s false va ∧ AddressTraps (exec (.ll base rt o) s) s false va) ∧
      AddressTraps (exec (.sw base rt o) s) s true va ∧ AddressTraps (exec (.sc base rt o) s) s true va ∧
      (s.cu1 = true → AddressTraps (exec (.lwc1 base rt o) s) s false va ∧
        AddressTraps (exec (.swc1 base rt o) s) s true va)) ∧
    (va.toNat % 8 ≠ 0 → (rt ≠ 0 → AddressTraps (exec (.ld base rt o) s) s false va ∧
      AddressTraps (exec (.lld base rt o) s) s false va) ∧
      AddressTraps (exec (.sd base rt o) s) s true va ∧ AddressTraps (exec (.scd base rt o) s) s true va ∧
      (FpuReady s [rt] → AddressTraps (exec (.ldc1 base rt o) s) s false va ∧
        AddressTraps (exec (.sdc1 base rt o) s) s true va))

/-- The exceptions of an access. An address its mode may not use is Address Error; an unmapped one needs a defined
attribute; a mapped one goes by the JTLB. Every load, store and CACHE operation whose translation raises an exception
enters it from the unchanged state, and so does a step whose fetch raises one: ExceptionEntry says what that leaves. A
load or store of the watched doubleword with EXL and ERL clear enters Watch, after the line of a cached miss was brought
in where that can be done; an uncached load whose first byte the BUS_ERROR parameter names enters Bus Error. That Watch
compares virtual addresses and that an unstated BUS_ERROR is a parameter are decisions of the spec (D7, D26; log 9, 31);
how a line comes in, before the dirty line it replaces goes out, and the stop on a reserved attribute are choices (log
10, 26, 27, 46, 49). That attribute 7 acts like 2 is a choice of the spec (D49; log 38). -/
def Obligations.AccessExceptions : Prop :=
  ∀ (s : State) (base rt : RegNum) (o : Half), let va := s.r base + o.signExtend 64
    let watched (k : Access) := s.watchMatch k va = true ∧ s.exl = false ∧ s.erl = false
    (∀ k m, s.mode = some m → let seg := segmentOf m (s.cp0.configLow.extractLsb' 0 3) va
      (seg = .error → s.translate k va = .exc (.addressError (k == .store) va)) ∧
      (∀ pa attr, seg = .unmapped pa attr → s.translate k va =
        if attr = 2 ∨ attr = 3 ∨ attr = 7 then .ok pa attr else .fault .reservedAttribute) ∧
      (seg = .mapped → s.translate k va = s.translateMapped k va)) ∧
    (∀ k i n back e, AccessForm s k base rt o i n back → va.toNat % n = 0 → s.translate k va = .exc e →
      exec i s = .next (takeException e s)) ∧
    (∀ op e, Privileged s → s.translate .load va = .exc e →
      ∀ i ∈ [Instr.cache0 base o, .cache1 base o, .cache3 base o, .cache5 base o, .cache7 base o, .cache9 base o,
        .cache11 base o, .cache17 base o, .cache19 base o, .cache21 base o, .cache23 base o, .cache25 base o,
        .cache27 base o, .cache29 base o, .cache31 base o, .cache base op o], exec i s = .next (takeException e s)) ∧
    (∀ e t, s.boundary.event = none → s.boundary.fetch = .exc e t → step s = .next (takeException e t)) ∧
    (∀ e t, s.pc.toNat % 4 = 0 → s.translateFetch s.pc = (.exc e, t) → s.fetch = .exc e t) ∧
    (∀ k, s.watchMatch k va = true ↔ va.toNat / 8 = s.cp0.watch.toNat / 8 ∧
      ((k = .load ∧ s.cp0.watch.getLsbD 1 = true) ∨ (k = .store ∧ s.cp0.watch.getLsbD 0 = true))) ∧
    (∀ k i n back pa attr, AccessForm s k base rt o i n back → va.toNat % n = 0 → s.translate k va = .ok pa attr →
      watched k →
      (attr ≠ 3 ∨ s.dHit va pa ≠ none → exec i s = .next (takeException .watch s)) ∧
      (attr = 3 → s.dHit va pa = none → sparseWf DLine.empty s.dcache → sparseWf SLine.empty s.scache →
        Memory.wf s.mem → ∃ t, exec i s = .next (takeException .watch t) ∧ (t = s ∨ ∃ v, LineFilled s t k va pa v) ∧
          (FillReady s k va pa → ∃ v, LineFilled s t k va pa v))) ∧
    (∀ i n back m pa attr, LoadForm s base rt o i n back m → va.toNat % n = 0 → s.translate .load va = .ok pa attr →
      attr ≠ 3 → ¬watched .load →
      (∃ b ∈ s.cfg.busErrors, b.access = .load ∧ b.first ≤ pa.toNat - back ∧ pa.toNat - back ≤ b.last) →
      exec i s = .next (takeException (.busError false) s))

/-- Cached accesses that hit the data cache, in every form: a load delivers the bytes of the line; a store replaces
them, makes the line dirty, and changes neither memory nor another line; SC and SCD do so where the link bit is set,
and write it to rt and clear it. A Watch match made while EXL or ERL is set is remembered. A store that finds its line
clean makes an upgrade; where that gets an error it takes Bus Error and stores nothing. Which upgrades get one is a
parameter of the spec (D26; log 9); the states of the lines are those of log 26, the link bit is that of log 17, LWR's
sign that of log 48, the kept upper half of an FPR and the pairs with FR clear those of log 18 and 19 (D58, D29). -/
def Obligations.CachedAccesses : Prop :=
  ∀ (s : State) (base rt : RegNum) (o : Half) (pa : PAddr) (key : Nat), sparseWf DLine.empty s.dcache →
    let va := s.r base + o.signExtend 64; let w := va.toNat % 4; let d := va.toNat % 8
    let at' := pa.toNat % 32; let line := s.dLine key; let b (i : Nat) := byteOf line.data (at' + i)
    let w1 := b 3 ++ b 2 ++ b 1 ++ b 0; let d1 : DWord := b 7 ++ b 6 ++ b 5 ++ b 4 ++ w1
    let f (i : Nat) := byteOf (s.r rt) i; let l := s.afterWatch .load va; let u := s.afterWatch .store va
    let links (out : Out) (v : DWord) := ∃ t, out = .next t ∧ GprIs s t rt v ∧ t.llbit = true ∧ t.pc = s.nextPc ∧
      t.delay = none ∧ SameMemory s t ∧ t = { l with gpr := t.gpr, llbit := t.llbit, pc := t.pc, delay := t.delay }
    let word (out : Out) (g : Nat → Byte) :=
      ∃ v : Word, (∀ k, k < 4 → byteOf v k = g k) ∧ GprResult out l rt (v.signExtend 64)
    let double (out : Out) (g : Nat → Byte) := ∃ v : DWord, (∀ k, k < 8 → byteOf v k = g k) ∧ GprResult out l rt v
    let stored (t : State) (start n : Nat) (g : Nat → Byte) := t.pc = s.nextPc ∧ t.delay = none ∧ SameMemory s t ∧
      t.dLine key = { line with state := 3, data := (t.dLine key).data } ∧
      (∀ i, i < 32 → byteOf (t.dLine key).data i =
        if start ≤ i ∧ i < start + n then g (i - start) else byteOf line.data i) ∧ ∀ k, k ≠ key → t.dLine k = s.dLine k
    let puts (out : Out) (start n : Nat) (g : Nat → Byte) := ∃ t, out = .next t ∧ stored t start n g ∧
      t = { u with dcache := t.dcache, pc := t.pc, delay := t.delay }
    let conditional (out : Out) (n : Nat) := ∃ t, out = .next t ∧ GprIs s t rt (if s.llbit then 1 else 0) ∧
      (s.llbit = true → stored t at' n f) ∧
      (s.llbit = false → t.dcache = s.dcache ∧ t.pc = s.nextPc ∧ t.delay = none ∧ SameMemory s t) ∧ t.llbit = false ∧
      t = { u with dcache := t.dcache, gpr := t.gpr, llbit := t.llbit, pc := t.pc, delay := t.delay }
    (CacheHit s .load va pa key → rt ≠ 0 →
      GprResult (exec (.lb base rt o) s) l rt ((b 0).signExtend 64) ∧
      GprResult (exec (.lbu base rt o) s) l rt ((b 0).setWidth 64) ∧
      (va.toNat % 2 = 0 → GprResult (exec (.lh base rt o) s) l rt ((b 1 ++ b 0).signExtend 64) ∧
        GprResult (exec (.lhu base rt o) s) l rt ((b 1 ++ b 0).setWidth 64)) ∧
      (va.toNat % 4 = 0 → GprResult (exec (.lw base rt o) s) l rt (w1.signExtend 64) ∧
        GprResult (exec (.lwu base rt o) s) l rt (w1.setWidth 64) ∧ links (exec (.ll base rt o) s) (w1.signExtend 64)) ∧
      (va.toNat % 8 = 0 → GprResult (exec (.ld base rt o) s) l rt d1 ∧ links (exec (.lld base rt o) s) d1) ∧
      (word (exec (.lwl base rt o) s) fun k => if k + w < 3 then f k else byteOf line.data (at' - w + (k + w - 3))) ∧
      (word (exec (.lwr base rt o) s) fun k => if k + w < 4 then b k else f k) ∧
      (double (exec (.ldl base rt o) s) fun k => if k + d < 7 then f k else byteOf line.data (at' - d + (k + d - 7))) ∧
      (double (exec (.ldr base rt o) s) fun k => if k + d < 8 then b k else f k)) ∧
    (CacheHit s .load va pa key →
      (s.cu1 = true → va.toNat % 4 = 0 → Fpr32Result (exec (.lwc1 base rt o) s) l rt s.fcsr w1) ∧
      (FpuReady s [rt] → va.toNat % 8 = 0 → FprResult (exec (.ldc1 base rt o) s) l rt s.fcsr (· = d1))) ∧
    (CacheHit s .store va pa key →
      puts (exec (.sb base rt o) s) at' 1 f ∧ (va.toNat % 2 = 0 → puts (exec (.sh base rt o) s) at' 2 f) ∧
      (va.toNat % 4 = 0 → puts (exec (.sw base rt o) s) at' 4 f ∧ conditional (exec (.sc base rt o) s) 4) ∧
      (va.toNat % 8 = 0 → puts (exec (.sd base rt o) s) at' 8 f ∧ conditional (exec (.scd base rt o) s) 8) ∧
      (puts (exec (.swl base rt o) s) (at' - w) (w + 1) fun i => f (3 - w + i)) ∧
      puts (exec (.swr base rt o) s) at' (4 - w) f ∧
      (puts (exec (.sdl base rt o) s) (at' - d) (d + 1) fun i => f (7 - d + i)) ∧
      puts (exec (.sdr base rt o) s) at' (8 - d) f ∧
      (s.cu1 = true → va.toNat % 4 = 0 → puts (exec (.swc1 base rt o) s) at' 4 (byteOf (s.f32 rt))) ∧
      (FpuReady s [rt] → va.toNat % 8 = 0 → puts (exec (.sdc1 base rt o) s) at' 8 (byteOf (s.f64 rt)))) ∧
    (s.translate .store va = .ok pa 3 → (s.watchMatch .store va = true → s.exl = true ∨ s.erl = true) →
      s.dHit va pa = some key → line.state ≠ 3 → s.busErrorAt .store (pa.extractLsb' 5 35 ++ 0#5) = true →
      ∀ i n back, AccessForm s .store base rt o i n back → va.toNat % n = 0 →
        s.llbit = true ∨ (i ≠ .sc base rt o ∧ i ≠ .scd base rt o) →
        exec i s = .next (takeException (.busError false) s))

/-- A cached load or store that misses the data cache brings its line in and then does what it does on a hit: it ends as
from the filled state. The line comes from the secondary line that holds its address, else, or while that cache is
off, from memory; a line brought in from memory is in the secondary cache too. The line it replaces there, and the
data line it replaces, are written back if they are dirty. A load or store whose block read gets an error takes Bus
Error. What can get one is a parameter of the spec that the model gives three kinds (D26; log 9); the ways and states
are free choices and choices (log 10, 26, 27), and so is the order: the new line is fetched before the replaced ones
are written back (log 49). -/
def Obligations.CacheMisses : Prop :=
  ∀ (s : State) (k : Access) (base rt : RegNum) (o : Half) (pa : PAddr), k ≠ .fetch →
    sparseWf DLine.empty s.dcache → sparseWf SLine.empty s.scache → Memory.wf s.mem →
    let va := s.r base + o.signExtend 64; let line := pa.extractLsb' 5 35 ++ 0#5
    s.translate k va = .ok pa 3 → s.dHit va pa = none →
    (FillReady s k va pa → ∃ t v, LineFilled s t k va pa v ∧ t.dHit va pa = some v ∧
      ∀ i n back, AccessForm s k base rt o i n back → va.toNat % n = 0 →
        s.llbit = true ∨ (i ≠ .sc base rt o ∧ i ≠ .scd base rt o) → exec i s = exec i t) ∧
    (s.io.disableScache = true ∨ s.sHit line = none → s.busErrorAt k line = true →
      ∀ i n back, AccessForm s k base rt o i n back → va.toNat % n = 0 →
        s.llbit = true ∨ (i ≠ .sc base rt o ∧ i ≠ .scd base rt o) →
        (s.watchMatch k va = true → s.exl = true ∨ s.erl = true) →
        exec i s = .next (takeException (.busError false) s))

/-- The physical address map, for the core and for the PCI bus masters. The window registers come first. For a master
the crossbar gives windows, the lowest-numbered one that claims an address forwards it, its own bits kept where the mask
is clear and MMAP's bits above, to the port MMAP names; an address none claims, and every one of a master without
windows, goes by the default rows: DRAM below 256 MB with the CONF_CTL registers over its top while chip_config0 leaves
them there, then the spaces of the IO controller. A PCI master reads and stores what its address leads to, memory past
every cache or a device register; an access of no natural width and alignment, and one that nothing takes, reads as
nothing and changes nothing. The default, what the source
leaves open about the crossbar and the masters, and what the registers do are choices (D36; log 8, 33 to 37, 39, 40). -/
def Obligations.PhysicalAddressMap : Prop :=
  ∀ (s : State) (pa : PAddr), let x := s.cfg.crossbar
    let cell (b : Nat) := if b < 0x10000000 then b else 0x10000000000 + b
    let part (m w : Fin 4) (p : Fin 3) : DWord := s.windows[12 * m.val + 4 * p.val + w.val]
    let claims (m w : Fin 4) (y : DWord) := y &&& part m w 1 = part m w 0
    let forwards (m : Fin 4) (y : DWord) (port : BitVec 2) (out : DWord) := ∃ w, claims m w y ∧
      (∀ w', w' < w → ¬claims m w' y) ∧ port = (part m w 2).extractLsb' 0 2 ∧
      out = (y &&& ~~~part m w 1) ||| (part m w 2 &&& 0xFFFFFFFFFFF00000)
    let dram (b : Nat) (T : Target) :=
      (0x0FFFFE00 ≤ b → b < 0x10000000 → (s.io.regs[32]).getLsbD 8 = false →
        T = if h : (b - 0x0FFFFE00) / 16 < 29 then (if b % 16 < 8 then .ddr ⟨(b - 0x0FFFFE00) / 16, h⟩ else .hole)
          else .hole) ∧
      (b < 0x0FFFFE00 ∨ 0x10000000 ≤ b ∨ (s.io.regs[32]).getLsbD 8 = true →
        T = if b < s.cfg.dramBytes then .dram (cell b) else .hole)
    let rows : List (Nat × Nat × Target) := [(0, 0x0FFFFFFF, .hole), (0x10000000, 0x1BFFFFFF, .outside .pciMemory),
      (0x1E000000, 0x1FBFFFFF, .outside .localIo), (0x1FD00000, 0x1FDFFFFF, .outside .pciIo),
      (0x1FE00200, 0x1FE7FFFF, .hole), (0x1FE80000, 0x1FE807FF, .outside .pciConfiguration),
      (0x1FE80800, 0x1FEFFFFF, .hole), (0x1FF00000, 0x1FFFFFFF, .outside .localIo),
      (0x20000000, 0xFFFFFFFFFF, .outside .pciMemory), (0x10000000000, 0xFFFFFFFFFFFFFFFF, .hole)]
    let io (b : Nat) (T : Target) := (∀ r ∈ rows, r.1 ≤ b → b ≤ r.2.1 → T = r.2.2) ∧
      ((0x1C000000 ≤ b ∧ b ≤ 0x1DFFFFFF) ∨ (0x1FC00000 ≤ b ∧ b ≤ 0x1FCFFFFF) → T = .rom b) ∧
      (0x1FE00000 ≤ b → b ≤ 0x1FE000FF → ∃ i : Fin 64, i.val = (b - 0x1FE00000) / 4 ∧ T = .header i) ∧
      (0x1FE00100 ≤ b → b ≤ 0x1FE001FF → ∃ i : Fin 64, i.val = (b - 0x1FE00100) / 4 ∧ T = .regs i)
    let default (b : Nat) (T : Target) := if b < 0x10000000 then dram b T else io b T
    let routes (master : Option (Fin 4)) (y : DWord) (T : Target) := let b := y.toNat
      let isWindow := 0x3FF00000 ≤ b ∧ b ≤ 0x3FF0017F
      (isWindow → ∃ i : Fin 48, i.val = (b - 0x3FF00000) / 8 ∧ T = .window i) ∧
      (¬isWindow → (∀ m w, master = some m → ¬claims m w y) → default b T) ∧
      (∀ m port out, ¬isWindow → master = some m → forwards m y port out →
        (port = x.dramPort → dram out.toNat T) ∧
        (port = x.ioPort → port ≠ x.dramPort → io out.toNat T) ∧
        (port ≠ x.dramPort → port ≠ x.ioPort → T = .hole))
    let natural (y : DWord) (n : Nat) := n ∈ [1, 2, 4, 8] ∧ y.toNat % n = 0
    routes x.core (pa.setWidth 64) (s.target pa) ∧ (∀ y, routes x.pci y (s.pciTarget y)) ∧
    (∀ y n, let T := s.pciTarget y
      (natural y n → T.Takes n → ∃ v, s.pciRead y n = some v ∧ Answers s T (y.toNat % 4) n v) ∧
      (¬natural y n ∨ ¬T.Takes n → s.pciRead y n = none)) ∧
    (Memory.wf s.mem → ∀ w : PciStore, let T := s.pciTarget w.addr
      (natural w.addr w.size → T.Takes w.size → Stored s (s.pciStore w) T (w.addr.toNat % 4) w.size w.data) ∧
      (¬natural w.addr w.size ∨ ¬T.Takes w.size → s.pciStore w = s))

/-- Uncached loads and stores of every form on whatever their address leads to: DRAM, ROM, the window registers, the
CONF_CTL registers, the PCI header, the register block. A load gets what the target answers, a store does to the target
what Stored says: doublewords for the first two kinds of registers, START in CONF_CTL_03 completing the initialisation
at once; bytes, halfwords and words for the others, which change in their writable bits, intenset and intenclr setting
and clearing bits of inten, a new polarity making an edge; ROM ignores a store. Another width, a cache fill from
registers, from ROM that liocfg does not open to block reads, from an address nothing claims or a device outside the
spec stops. SC and SCD without the link bit store nothing wherever they lead. What the registers hold and do is the
decision of the spec and the model (D27, D36, D37, D61, D63; log 33 to 37, 39, 46); that attribute 7 acts store by store
like 2 is the choice of the spec (D49; log 38); the link bit is that of log 17, LWR's sign that of log 48, the kept
upper half of an FPR and the pairs with FR clear those of log 18 and 19 (D58, D29). -/
def Obligations.DeviceAccesses : Prop :=
  ∀ (s : State) (base rt : RegNum) (o : Half) (pa : PAddr) (attr : BitVec 3), Memory.wf s.mem →
    let va := s.r base + o.signExtend 64; let w := va.toNat % 4; let d := va.toNat % 8
    let f (i : Nat) := byteOf (s.r rt) i; let l := s.afterWatch .load va; let u := s.afterWatch .store va
    let unwatched (k : Access) := s.watchMatch k va = true → s.exl = true ∨ s.erl = true
    let conditional (i : Instr) := i = .sc base rt o ∨ i = .scd base rt o
    let word (out : Out) (g : Nat → Byte) :=
      ∃ v : Word, (∀ k, k < 4 → byteOf v k = g k) ∧ GprResult out l rt (v.signExtend 64)
    let double (out : Out) (g : Nat → Byte) := ∃ v : DWord, (∀ k, k < 8 → byteOf v k = g k) ∧ GprResult out l rt v
    let links (out : Out) (v : DWord) := ∃ t, out = .next t ∧ GprIs s t rt v ∧ t.llbit = true ∧ t.pc = s.nextPc ∧
      t.delay = none ∧ SameMemory s t ∧ t = { l with gpr := t.gpr, llbit := t.llbit, pc := t.pc, delay := t.delay }
    let loads (i : Instr) (x : DWord) := let b (j : Nat) := byteOf x j; let out := exec i s
      (i = .lb base rt o → GprResult out l rt ((b 0).signExtend 64)) ∧
      (i = .lbu base rt o → GprResult out l rt ((b 0).setWidth 64)) ∧
      (i = .lh base rt o → GprResult out l rt ((b 1 ++ b 0).signExtend 64)) ∧
      (i = .lhu base rt o → GprResult out l rt ((b 1 ++ b 0).setWidth 64)) ∧
      (i = .lw base rt o → GprResult out l rt ((x.setWidth 32).signExtend 64)) ∧
      (i = .lwu base rt o → GprResult out l rt ((x.setWidth 32).setWidth 64)) ∧
      (i = .ld base rt o → GprResult out l rt x) ∧
      (i = .lwl base rt o → word out fun k => if k + w < 3 then f k else b (k + w - 3)) ∧
      (i = .lwr base rt o → word out fun k => if k + w < 4 then b k else f k) ∧
      (i = .ldl base rt o → double out fun k => if k + d < 7 then f k else b (k + d - 7)) ∧
      (i = .ldr base rt o → double out fun k => if k + d < 8 then b k else f k) ∧
      (i = .ll base rt o → links out ((x.setWidth 32).signExtend 64)) ∧ (i = .lld base rt o → links out x) ∧
      (i = .lwc1 base rt o → Fpr32Result out l rt s.fcsr (x.setWidth 32)) ∧
      (i = .ldc1 base rt o → FprResult out l rt s.fcsr (· = x))
    let stores (i : Instr) (T : Target) (off m : Nat) (v : DWord) := ∃ t, exec i s = .next t ∧ t.pc = s.nextPc ∧
      t.delay = none ∧ (conditional i → GprIs s t rt 1 ∧ t.llbit = false) ∧
      (¬conditional i → t.gpr = s.gpr ∧ t.llbit = s.llbit) ∧
      Stored u { t with gpr := s.gpr, llbit := s.llbit, pc := s.pc, delay := s.delay } T off m v
    (∀ i n back m, attr = 2 ∨ attr = 7 → s.translate .load va = .ok pa attr → unwatched .load →
      LoadForm s base rt o i n back m → va.toNat % n = 0 →
      let first := pa - BitVec.ofNat 40 back; let T := s.target first
      s.busErrorAt .load first = false →
      (T.Takes m → ∃ x, Answers s T (first.toNat % 4) m x ∧ loads i x) ∧ (¬T.Takes m → exec i s = T.stop)) ∧
    (∀ i n back m v, attr = 2 ∨ attr = 7 → s.translate .store va = .ok pa attr → unwatched .store →
      StoreForm s base rt o i n back m v → va.toNat % n = 0 → s.llbit = true ∨ ¬conditional i →
      let first := pa - BitVec.ofNat 40 back; let T := s.target first
      (T.Takes m → stores i T (first.toNat % 4) m v) ∧ (¬T.Takes m → exec i s = T.stop)) ∧
    (∀ i n back m v, s.translate .store va = .ok pa attr → unwatched .store → StoreForm s base rt o i n back m v →
      va.toNat % n = 0 → s.llbit = false → conditional i → ∃ t, exec i s = .next t ∧ GprIs s t rt 0 ∧
        t.pc = s.nextPc ∧ t.delay = none ∧ SameMemory s t ∧ t = { u with gpr := t.gpr, pc := t.pc, delay := t.delay }) ∧
    (∀ k i n back, let line := pa.extractLsb' 5 35 ++ 0#5; let T := s.target line
      s.translate k va = .ok pa 3 → unwatched k → s.busErrorAt k line = false →
      AccessForm s k base rt o i n back → va.toNat % n = 0 → s.llbit = true ∨ ¬conditional i → s.dHit va pa = none →
      s.io.disableScache = true ∨ s.sHit line = none →
      (∀ a, T = .rom a → (s.io.regs[2]).getLsbD 14 = false → exec i s = .fault .blockRead) ∧
      ((∀ a, T ≠ .dram a ∧ T ≠ .rom a) → exec i s = T.stop))

/-! ### Floating point -/

/-- The arithmetic and the conversions in formats S, D, W and L, with CU1 set and the 64-bit registers usable: the
result of the operation on the operands in fd and its exceptions in FCSR, or the Floating-Point exception where one of
them is enabled; a disabled divide or square-root unit gives Cause.E. The points the manual leaves open are as the
spec decides (log 43); the kept upper half of a register and the pairs with FR clear are its choices too (D58, D29;
log 18, 19). -/
def Obligations.FpArithmetic : Prop :=
  ∀ (s : State) (ft fs fd : RegNum), s.cu1 = true →
    let result32 (i : Instr) (r : FpOut) := FpEnds (exec i s) s r.exc fun g =>
      Fpr32Result (exec i s) s fd g (low32 r.bits)
    let result64 (i : Instr) (r : FpOut) := FpEnds (exec i s) s r.exc fun g => FprResult (exec i s) s fd g (· = r.bits)
    let off (i : Instr) :=
      Traps (exec i s) (s.setFcsr ((s.fcsr &&& ~~~0x3F000) ||| 0x20000)) 15 0
    let S := FpFmt.single; let D := FpFmt.double
    let a : DWord := (s.f32 fs).setWidth 64; let b : DWord := (s.f32 ft).setWidth 64
    let x := s.f64 fs; let y := s.f64 ft; let c := s.fcsr; let rm := s.fcsr.extractLsb' 0 2
    result32 (.addS ft fs fd) (S.add c a b) ∧ result32 (.subS ft fs fd) (S.sub c a b) ∧
    result32 (.mulS ft fs fd) (S.mul c a b) ∧ (s.noFdiv = false → result32 (.divS ft fs fd) (S.div c a b)) ∧
    (s.noFsqr = false → result32 (.sqrtS fs fd) (S.sqrt c a)) ∧ result32 (.absS fs fd) (S.abs a) ∧
    result32 (.negS fs fd) (S.neg a) ∧
    (s.noFdiv = true → off (.divS ft fs fd) ∧ off (.divD ft fs fd)) ∧
    (s.noFsqr = true → off (.sqrtS fs fd) ∧ off (.sqrtD fs fd)) ∧
    result32 (.roundWS fs fd) (S.toFixed 32 0 a) ∧ result32 (.truncWS fs fd) (S.toFixed 32 1 a) ∧
    result32 (.ceilWS fs fd) (S.toFixed 32 2 a) ∧ result32 (.floorWS fs fd) (S.toFixed 32 3 a) ∧
    result32 (.cvtWS fs fd) (S.toFixed 32 rm a) ∧ result32 (.cvtSW fs fd) (S.fromInt c (s.f32 fs).toInt) ∧
    (FpuReady s [fs] →
      result32 (.roundWD fs fd) (D.toFixed 32 0 x) ∧ result32 (.truncWD fs fd) (D.toFixed 32 1 x) ∧
      result32 (.ceilWD fs fd) (D.toFixed 32 2 x) ∧ result32 (.floorWD fs fd) (D.toFixed 32 3 x) ∧
      result32 (.cvtWD fs fd) (D.toFixed 32 rm x) ∧ result32 (.cvtSD fs fd) (D.convert S c x) ∧
      result32 (.cvtSL fs fd) (S.fromInt c x.toInt)) ∧
    (FpuReady s [fd] →
      result64 (.roundLS fs fd) (S.toFixed 64 0 a) ∧ result64 (.truncLS fs fd) (S.toFixed 64 1 a) ∧
      result64 (.ceilLS fs fd) (S.toFixed 64 2 a) ∧ result64 (.floorLS fs fd) (S.toFixed 64 3 a) ∧
      result64 (.cvtLS fs fd) (S.toFixed 64 rm a) ∧ result64 (.cvtDS fs fd) (S.convert D c a) ∧
      result64 (.cvtDW fs fd) (D.fromInt c (s.f32 fs).toInt)) ∧
    (FpuReady s [fs, fd] →
      (s.noFsqr = false → result64 (.sqrtD fs fd) (D.sqrt c x)) ∧ result64 (.absD fs fd) (D.abs x) ∧
      result64 (.negD fs fd) (D.neg x) ∧
      result64 (.roundLD fs fd) (D.toFixed 64 0 x) ∧ result64 (.truncLD fs fd) (D.toFixed 64 1 x) ∧
      result64 (.ceilLD fs fd) (D.toFixed 64 2 x) ∧ result64 (.floorLD fs fd) (D.toFixed 64 3 x) ∧
      result64 (.cvtLD fs fd) (D.toFixed 64 rm x) ∧ result64 (.cvtDL fs fd) (D.fromInt c x.toInt)) ∧
    (FpuReady s [fs, ft, fd] →
      result64 (.addD ft fs fd) (D.add c x y) ∧ result64 (.subD ft fs fd) (D.sub c x y) ∧
      result64 (.mulD ft fs fd) (D.mul c x y) ∧ (s.noFdiv = false → result64 (.divD ft fs fd) (D.div c x y)))

/-- The formats, and the operands arithmetic does not take as they are. The class of a pattern by its exponent and
fraction, a NaN signaling when the fraction's top bit is set; the patterns of NaN, infinity, zero, and of an overflow
and an underflow by rounding mode. A denormal or quiet NaN operand is left to software, before a signaling NaN is
Invalid with the default NaN; then infinities and zeros; a finite nonzero by zero is Division by Zero. ABS and NEG
change the sign bit alone; the negated multiply-adds invert the rounded result, not the default NaN. The NaN pattern,
the order of screening, the flushed values and the NaN that is not negated are choices (D13, D55, D56, D60; log 43). -/
def Obligations.FpSpecialOperands : Prop :=
  let S := FpFmt.single; let D := FpFmt.double
  (∀ x : DWord, let e := x.extractLsb' 23 8; let g := x.extractLsb' 0 23
    (S.unpack x).neg = x.getLsbD 31 ∧ (S.unpack x).cls =
      if e = 0xFF then (if g = 0 then .inf else if g.getLsbD 22 then .snan else .qnan)
      else if e = 0 then (if g = 0 then .zero else .denormal) else .normal) ∧
  (∀ x : DWord, let e := x.extractLsb' 52 11; let g := x.extractLsb' 0 52
    (D.unpack x).neg = x.getLsbD 63 ∧ (D.unpack x).cls =
      if e = 0x7FF then (if g = 0 then .inf else if g.getLsbD 51 then .snan else .qnan)
      else if e = 0 then (if g = 0 then .zero else .denormal) else .normal) ∧
  (S.defaultNan = 0x7FBFFFFF ∧ D.defaultNan = 0x7FF7FFFFFFFFFFFF ∧ S.signBit = 0x80000000 ∧
    D.signBit = 0x8000000000000000) ∧
  (∀ n : Bool, let sign (f : FpFmt) (x : DWord) := if n then x ||| f.signBit else x
    let inf (f : FpFmt) : DWord := sign f (if f = S then 0x7F800000 else 0x7FF0000000000000)
    let max (f : FpFmt) : DWord := sign f (if f = S then 0x7F7FFFFF else 0x7FEFFFFFFFFFFFFF)
    let min (f : FpFmt) : DWord := sign f (if f = S then 0x00800000 else 0x0010000000000000)
    ∀ f ∈ [S, D], f.infOf n = inf f ∧ f.zeroOf n = sign f 0 ∧
      f.overflowed 0 n = inf f ∧ f.overflowed 1 n = max f ∧ f.overflowed 2 n = (if n then max f else inf f) ∧
      f.overflowed 3 n = (if n then inf f else max f) ∧
      f.flushed 0 n = sign f 0 ∧ f.flushed 1 n = sign f 0 ∧ f.flushed 2 n = (if n then sign f 0 else min f) ∧
      f.flushed 3 n = (if n then min f else sign f 0)) ∧
  ∀ f ∈ [S, D], ∀ g ∈ [S, D], ∀ (c : Word) (a b d : DWord),
    let u := f.unpack a; let v := f.unpack b; let w := f.unpack d
    let soft (x : FpVal) := x.cls = .denormal ∨ x.cls = .qnan
    let finite (x : FpVal) := x.cls = .zero ∨ x.cls = .normal
    let down : Bool := c.extractLsb' 0 2 = 3
    let nan := FpOut.invalid f.defaultNan; let inf (n : Bool) := FpOut.exact (f.infOf n)
    let zero (n : Bool) := FpOut.exact (f.zeroOf n)
    let n := u.neg ^^ v.neg
    let fused := [f.madd c false false d a b, f.madd c true false d a b, f.madd c false true d a b,
      f.madd c true true d a b]
    let two := [f.add c a b, f.sub c a b, f.mul c a b, f.div c a b]
    let one := [f.sqrt c a, f.abs a, f.neg a]
    (soft u → f.convert g c a = FpOut.unimplemented ∧ ∀ r ∈ one ++ two ++ fused, r = FpOut.unimplemented) ∧
    (soft v → ∀ r ∈ two ++ fused, r = FpOut.unimplemented) ∧ (soft w → ∀ r ∈ fused, r = FpOut.unimplemented) ∧
    (¬soft u → u.cls = .snan → f.convert g c a = FpOut.invalid g.defaultNan ∧ ∀ r ∈ one, r = nan) ∧
    (¬soft u → ¬soft v → u.cls = .snan ∨ v.cls = .snan → ∀ r ∈ two, r = nan) ∧
    (¬soft u → ¬soft v → ¬soft w → u.cls = .snan ∨ v.cls = .snan ∨ w.cls = .snan → ∀ r ∈ fused, r = nan) ∧
    (finite u ∨ u.cls = .inf → f.abs a = FpOut.exact (a &&& ~~~f.signBit) ∧
      f.neg a = FpOut.exact (a ^^^ f.signBit)) ∧
    (u.cls = .inf → f.convert g c a = FpOut.exact (g.infOf u.neg) ∧
      f.sqrt c a = if u.neg then nan else inf false) ∧
    (u.cls = .zero → f.convert g c a = FpOut.exact (g.zeroOf u.neg) ∧ f.sqrt c a = zero u.neg) ∧
    (u.cls = .normal → u.neg = true → f.sqrt c a = nan) ∧ f.fromInt c 0 = zero false ∧
    (u.cls = .inf → v.cls = .inf →
      f.add c a b = (if u.neg = v.neg then inf u.neg else nan) ∧
      f.sub c a b = (if u.neg = v.neg then nan else inf u.neg) ∧ f.mul c a b = inf n ∧ f.div c a b = nan) ∧
    (u.cls = .inf → finite v → f.add c a b = inf u.neg ∧ f.sub c a b = inf u.neg ∧ f.div c a b = inf n ∧
      f.mul c a b = if v.cls = .zero then nan else inf n) ∧
    (finite u → v.cls = .inf → f.add c a b = inf v.neg ∧ f.sub c a b = inf (!v.neg) ∧ f.div c a b = zero n ∧
      f.mul c a b = if u.cls = .zero then nan else inf n) ∧
    (finite u → finite v → u.cls = .zero ∨ v.cls = .zero → f.mul c a b = zero n ∧
      f.div c a b = (if v.cls ≠ .zero then zero n else if u.cls = .zero then nan
        else ⟨{ divByZero := true }, f.infOf n⟩)) ∧
    (u.cls = .zero → v.cls = .zero → f.add c a b = zero (if u.neg = v.neg then u.neg else down) ∧
      f.sub c a b = zero (if u.neg = v.neg then down else u.neg)) ∧
    (finite u → finite v → (u.cls = .zero) ≠ (v.cls = .zero) →
      Delivers f c (u.toReal + v.toReal) (f.add c a b) ∧ Delivers f c (u.toReal - v.toReal) (f.sub c a b)) ∧
    (∀ sub : Bool, let t := w.neg ^^ sub; let r := f.madd c sub false d a b
      let z := if sub then -w.toReal else w.toReal; let e := u.toReal * v.toReal + z
      f.madd c sub true d a b =
        (if r = nan ∨ r = FpOut.unimplemented then r else { r with bits := r.bits ^^^ f.signBit }) ∧
      ((u.cls = .zero ∧ v.cls = .inf) ∨ (u.cls = .inf ∧ v.cls = .zero) → finite w ∨ w.cls = .inf → r = nan) ∧
      ((u.cls = .inf ∧ (v.cls = .normal ∨ v.cls = .inf)) ∨ (u.cls = .normal ∧ v.cls = .inf) →
        (finite w → r = inf n) ∧ (w.cls = .inf → r = if t = n then inf n else nan)) ∧
      (finite u → finite v → w.cls = .inf → r = inf t) ∧
      (finite u → finite v → finite w → (e ≠ 0 → Delivers f c e r) ∧
        (e = 0 → r = zero (if n = t then n else down))))

/-- The end of a floating-point operation: the Cause bits are its exceptions, E alone where it is left to software; it
traps on E and on an exception whose Enable bit is set; the Flag bits of its exceptions are added if it does not trap,
and kept if it does; no other bit of FCSR changes. Two halves signal the exceptions of either (D59; log 43). -/
def Obligations.FcsrUpdate : Prop :=
  ∀ (c : Word) (x y : FpExc), let g := fcsrAfter c x
    let bits : List (Bool × Nat) := [(x.invalid, 4), (x.divByZero, 3), (x.overflow, 2), (x.underflow, 1), (x.inexact, 0)]
    let traps := x.unimplemented = true ∨ ∃ b ∈ bits, b.1 = true ∧ c.getLsbD (7 + b.2) = true
    g.getLsbD 17 = x.unimplemented ∧
    (∀ b ∈ bits, g.getLsbD (12 + b.2) = (b.1 && !x.unimplemented)) ∧
    (fcsrTraps g = true ↔ traps) ∧
    (∀ b ∈ bits, (traps → g.getLsbD (2 + b.2) = c.getLsbD (2 + b.2)) ∧
      (¬traps → g.getLsbD (2 + b.2) = (c.getLsbD (2 + b.2) || b.1))) ∧
    (∀ k, k < 32 → ¬(12 ≤ k ∧ k ≤ 17) → ¬(2 ≤ k ∧ k ≤ 6) → g.getLsbD k = c.getLsbD k) ∧
    x.or y = ⟨x.unimplemented || y.unimplemented, x.invalid || y.invalid, x.divByZero || y.divByZero,
      x.overflow || y.overflow, x.underflow || y.underflow, x.inexact || y.inexact⟩

/-- On normalized operands the sum, difference, product, quotient, square root, multiply-add and conversion are the
exact real value rounded once; a zero sum is -0 when rounding down, else +0. An integer is rounded once as well. The
flushed results are as the spec decides (D56; log 43). -/
def Obligations.FpResultsAreExactValuesRoundedOnce : Prop :=
  ∀ f ∈ [FpFmt.single, FpFmt.double], ∀ (fcsr : Word) (a b d : DWord),
    let u := f.unpack a; let v := f.unpack b; let w := f.unpack d
    let x := u.toReal; let y := v.toReal; let z := w.toReal
    let delivers (e : ℝ) (o : FpOut) := (e ≠ 0 → Delivers f fcsr e o) ∧
      (e = 0 → o = FpOut.exact (f.zeroOf (fcsr.extractLsb' 0 2 = 3)))
    (u.cls = .normal → v.cls = .normal →
      delivers (x + y) (f.add fcsr a b) ∧ delivers (x - y) (f.sub fcsr a b) ∧ delivers (x * y) (f.mul fcsr a b) ∧
      delivers (x / y) (f.div fcsr a b) ∧
      (w.cls = .normal → delivers (x * y + z) (f.madd fcsr false false d a b) ∧
        delivers (x * y - z) (f.madd fcsr true false d a b))) ∧
    (u.cls = .normal → (u.neg = false → Delivers f fcsr (√x) (f.sqrt fcsr a)) ∧
      ∀ g ∈ [FpFmt.single, FpFmt.double], Delivers g fcsr x (f.convert g fcsr a)) ∧
    (∀ n : ℤ, n ≠ 0 → Delivers f fcsr n (f.fromInt fcsr n))

/-- The conversion to an integer of 32 or 64 bits: a zero or normalized operand rounded to an integer that fits, else
Invalid with the largest or the smallest integer; Invalid for an infinity or a NaN; Unimplemented for a denormal. The
integers of Invalid are as the spec decides (D40; log 43). -/
def Obligations.FpToIntegerRounds : Prop :=
  ∀ f ∈ [FpFmt.single, FpFmt.double], ∀ w ∈ [32, 64], ∀ (rm : BitVec 2) (a : DWord),
    let u := f.unpack a; let o := f.toFixed w rm a
    let bad := o = FpOut.invalid (BitVec.ofNat 64 (if u.neg then 2 ^ (w - 1) else 2 ^ (w - 1) - 1))
    (u.cls = .zero ∨ u.cls = .normal → ∃ n : ℤ, RoundsToInt rm u.toReal n ∧
      (n < -2 ^ (w - 1) ∨ 2 ^ (w - 1) ≤ n → bad) ∧
      (-2 ^ (w - 1) ≤ n → n < 2 ^ (w - 1) → o.bits = (BitVec.ofInt w n).setWidth 64 ∧
        ∃ b : Bool, (b = true ↔ (n : ℝ) ≠ u.toReal) ∧ o.exc = { inexact := b })) ∧
    (u.cls = .inf ∨ u.cls = .qnan ∨ u.cls = .snan → bad) ∧
    (u.cls = .denormal → o = FpOut.unimplemented)

/-- The 48 compares set CC0 (in format PS, CC0 for the low and CC1 for the high half) to the condition of their
predicate on the values of the operands; Invalid for a signaling NaN, and for any NaN with predicates 8 to 15. How the
sixteen predicates are built of less, equal and unordered is general knowledge, and the two halves of PS signal
together by a decision of the spec (D59; log 43). -/
def Obligations.FpCompares : Prop :=
  ∀ (s : State) (ft fs : RegNum), s.cu1 = true →
    let holds (f : FpFmt) (cond : BitVec 4) (a b : DWord) : Prop := let u := f.unpack a; let v := f.unpack b
      let nan := u.isNan = true ∨ v.isNan = true
      (cond.getLsbD 2 = true ∧ ¬nan ∧ u.toEReal < v.toEReal) ∨
        (cond.getLsbD 1 = true ∧ ¬nan ∧ u.toEReal = v.toEReal) ∨ (cond.getLsbD 0 = true ∧ nan)
    let invalid (f : FpFmt) (cond : BitVec 4) (a b : DWord) : Prop := let u := f.unpack a; let v := f.unpack b
      u.cls = .snan ∨ v.cls = .snan ∨ (cond.getLsbD 3 = true ∧ (u.isNan = true ∨ v.isNan = true))
    let one (i : Instr) (f : FpFmt) (cond : BitVec 4) (a b : DWord) := ∃ c v : Bool,
      (c = true ↔ holds f cond a b) ∧ (v = true ↔ invalid f cond a b) ∧
      FpEnds (exec i s) s { invalid := v } fun g =>
        FcsrResult (exec i s) s (if c then g ||| 0x800000 else g &&& ~~~0x800000)
    let S := FpFmt.single; let D := FpFmt.double
    let single (i : Instr) (cond : BitVec 4) := one i S cond ((s.f32 fs).setWidth 64) ((s.f32 ft).setWidth 64)
    let double (i : Instr) (cond : BitVec 4) := one i D cond (s.f64 fs) (s.f64 ft)
    let paired (i : Instr) (cond : BitVec 4) := let half (x : DWord) (k : Nat) := (x.extractLsb' k 32).setWidth 64
      let x := s.f64 fs; let y := s.f64 ft
      ∃ c0 c1 v : Bool, (c0 = true ↔ holds S cond (half x 0) (half y 0)) ∧
        (c1 = true ↔ holds S cond (half x 32) (half y 32)) ∧
        (v = true ↔ invalid S cond (half x 0) (half y 0) ∨ invalid S cond (half x 32) (half y 32)) ∧
        FpEnds (exec i s) s { invalid := v } fun g => FcsrResult (exec i s) s
          ((g &&& ~~~0x2800000) ||| (if c0 then 0x800000 else 0) ||| (if c1 then 0x2000000 else 0))
    single (.cFS ft fs) 0 ∧ single (.cUnS ft fs) 1 ∧ single (.cEqS ft fs) 2 ∧ single (.cUeqS ft fs) 3 ∧
    single (.cOltS ft fs) 4 ∧ single (.cUltS ft fs) 5 ∧ single (.cOleS ft fs) 6 ∧ single (.cUleS ft fs) 7 ∧
    single (.cSfS ft fs) 8 ∧ single (.cNgleS ft fs) 9 ∧ single (.cSeqS ft fs) 10 ∧ single (.cNglS ft fs) 11 ∧
    single (.cLtS ft fs) 12 ∧ single (.cNgeS ft fs) 13 ∧ single (.cLeS ft fs) 14 ∧ single (.cNgtS ft fs) 15 ∧
    (FpuReady s [fs, ft] →
      double (.cFD ft fs) 0 ∧ double (.cUnD ft fs) 1 ∧ double (.cEqD ft fs) 2 ∧ double (.cUeqD ft fs) 3 ∧
      double (.cOltD ft fs) 4 ∧ double (.cUltD ft fs) 5 ∧ double (.cOleD ft fs) 6 ∧ double (.cUleD ft fs) 7 ∧
      double (.cSfD ft fs) 8 ∧ double (.cNgleD ft fs) 9 ∧ double (.cSeqD ft fs) 10 ∧ double (.cNglD ft fs) 11 ∧
      double (.cLtD ft fs) 12 ∧ double (.cNgeD ft fs) 13 ∧ double (.cLeD ft fs) 14 ∧ double (.cNgtD ft fs) 15 ∧
      paired (.cFPs ft fs) 0 ∧ paired (.cUnPs ft fs) 1 ∧ paired (.cEqPs ft fs) 2 ∧ paired (.cUeqPs ft fs) 3 ∧
      paired (.cOltPs ft fs) 4 ∧ paired (.cUltPs ft fs) 5 ∧ paired (.cOlePs ft fs) 6 ∧ paired (.cUlePs ft fs) 7 ∧
      paired (.cSfPs ft fs) 8 ∧ paired (.cNglePs ft fs) 9 ∧ paired (.cSeqPs ft fs) 10 ∧ paired (.cNglPs ft fs) 11 ∧
      paired (.cLtPs ft fs) 12 ∧ paired (.cNgePs ft fs) 13 ∧ paired (.cLePs ft fs) 14 ∧ paired (.cNgtPs ft fs) 15)

/-- MOV, MFC1, DMFC1, MTC1, DMTC1, CFC1 and CTC1 copy without looking at the value and leave FCSR alone; CTC1 to FCR31
writes FCSR with bits 22:18 clear, and takes the Floating-Point exception if that sets E or an enabled Cause bit. The
other control registers, that CTC1 writes before it traps, the kept upper half of a register and the pairs with FR clear
are choices of the spec (D30, D57, D58, D29; log 18, 19, 43). -/
def Obligations.FpMoves : Prop :=
  ∀ (s : State) (rt fs fd : RegNum), s.cu1 = true →
    let v := low32 (s.r rt) &&& 0xFF83FFFF
    let traps := v.getLsbD 17 = true ∨ ∃ k, k < 5 ∧ v.getLsbD (12 + k) = true ∧ v.getLsbD (7 + k) = true
    Fpr32Result (exec (.movS fs fd) s) s fd s.fcsr (s.f32 fs) ∧
    (FpuReady s [fs, fd] → FprResult (exec (.movD fs fd) s) s fd s.fcsr (· = s.f64 fs) ∧
      FprResult (exec (.movPs fs fd) s) s fd s.fcsr (· = s.f64 fs)) ∧
    GprResult (exec (.mfc1 rt fs) s) s rt ((s.f32 fs).signExtend 64) ∧
    (FpuReady s [fs] → GprResult (exec (.dmfc1 rt fs) s) s rt (s.f64 fs) ∧
      FprResult (exec (.dmtc1 rt fs) s) s fs s.fcsr (· = s.r rt)) ∧
    Fpr32Result (exec (.mtc1 rt fs) s) s fs s.fcsr (low32 (s.r rt)) ∧
    GprResult (exec (.cfc1 rt fs) s) s rt
      (if fs = 0 then 0x501 else if fs = 31 then s.fcsr.signExtend 64 else 0) ∧
    (fs ≠ 31 → OnlyAdvances (exec (.ctc1 rt fs) s) s) ∧
    (¬traps → FcsrResult (exec (.ctc1 rt 31) s) s v) ∧ (traps → Traps (exec (.ctc1 rt 31) s) (s.setFcsr v) 15 0)

/-- The paired-single operations work on both halves, and the twelve multiply-adds take fd as the addend: the results
in fd and the exceptions of all halves together in FCSR, or the Floating-Point exception. The union of the exceptions
and the NaN that is not negated are choices of the spec (D59, D60; log 43), and so are the kept upper half of a register
and the pairs with FR clear (D58, D29; log 18, 19). -/
def Obligations.PairedSingleAndMultiplyAdd : Prop :=
  ∀ (s : State) (ft fs fd : RegNum), s.cu1 = true →
    let S := FpFmt.single; let D := FpFmt.double; let c := s.fcsr
    let result32 (i : Instr) (r : FpOut) := FpEnds (exec i s) s r.exc fun g =>
      Fpr32Result (exec i s) s fd g (low32 r.bits)
    let result64 (i : Instr) (r : FpOut) := FpEnds (exec i s) s r.exc fun g => FprResult (exec i s) s fd g (· = r.bits)
    let both (i : Instr) (hi lo : FpOut) := FpEnds (exec i s) s (hi.exc.or lo.exc) fun g =>
      FprResult (exec i s) s fd g fun v =>
        v.extractLsb' 32 32 = low32 hi.bits ∧ v.extractLsb' 0 32 = low32 lo.bits
    let half (x : DWord) (k : Nat) : DWord := (x.extractLsb' k 32).setWidth 64
    let pairs (i : Instr) (op : DWord → DWord → FpOut) :=
      both i (op (half (s.f64 fs) 32) (half (s.f64 ft) 32)) (op (half (s.f64 fs) 0) (half (s.f64 ft) 0))
    let unary (i : Instr) (op : DWord → FpOut) := both i (op (half (s.f64 fs) 32)) (op (half (s.f64 fs) 0))
    let triples (i : Instr) (op : DWord → DWord → DWord → FpOut) :=
      both i (op (half (s.f64 fd) 32) (half (s.f64 fs) 32) (half (s.f64 ft) 32))
        (op (half (s.f64 fd) 0) (half (s.f64 fs) 0) (half (s.f64 ft) 0))
    let one (op : FpFmt → DWord → DWord → DWord → FpOut) :=
      op S ((s.f32 fd).setWidth 64) ((s.f32 fs).setWidth 64) ((s.f32 ft).setWidth 64)
    let wide (op : FpFmt → DWord → DWord → DWord → FpOut) := op D (s.f64 fd) (s.f64 fs) (s.f64 ft)
    let madd (f : FpFmt) := f.madd c false false; let msub (f : FpFmt) := f.madd c true false
    let nmadd (f : FpFmt) := f.madd c false true; let nmsub (f : FpFmt) := f.madd c true true
    result32 (.maddS ft fs fd) (one madd) ∧ result32 (.msubS ft fs fd) (one msub) ∧
    result32 (.nmaddS ft fs fd) (one nmadd) ∧ result32 (.nmsubS ft fs fd) (one nmsub) ∧
    (FpuReady s [fs, fd] → unary (.absPs fs fd) S.abs ∧ unary (.negPs fs fd) S.neg) ∧
    (FpuReady s [fs, ft, fd] →
      pairs (.addPs ft fs fd) (S.add c) ∧ pairs (.subPs ft fs fd) (S.sub c) ∧ pairs (.mulPs ft fs fd) (S.mul c) ∧
      result64 (.maddD ft fs fd) (wide madd) ∧ result64 (.msubD ft fs fd) (wide msub) ∧
      result64 (.nmaddD ft fs fd) (wide nmadd) ∧ result64 (.nmsubD ft fs fd) (wide nmsub) ∧
      triples (.maddPs ft fs fd) (madd S) ∧ triples (.msubPs ft fs fd) (msub S) ∧
      triples (.nmaddPs ft fs fd) (nmadd S) ∧ triples (.nmsubPs ft fs fd) (nmsub S))

/-! ### Integers on the floating-point registers -/

/-- The packed additions, subtractions, averages, extrema, comparisons, differences and products, element by element,
in every FCSR and rounding mode; FCSR stays. The pairs with FR clear are no rule of the manual but a choice of the spec
(D29; log 19). -/
def Obligations.PackedArithmetic : Prop :=
  ∀ (s : State) (ft fs fd : RegNum), FpuReady s [fs, ft, fd] → let x := s.f64 fs; let y := s.f64 ft
    let elements (w n : Nat) (i : Instr) (f : BitVec w → BitVec w → BitVec w) := FprResult (exec i s) s fd s.fcsr fun d =>
      ∀ k, k < n → d.extractLsb' (w * k) w = f (x.extractLsb' (w * k) w) (y.extractLsb' (w * k) w)
    let bytes := elements 8 8; let halves := elements 16 4; let words := elements 32 2
    let whole (i : Instr) (v : DWord) := FprResult (exec i s) s fd s.fcsr (· = v)
    let signed (w : Nat) (op : Int → Int → Int) (a b : BitVec w) :=
      BitVec.ofInt w (max (-2 ^ (w - 1)) (min (2 ^ (w - 1) - 1) (op a.toInt b.toInt)))
    let unsigned (w : Nat) (op : Int → Int → Int) (a b : BitVec w) :=
      BitVec.ofInt w (max 0 (min (2 ^ w - 1) (op a.toNat b.toNat)))
    let mean (w : Nat) (a b : BitVec w) := BitVec.ofNat w ((a.toNat + b.toNat + 1) / 2)
    let mask (w : Nat) (c : BitVec w → BitVec w → Bool) (a b : BitVec w) := if c a b then BitVec.allOnes w else 0
    bytes (.paddb ft fs fd) (· + ·) ∧ halves (.paddh ft fs fd) (· + ·) ∧ words (.paddw ft fs fd) (· + ·) ∧
    whole (.paddd ft fs fd) (x + y) ∧ bytes (.paddsb ft fs fd) (signed 8 (· + ·)) ∧
    halves (.paddsh ft fs fd) (signed 16 (· + ·)) ∧ bytes (.paddusb ft fs fd) (unsigned 8 (· + ·)) ∧
    halves (.paddush ft fs fd) (unsigned 16 (· + ·)) ∧
    bytes (.psubb ft fs fd) (· - ·) ∧ halves (.psubh ft fs fd) (· - ·) ∧ words (.psubw ft fs fd) (· - ·) ∧
    whole (.psubd ft fs fd) (x - y) ∧ bytes (.psubsb ft fs fd) (signed 8 (· - ·)) ∧
    halves (.psubsh ft fs fd) (signed 16 (· - ·)) ∧ bytes (.psubusb ft fs fd) (unsigned 8 (· - ·)) ∧
    halves (.psubush ft fs fd) (unsigned 16 (· - ·)) ∧
    halves (.pavgh ft fs fd) (mean 16) ∧ bytes (.pavgb ft fs fd) (mean 8) ∧
    halves (.pmaxsh ft fs fd) (fun a b => if b.toInt < a.toInt then a else b) ∧
    halves (.pminsh ft fs fd) (fun a b => if a.toInt < b.toInt then a else b) ∧
    bytes (.pmaxub ft fs fd) (fun a b => if b.toNat < a.toNat then a else b) ∧
    bytes (.pminub ft fs fd) (fun a b => if a.toNat < b.toNat then a else b) ∧
    words (.pcmpeqw ft fs fd) (mask 32 fun a b => a = b) ∧ halves (.pcmpeqh ft fs fd) (mask 16 fun a b => a = b) ∧
    bytes (.pcmpeqb ft fs fd) (mask 8 fun a b => a = b) ∧
    words (.pcmpgtw ft fs fd) (mask 32 fun a b => b.toInt < a.toInt) ∧
    halves (.pcmpgth ft fs fd) (mask 16 fun a b => b.toInt < a.toInt) ∧
    bytes (.pcmpgtb ft fs fd) (mask 8 fun a b => b.toInt < a.toInt) ∧
    halves (.pmullh ft fs fd) (fun a b => BitVec.ofInt 16 (a.toInt * b.toInt)) ∧
    halves (.pmulhh ft fs fd) (fun a b => BitVec.ofInt 16 (a.toInt * b.toInt / 2 ^ 16)) ∧
    halves (.pmulhuh ft fs fd) (fun a b => BitVec.ofNat 16 (a.toNat * b.toNat / 2 ^ 16)) ∧
    whole (.pmuluw ft fs fd) (BitVec.ofNat 64 ((x.extractLsb' 0 32).toNat * (y.extractLsb' 0 32).toNat)) ∧
    bytes (.pasubub ft fs fd) (fun a b => BitVec.ofNat 8 (max a.toNat b.toNat - min a.toNat b.toNat)) ∧
    FprResult (exec (.pmaddhw ft fs fd) s) s fd s.fcsr fun d => ∀ k, k < 2 →
      let p (j : Nat) := (x.extractLsb' (16 * j) 16).toInt * (y.extractLsb' (16 * j) 16).toInt
      d.extractLsb' (32 * k) 32 = BitVec.ofInt 32 (p (2 * k) + p (2 * k + 1))

/-- The packed instructions that move elements: shuffle, pack with saturation, unpack, insert, extract, and-not, the
shifts by the low seven bits of ft, the sum of the bytes and the mask of their signs; FCSR stays. The selectors of
PSHUFH, the counts past the width and the pairs with FR clear are choices of the spec (D53, D29; log 19, 44). -/
def Obligations.PackedRearrangement : Prop :=
  ∀ (s : State) (ft fs fd : RegNum), FpuReady s [fs, ft, fd] → let x := s.f64 fs; let y := s.f64 ft
    let b (v : DWord) (k : Nat) : Byte := v.extractLsb' (8 * k) 8
    let h (v : DWord) (k : Nat) : Half := v.extractLsb' (16 * k) 16
    let w (v : DWord) (k : Nat) : Word := v.extractLsb' (32 * k) 32
    let gives (i : Instr) (P : DWord → Prop) := FprResult (exec i s) s fd s.fcsr P
    let bytes (i : Instr) (f : Nat → Byte) := gives i fun d => ∀ k, k < 8 → b d k = f k
    let halves (i : Instr) (f : Nat → Half) := gives i fun d => ∀ k, k < 4 → h d k = f k
    let words (i : Instr) (f : Nat → Word) := gives i fun d => ∀ k, k < 2 → w d k = f k
    let clamp (lo hi v : Int) := max lo (min hi v)
    let c := y.toNat % 128
    halves (.pshufh ft fs fd) (fun k => h x (y.extractLsb' (2 * k) 2).toNat) ∧
    halves (.packsswh ft fs fd) (fun k => BitVec.ofInt 16 (clamp (-2 ^ 15) (2 ^ 15 - 1)
      (if k < 2 then w x k else w y (k - 2)).toInt)) ∧
    bytes (.packsshb ft fs fd) (fun k => BitVec.ofInt 8 (clamp (-2 ^ 7) (2 ^ 7 - 1)
      (if k < 4 then h x k else h y (k - 4)).toInt)) ∧
    bytes (.packushb ft fs fd) (fun k => BitVec.ofInt 8 (clamp 0 255
      (if k < 4 then h x k else h y (k - 4)).toInt)) ∧
    gives (.pandn ft fs fd) (· = ~~~x &&& y) ∧
    halves (.punpcklhw ft fs fd) (fun k => h (if k % 2 = 0 then x else y) (k / 2)) ∧
    halves (.punpckhhw ft fs fd) (fun k => h (if k % 2 = 0 then x else y) (2 + k / 2)) ∧
    bytes (.punpcklbh ft fs fd) (fun k => b (if k % 2 = 0 then x else y) (k / 2)) ∧
    bytes (.punpckhbh ft fs fd) (fun k => b (if k % 2 = 0 then x else y) (4 + k / 2)) ∧
    words (.punpcklwd ft fs fd) (fun k => w (if k % 2 = 0 then x else y) 0) ∧
    words (.punpckhwd ft fs fd) (fun k => w (if k % 2 = 0 then x else y) 1) ∧
    halves (.pinsrh0 ft fs fd) (fun k => if k = 0 then h y 0 else h x k) ∧
    halves (.pinsrh1 ft fs fd) (fun k => if k = 1 then h y 0 else h x k) ∧
    halves (.pinsrh2 ft fs fd) (fun k => if k = 2 then h y 0 else h x k) ∧
    halves (.pinsrh3 ft fs fd) (fun k => if k = 3 then h y 0 else h x k) ∧
    gives (.pextrh ft fs fd) (· = (h x (y.extractLsb' 0 2).toNat).setWidth 64) ∧
    words (.psllw ft fs fd) (fun k => BitVec.ofNat 32 ((w x k).toNat * 2 ^ c)) ∧
    halves (.psllh ft fs fd) (fun k => BitVec.ofNat 16 ((h x k).toNat * 2 ^ c)) ∧
    words (.psrlw ft fs fd) (fun k => BitVec.ofNat 32 ((w x k).toNat / 2 ^ c)) ∧
    halves (.psrlh ft fs fd) (fun k => BitVec.ofNat 16 ((h x k).toNat / 2 ^ c)) ∧
    words (.psraw ft fs fd) (fun k => BitVec.ofInt 32 ((w x k).toInt / 2 ^ c)) ∧
    halves (.psrah ft fs fd) (fun k => BitVec.ofInt 16 ((h x k).toInt / 2 ^ c)) ∧
    gives (.biadd fs fd) (fun d => d.toNat = (b x 0).toNat + (b x 1).toNat + (b x 2).toNat + (b x 3).toNat +
      (b x 4).toNat + (b x 5).toNat + (b x 6).toNat + (b x 7).toNat) ∧
    gives (.pmovmskb fs fd) (fun d => ∀ k, k < 64 → d.getLsbD k = (decide (k < 8) && x.getLsbD (8 * k + 7)))

/-- The scalar integer instructions on the floating-point registers: the sums and differences, trapping with Integer
Overflow or not, the logic, the shifts by the whole of ft, and the six compares into CC0; nothing else changes. The
low words, CC0, the counts and the pairs with FR clear are choices of the spec (D16, D17, D39, D53, D29; log 19, 20,
44). -/
def Obligations.FixedPointOnFprs : Prop :=
  ∀ (s : State) (ft fs fd : RegNum), FpuReady s [fs, ft, fd] → let x := s.f64 fs; let y := s.f64 ft
    let a := low32 x; let b := low32 y; let n := y.toNat
    let gives (i : Instr) (v : DWord) := FprResult (exec i s) s fd s.fcsr (· = v)
    let word (i : Instr) (v : Int) := gives i ((BitVec.ofInt 32 v).signExtend 64)
    let double (i : Instr) (v : Int) := gives i (BitVec.ofInt 64 v)
    let trapping (w : Nat) (i : Instr) (v : Int) :=
      if -2 ^ (w - 1) ≤ v ∧ v < 2 ^ (w - 1) then double i v else Traps (exec i s) s 12 0
    let compares (i : Instr) (c : Bool) :=
      FcsrResult (exec i s) s (if c then s.fcsr ||| 0x800000 else s.fcsr &&& ~~~0x800000)
    trapping 32 (.fxAdd ft fs fd) (a.toInt + b.toInt) ∧ trapping 64 (.fxDadd ft fs fd) (x.toInt + y.toInt) ∧
    trapping 32 (.fxSub ft fs fd) (a.toInt - b.toInt) ∧ trapping 64 (.fxDsub ft fs fd) (x.toInt - y.toInt) ∧
    word (.fxAddu ft fs fd) (a.toInt + b.toInt) ∧ word (.fxSubu ft fs fd) (a.toInt - b.toInt) ∧
    gives (.fxOr ft fs fd) (x ||| y) ∧ gives (.fxXor ft fs fd) (x ^^^ y) ∧ gives (.fxNor ft fs fd) (~~~(x ||| y)) ∧
    gives (.fxAnd ft fs fd) (x &&& y) ∧
    word (.fxSll ft fs fd) (if n < 32 then a.toNat * 2 ^ n else 0 : Nat) ∧
    word (.fxSrl ft fs fd) (if n < 32 then a.toNat / 2 ^ n else 0 : Nat) ∧
    word (.fxSra ft fs fd) (if n < 32 then a.toInt / 2 ^ n else if a.msb then -1 else 0) ∧
    double (.fxDsll ft fs fd) (if n < 64 then x.toNat * 2 ^ n else 0 : Nat) ∧
    double (.fxDsrl ft fs fd) (if n < 64 then x.toNat / 2 ^ n else 0 : Nat) ∧
    double (.fxDsra ft fs fd) (if n < 64 then x.toInt / 2 ^ n else if x.msb then -1 else 0) ∧
    compares (.fxSequ ft fs) (x = y) ∧ compares (.fxSeq ft fs) (x = y) ∧ compares (.fxSltu ft fs) (x.toNat < y.toNat) ∧
    compares (.fxSlt ft fs) (x.toInt < y.toInt) ∧ compares (.fxSleu ft fs) (x.toNat ≤ y.toNat) ∧
    compares (.fxSle ft fs) (x.toInt ≤ y.toInt)

end
end

