-- ==== Sys2Proof/Laws/State.lean ====
section
/-! SUPPORT. For every update of the state, what each field holds after it. -/

namespace Sys2Proof.Machine

variable (s : State)

/-! ### `setStatus` -/

@[simp] theorem setStatus_gpr (v : Word) : (s.setStatus v).gpr = s.gpr := rfl
@[simp] theorem setStatus_pc (v : Word) : (s.setStatus v).pc = s.pc := rfl
@[simp] theorem setStatus_delay (v : Word) : (s.setStatus v).delay = s.delay := rfl
@[simp] theorem setStatus_hi (v : Word) : (s.setStatus v).hi = s.hi := rfl
@[simp] theorem setStatus_lo (v : Word) : (s.setStatus v).lo = s.lo := rfl
@[simp] theorem setStatus_llbit (v : Word) : (s.setStatus v).llbit = s.llbit := rfl
@[simp] theorem setStatus_fpr (v : Word) : (s.setStatus v).fpr = s.fpr := rfl
@[simp] theorem setStatus_fcsr (v : Word) : (s.setStatus v).fcsr = s.fcsr := rfl
@[simp] theorem setStatus_cp0 (v : Word) : (s.setStatus v).cp0 = { s.cp0 with status := v } := rfl
@[simp] theorem setStatus_tlb (v : Word) : (s.setStatus v).tlb = s.tlb := rfl
@[simp] theorem setStatus_tlbMask (v : Word) : (s.setStatus v).tlbMask = s.tlbMask := rfl
@[simp] theorem setStatus_itlb (v : Word) : (s.setStatus v).itlb = s.itlb := rfl
@[simp] theorem setStatus_icache (v : Word) : (s.setStatus v).icache = s.icache := rfl
@[simp] theorem setStatus_dcache (v : Word) : (s.setStatus v).dcache = s.dcache := rfl
@[simp] theorem setStatus_scache (v : Word) : (s.setStatus v).scache = s.scache := rfl
@[simp] theorem setStatus_timerPending (v : Word) : (s.setStatus v).timerPending = s.timerPending := rfl
@[simp] theorem setStatus_watchPostponed (v : Word) : (s.setStatus v).watchPostponed = s.watchPostponed := rfl
@[simp] theorem setStatus_nmiPending (v : Word) : (s.setStatus v).nmiPending = s.nmiPending := rfl
@[simp] theorem setStatus_softResetPending (v : Word) : (s.setStatus v).softResetPending = s.softResetPending := rfl
@[simp] theorem setStatus_coldResetPending (v : Word) : (s.setStatus v).coldResetPending = s.coldResetPending := rfl
@[simp] theorem setStatus_mem (v : Word) : (s.setStatus v).mem = s.mem := rfl
@[simp] theorem setStatus_windows (v : Word) : (s.setStatus v).windows = s.windows := rfl
@[simp] theorem setStatus_ddr (v : Word) : (s.setStatus v).ddr = s.ddr := rfl
@[simp] theorem setStatus_io (v : Word) : (s.setStatus v).io = s.io := rfl
@[simp] theorem setStatus_pins (v : Word) : (s.setStatus v).pins = s.pins := rfl
@[simp] theorem setStatus_cfg (v : Word) : (s.setStatus v).cfg = s.cfg := rfl
@[simp] theorem setStatus_inputs (v : Word) : (s.setStatus v).inputs = s.inputs := rfl
@[simp] theorem setStatus_draws (v : Word) : (s.setStatus v).draws = s.draws := rfl
@[simp] theorem setStatus_freeCount (v : Word) : (s.setStatus v).freeCount = s.freeCount := rfl
@[simp] theorem setStatus_countPhase (v : Word) : (s.setStatus v).countPhase = s.countPhase := rfl
@[simp] theorem setStatus_randomHold (v : Word) : (s.setStatus v).randomHold = s.randomHold := rfl
@[simp] theorem setStatus_randomHeld (v : Word) : (s.setStatus v).randomHeld = s.randomHeld := rfl

/-! ### `setHi` -/

@[simp] theorem setHi_gpr (v : DWord) : (s.setHi v).gpr = s.gpr := rfl
@[simp] theorem setHi_pc (v : DWord) : (s.setHi v).pc = s.pc := rfl
@[simp] theorem setHi_delay (v : DWord) : (s.setHi v).delay = s.delay := rfl
@[simp] theorem setHi_hi (v : DWord) : (s.setHi v).hi = v := rfl
@[simp] theorem setHi_lo (v : DWord) : (s.setHi v).lo = s.lo := rfl
@[simp] theorem setHi_llbit (v : DWord) : (s.setHi v).llbit = s.llbit := rfl
@[simp] theorem setHi_fpr (v : DWord) : (s.setHi v).fpr = s.fpr := rfl
@[simp] theorem setHi_fcsr (v : DWord) : (s.setHi v).fcsr = s.fcsr := rfl
@[simp] theorem setHi_cp0 (v : DWord) : (s.setHi v).cp0 = s.cp0 := rfl
@[simp] theorem setHi_tlb (v : DWord) : (s.setHi v).tlb = s.tlb := rfl
@[simp] theorem setHi_tlbMask (v : DWord) : (s.setHi v).tlbMask = s.tlbMask := rfl
@[simp] theorem setHi_itlb (v : DWord) : (s.setHi v).itlb = s.itlb := rfl
@[simp] theorem setHi_icache (v : DWord) : (s.setHi v).icache = s.icache := rfl
@[simp] theorem setHi_dcache (v : DWord) : (s.setHi v).dcache = s.dcache := rfl
@[simp] theorem setHi_scache (v : DWord) : (s.setHi v).scache = s.scache := rfl
@[simp] theorem setHi_timerPending (v : DWord) : (s.setHi v).timerPending = s.timerPending := rfl
@[simp] theorem setHi_watchPostponed (v : DWord) : (s.setHi v).watchPostponed = s.watchPostponed := rfl
@[simp] theorem setHi_nmiPending (v : DWord) : (s.setHi v).nmiPending = s.nmiPending := rfl
@[simp] theorem setHi_softResetPending (v : DWord) : (s.setHi v).softResetPending = s.softResetPending := rfl
@[simp] theorem setHi_coldResetPending (v : DWord) : (s.setHi v).coldResetPending = s.coldResetPending := rfl
@[simp] theorem setHi_mem (v : DWord) : (s.setHi v).mem = s.mem := rfl
@[simp] theorem setHi_windows (v : DWord) : (s.setHi v).windows = s.windows := rfl
@[simp] theorem setHi_ddr (v : DWord) : (s.setHi v).ddr = s.ddr := rfl
@[simp] theorem setHi_io (v : DWord) : (s.setHi v).io = s.io := rfl
@[simp] theorem setHi_pins (v : DWord) : (s.setHi v).pins = s.pins := rfl
@[simp] theorem setHi_cfg (v : DWord) : (s.setHi v).cfg = s.cfg := rfl
@[simp] theorem setHi_inputs (v : DWord) : (s.setHi v).inputs = s.inputs := rfl
@[simp] theorem setHi_draws (v : DWord) : (s.setHi v).draws = s.draws := rfl
@[simp] theorem setHi_freeCount (v : DWord) : (s.setHi v).freeCount = s.freeCount := rfl
@[simp] theorem setHi_countPhase (v : DWord) : (s.setHi v).countPhase = s.countPhase := rfl
@[simp] theorem setHi_randomHold (v : DWord) : (s.setHi v).randomHold = s.randomHold := rfl
@[simp] theorem setHi_randomHeld (v : DWord) : (s.setHi v).randomHeld = s.randomHeld := rfl

/-! ### `setLo` -/

@[simp] theorem setLo_gpr (v : DWord) : (s.setLo v).gpr = s.gpr := rfl
@[simp] theorem setLo_pc (v : DWord) : (s.setLo v).pc = s.pc := rfl
@[simp] theorem setLo_delay (v : DWord) : (s.setLo v).delay = s.delay := rfl
@[simp] theorem setLo_hi (v : DWord) : (s.setLo v).hi = s.hi := rfl
@[simp] theorem setLo_lo (v : DWord) : (s.setLo v).lo = v := rfl
@[simp] theorem setLo_llbit (v : DWord) : (s.setLo v).llbit = s.llbit := rfl
@[simp] theorem setLo_fpr (v : DWord) : (s.setLo v).fpr = s.fpr := rfl
@[simp] theorem setLo_fcsr (v : DWord) : (s.setLo v).fcsr = s.fcsr := rfl
@[simp] theorem setLo_cp0 (v : DWord) : (s.setLo v).cp0 = s.cp0 := rfl
@[simp] theorem setLo_tlb (v : DWord) : (s.setLo v).tlb = s.tlb := rfl
@[simp] theorem setLo_tlbMask (v : DWord) : (s.setLo v).tlbMask = s.tlbMask := rfl
@[simp] theorem setLo_itlb (v : DWord) : (s.setLo v).itlb = s.itlb := rfl
@[simp] theorem setLo_icache (v : DWord) : (s.setLo v).icache = s.icache := rfl
@[simp] theorem setLo_dcache (v : DWord) : (s.setLo v).dcache = s.dcache := rfl
@[simp] theorem setLo_scache (v : DWord) : (s.setLo v).scache = s.scache := rfl
@[simp] theorem setLo_timerPending (v : DWord) : (s.setLo v).timerPending = s.timerPending := rfl
@[simp] theorem setLo_watchPostponed (v : DWord) : (s.setLo v).watchPostponed = s.watchPostponed := rfl
@[simp] theorem setLo_nmiPending (v : DWord) : (s.setLo v).nmiPending = s.nmiPending := rfl
@[simp] theorem setLo_softResetPending (v : DWord) : (s.setLo v).softResetPending = s.softResetPending := rfl
@[simp] theorem setLo_coldResetPending (v : DWord) : (s.setLo v).coldResetPending = s.coldResetPending := rfl
@[simp] theorem setLo_mem (v : DWord) : (s.setLo v).mem = s.mem := rfl
@[simp] theorem setLo_windows (v : DWord) : (s.setLo v).windows = s.windows := rfl
@[simp] theorem setLo_ddr (v : DWord) : (s.setLo v).ddr = s.ddr := rfl
@[simp] theorem setLo_io (v : DWord) : (s.setLo v).io = s.io := rfl
@[simp] theorem setLo_pins (v : DWord) : (s.setLo v).pins = s.pins := rfl
@[simp] theorem setLo_cfg (v : DWord) : (s.setLo v).cfg = s.cfg := rfl
@[simp] theorem setLo_inputs (v : DWord) : (s.setLo v).inputs = s.inputs := rfl
@[simp] theorem setLo_draws (v : DWord) : (s.setLo v).draws = s.draws := rfl
@[simp] theorem setLo_freeCount (v : DWord) : (s.setLo v).freeCount = s.freeCount := rfl
@[simp] theorem setLo_countPhase (v : DWord) : (s.setLo v).countPhase = s.countPhase := rfl
@[simp] theorem setLo_randomHold (v : DWord) : (s.setLo v).randomHold = s.randomHold := rfl
@[simp] theorem setLo_randomHeld (v : DWord) : (s.setLo v).randomHeld = s.randomHeld := rfl

/-! ### `setHiLo` -/

@[simp] theorem setHiLo_gpr (h l : DWord) : (s.setHiLo h l).gpr = s.gpr := rfl
@[simp] theorem setHiLo_pc (h l : DWord) : (s.setHiLo h l).pc = s.pc := rfl
@[simp] theorem setHiLo_delay (h l : DWord) : (s.setHiLo h l).delay = s.delay := rfl
@[simp] theorem setHiLo_hi (h l : DWord) : (s.setHiLo h l).hi = h := rfl
@[simp] theorem setHiLo_lo (h l : DWord) : (s.setHiLo h l).lo = l := rfl
@[simp] theorem setHiLo_llbit (h l : DWord) : (s.setHiLo h l).llbit = s.llbit := rfl
@[simp] theorem setHiLo_fpr (h l : DWord) : (s.setHiLo h l).fpr = s.fpr := rfl
@[simp] theorem setHiLo_fcsr (h l : DWord) : (s.setHiLo h l).fcsr = s.fcsr := rfl
@[simp] theorem setHiLo_cp0 (h l : DWord) : (s.setHiLo h l).cp0 = s.cp0 := rfl
@[simp] theorem setHiLo_tlb (h l : DWord) : (s.setHiLo h l).tlb = s.tlb := rfl
@[simp] theorem setHiLo_tlbMask (h l : DWord) : (s.setHiLo h l).tlbMask = s.tlbMask := rfl
@[simp] theorem setHiLo_itlb (h l : DWord) : (s.setHiLo h l).itlb = s.itlb := rfl
@[simp] theorem setHiLo_icache (h l : DWord) : (s.setHiLo h l).icache = s.icache := rfl
@[simp] theorem setHiLo_dcache (h l : DWord) : (s.setHiLo h l).dcache = s.dcache := rfl
@[simp] theorem setHiLo_scache (h l : DWord) : (s.setHiLo h l).scache = s.scache := rfl
@[simp] theorem setHiLo_timerPending (h l : DWord) : (s.setHiLo h l).timerPending = s.timerPending := rfl
@[simp] theorem setHiLo_watchPostponed (h l : DWord) : (s.setHiLo h l).watchPostponed = s.watchPostponed := rfl
@[simp] theorem setHiLo_nmiPending (h l : DWord) : (s.setHiLo h l).nmiPending = s.nmiPending := rfl
@[simp] theorem setHiLo_softResetPending (h l : DWord) : (s.setHiLo h l).softResetPending = s.softResetPending := rfl
@[simp] theorem setHiLo_coldResetPending (h l : DWord) : (s.setHiLo h l).coldResetPending = s.coldResetPending := rfl
@[simp] theorem setHiLo_mem (h l : DWord) : (s.setHiLo h l).mem = s.mem := rfl
@[simp] theorem setHiLo_windows (h l : DWord) : (s.setHiLo h l).windows = s.windows := rfl
@[simp] theorem setHiLo_ddr (h l : DWord) : (s.setHiLo h l).ddr = s.ddr := rfl
@[simp] theorem setHiLo_io (h l : DWord) : (s.setHiLo h l).io = s.io := rfl
@[simp] theorem setHiLo_pins (h l : DWord) : (s.setHiLo h l).pins = s.pins := rfl
@[simp] theorem setHiLo_cfg (h l : DWord) : (s.setHiLo h l).cfg = s.cfg := rfl
@[simp] theorem setHiLo_inputs (h l : DWord) : (s.setHiLo h l).inputs = s.inputs := rfl
@[simp] theorem setHiLo_draws (h l : DWord) : (s.setHiLo h l).draws = s.draws := rfl
@[simp] theorem setHiLo_freeCount (h l : DWord) : (s.setHiLo h l).freeCount = s.freeCount := rfl
@[simp] theorem setHiLo_countPhase (h l : DWord) : (s.setHiLo h l).countPhase = s.countPhase := rfl
@[simp] theorem setHiLo_randomHold (h l : DWord) : (s.setHiLo h l).randomHold = s.randomHold := rfl
@[simp] theorem setHiLo_randomHeld (h l : DWord) : (s.setHiLo h l).randomHeld = s.randomHeld := rfl

/-! ### `setLlbit` -/

@[simp] theorem setLlbit_gpr (b : Bool) : (s.setLlbit b).gpr = s.gpr := rfl
@[simp] theorem setLlbit_pc (b : Bool) : (s.setLlbit b).pc = s.pc := rfl
@[simp] theorem setLlbit_delay (b : Bool) : (s.setLlbit b).delay = s.delay := rfl
@[simp] theorem setLlbit_hi (b : Bool) : (s.setLlbit b).hi = s.hi := rfl
@[simp] theorem setLlbit_lo (b : Bool) : (s.setLlbit b).lo = s.lo := rfl
@[simp] theorem setLlbit_llbit (b : Bool) : (s.setLlbit b).llbit = b := rfl
@[simp] theorem setLlbit_fpr (b : Bool) : (s.setLlbit b).fpr = s.fpr := rfl
@[simp] theorem setLlbit_fcsr (b : Bool) : (s.setLlbit b).fcsr = s.fcsr := rfl
@[simp] theorem setLlbit_cp0 (b : Bool) : (s.setLlbit b).cp0 = s.cp0 := rfl
@[simp] theorem setLlbit_tlb (b : Bool) : (s.setLlbit b).tlb = s.tlb := rfl
@[simp] theorem setLlbit_tlbMask (b : Bool) : (s.setLlbit b).tlbMask = s.tlbMask := rfl
@[simp] theorem setLlbit_itlb (b : Bool) : (s.setLlbit b).itlb = s.itlb := rfl
@[simp] theorem setLlbit_icache (b : Bool) : (s.setLlbit b).icache = s.icache := rfl
@[simp] theorem setLlbit_dcache (b : Bool) : (s.setLlbit b).dcache = s.dcache := rfl
@[simp] theorem setLlbit_scache (b : Bool) : (s.setLlbit b).scache = s.scache := rfl
@[simp] theorem setLlbit_timerPending (b : Bool) : (s.setLlbit b).timerPending = s.timerPending := rfl
@[simp] theorem setLlbit_watchPostponed (b : Bool) : (s.setLlbit b).watchPostponed = s.watchPostponed := rfl
@[simp] theorem setLlbit_nmiPending (b : Bool) : (s.setLlbit b).nmiPending = s.nmiPending := rfl
@[simp] theorem setLlbit_softResetPending (b : Bool) : (s.setLlbit b).softResetPending = s.softResetPending := rfl
@[simp] theorem setLlbit_coldResetPending (b : Bool) : (s.setLlbit b).coldResetPending = s.coldResetPending := rfl
@[simp] theorem setLlbit_mem (b : Bool) : (s.setLlbit b).mem = s.mem := rfl
@[simp] theorem setLlbit_windows (b : Bool) : (s.setLlbit b).windows = s.windows := rfl
@[simp] theorem setLlbit_ddr (b : Bool) : (s.setLlbit b).ddr = s.ddr := rfl
@[simp] theorem setLlbit_io (b : Bool) : (s.setLlbit b).io = s.io := rfl
@[simp] theorem setLlbit_pins (b : Bool) : (s.setLlbit b).pins = s.pins := rfl
@[simp] theorem setLlbit_cfg (b : Bool) : (s.setLlbit b).cfg = s.cfg := rfl
@[simp] theorem setLlbit_inputs (b : Bool) : (s.setLlbit b).inputs = s.inputs := rfl
@[simp] theorem setLlbit_draws (b : Bool) : (s.setLlbit b).draws = s.draws := rfl
@[simp] theorem setLlbit_freeCount (b : Bool) : (s.setLlbit b).freeCount = s.freeCount := rfl
@[simp] theorem setLlbit_countPhase (b : Bool) : (s.setLlbit b).countPhase = s.countPhase := rfl
@[simp] theorem setLlbit_randomHold (b : Bool) : (s.setLlbit b).randomHold = s.randomHold := rfl
@[simp] theorem setLlbit_randomHeld (b : Bool) : (s.setLlbit b).randomHeld = s.randomHeld := rfl

/-! ### `setFcsr` -/

@[simp] theorem setFcsr_gpr (v : Word) : (s.setFcsr v).gpr = s.gpr := rfl
@[simp] theorem setFcsr_pc (v : Word) : (s.setFcsr v).pc = s.pc := rfl
@[simp] theorem setFcsr_delay (v : Word) : (s.setFcsr v).delay = s.delay := rfl
@[simp] theorem setFcsr_hi (v : Word) : (s.setFcsr v).hi = s.hi := rfl
@[simp] theorem setFcsr_lo (v : Word) : (s.setFcsr v).lo = s.lo := rfl
@[simp] theorem setFcsr_llbit (v : Word) : (s.setFcsr v).llbit = s.llbit := rfl
@[simp] theorem setFcsr_fpr (v : Word) : (s.setFcsr v).fpr = s.fpr := rfl
@[simp] theorem setFcsr_fcsr (v : Word) : (s.setFcsr v).fcsr = v := rfl
@[simp] theorem setFcsr_cp0 (v : Word) : (s.setFcsr v).cp0 = s.cp0 := rfl
@[simp] theorem setFcsr_tlb (v : Word) : (s.setFcsr v).tlb = s.tlb := rfl
@[simp] theorem setFcsr_tlbMask (v : Word) : (s.setFcsr v).tlbMask = s.tlbMask := rfl
@[simp] theorem setFcsr_itlb (v : Word) : (s.setFcsr v).itlb = s.itlb := rfl
@[simp] theorem setFcsr_icache (v : Word) : (s.setFcsr v).icache = s.icache := rfl
@[simp] theorem setFcsr_dcache (v : Word) : (s.setFcsr v).dcache = s.dcache := rfl
@[simp] theorem setFcsr_scache (v : Word) : (s.setFcsr v).scache = s.scache := rfl
@[simp] theorem setFcsr_timerPending (v : Word) : (s.setFcsr v).timerPending = s.timerPending := rfl
@[simp] theorem setFcsr_watchPostponed (v : Word) : (s.setFcsr v).watchPostponed = s.watchPostponed := rfl
@[simp] theorem setFcsr_nmiPending (v : Word) : (s.setFcsr v).nmiPending = s.nmiPending := rfl
@[simp] theorem setFcsr_softResetPending (v : Word) : (s.setFcsr v).softResetPending = s.softResetPending := rfl
@[simp] theorem setFcsr_coldResetPending (v : Word) : (s.setFcsr v).coldResetPending = s.coldResetPending := rfl
@[simp] theorem setFcsr_mem (v : Word) : (s.setFcsr v).mem = s.mem := rfl
@[simp] theorem setFcsr_windows (v : Word) : (s.setFcsr v).windows = s.windows := rfl
@[simp] theorem setFcsr_ddr (v : Word) : (s.setFcsr v).ddr = s.ddr := rfl
@[simp] theorem setFcsr_io (v : Word) : (s.setFcsr v).io = s.io := rfl
@[simp] theorem setFcsr_pins (v : Word) : (s.setFcsr v).pins = s.pins := rfl
@[simp] theorem setFcsr_cfg (v : Word) : (s.setFcsr v).cfg = s.cfg := rfl
@[simp] theorem setFcsr_inputs (v : Word) : (s.setFcsr v).inputs = s.inputs := rfl
@[simp] theorem setFcsr_draws (v : Word) : (s.setFcsr v).draws = s.draws := rfl
@[simp] theorem setFcsr_freeCount (v : Word) : (s.setFcsr v).freeCount = s.freeCount := rfl
@[simp] theorem setFcsr_countPhase (v : Word) : (s.setFcsr v).countPhase = s.countPhase := rfl
@[simp] theorem setFcsr_randomHold (v : Word) : (s.setFcsr v).randomHold = s.randomHold := rfl
@[simp] theorem setFcsr_randomHeld (v : Word) : (s.setFcsr v).randomHeld = s.randomHeld := rfl

/-! ### `setF32` -/

@[simp] theorem setF32_gpr (n : RegNum) (v : Word) : (s.setF32 n v).gpr = s.gpr := rfl
@[simp] theorem setF32_pc (n : RegNum) (v : Word) : (s.setF32 n v).pc = s.pc := rfl
@[simp] theorem setF32_delay (n : RegNum) (v : Word) : (s.setF32 n v).delay = s.delay := rfl
@[simp] theorem setF32_hi (n : RegNum) (v : Word) : (s.setF32 n v).hi = s.hi := rfl
@[simp] theorem setF32_lo (n : RegNum) (v : Word) : (s.setF32 n v).lo = s.lo := rfl
@[simp] theorem setF32_llbit (n : RegNum) (v : Word) : (s.setF32 n v).llbit = s.llbit := rfl
@[simp] theorem setF32_fcsr (n : RegNum) (v : Word) : (s.setF32 n v).fcsr = s.fcsr := rfl
@[simp] theorem setF32_cp0 (n : RegNum) (v : Word) : (s.setF32 n v).cp0 = s.cp0 := rfl
@[simp] theorem setF32_tlb (n : RegNum) (v : Word) : (s.setF32 n v).tlb = s.tlb := rfl
@[simp] theorem setF32_tlbMask (n : RegNum) (v : Word) : (s.setF32 n v).tlbMask = s.tlbMask := rfl
@[simp] theorem setF32_itlb (n : RegNum) (v : Word) : (s.setF32 n v).itlb = s.itlb := rfl
@[simp] theorem setF32_icache (n : RegNum) (v : Word) : (s.setF32 n v).icache = s.icache := rfl
@[simp] theorem setF32_dcache (n : RegNum) (v : Word) : (s.setF32 n v).dcache = s.dcache := rfl
@[simp] theorem setF32_scache (n : RegNum) (v : Word) : (s.setF32 n v).scache = s.scache := rfl
@[simp] theorem setF32_timerPending (n : RegNum) (v : Word) : (s.setF32 n v).timerPending = s.timerPending := rfl
@[simp] theorem setF32_watchPostponed (n : RegNum) (v : Word) :
    (s.setF32 n v).watchPostponed = s.watchPostponed := rfl
@[simp] theorem setF32_nmiPending (n : RegNum) (v : Word) : (s.setF32 n v).nmiPending = s.nmiPending := rfl
@[simp] theorem setF32_softResetPending (n : RegNum) (v : Word) :
    (s.setF32 n v).softResetPending = s.softResetPending := rfl
@[simp] theorem setF32_coldResetPending (n : RegNum) (v : Word) :
    (s.setF32 n v).coldResetPending = s.coldResetPending := rfl
@[simp] theorem setF32_mem (n : RegNum) (v : Word) : (s.setF32 n v).mem = s.mem := rfl
@[simp] theorem setF32_windows (n : RegNum) (v : Word) : (s.setF32 n v).windows = s.windows := rfl
@[simp] theorem setF32_ddr (n : RegNum) (v : Word) : (s.setF32 n v).ddr = s.ddr := rfl
@[simp] theorem setF32_io (n : RegNum) (v : Word) : (s.setF32 n v).io = s.io := rfl
@[simp] theorem setF32_pins (n : RegNum) (v : Word) : (s.setF32 n v).pins = s.pins := rfl
@[simp] theorem setF32_cfg (n : RegNum) (v : Word) : (s.setF32 n v).cfg = s.cfg := rfl
@[simp] theorem setF32_inputs (n : RegNum) (v : Word) : (s.setF32 n v).inputs = s.inputs := rfl
@[simp] theorem setF32_draws (n : RegNum) (v : Word) : (s.setF32 n v).draws = s.draws := rfl
@[simp] theorem setF32_freeCount (n : RegNum) (v : Word) : (s.setF32 n v).freeCount = s.freeCount := rfl
@[simp] theorem setF32_countPhase (n : RegNum) (v : Word) : (s.setF32 n v).countPhase = s.countPhase := rfl
@[simp] theorem setF32_randomHold (n : RegNum) (v : Word) : (s.setF32 n v).randomHold = s.randomHold := rfl
@[simp] theorem setF32_randomHeld (n : RegNum) (v : Word) : (s.setF32 n v).randomHeld = s.randomHeld := rfl

/-! ### `advance` -/

@[simp] theorem advance_gpr : (s.advance).gpr = s.gpr := rfl
@[simp] theorem advance_delay : (s.advance).delay = none := rfl
@[simp] theorem advance_hi : (s.advance).hi = s.hi := rfl
@[simp] theorem advance_lo : (s.advance).lo = s.lo := rfl
@[simp] theorem advance_llbit : (s.advance).llbit = s.llbit := rfl
@[simp] theorem advance_fpr : (s.advance).fpr = s.fpr := rfl
@[simp] theorem advance_fcsr : (s.advance).fcsr = s.fcsr := rfl
@[simp] theorem advance_cp0 : (s.advance).cp0 = s.cp0 := rfl
@[simp] theorem advance_tlb : (s.advance).tlb = s.tlb := rfl
@[simp] theorem advance_tlbMask : (s.advance).tlbMask = s.tlbMask := rfl
@[simp] theorem advance_itlb : (s.advance).itlb = s.itlb := rfl
@[simp] theorem advance_icache : (s.advance).icache = s.icache := rfl
@[simp] theorem advance_dcache : (s.advance).dcache = s.dcache := rfl
@[simp] theorem advance_scache : (s.advance).scache = s.scache := rfl
@[simp] theorem advance_timerPending : (s.advance).timerPending = s.timerPending := rfl
@[simp] theorem advance_watchPostponed : (s.advance).watchPostponed = s.watchPostponed := rfl
@[simp] theorem advance_nmiPending : (s.advance).nmiPending = s.nmiPending := rfl
@[simp] theorem advance_softResetPending : (s.advance).softResetPending = s.softResetPending := rfl
@[simp] theorem advance_coldResetPending : (s.advance).coldResetPending = s.coldResetPending := rfl
@[simp] theorem advance_mem : (s.advance).mem = s.mem := rfl
@[simp] theorem advance_windows : (s.advance).windows = s.windows := rfl
@[simp] theorem advance_ddr : (s.advance).ddr = s.ddr := rfl
@[simp] theorem advance_io : (s.advance).io = s.io := rfl
@[simp] theorem advance_pins : (s.advance).pins = s.pins := rfl
@[simp] theorem advance_cfg : (s.advance).cfg = s.cfg := rfl
@[simp] theorem advance_inputs : (s.advance).inputs = s.inputs := rfl
@[simp] theorem advance_draws : (s.advance).draws = s.draws := rfl
@[simp] theorem advance_freeCount : (s.advance).freeCount = s.freeCount := rfl
@[simp] theorem advance_countPhase : (s.advance).countPhase = s.countPhase := rfl
@[simp] theorem advance_randomHold : (s.advance).randomHold = s.randomHold := rfl
@[simp] theorem advance_randomHeld : (s.advance).randomHeld = s.randomHeld := rfl

/-! ### `branchTo` -/

@[simp] theorem branchTo_gpr (a : DWord) : (s.branchTo a).gpr = s.gpr := rfl
@[simp] theorem branchTo_pc (a : DWord) : (s.branchTo a).pc = s.pc + 4 := rfl
@[simp] theorem branchTo_delay (a : DWord) : (s.branchTo a).delay = some a := rfl
@[simp] theorem branchTo_hi (a : DWord) : (s.branchTo a).hi = s.hi := rfl
@[simp] theorem branchTo_lo (a : DWord) : (s.branchTo a).lo = s.lo := rfl
@[simp] theorem branchTo_llbit (a : DWord) : (s.branchTo a).llbit = s.llbit := rfl
@[simp] theorem branchTo_fpr (a : DWord) : (s.branchTo a).fpr = s.fpr := rfl
@[simp] theorem branchTo_fcsr (a : DWord) : (s.branchTo a).fcsr = s.fcsr := rfl
@[simp] theorem branchTo_cp0 (a : DWord) : (s.branchTo a).cp0 = s.cp0 := rfl
@[simp] theorem branchTo_tlb (a : DWord) : (s.branchTo a).tlb = s.tlb := rfl
@[simp] theorem branchTo_tlbMask (a : DWord) : (s.branchTo a).tlbMask = s.tlbMask := rfl
@[simp] theorem branchTo_itlb (a : DWord) : (s.branchTo a).itlb = s.itlb := rfl
@[simp] theorem branchTo_icache (a : DWord) : (s.branchTo a).icache = s.icache := rfl
@[simp] theorem branchTo_dcache (a : DWord) : (s.branchTo a).dcache = s.dcache := rfl
@[simp] theorem branchTo_scache (a : DWord) : (s.branchTo a).scache = s.scache := rfl
@[simp] theorem branchTo_timerPending (a : DWord) : (s.branchTo a).timerPending = s.timerPending := rfl
@[simp] theorem branchTo_watchPostponed (a : DWord) : (s.branchTo a).watchPostponed = s.watchPostponed := rfl
@[simp] theorem branchTo_nmiPending (a : DWord) : (s.branchTo a).nmiPending = s.nmiPending := rfl
@[simp] theorem branchTo_softResetPending (a : DWord) : (s.branchTo a).softResetPending = s.softResetPending := rfl
@[simp] theorem branchTo_coldResetPending (a : DWord) : (s.branchTo a).coldResetPending = s.coldResetPending := rfl
@[simp] theorem branchTo_mem (a : DWord) : (s.branchTo a).mem = s.mem := rfl
@[simp] theorem branchTo_windows (a : DWord) : (s.branchTo a).windows = s.windows := rfl
@[simp] theorem branchTo_ddr (a : DWord) : (s.branchTo a).ddr = s.ddr := rfl
@[simp] theorem branchTo_io (a : DWord) : (s.branchTo a).io = s.io := rfl
@[simp] theorem branchTo_pins (a : DWord) : (s.branchTo a).pins = s.pins := rfl
@[simp] theorem branchTo_cfg (a : DWord) : (s.branchTo a).cfg = s.cfg := rfl
@[simp] theorem branchTo_inputs (a : DWord) : (s.branchTo a).inputs = s.inputs := rfl
@[simp] theorem branchTo_draws (a : DWord) : (s.branchTo a).draws = s.draws := rfl
@[simp] theorem branchTo_freeCount (a : DWord) : (s.branchTo a).freeCount = s.freeCount := rfl
@[simp] theorem branchTo_countPhase (a : DWord) : (s.branchTo a).countPhase = s.countPhase := rfl
@[simp] theorem branchTo_randomHold (a : DWord) : (s.branchTo a).randomHold = s.randomHold := rfl
@[simp] theorem branchTo_randomHeld (a : DWord) : (s.branchTo a).randomHeld = s.randomHeld := rfl

/-! ### `skipSlot` -/

@[simp] theorem skipSlot_gpr : (s.skipSlot).gpr = s.gpr := rfl
@[simp] theorem skipSlot_pc : (s.skipSlot).pc = s.pc + 8 := rfl
@[simp] theorem skipSlot_delay : (s.skipSlot).delay = none := rfl
@[simp] theorem skipSlot_hi : (s.skipSlot).hi = s.hi := rfl
@[simp] theorem skipSlot_lo : (s.skipSlot).lo = s.lo := rfl
@[simp] theorem skipSlot_llbit : (s.skipSlot).llbit = s.llbit := rfl
@[simp] theorem skipSlot_fpr : (s.skipSlot).fpr = s.fpr := rfl
@[simp] theorem skipSlot_fcsr : (s.skipSlot).fcsr = s.fcsr := rfl
@[simp] theorem skipSlot_cp0 : (s.skipSlot).cp0 = s.cp0 := rfl
@[simp] theorem skipSlot_tlb : (s.skipSlot).tlb = s.tlb := rfl
@[simp] theorem skipSlot_tlbMask : (s.skipSlot).tlbMask = s.tlbMask := rfl
@[simp] theorem skipSlot_itlb : (s.skipSlot).itlb = s.itlb := rfl
@[simp] theorem skipSlot_icache : (s.skipSlot).icache = s.icache := rfl
@[simp] theorem skipSlot_dcache : (s.skipSlot).dcache = s.dcache := rfl
@[simp] theorem skipSlot_scache : (s.skipSlot).scache = s.scache := rfl
@[simp] theorem skipSlot_timerPending : (s.skipSlot).timerPending = s.timerPending := rfl
@[simp] theorem skipSlot_watchPostponed : (s.skipSlot).watchPostponed = s.watchPostponed := rfl
@[simp] theorem skipSlot_nmiPending : (s.skipSlot).nmiPending = s.nmiPending := rfl
@[simp] theorem skipSlot_softResetPending : (s.skipSlot).softResetPending = s.softResetPending := rfl
@[simp] theorem skipSlot_coldResetPending : (s.skipSlot).coldResetPending = s.coldResetPending := rfl
@[simp] theorem skipSlot_mem : (s.skipSlot).mem = s.mem := rfl
@[simp] theorem skipSlot_windows : (s.skipSlot).windows = s.windows := rfl
@[simp] theorem skipSlot_ddr : (s.skipSlot).ddr = s.ddr := rfl
@[simp] theorem skipSlot_io : (s.skipSlot).io = s.io := rfl
@[simp] theorem skipSlot_pins : (s.skipSlot).pins = s.pins := rfl
@[simp] theorem skipSlot_cfg : (s.skipSlot).cfg = s.cfg := rfl
@[simp] theorem skipSlot_inputs : (s.skipSlot).inputs = s.inputs := rfl
@[simp] theorem skipSlot_draws : (s.skipSlot).draws = s.draws := rfl
@[simp] theorem skipSlot_freeCount : (s.skipSlot).freeCount = s.freeCount := rfl
@[simp] theorem skipSlot_countPhase : (s.skipSlot).countPhase = s.countPhase := rfl
@[simp] theorem skipSlot_randomHold : (s.skipSlot).randomHold = s.randomHold := rfl
@[simp] theorem skipSlot_randomHeld : (s.skipSlot).randomHeld = s.randomHeld := rfl

/-! ### `setIndex` -/

@[simp] theorem setIndex_gpr (v : Word) : (s.setIndex v).gpr = s.gpr := rfl
@[simp] theorem setIndex_pc (v : Word) : (s.setIndex v).pc = s.pc := rfl
@[simp] theorem setIndex_delay (v : Word) : (s.setIndex v).delay = s.delay := rfl
@[simp] theorem setIndex_hi (v : Word) : (s.setIndex v).hi = s.hi := rfl
@[simp] theorem setIndex_lo (v : Word) : (s.setIndex v).lo = s.lo := rfl
@[simp] theorem setIndex_llbit (v : Word) : (s.setIndex v).llbit = s.llbit := rfl
@[simp] theorem setIndex_fpr (v : Word) : (s.setIndex v).fpr = s.fpr := rfl
@[simp] theorem setIndex_fcsr (v : Word) : (s.setIndex v).fcsr = s.fcsr := rfl
@[simp] theorem setIndex_cp0 (v : Word) : (s.setIndex v).cp0 = { s.cp0 with index := v } := rfl
@[simp] theorem setIndex_tlb (v : Word) : (s.setIndex v).tlb = s.tlb := rfl
@[simp] theorem setIndex_tlbMask (v : Word) : (s.setIndex v).tlbMask = s.tlbMask := rfl
@[simp] theorem setIndex_itlb (v : Word) : (s.setIndex v).itlb = s.itlb := rfl
@[simp] theorem setIndex_icache (v : Word) : (s.setIndex v).icache = s.icache := rfl
@[simp] theorem setIndex_dcache (v : Word) : (s.setIndex v).dcache = s.dcache := rfl
@[simp] theorem setIndex_scache (v : Word) : (s.setIndex v).scache = s.scache := rfl
@[simp] theorem setIndex_timerPending (v : Word) : (s.setIndex v).timerPending = s.timerPending := rfl
@[simp] theorem setIndex_watchPostponed (v : Word) : (s.setIndex v).watchPostponed = s.watchPostponed := rfl
@[simp] theorem setIndex_nmiPending (v : Word) : (s.setIndex v).nmiPending = s.nmiPending := rfl
@[simp] theorem setIndex_softResetPending (v : Word) : (s.setIndex v).softResetPending = s.softResetPending := rfl
@[simp] theorem setIndex_coldResetPending (v : Word) : (s.setIndex v).coldResetPending = s.coldResetPending := rfl
@[simp] theorem setIndex_mem (v : Word) : (s.setIndex v).mem = s.mem := rfl
@[simp] theorem setIndex_windows (v : Word) : (s.setIndex v).windows = s.windows := rfl
@[simp] theorem setIndex_ddr (v : Word) : (s.setIndex v).ddr = s.ddr := rfl
@[simp] theorem setIndex_io (v : Word) : (s.setIndex v).io = s.io := rfl
@[simp] theorem setIndex_pins (v : Word) : (s.setIndex v).pins = s.pins := rfl
@[simp] theorem setIndex_cfg (v : Word) : (s.setIndex v).cfg = s.cfg := rfl
@[simp] theorem setIndex_inputs (v : Word) : (s.setIndex v).inputs = s.inputs := rfl
@[simp] theorem setIndex_draws (v : Word) : (s.setIndex v).draws = s.draws := rfl
@[simp] theorem setIndex_freeCount (v : Word) : (s.setIndex v).freeCount = s.freeCount := rfl
@[simp] theorem setIndex_countPhase (v : Word) : (s.setIndex v).countPhase = s.countPhase := rfl
@[simp] theorem setIndex_randomHold (v : Word) : (s.setIndex v).randomHold = s.randomHold := rfl
@[simp] theorem setIndex_randomHeld (v : Word) : (s.setIndex v).randomHeld = s.randomHeld := rfl

/-! ### `setTags` -/

@[simp] theorem setTags_gpr (h l : Word) : (s.setTags h l).gpr = s.gpr := rfl
@[simp] theorem setTags_pc (h l : Word) : (s.setTags h l).pc = s.pc := rfl
@[simp] theorem setTags_delay (h l : Word) : (s.setTags h l).delay = s.delay := rfl
@[simp] theorem setTags_hi (h l : Word) : (s.setTags h l).hi = s.hi := rfl
@[simp] theorem setTags_lo (h l : Word) : (s.setTags h l).lo = s.lo := rfl
@[simp] theorem setTags_llbit (h l : Word) : (s.setTags h l).llbit = s.llbit := rfl
@[simp] theorem setTags_fpr (h l : Word) : (s.setTags h l).fpr = s.fpr := rfl
@[simp] theorem setTags_fcsr (h l : Word) : (s.setTags h l).fcsr = s.fcsr := rfl
@[simp] theorem setTags_cp0 (h l : Word) : (s.setTags h l).cp0 = { s.cp0 with tagHi := h, tagLo := l } := rfl
@[simp] theorem setTags_tlb (h l : Word) : (s.setTags h l).tlb = s.tlb := rfl
@[simp] theorem setTags_tlbMask (h l : Word) : (s.setTags h l).tlbMask = s.tlbMask := rfl
@[simp] theorem setTags_itlb (h l : Word) : (s.setTags h l).itlb = s.itlb := rfl
@[simp] theorem setTags_icache (h l : Word) : (s.setTags h l).icache = s.icache := rfl
@[simp] theorem setTags_dcache (h l : Word) : (s.setTags h l).dcache = s.dcache := rfl
@[simp] theorem setTags_scache (h l : Word) : (s.setTags h l).scache = s.scache := rfl
@[simp] theorem setTags_timerPending (h l : Word) : (s.setTags h l).timerPending = s.timerPending := rfl
@[simp] theorem setTags_watchPostponed (h l : Word) : (s.setTags h l).watchPostponed = s.watchPostponed := rfl
@[simp] theorem setTags_nmiPending (h l : Word) : (s.setTags h l).nmiPending = s.nmiPending := rfl
@[simp] theorem setTags_softResetPending (h l : Word) : (s.setTags h l).softResetPending = s.softResetPending := rfl
@[simp] theorem setTags_coldResetPending (h l : Word) : (s.setTags h l).coldResetPending = s.coldResetPending := rfl
@[simp] theorem setTags_mem (h l : Word) : (s.setTags h l).mem = s.mem := rfl
@[simp] theorem setTags_windows (h l : Word) : (s.setTags h l).windows = s.windows := rfl
@[simp] theorem setTags_ddr (h l : Word) : (s.setTags h l).ddr = s.ddr := rfl
@[simp] theorem setTags_io (h l : Word) : (s.setTags h l).io = s.io := rfl
@[simp] theorem setTags_pins (h l : Word) : (s.setTags h l).pins = s.pins := rfl
@[simp] theorem setTags_cfg (h l : Word) : (s.setTags h l).cfg = s.cfg := rfl
@[simp] theorem setTags_inputs (h l : Word) : (s.setTags h l).inputs = s.inputs := rfl
@[simp] theorem setTags_draws (h l : Word) : (s.setTags h l).draws = s.draws := rfl
@[simp] theorem setTags_freeCount (h l : Word) : (s.setTags h l).freeCount = s.freeCount := rfl
@[simp] theorem setTags_countPhase (h l : Word) : (s.setTags h l).countPhase = s.countPhase := rfl
@[simp] theorem setTags_randomHold (h l : Word) : (s.setTags h l).randomHold = s.randomHold := rfl
@[simp] theorem setTags_randomHeld (h l : Word) : (s.setTags h l).randomHeld = s.randomHeld := rfl

/-! ### `setTagsDouble` -/

@[simp] theorem setTagsDouble_gpr (v : DWord) : (s.setTagsDouble v).gpr = s.gpr := rfl
@[simp] theorem setTagsDouble_pc (v : DWord) : (s.setTagsDouble v).pc = s.pc := rfl
@[simp] theorem setTagsDouble_delay (v : DWord) : (s.setTagsDouble v).delay = s.delay := rfl
@[simp] theorem setTagsDouble_hi (v : DWord) : (s.setTagsDouble v).hi = s.hi := rfl
@[simp] theorem setTagsDouble_lo (v : DWord) : (s.setTagsDouble v).lo = s.lo := rfl
@[simp] theorem setTagsDouble_llbit (v : DWord) : (s.setTagsDouble v).llbit = s.llbit := rfl
@[simp] theorem setTagsDouble_fpr (v : DWord) : (s.setTagsDouble v).fpr = s.fpr := rfl
@[simp] theorem setTagsDouble_fcsr (v : DWord) : (s.setTagsDouble v).fcsr = s.fcsr := rfl
@[simp] theorem setTagsDouble_tlb (v : DWord) : (s.setTagsDouble v).tlb = s.tlb := rfl
@[simp] theorem setTagsDouble_tlbMask (v : DWord) : (s.setTagsDouble v).tlbMask = s.tlbMask := rfl
@[simp] theorem setTagsDouble_itlb (v : DWord) : (s.setTagsDouble v).itlb = s.itlb := rfl
@[simp] theorem setTagsDouble_icache (v : DWord) : (s.setTagsDouble v).icache = s.icache := rfl
@[simp] theorem setTagsDouble_dcache (v : DWord) : (s.setTagsDouble v).dcache = s.dcache := rfl
@[simp] theorem setTagsDouble_scache (v : DWord) : (s.setTagsDouble v).scache = s.scache := rfl
@[simp] theorem setTagsDouble_timerPending (v : DWord) : (s.setTagsDouble v).timerPending = s.timerPending := rfl
@[simp] theorem setTagsDouble_watchPostponed (v : DWord) :
    (s.setTagsDouble v).watchPostponed = s.watchPostponed := rfl
@[simp] theorem setTagsDouble_nmiPending (v : DWord) : (s.setTagsDouble v).nmiPending = s.nmiPending := rfl
@[simp] theorem setTagsDouble_softResetPending (v : DWord) :
    (s.setTagsDouble v).softResetPending = s.softResetPending := rfl
@[simp] theorem setTagsDouble_coldResetPending (v : DWord) :
    (s.setTagsDouble v).coldResetPending = s.coldResetPending := rfl
@[simp] theorem setTagsDouble_mem (v : DWord) : (s.setTagsDouble v).mem = s.mem := rfl
@[simp] theorem setTagsDouble_windows (v : DWord) : (s.setTagsDouble v).windows = s.windows := rfl
@[simp] theorem setTagsDouble_ddr (v : DWord) : (s.setTagsDouble v).ddr = s.ddr := rfl
@[simp] theorem setTagsDouble_io (v : DWord) : (s.setTagsDouble v).io = s.io := rfl
@[simp] theorem setTagsDouble_pins (v : DWord) : (s.setTagsDouble v).pins = s.pins := rfl
@[simp] theorem setTagsDouble_cfg (v : DWord) : (s.setTagsDouble v).cfg = s.cfg := rfl
@[simp] theorem setTagsDouble_inputs (v : DWord) : (s.setTagsDouble v).inputs = s.inputs := rfl
@[simp] theorem setTagsDouble_draws (v : DWord) : (s.setTagsDouble v).draws = s.draws := rfl
@[simp] theorem setTagsDouble_freeCount (v : DWord) : (s.setTagsDouble v).freeCount = s.freeCount := rfl
@[simp] theorem setTagsDouble_countPhase (v : DWord) : (s.setTagsDouble v).countPhase = s.countPhase := rfl
@[simp] theorem setTagsDouble_randomHold (v : DWord) : (s.setTagsDouble v).randomHold = s.randomHold := rfl
@[simp] theorem setTagsDouble_randomHeld (v : DWord) : (s.setTagsDouble v).randomHeld = s.randomHeld := rfl

/-! ### `setILine` -/

@[simp] theorem setILine_gpr (k : Nat) (l : ILine) : (s.setILine k l).gpr = s.gpr := rfl
@[simp] theorem setILine_pc (k : Nat) (l : ILine) : (s.setILine k l).pc = s.pc := rfl
@[simp] theorem setILine_delay (k : Nat) (l : ILine) : (s.setILine k l).delay = s.delay := rfl
@[simp] theorem setILine_hi (k : Nat) (l : ILine) : (s.setILine k l).hi = s.hi := rfl
@[simp] theorem setILine_lo (k : Nat) (l : ILine) : (s.setILine k l).lo = s.lo := rfl
@[simp] theorem setILine_llbit (k : Nat) (l : ILine) : (s.setILine k l).llbit = s.llbit := rfl
@[simp] theorem setILine_fpr (k : Nat) (l : ILine) : (s.setILine k l).fpr = s.fpr := rfl
@[simp] theorem setILine_fcsr (k : Nat) (l : ILine) : (s.setILine k l).fcsr = s.fcsr := rfl
@[simp] theorem setILine_cp0 (k : Nat) (l : ILine) : (s.setILine k l).cp0 = s.cp0 := rfl
@[simp] theorem setILine_tlb (k : Nat) (l : ILine) : (s.setILine k l).tlb = s.tlb := rfl
@[simp] theorem setILine_tlbMask (k : Nat) (l : ILine) : (s.setILine k l).tlbMask = s.tlbMask := rfl
@[simp] theorem setILine_itlb (k : Nat) (l : ILine) : (s.setILine k l).itlb = s.itlb := rfl
@[simp] theorem setILine_icache (k : Nat) (l : ILine) :
    (s.setILine k l).icache = sparseWrite ILine.empty k l s.icache := rfl
@[simp] theorem setILine_dcache (k : Nat) (l : ILine) : (s.setILine k l).dcache = s.dcache := rfl
@[simp] theorem setILine_scache (k : Nat) (l : ILine) : (s.setILine k l).scache = s.scache := rfl
@[simp] theorem setILine_timerPending (k : Nat) (l : ILine) : (s.setILine k l).timerPending = s.timerPending := rfl
@[simp] theorem setILine_watchPostponed (k : Nat) (l : ILine) :
    (s.setILine k l).watchPostponed = s.watchPostponed := rfl
@[simp] theorem setILine_nmiPending (k : Nat) (l : ILine) : (s.setILine k l).nmiPending = s.nmiPending := rfl
@[simp] theorem setILine_softResetPending (k : Nat) (l : ILine) :
    (s.setILine k l).softResetPending = s.softResetPending := rfl
@[simp] theorem setILine_coldResetPending (k : Nat) (l : ILine) :
    (s.setILine k l).coldResetPending = s.coldResetPending := rfl
@[simp] theorem setILine_mem (k : Nat) (l : ILine) : (s.setILine k l).mem = s.mem := rfl
@[simp] theorem setILine_windows (k : Nat) (l : ILine) : (s.setILine k l).windows = s.windows := rfl
@[simp] theorem setILine_ddr (k : Nat) (l : ILine) : (s.setILine k l).ddr = s.ddr := rfl
@[simp] theorem setILine_io (k : Nat) (l : ILine) : (s.setILine k l).io = s.io := rfl
@[simp] theorem setILine_pins (k : Nat) (l : ILine) : (s.setILine k l).pins = s.pins := rfl
@[simp] theorem setILine_cfg (k : Nat) (l : ILine) : (s.setILine k l).cfg = s.cfg := rfl
@[simp] theorem setILine_inputs (k : Nat) (l : ILine) : (s.setILine k l).inputs = s.inputs := rfl
@[simp] theorem setILine_draws (k : Nat) (l : ILine) : (s.setILine k l).draws = s.draws := rfl
@[simp] theorem setILine_freeCount (k : Nat) (l : ILine) : (s.setILine k l).freeCount = s.freeCount := rfl
@[simp] theorem setILine_countPhase (k : Nat) (l : ILine) : (s.setILine k l).countPhase = s.countPhase := rfl
@[simp] theorem setILine_randomHold (k : Nat) (l : ILine) : (s.setILine k l).randomHold = s.randomHold := rfl
@[simp] theorem setILine_randomHeld (k : Nat) (l : ILine) : (s.setILine k l).randomHeld = s.randomHeld := rfl

/-! ### `setDLine` -/

@[simp] theorem setDLine_gpr (k : Nat) (l : DLine) : (s.setDLine k l).gpr = s.gpr := rfl
@[simp] theorem setDLine_pc (k : Nat) (l : DLine) : (s.setDLine k l).pc = s.pc := rfl
@[simp] theorem setDLine_delay (k : Nat) (l : DLine) : (s.setDLine k l).delay = s.delay := rfl
@[simp] theorem setDLine_hi (k : Nat) (l : DLine) : (s.setDLine k l).hi = s.hi := rfl
@[simp] theorem setDLine_lo (k : Nat) (l : DLine) : (s.setDLine k l).lo = s.lo := rfl
@[simp] theorem setDLine_llbit (k : Nat) (l : DLine) : (s.setDLine k l).llbit = s.llbit := rfl
@[simp] theorem setDLine_fpr (k : Nat) (l : DLine) : (s.setDLine k l).fpr = s.fpr := rfl
@[simp] theorem setDLine_fcsr (k : Nat) (l : DLine) : (s.setDLine k l).fcsr = s.fcsr := rfl
@[simp] theorem setDLine_cp0 (k : Nat) (l : DLine) : (s.setDLine k l).cp0 = s.cp0 := rfl
@[simp] theorem setDLine_tlb (k : Nat) (l : DLine) : (s.setDLine k l).tlb = s.tlb := rfl
@[simp] theorem setDLine_tlbMask (k : Nat) (l : DLine) : (s.setDLine k l).tlbMask = s.tlbMask := rfl
@[simp] theorem setDLine_itlb (k : Nat) (l : DLine) : (s.setDLine k l).itlb = s.itlb := rfl
@[simp] theorem setDLine_icache (k : Nat) (l : DLine) : (s.setDLine k l).icache = s.icache := rfl
@[simp] theorem setDLine_dcache (k : Nat) (l : DLine) :
    (s.setDLine k l).dcache = sparseWrite DLine.empty k l s.dcache := rfl
@[simp] theorem setDLine_scache (k : Nat) (l : DLine) : (s.setDLine k l).scache = s.scache := rfl
@[simp] theorem setDLine_timerPending (k : Nat) (l : DLine) : (s.setDLine k l).timerPending = s.timerPending := rfl
@[simp] theorem setDLine_watchPostponed (k : Nat) (l : DLine) :
    (s.setDLine k l).watchPostponed = s.watchPostponed := rfl
@[simp] theorem setDLine_nmiPending (k : Nat) (l : DLine) : (s.setDLine k l).nmiPending = s.nmiPending := rfl
@[simp] theorem setDLine_softResetPending (k : Nat) (l : DLine) :
    (s.setDLine k l).softResetPending = s.softResetPending := rfl
@[simp] theorem setDLine_coldResetPending (k : Nat) (l : DLine) :
    (s.setDLine k l).coldResetPending = s.coldResetPending := rfl
@[simp] theorem setDLine_mem (k : Nat) (l : DLine) : (s.setDLine k l).mem = s.mem := rfl
@[simp] theorem setDLine_windows (k : Nat) (l : DLine) : (s.setDLine k l).windows = s.windows := rfl
@[simp] theorem setDLine_ddr (k : Nat) (l : DLine) : (s.setDLine k l).ddr = s.ddr := rfl
@[simp] theorem setDLine_io (k : Nat) (l : DLine) : (s.setDLine k l).io = s.io := rfl
@[simp] theorem setDLine_pins (k : Nat) (l : DLine) : (s.setDLine k l).pins = s.pins := rfl
@[simp] theorem setDLine_cfg (k : Nat) (l : DLine) : (s.setDLine k l).cfg = s.cfg := rfl
@[simp] theorem setDLine_inputs (k : Nat) (l : DLine) : (s.setDLine k l).inputs = s.inputs := rfl
@[simp] theorem setDLine_draws (k : Nat) (l : DLine) : (s.setDLine k l).draws = s.draws := rfl
@[simp] theorem setDLine_freeCount (k : Nat) (l : DLine) : (s.setDLine k l).freeCount = s.freeCount := rfl
@[simp] theorem setDLine_countPhase (k : Nat) (l : DLine) : (s.setDLine k l).countPhase = s.countPhase := rfl
@[simp] theorem setDLine_randomHold (k : Nat) (l : DLine) : (s.setDLine k l).randomHold = s.randomHold := rfl
@[simp] theorem setDLine_randomHeld (k : Nat) (l : DLine) : (s.setDLine k l).randomHeld = s.randomHeld := rfl

/-! ### `setSLine` -/

@[simp] theorem setSLine_gpr (k : Nat) (l : SLine) : (s.setSLine k l).gpr = s.gpr := rfl
@[simp] theorem setSLine_pc (k : Nat) (l : SLine) : (s.setSLine k l).pc = s.pc := rfl
@[simp] theorem setSLine_delay (k : Nat) (l : SLine) : (s.setSLine k l).delay = s.delay := rfl
@[simp] theorem setSLine_hi (k : Nat) (l : SLine) : (s.setSLine k l).hi = s.hi := rfl
@[simp] theorem setSLine_lo (k : Nat) (l : SLine) : (s.setSLine k l).lo = s.lo := rfl
@[simp] theorem setSLine_llbit (k : Nat) (l : SLine) : (s.setSLine k l).llbit = s.llbit := rfl
@[simp] theorem setSLine_fpr (k : Nat) (l : SLine) : (s.setSLine k l).fpr = s.fpr := rfl
@[simp] theorem setSLine_fcsr (k : Nat) (l : SLine) : (s.setSLine k l).fcsr = s.fcsr := rfl
@[simp] theorem setSLine_cp0 (k : Nat) (l : SLine) : (s.setSLine k l).cp0 = s.cp0 := rfl
@[simp] theorem setSLine_tlb (k : Nat) (l : SLine) : (s.setSLine k l).tlb = s.tlb := rfl
@[simp] theorem setSLine_tlbMask (k : Nat) (l : SLine) : (s.setSLine k l).tlbMask = s.tlbMask := rfl
@[simp] theorem setSLine_itlb (k : Nat) (l : SLine) : (s.setSLine k l).itlb = s.itlb := rfl
@[simp] theorem setSLine_icache (k : Nat) (l : SLine) : (s.setSLine k l).icache = s.icache := rfl
@[simp] theorem setSLine_dcache (k : Nat) (l : SLine) : (s.setSLine k l).dcache = s.dcache := rfl
@[simp] theorem setSLine_scache (k : Nat) (l : SLine) :
    (s.setSLine k l).scache = sparseWrite SLine.empty k l s.scache := rfl
@[simp] theorem setSLine_timerPending (k : Nat) (l : SLine) : (s.setSLine k l).timerPending = s.timerPending := rfl
@[simp] theorem setSLine_watchPostponed (k : Nat) (l : SLine) :
    (s.setSLine k l).watchPostponed = s.watchPostponed := rfl
@[simp] theorem setSLine_nmiPending (k : Nat) (l : SLine) : (s.setSLine k l).nmiPending = s.nmiPending := rfl
@[simp] theorem setSLine_softResetPending (k : Nat) (l : SLine) :
    (s.setSLine k l).softResetPending = s.softResetPending := rfl
@[simp] theorem setSLine_coldResetPending (k : Nat) (l : SLine) :
    (s.setSLine k l).coldResetPending = s.coldResetPending := rfl
@[simp] theorem setSLine_mem (k : Nat) (l : SLine) : (s.setSLine k l).mem = s.mem := rfl
@[simp] theorem setSLine_windows (k : Nat) (l : SLine) : (s.setSLine k l).windows = s.windows := rfl
@[simp] theorem setSLine_ddr (k : Nat) (l : SLine) : (s.setSLine k l).ddr = s.ddr := rfl
@[simp] theorem setSLine_io (k : Nat) (l : SLine) : (s.setSLine k l).io = s.io := rfl
@[simp] theorem setSLine_pins (k : Nat) (l : SLine) : (s.setSLine k l).pins = s.pins := rfl
@[simp] theorem setSLine_cfg (k : Nat) (l : SLine) : (s.setSLine k l).cfg = s.cfg := rfl
@[simp] theorem setSLine_inputs (k : Nat) (l : SLine) : (s.setSLine k l).inputs = s.inputs := rfl
@[simp] theorem setSLine_draws (k : Nat) (l : SLine) : (s.setSLine k l).draws = s.draws := rfl
@[simp] theorem setSLine_freeCount (k : Nat) (l : SLine) : (s.setSLine k l).freeCount = s.freeCount := rfl
@[simp] theorem setSLine_countPhase (k : Nat) (l : SLine) : (s.setSLine k l).countPhase = s.countPhase := rfl
@[simp] theorem setSLine_randomHold (k : Nat) (l : SLine) : (s.setSLine k l).randomHold = s.randomHold := rfl
@[simp] theorem setSLine_randomHeld (k : Nat) (l : SLine) : (s.setSLine k l).randomHeld = s.randomHeld := rfl

/-! ### `readTlb` -/

@[simp] theorem readTlb_gpr : (s.readTlb).gpr = s.gpr := rfl
@[simp] theorem readTlb_pc : (s.readTlb).pc = s.pc := rfl
@[simp] theorem readTlb_delay : (s.readTlb).delay = s.delay := rfl
@[simp] theorem readTlb_hi : (s.readTlb).hi = s.hi := rfl
@[simp] theorem readTlb_lo : (s.readTlb).lo = s.lo := rfl
@[simp] theorem readTlb_llbit : (s.readTlb).llbit = s.llbit := rfl
@[simp] theorem readTlb_fpr : (s.readTlb).fpr = s.fpr := rfl
@[simp] theorem readTlb_fcsr : (s.readTlb).fcsr = s.fcsr := rfl
@[simp] theorem readTlb_tlb : (s.readTlb).tlb = s.tlb := rfl
@[simp] theorem readTlb_tlbMask : (s.readTlb).tlbMask = s.tlbMask := rfl
@[simp] theorem readTlb_itlb : (s.readTlb).itlb = s.itlb := rfl
@[simp] theorem readTlb_icache : (s.readTlb).icache = s.icache := rfl
@[simp] theorem readTlb_dcache : (s.readTlb).dcache = s.dcache := rfl
@[simp] theorem readTlb_scache : (s.readTlb).scache = s.scache := rfl
@[simp] theorem readTlb_timerPending : (s.readTlb).timerPending = s.timerPending := rfl
@[simp] theorem readTlb_watchPostponed : (s.readTlb).watchPostponed = s.watchPostponed := rfl
@[simp] theorem readTlb_nmiPending : (s.readTlb).nmiPending = s.nmiPending := rfl
@[simp] theorem readTlb_softResetPending : (s.readTlb).softResetPending = s.softResetPending := rfl
@[simp] theorem readTlb_coldResetPending : (s.readTlb).coldResetPending = s.coldResetPending := rfl
@[simp] theorem readTlb_mem : (s.readTlb).mem = s.mem := rfl
@[simp] theorem readTlb_windows : (s.readTlb).windows = s.windows := rfl
@[simp] theorem readTlb_ddr : (s.readTlb).ddr = s.ddr := rfl
@[simp] theorem readTlb_io : (s.readTlb).io = s.io := rfl
@[simp] theorem readTlb_pins : (s.readTlb).pins = s.pins := rfl
@[simp] theorem readTlb_cfg : (s.readTlb).cfg = s.cfg := rfl
@[simp] theorem readTlb_inputs : (s.readTlb).inputs = s.inputs := rfl
@[simp] theorem readTlb_draws : (s.readTlb).draws = s.draws := rfl
@[simp] theorem readTlb_freeCount : (s.readTlb).freeCount = s.freeCount := rfl
@[simp] theorem readTlb_countPhase : (s.readTlb).countPhase = s.countPhase := rfl
@[simp] theorem readTlb_randomHold : (s.readTlb).randomHold = s.randomHold := rfl
@[simp] theorem readTlb_randomHeld : (s.readTlb).randomHeld = s.randomHeld := rfl

/-! ### `writeTlb` -/

@[simp] theorem writeTlb_gpr (i : BitVec 6) : (s.writeTlb i).gpr = s.gpr := rfl
@[simp] theorem writeTlb_pc (i : BitVec 6) : (s.writeTlb i).pc = s.pc := rfl
@[simp] theorem writeTlb_delay (i : BitVec 6) : (s.writeTlb i).delay = s.delay := rfl
@[simp] theorem writeTlb_hi (i : BitVec 6) : (s.writeTlb i).hi = s.hi := rfl
@[simp] theorem writeTlb_lo (i : BitVec 6) : (s.writeTlb i).lo = s.lo := rfl
@[simp] theorem writeTlb_llbit (i : BitVec 6) : (s.writeTlb i).llbit = s.llbit := rfl
@[simp] theorem writeTlb_fpr (i : BitVec 6) : (s.writeTlb i).fpr = s.fpr := rfl
@[simp] theorem writeTlb_fcsr (i : BitVec 6) : (s.writeTlb i).fcsr = s.fcsr := rfl
@[simp] theorem writeTlb_cp0 (i : BitVec 6) : (s.writeTlb i).cp0 = s.cp0 := rfl
@[simp] theorem writeTlb_tlb (i : BitVec 6) : (s.writeTlb i).tlb = s.tlb.set i.toNat s.entryFromCp0 := rfl
@[simp] theorem writeTlb_tlbMask (i : BitVec 6) : (s.writeTlb i).tlbMask = s.pageMaskField := rfl
@[simp] theorem writeTlb_itlb (i : BitVec 6) : (s.writeTlb i).itlb = s.itlb := rfl
@[simp] theorem writeTlb_icache (i : BitVec 6) : (s.writeTlb i).icache = s.icache := rfl
@[simp] theorem writeTlb_dcache (i : BitVec 6) : (s.writeTlb i).dcache = s.dcache := rfl
@[simp] theorem writeTlb_scache (i : BitVec 6) : (s.writeTlb i).scache = s.scache := rfl
@[simp] theorem writeTlb_timerPending (i : BitVec 6) : (s.writeTlb i).timerPending = s.timerPending := rfl
@[simp] theorem writeTlb_watchPostponed (i : BitVec 6) : (s.writeTlb i).watchPostponed = s.watchPostponed := rfl
@[simp] theorem writeTlb_nmiPending (i : BitVec 6) : (s.writeTlb i).nmiPending = s.nmiPending := rfl
@[simp] theorem writeTlb_softResetPending (i : BitVec 6) : (s.writeTlb i).softResetPending = s.softResetPending := rfl
@[simp] theorem writeTlb_coldResetPending (i : BitVec 6) : (s.writeTlb i).coldResetPending = s.coldResetPending := rfl
@[simp] theorem writeTlb_mem (i : BitVec 6) : (s.writeTlb i).mem = s.mem := rfl
@[simp] theorem writeTlb_windows (i : BitVec 6) : (s.writeTlb i).windows = s.windows := rfl
@[simp] theorem writeTlb_ddr (i : BitVec 6) : (s.writeTlb i).ddr = s.ddr := rfl
@[simp] theorem writeTlb_io (i : BitVec 6) : (s.writeTlb i).io = s.io := rfl
@[simp] theorem writeTlb_pins (i : BitVec 6) : (s.writeTlb i).pins = s.pins := rfl
@[simp] theorem writeTlb_cfg (i : BitVec 6) : (s.writeTlb i).cfg = s.cfg := rfl
@[simp] theorem writeTlb_inputs (i : BitVec 6) : (s.writeTlb i).inputs = s.inputs := rfl
@[simp] theorem writeTlb_draws (i : BitVec 6) : (s.writeTlb i).draws = s.draws := rfl
@[simp] theorem writeTlb_freeCount (i : BitVec 6) : (s.writeTlb i).freeCount = s.freeCount := rfl
@[simp] theorem writeTlb_countPhase (i : BitVec 6) : (s.writeTlb i).countPhase = s.countPhase := rfl
@[simp] theorem writeTlb_randomHold (i : BitVec 6) : (s.writeTlb i).randomHold = s.randomHold := rfl
@[simp] theorem writeTlb_randomHeld (i : BitVec 6) : (s.writeTlb i).randomHeld = s.randomHeld := rfl

/-! ### `returnFromException` -/

@[simp] theorem returnFromException_gpr : (returnFromException s).gpr = s.gpr := rfl
@[simp] theorem returnFromException_pc : (returnFromException s).pc = s.cp0.epc := rfl
@[simp] theorem returnFromException_delay : (returnFromException s).delay = none := rfl
@[simp] theorem returnFromException_hi : (returnFromException s).hi = s.hi := rfl
@[simp] theorem returnFromException_lo : (returnFromException s).lo = s.lo := rfl
@[simp] theorem returnFromException_llbit : (returnFromException s).llbit = false := rfl
@[simp] theorem returnFromException_fpr : (returnFromException s).fpr = s.fpr := rfl
@[simp] theorem returnFromException_fcsr : (returnFromException s).fcsr = s.fcsr := rfl
@[simp] theorem returnFromException_tlb : (returnFromException s).tlb = s.tlb := rfl
@[simp] theorem returnFromException_tlbMask : (returnFromException s).tlbMask = s.tlbMask := rfl
@[simp] theorem returnFromException_itlb : (returnFromException s).itlb = s.itlb := rfl
@[simp] theorem returnFromException_icache : (returnFromException s).icache = s.icache := rfl
@[simp] theorem returnFromException_dcache : (returnFromException s).dcache = s.dcache := rfl
@[simp] theorem returnFromException_scache : (returnFromException s).scache = s.scache := rfl
@[simp] theorem returnFromException_timerPending : (returnFromException s).timerPending = s.timerPending := rfl
@[simp] theorem returnFromException_watchPostponed : (returnFromException s).watchPostponed = s.watchPostponed := rfl
@[simp] theorem returnFromException_nmiPending : (returnFromException s).nmiPending = s.nmiPending := rfl
@[simp] theorem returnFromException_softResetPending :
    (returnFromException s).softResetPending = s.softResetPending := rfl
@[simp] theorem returnFromException_coldResetPending :
    (returnFromException s).coldResetPending = s.coldResetPending := rfl
@[simp] theorem returnFromException_mem : (returnFromException s).mem = s.mem := rfl
@[simp] theorem returnFromException_windows : (returnFromException s).windows = s.windows := rfl
@[simp] theorem returnFromException_ddr : (returnFromException s).ddr = s.ddr := rfl
@[simp] theorem returnFromException_io : (returnFromException s).io = s.io := rfl
@[simp] theorem returnFromException_pins : (returnFromException s).pins = s.pins := rfl
@[simp] theorem returnFromException_cfg : (returnFromException s).cfg = s.cfg := rfl
@[simp] theorem returnFromException_inputs : (returnFromException s).inputs = s.inputs := rfl
@[simp] theorem returnFromException_draws : (returnFromException s).draws = s.draws := rfl
@[simp] theorem returnFromException_freeCount : (returnFromException s).freeCount = s.freeCount := rfl
@[simp] theorem returnFromException_countPhase : (returnFromException s).countPhase = s.countPhase := rfl
@[simp] theorem returnFromException_randomHold : (returnFromException s).randomHold = s.randomHold := rfl
@[simp] theorem returnFromException_randomHeld : (returnFromException s).randomHeld = s.randomHeld := rfl

/-! ### `enterReset` -/

@[simp] theorem enterReset_gpr : (enterReset s).gpr = s.gpr := rfl
@[simp] theorem enterReset_pc : (enterReset s).pc = Config.resetVector := rfl
@[simp] theorem enterReset_delay : (enterReset s).delay = none := rfl
@[simp] theorem enterReset_hi : (enterReset s).hi = s.hi := rfl
@[simp] theorem enterReset_lo : (enterReset s).lo = s.lo := rfl
@[simp] theorem enterReset_llbit : (enterReset s).llbit = s.llbit := rfl
@[simp] theorem enterReset_fpr : (enterReset s).fpr = s.fpr := rfl
@[simp] theorem enterReset_fcsr : (enterReset s).fcsr = s.fcsr := rfl
@[simp] theorem enterReset_tlb : (enterReset s).tlb = s.tlb := rfl
@[simp] theorem enterReset_tlbMask : (enterReset s).tlbMask = s.tlbMask := rfl
@[simp] theorem enterReset_itlb : (enterReset s).itlb = s.itlb := rfl
@[simp] theorem enterReset_icache : (enterReset s).icache = s.icache := rfl
@[simp] theorem enterReset_dcache : (enterReset s).dcache = s.dcache := rfl
@[simp] theorem enterReset_scache : (enterReset s).scache = s.scache := rfl
@[simp] theorem enterReset_timerPending : (enterReset s).timerPending = s.timerPending := rfl
@[simp] theorem enterReset_watchPostponed : (enterReset s).watchPostponed = s.watchPostponed := rfl
@[simp] theorem enterReset_nmiPending : (enterReset s).nmiPending = s.nmiPending := rfl
@[simp] theorem enterReset_softResetPending : (enterReset s).softResetPending = s.softResetPending := rfl
@[simp] theorem enterReset_coldResetPending : (enterReset s).coldResetPending = s.coldResetPending := rfl
@[simp] theorem enterReset_mem : (enterReset s).mem = s.mem := rfl
@[simp] theorem enterReset_windows : (enterReset s).windows = s.windows := rfl
@[simp] theorem enterReset_ddr : (enterReset s).ddr = s.ddr := rfl
@[simp] theorem enterReset_io : (enterReset s).io = s.io := rfl
@[simp] theorem enterReset_pins : (enterReset s).pins = s.pins := rfl
@[simp] theorem enterReset_cfg : (enterReset s).cfg = s.cfg := rfl
@[simp] theorem enterReset_inputs : (enterReset s).inputs = s.inputs := rfl
@[simp] theorem enterReset_draws : (enterReset s).draws = s.draws := rfl
@[simp] theorem enterReset_freeCount : (enterReset s).freeCount = s.freeCount := rfl
@[simp] theorem enterReset_countPhase : (enterReset s).countPhase = s.countPhase := rfl
@[simp] theorem enterReset_randomHold : (enterReset s).randomHold = (s.randomHold || s.randomHeld) := rfl
@[simp] theorem enterReset_randomHeld : (enterReset s).randomHeld = s.randomHeld := rfl

/-! ### `takeException` -/

@[simp] theorem takeException_gpr (e : Exc) : (takeException e s).gpr = s.gpr := rfl
@[simp] theorem takeException_delay (e : Exc) : (takeException e s).delay = none := rfl
@[simp] theorem takeException_hi (e : Exc) : (takeException e s).hi = s.hi := rfl
@[simp] theorem takeException_lo (e : Exc) : (takeException e s).lo = s.lo := rfl
@[simp] theorem takeException_llbit (e : Exc) : (takeException e s).llbit = s.llbit := rfl
@[simp] theorem takeException_fpr (e : Exc) : (takeException e s).fpr = s.fpr := rfl
@[simp] theorem takeException_fcsr (e : Exc) : (takeException e s).fcsr = s.fcsr := rfl
@[simp] theorem takeException_tlb (e : Exc) : (takeException e s).tlb = s.tlb := rfl
@[simp] theorem takeException_tlbMask (e : Exc) : (takeException e s).tlbMask = s.tlbMask := rfl
@[simp] theorem takeException_itlb (e : Exc) : (takeException e s).itlb = s.itlb := rfl
@[simp] theorem takeException_icache (e : Exc) : (takeException e s).icache = s.icache := rfl
@[simp] theorem takeException_dcache (e : Exc) : (takeException e s).dcache = s.dcache := rfl
@[simp] theorem takeException_scache (e : Exc) : (takeException e s).scache = s.scache := rfl
@[simp] theorem takeException_timerPending (e : Exc) : (takeException e s).timerPending = s.timerPending := rfl
@[simp] theorem takeException_watchPostponed (e : Exc) : (takeException e s).watchPostponed = s.watchPostponed := rfl
@[simp] theorem takeException_nmiPending (e : Exc) : (takeException e s).nmiPending = s.nmiPending := rfl
@[simp] theorem takeException_softResetPending (e : Exc) :
    (takeException e s).softResetPending = s.softResetPending := rfl
@[simp] theorem takeException_coldResetPending (e : Exc) :
    (takeException e s).coldResetPending = s.coldResetPending := rfl
@[simp] theorem takeException_mem (e : Exc) : (takeException e s).mem = s.mem := rfl
@[simp] theorem takeException_windows (e : Exc) : (takeException e s).windows = s.windows := rfl
@[simp] theorem takeException_ddr (e : Exc) : (takeException e s).ddr = s.ddr := rfl
@[simp] theorem takeException_io (e : Exc) : (takeException e s).io = s.io := rfl
@[simp] theorem takeException_pins (e : Exc) : (takeException e s).pins = s.pins := rfl
@[simp] theorem takeException_cfg (e : Exc) : (takeException e s).cfg = s.cfg := rfl
@[simp] theorem takeException_inputs (e : Exc) : (takeException e s).inputs = s.inputs := rfl
@[simp] theorem takeException_draws (e : Exc) : (takeException e s).draws = s.draws := rfl
@[simp] theorem takeException_freeCount (e : Exc) : (takeException e s).freeCount = s.freeCount := rfl
@[simp] theorem takeException_countPhase (e : Exc) : (takeException e s).countPhase = s.countPhase := rfl
@[simp] theorem takeException_randomHold (e : Exc) :
    (takeException e s).randomHold = (s.randomHold || s.randomHeld) := rfl
@[simp] theorem takeException_randomHeld (e : Exc) : (takeException e s).randomHeld = s.randomHeld := rfl

/-! ### `setPins` -/

@[simp] theorem setPins_gpr (p : BitVec 15) : (s.setPins p).gpr = s.gpr := rfl
@[simp] theorem setPins_pc (p : BitVec 15) : (s.setPins p).pc = s.pc := rfl
@[simp] theorem setPins_delay (p : BitVec 15) : (s.setPins p).delay = s.delay := rfl
@[simp] theorem setPins_hi (p : BitVec 15) : (s.setPins p).hi = s.hi := rfl
@[simp] theorem setPins_lo (p : BitVec 15) : (s.setPins p).lo = s.lo := rfl
@[simp] theorem setPins_llbit (p : BitVec 15) : (s.setPins p).llbit = s.llbit := rfl
@[simp] theorem setPins_fpr (p : BitVec 15) : (s.setPins p).fpr = s.fpr := rfl
@[simp] theorem setPins_fcsr (p : BitVec 15) : (s.setPins p).fcsr = s.fcsr := rfl
@[simp] theorem setPins_cp0 (p : BitVec 15) : (s.setPins p).cp0 = s.cp0 := rfl
@[simp] theorem setPins_tlb (p : BitVec 15) : (s.setPins p).tlb = s.tlb := rfl
@[simp] theorem setPins_tlbMask (p : BitVec 15) : (s.setPins p).tlbMask = s.tlbMask := rfl
@[simp] theorem setPins_itlb (p : BitVec 15) : (s.setPins p).itlb = s.itlb := rfl
@[simp] theorem setPins_icache (p : BitVec 15) : (s.setPins p).icache = s.icache := rfl
@[simp] theorem setPins_dcache (p : BitVec 15) : (s.setPins p).dcache = s.dcache := rfl
@[simp] theorem setPins_scache (p : BitVec 15) : (s.setPins p).scache = s.scache := rfl
@[simp] theorem setPins_timerPending (p : BitVec 15) : (s.setPins p).timerPending = s.timerPending := rfl
@[simp] theorem setPins_watchPostponed (p : BitVec 15) : (s.setPins p).watchPostponed = s.watchPostponed := rfl
@[simp] theorem setPins_nmiPending (p : BitVec 15) : (s.setPins p).nmiPending = s.nmiPending := rfl
@[simp] theorem setPins_softResetPending (p : BitVec 15) : (s.setPins p).softResetPending = s.softResetPending := rfl
@[simp] theorem setPins_coldResetPending (p : BitVec 15) : (s.setPins p).coldResetPending = s.coldResetPending := rfl
@[simp] theorem setPins_mem (p : BitVec 15) : (s.setPins p).mem = s.mem := rfl
@[simp] theorem setPins_windows (p : BitVec 15) : (s.setPins p).windows = s.windows := rfl
@[simp] theorem setPins_ddr (p : BitVec 15) : (s.setPins p).ddr = s.ddr := rfl
@[simp] theorem setPins_pins (p : BitVec 15) : (s.setPins p).pins = p := rfl
@[simp] theorem setPins_cfg (p : BitVec 15) : (s.setPins p).cfg = s.cfg := rfl
@[simp] theorem setPins_inputs (p : BitVec 15) : (s.setPins p).inputs = s.inputs := rfl
@[simp] theorem setPins_draws (p : BitVec 15) : (s.setPins p).draws = s.draws := rfl
@[simp] theorem setPins_freeCount (p : BitVec 15) : (s.setPins p).freeCount = s.freeCount := rfl
@[simp] theorem setPins_countPhase (p : BitVec 15) : (s.setPins p).countPhase = s.countPhase := rfl
@[simp] theorem setPins_randomHold (p : BitVec 15) : (s.setPins p).randomHold = s.randomHold := rfl
@[simp] theorem setPins_randomHeld (p : BitVec 15) : (s.setPins p).randomHeld = s.randomHeld := rfl

/-! ### `tickCount` -/

@[simp] theorem tickCount_gpr (n : Nat) : (s.tickCount n).gpr = s.gpr := rfl
@[simp] theorem tickCount_pc (n : Nat) : (s.tickCount n).pc = s.pc := rfl
@[simp] theorem tickCount_delay (n : Nat) : (s.tickCount n).delay = s.delay := rfl
@[simp] theorem tickCount_hi (n : Nat) : (s.tickCount n).hi = s.hi := rfl
@[simp] theorem tickCount_lo (n : Nat) : (s.tickCount n).lo = s.lo := rfl
@[simp] theorem tickCount_llbit (n : Nat) : (s.tickCount n).llbit = s.llbit := rfl
@[simp] theorem tickCount_fpr (n : Nat) : (s.tickCount n).fpr = s.fpr := rfl
@[simp] theorem tickCount_fcsr (n : Nat) : (s.tickCount n).fcsr = s.fcsr := rfl
@[simp] theorem tickCount_tlb (n : Nat) : (s.tickCount n).tlb = s.tlb := rfl
@[simp] theorem tickCount_tlbMask (n : Nat) : (s.tickCount n).tlbMask = s.tlbMask := rfl
@[simp] theorem tickCount_itlb (n : Nat) : (s.tickCount n).itlb = s.itlb := rfl
@[simp] theorem tickCount_icache (n : Nat) : (s.tickCount n).icache = s.icache := rfl
@[simp] theorem tickCount_dcache (n : Nat) : (s.tickCount n).dcache = s.dcache := rfl
@[simp] theorem tickCount_scache (n : Nat) : (s.tickCount n).scache = s.scache := rfl
@[simp] theorem tickCount_watchPostponed (n : Nat) : (s.tickCount n).watchPostponed = s.watchPostponed := rfl
@[simp] theorem tickCount_nmiPending (n : Nat) : (s.tickCount n).nmiPending = s.nmiPending := rfl
@[simp] theorem tickCount_softResetPending (n : Nat) : (s.tickCount n).softResetPending = s.softResetPending := rfl
@[simp] theorem tickCount_coldResetPending (n : Nat) : (s.tickCount n).coldResetPending = s.coldResetPending := rfl
@[simp] theorem tickCount_mem (n : Nat) : (s.tickCount n).mem = s.mem := rfl
@[simp] theorem tickCount_windows (n : Nat) : (s.tickCount n).windows = s.windows := rfl
@[simp] theorem tickCount_ddr (n : Nat) : (s.tickCount n).ddr = s.ddr := rfl
@[simp] theorem tickCount_io (n : Nat) : (s.tickCount n).io = s.io := rfl
@[simp] theorem tickCount_pins (n : Nat) : (s.tickCount n).pins = s.pins := rfl
@[simp] theorem tickCount_cfg (n : Nat) : (s.tickCount n).cfg = s.cfg := rfl
@[simp] theorem tickCount_inputs (n : Nat) : (s.tickCount n).inputs = s.inputs := rfl
@[simp] theorem tickCount_draws (n : Nat) : (s.tickCount n).draws = s.draws := rfl
@[simp] theorem tickCount_freeCount (n : Nat) : (s.tickCount n).freeCount = s.freeCount := rfl
@[simp] theorem tickCount_randomHold (n : Nat) : (s.tickCount n).randomHold = s.randomHold := rfl
@[simp] theorem tickCount_randomHeld (n : Nat) : (s.tickCount n).randomHeld = s.randomHeld := rfl

/-! ### `setR` -/

@[simp] theorem setR_pc (i : RegNum) (v : DWord) : (s.setR i v).pc = s.pc := by
  unfold State.setR; split <;> rfl
@[simp] theorem setR_delay (i : RegNum) (v : DWord) : (s.setR i v).delay = s.delay := by
  unfold State.setR; split <;> rfl
@[simp] theorem setR_hi (i : RegNum) (v : DWord) : (s.setR i v).hi = s.hi := by
  unfold State.setR; split <;> rfl
@[simp] theorem setR_lo (i : RegNum) (v : DWord) : (s.setR i v).lo = s.lo := by
  unfold State.setR; split <;> rfl
@[simp] theorem setR_llbit (i : RegNum) (v : DWord) : (s.setR i v).llbit = s.llbit := by
  unfold State.setR; split <;> rfl
@[simp] theorem setR_fpr (i : RegNum) (v : DWord) : (s.setR i v).fpr = s.fpr := by
  unfold State.setR; split <;> rfl
@[simp] theorem setR_fcsr (i : RegNum) (v : DWord) : (s.setR i v).fcsr = s.fcsr := by
  unfold State.setR; split <;> rfl
@[simp] theorem setR_cp0 (i : RegNum) (v : DWord) : (s.setR i v).cp0 = s.cp0 := by
  unfold State.setR; split <;> rfl
@[simp] theorem setR_tlb (i : RegNum) (v : DWord) : (s.setR i v).tlb = s.tlb := by
  unfold State.setR; split <;> rfl
@[simp] theorem setR_tlbMask (i : RegNum) (v : DWord) : (s.setR i v).tlbMask = s.tlbMask := by
  unfold State.setR; split <;> rfl
@[simp] theorem setR_itlb (i : RegNum) (v : DWord) : (s.setR i v).itlb = s.itlb := by
  unfold State.setR; split <;> rfl
@[simp] theorem setR_icache (i : RegNum) (v : DWord) : (s.setR i v).icache = s.icache := by
  unfold State.setR; split <;> rfl
@[simp] theorem setR_dcache (i : RegNum) (v : DWord) : (s.setR i v).dcache = s.dcache := by
  unfold State.setR; split <;> rfl
@[simp] theorem setR_scache (i : RegNum) (v : DWord) : (s.setR i v).scache = s.scache := by
  unfold State.setR; split <;> rfl
@[simp] theorem setR_timerPending (i : RegNum) (v : DWord) : (s.setR i v).timerPending = s.timerPending := by
  unfold State.setR; split <;> rfl
@[simp] theorem setR_watchPostponed (i : RegNum) (v : DWord) : (s.setR i v).watchPostponed = s.watchPostponed := by
  unfold State.setR; split <;> rfl
@[simp] theorem setR_nmiPending (i : RegNum) (v : DWord) : (s.setR i v).nmiPending = s.nmiPending := by
  unfold State.setR; split <;> rfl
@[simp] theorem setR_softResetPending (i : RegNum) (v : DWord) :
    (s.setR i v).softResetPending = s.softResetPending := by
  unfold State.setR; split <;> rfl
@[simp] theorem setR_coldResetPending (i : RegNum) (v : DWord) :
    (s.setR i v).coldResetPending = s.coldResetPending := by
  unfold State.setR; split <;> rfl
@[simp] theorem setR_mem (i : RegNum) (v : DWord) : (s.setR i v).mem = s.mem := by
  unfold State.setR; split <;> rfl
@[simp] theorem setR_windows (i : RegNum) (v : DWord) : (s.setR i v).windows = s.windows := by
  unfold State.setR; split <;> rfl
@[simp] theorem setR_ddr (i : RegNum) (v : DWord) : (s.setR i v).ddr = s.ddr := by
  unfold State.setR; split <;> rfl
@[simp] theorem setR_io (i : RegNum) (v : DWord) : (s.setR i v).io = s.io := by
  unfold State.setR; split <;> rfl
@[simp] theorem setR_pins (i : RegNum) (v : DWord) : (s.setR i v).pins = s.pins := by
  unfold State.setR; split <;> rfl
@[simp] theorem setR_cfg (i : RegNum) (v : DWord) : (s.setR i v).cfg = s.cfg := by
  unfold State.setR; split <;> rfl
@[simp] theorem setR_inputs (i : RegNum) (v : DWord) : (s.setR i v).inputs = s.inputs := by
  unfold State.setR; split <;> rfl
@[simp] theorem setR_draws (i : RegNum) (v : DWord) : (s.setR i v).draws = s.draws := by
  unfold State.setR; split <;> rfl
@[simp] theorem setR_freeCount (i : RegNum) (v : DWord) : (s.setR i v).freeCount = s.freeCount := by
  unfold State.setR; split <;> rfl
@[simp] theorem setR_countPhase (i : RegNum) (v : DWord) : (s.setR i v).countPhase = s.countPhase := by
  unfold State.setR; split <;> rfl
@[simp] theorem setR_randomHold (i : RegNum) (v : DWord) : (s.setR i v).randomHold = s.randomHold := by
  unfold State.setR; split <;> rfl
@[simp] theorem setR_randomHeld (i : RegNum) (v : DWord) : (s.setR i v).randomHeld = s.randomHeld := by
  unfold State.setR; split <;> rfl

/-! ### `setF64` -/

@[simp] theorem setF64_gpr (n : RegNum) (v : DWord) : (s.setF64 n v).gpr = s.gpr := by
  unfold State.setF64; split <;> rfl
@[simp] theorem setF64_pc (n : RegNum) (v : DWord) : (s.setF64 n v).pc = s.pc := by
  unfold State.setF64; split <;> rfl
@[simp] theorem setF64_delay (n : RegNum) (v : DWord) : (s.setF64 n v).delay = s.delay := by
  unfold State.setF64; split <;> rfl
@[simp] theorem setF64_hi (n : RegNum) (v : DWord) : (s.setF64 n v).hi = s.hi := by
  unfold State.setF64; split <;> rfl
@[simp] theorem setF64_lo (n : RegNum) (v : DWord) : (s.setF64 n v).lo = s.lo := by
  unfold State.setF64; split <;> rfl
@[simp] theorem setF64_llbit (n : RegNum) (v : DWord) : (s.setF64 n v).llbit = s.llbit := by
  unfold State.setF64; split <;> rfl
@[simp] theorem setF64_fcsr (n : RegNum) (v : DWord) : (s.setF64 n v).fcsr = s.fcsr := by
  unfold State.setF64; split <;> rfl
@[simp] theorem setF64_cp0 (n : RegNum) (v : DWord) : (s.setF64 n v).cp0 = s.cp0 := by
  unfold State.setF64; split <;> rfl
@[simp] theorem setF64_tlb (n : RegNum) (v : DWord) : (s.setF64 n v).tlb = s.tlb := by
  unfold State.setF64; split <;> rfl
@[simp] theorem setF64_tlbMask (n : RegNum) (v : DWord) : (s.setF64 n v).tlbMask = s.tlbMask := by
  unfold State.setF64; split <;> rfl
@[simp] theorem setF64_itlb (n : RegNum) (v : DWord) : (s.setF64 n v).itlb = s.itlb := by
  unfold State.setF64; split <;> rfl
@[simp] theorem setF64_icache (n : RegNum) (v : DWord) : (s.setF64 n v).icache = s.icache := by
  unfold State.setF64; split <;> rfl
@[simp] theorem setF64_dcache (n : RegNum) (v : DWord) : (s.setF64 n v).dcache = s.dcache := by
  unfold State.setF64; split <;> rfl
@[simp] theorem setF64_scache (n : RegNum) (v : DWord) : (s.setF64 n v).scache = s.scache := by
  unfold State.setF64; split <;> rfl
@[simp] theorem setF64_timerPending (n : RegNum) (v : DWord) : (s.setF64 n v).timerPending = s.timerPending := by
  unfold State.setF64; split <;> rfl
@[simp] theorem setF64_watchPostponed (n : RegNum) (v : DWord) :
    (s.setF64 n v).watchPostponed = s.watchPostponed := by
  unfold State.setF64; split <;> rfl
@[simp] theorem setF64_nmiPending (n : RegNum) (v : DWord) : (s.setF64 n v).nmiPending = s.nmiPending := by
  unfold State.setF64; split <;> rfl
@[simp] theorem setF64_softResetPending (n : RegNum) (v : DWord) :
    (s.setF64 n v).softResetPending = s.softResetPending := by
  unfold State.setF64; split <;> rfl
@[simp] theorem setF64_coldResetPending (n : RegNum) (v : DWord) :
    (s.setF64 n v).coldResetPending = s.coldResetPending := by
  unfold State.setF64; split <;> rfl
@[simp] theorem setF64_mem (n : RegNum) (v : DWord) : (s.setF64 n v).mem = s.mem := by
  unfold State.setF64; split <;> rfl
@[simp] theorem setF64_windows (n : RegNum) (v : DWord) : (s.setF64 n v).windows = s.windows := by
  unfold State.setF64; split <;> rfl
@[simp] theorem setF64_ddr (n : RegNum) (v : DWord) : (s.setF64 n v).ddr = s.ddr := by
  unfold State.setF64; split <;> rfl
@[simp] theorem setF64_io (n : RegNum) (v : DWord) : (s.setF64 n v).io = s.io := by
  unfold State.setF64; split <;> rfl
@[simp] theorem setF64_pins (n : RegNum) (v : DWord) : (s.setF64 n v).pins = s.pins := by
  unfold State.setF64; split <;> rfl
@[simp] theorem setF64_cfg (n : RegNum) (v : DWord) : (s.setF64 n v).cfg = s.cfg := by
  unfold State.setF64; split <;> rfl
@[simp] theorem setF64_inputs (n : RegNum) (v : DWord) : (s.setF64 n v).inputs = s.inputs := by
  unfold State.setF64; split <;> rfl
@[simp] theorem setF64_draws (n : RegNum) (v : DWord) : (s.setF64 n v).draws = s.draws := by
  unfold State.setF64; split <;> rfl
@[simp] theorem setF64_freeCount (n : RegNum) (v : DWord) : (s.setF64 n v).freeCount = s.freeCount := by
  unfold State.setF64; split <;> rfl
@[simp] theorem setF64_countPhase (n : RegNum) (v : DWord) : (s.setF64 n v).countPhase = s.countPhase := by
  unfold State.setF64; split <;> rfl
@[simp] theorem setF64_randomHold (n : RegNum) (v : DWord) : (s.setF64 n v).randomHold = s.randomHold := by
  unfold State.setF64; split <;> rfl
@[simp] theorem setF64_randomHeld (n : RegNum) (v : DWord) : (s.setF64 n v).randomHeld = s.randomHeld := by
  unfold State.setF64; split <;> rfl

/-! ### `free` -/

@[simp] theorem free_gpr : (s.free.2).gpr = s.gpr := by
  unfold State.free; split <;> rfl
@[simp] theorem free_pc : (s.free.2).pc = s.pc := by
  unfold State.free; split <;> rfl
@[simp] theorem free_delay : (s.free.2).delay = s.delay := by
  unfold State.free; split <;> rfl
@[simp] theorem free_hi : (s.free.2).hi = s.hi := by
  unfold State.free; split <;> rfl
@[simp] theorem free_lo : (s.free.2).lo = s.lo := by
  unfold State.free; split <;> rfl
@[simp] theorem free_llbit : (s.free.2).llbit = s.llbit := by
  unfold State.free; split <;> rfl
@[simp] theorem free_fpr : (s.free.2).fpr = s.fpr := by
  unfold State.free; split <;> rfl
@[simp] theorem free_fcsr : (s.free.2).fcsr = s.fcsr := by
  unfold State.free; split <;> rfl
@[simp] theorem free_cp0 : (s.free.2).cp0 = s.cp0 := by
  unfold State.free; split <;> rfl
@[simp] theorem free_tlb : (s.free.2).tlb = s.tlb := by
  unfold State.free; split <;> rfl
@[simp] theorem free_tlbMask : (s.free.2).tlbMask = s.tlbMask := by
  unfold State.free; split <;> rfl
@[simp] theorem free_itlb : (s.free.2).itlb = s.itlb := by
  unfold State.free; split <;> rfl
@[simp] theorem free_icache : (s.free.2).icache = s.icache := by
  unfold State.free; split <;> rfl
@[simp] theorem free_dcache : (s.free.2).dcache = s.dcache := by
  unfold State.free; split <;> rfl
@[simp] theorem free_scache : (s.free.2).scache = s.scache := by
  unfold State.free; split <;> rfl
@[simp] theorem free_timerPending : (s.free.2).timerPending = s.timerPending := by
  unfold State.free; split <;> rfl
@[simp] theorem free_watchPostponed : (s.free.2).watchPostponed = s.watchPostponed := by
  unfold State.free; split <;> rfl
@[simp] theorem free_nmiPending : (s.free.2).nmiPending = s.nmiPending := by
  unfold State.free; split <;> rfl
@[simp] theorem free_softResetPending : (s.free.2).softResetPending = s.softResetPending := by
  unfold State.free; split <;> rfl
@[simp] theorem free_coldResetPending : (s.free.2).coldResetPending = s.coldResetPending := by
  unfold State.free; split <;> rfl
@[simp] theorem free_mem : (s.free.2).mem = s.mem := by
  unfold State.free; split <;> rfl
@[simp] theorem free_windows : (s.free.2).windows = s.windows := by
  unfold State.free; split <;> rfl
@[simp] theorem free_ddr : (s.free.2).ddr = s.ddr := by
  unfold State.free; split <;> rfl
@[simp] theorem free_io : (s.free.2).io = s.io := by
  unfold State.free; split <;> rfl
@[simp] theorem free_pins : (s.free.2).pins = s.pins := by
  unfold State.free; split <;> rfl
@[simp] theorem free_cfg : (s.free.2).cfg = s.cfg := by
  unfold State.free; split <;> rfl
@[simp] theorem free_inputs : (s.free.2).inputs = s.inputs := by
  unfold State.free; split <;> rfl
@[simp] theorem free_countPhase : (s.free.2).countPhase = s.countPhase := by
  unfold State.free; split <;> rfl
@[simp] theorem free_randomHold : (s.free.2).randomHold = s.randomHold := by
  unfold State.free; split <;> rfl
@[simp] theorem free_randomHeld : (s.free.2).randomHeld = s.randomHeld := by
  unfold State.free; split <;> rfl

/-! ### `postponeWatch` -/

@[simp] theorem postponeWatch_gpr (b : Bool) : (s.postponeWatch b).gpr = s.gpr := by
  cases b <;> simp [State.postponeWatch]
@[simp] theorem postponeWatch_pc (b : Bool) : (s.postponeWatch b).pc = s.pc := by
  cases b <;> simp [State.postponeWatch]
@[simp] theorem postponeWatch_delay (b : Bool) : (s.postponeWatch b).delay = s.delay := by
  cases b <;> simp [State.postponeWatch]
@[simp] theorem postponeWatch_hi (b : Bool) : (s.postponeWatch b).hi = s.hi := by
  cases b <;> simp [State.postponeWatch]
@[simp] theorem postponeWatch_lo (b : Bool) : (s.postponeWatch b).lo = s.lo := by
  cases b <;> simp [State.postponeWatch]
@[simp] theorem postponeWatch_llbit (b : Bool) : (s.postponeWatch b).llbit = s.llbit := by
  cases b <;> simp [State.postponeWatch]
@[simp] theorem postponeWatch_fpr (b : Bool) : (s.postponeWatch b).fpr = s.fpr := by
  cases b <;> simp [State.postponeWatch]
@[simp] theorem postponeWatch_fcsr (b : Bool) : (s.postponeWatch b).fcsr = s.fcsr := by
  cases b <;> simp [State.postponeWatch]
@[simp] theorem postponeWatch_cp0 (b : Bool) : (s.postponeWatch b).cp0 = s.cp0 := by
  cases b <;> simp [State.postponeWatch]
@[simp] theorem postponeWatch_tlb (b : Bool) : (s.postponeWatch b).tlb = s.tlb := by
  cases b <;> simp [State.postponeWatch]
@[simp] theorem postponeWatch_tlbMask (b : Bool) : (s.postponeWatch b).tlbMask = s.tlbMask := by
  cases b <;> simp [State.postponeWatch]
@[simp] theorem postponeWatch_itlb (b : Bool) : (s.postponeWatch b).itlb = s.itlb := by
  cases b <;> simp [State.postponeWatch]
@[simp] theorem postponeWatch_icache (b : Bool) : (s.postponeWatch b).icache = s.icache := by
  cases b <;> simp [State.postponeWatch]
@[simp] theorem postponeWatch_dcache (b : Bool) : (s.postponeWatch b).dcache = s.dcache := by
  cases b <;> simp [State.postponeWatch]
@[simp] theorem postponeWatch_scache (b : Bool) : (s.postponeWatch b).scache = s.scache := by
  cases b <;> simp [State.postponeWatch]
@[simp] theorem postponeWatch_timerPending (b : Bool) : (s.postponeWatch b).timerPending = s.timerPending := by
  cases b <;> simp [State.postponeWatch]
@[simp] theorem postponeWatch_watchPostponed (b : Bool) :
    (s.postponeWatch b).watchPostponed = s.watchPostponed || b := by
  cases b <;> simp [State.postponeWatch]
@[simp] theorem postponeWatch_nmiPending (b : Bool) : (s.postponeWatch b).nmiPending = s.nmiPending := by
  cases b <;> simp [State.postponeWatch]
@[simp] theorem postponeWatch_softResetPending (b : Bool) :
    (s.postponeWatch b).softResetPending = s.softResetPending := by
  cases b <;> simp [State.postponeWatch]
@[simp] theorem postponeWatch_coldResetPending (b : Bool) :
    (s.postponeWatch b).coldResetPending = s.coldResetPending := by
  cases b <;> simp [State.postponeWatch]
@[simp] theorem postponeWatch_mem (b : Bool) : (s.postponeWatch b).mem = s.mem := by
  cases b <;> simp [State.postponeWatch]
@[simp] theorem postponeWatch_windows (b : Bool) : (s.postponeWatch b).windows = s.windows := by
  cases b <;> simp [State.postponeWatch]
@[simp] theorem postponeWatch_ddr (b : Bool) : (s.postponeWatch b).ddr = s.ddr := by
  cases b <;> simp [State.postponeWatch]
@[simp] theorem postponeWatch_io (b : Bool) : (s.postponeWatch b).io = s.io := by
  cases b <;> simp [State.postponeWatch]
@[simp] theorem postponeWatch_pins (b : Bool) : (s.postponeWatch b).pins = s.pins := by
  cases b <;> simp [State.postponeWatch]
@[simp] theorem postponeWatch_cfg (b : Bool) : (s.postponeWatch b).cfg = s.cfg := by
  cases b <;> simp [State.postponeWatch]
@[simp] theorem postponeWatch_inputs (b : Bool) : (s.postponeWatch b).inputs = s.inputs := by
  cases b <;> simp [State.postponeWatch]
@[simp] theorem postponeWatch_draws (b : Bool) : (s.postponeWatch b).draws = s.draws := by
  cases b <;> simp [State.postponeWatch]
@[simp] theorem postponeWatch_freeCount (b : Bool) : (s.postponeWatch b).freeCount = s.freeCount := by
  cases b <;> simp [State.postponeWatch]
@[simp] theorem postponeWatch_countPhase (b : Bool) : (s.postponeWatch b).countPhase = s.countPhase := by
  cases b <;> simp [State.postponeWatch]
@[simp] theorem postponeWatch_randomHold (b : Bool) : (s.postponeWatch b).randomHold = s.randomHold := by
  cases b <;> simp [State.postponeWatch]
@[simp] theorem postponeWatch_randomHeld (b : Bool) : (s.postponeWatch b).randomHeld = s.randomHeld := by
  cases b <;> simp [State.postponeWatch]

/-! ### `tickRandom` -/

@[simp] theorem tickRandom_gpr (c : Option (BitVec 6)) : (s.tickRandom c).gpr = s.gpr := by
  unfold State.tickRandom; split <;> simp_all
@[simp] theorem tickRandom_pc (c : Option (BitVec 6)) : (s.tickRandom c).pc = s.pc := by
  unfold State.tickRandom; split <;> simp_all
@[simp] theorem tickRandom_delay (c : Option (BitVec 6)) : (s.tickRandom c).delay = s.delay := by
  unfold State.tickRandom; split <;> simp_all
@[simp] theorem tickRandom_hi (c : Option (BitVec 6)) : (s.tickRandom c).hi = s.hi := by
  unfold State.tickRandom; split <;> simp_all
@[simp] theorem tickRandom_lo (c : Option (BitVec 6)) : (s.tickRandom c).lo = s.lo := by
  unfold State.tickRandom; split <;> simp_all
@[simp] theorem tickRandom_llbit (c : Option (BitVec 6)) : (s.tickRandom c).llbit = s.llbit := by
  unfold State.tickRandom; split <;> simp_all
@[simp] theorem tickRandom_fpr (c : Option (BitVec 6)) : (s.tickRandom c).fpr = s.fpr := by
  unfold State.tickRandom; split <;> simp_all
@[simp] theorem tickRandom_fcsr (c : Option (BitVec 6)) : (s.tickRandom c).fcsr = s.fcsr := by
  unfold State.tickRandom; split <;> simp_all
@[simp] theorem tickRandom_tlb (c : Option (BitVec 6)) : (s.tickRandom c).tlb = s.tlb := by
  unfold State.tickRandom; split <;> simp_all
@[simp] theorem tickRandom_tlbMask (c : Option (BitVec 6)) : (s.tickRandom c).tlbMask = s.tlbMask := by
  unfold State.tickRandom; split <;> simp_all
@[simp] theorem tickRandom_itlb (c : Option (BitVec 6)) : (s.tickRandom c).itlb = s.itlb := by
  unfold State.tickRandom; split <;> simp_all
@[simp] theorem tickRandom_icache (c : Option (BitVec 6)) : (s.tickRandom c).icache = s.icache := by
  unfold State.tickRandom; split <;> simp_all
@[simp] theorem tickRandom_dcache (c : Option (BitVec 6)) : (s.tickRandom c).dcache = s.dcache := by
  unfold State.tickRandom; split <;> simp_all
@[simp] theorem tickRandom_scache (c : Option (BitVec 6)) : (s.tickRandom c).scache = s.scache := by
  unfold State.tickRandom; split <;> simp_all
@[simp] theorem tickRandom_timerPending (c : Option (BitVec 6)) : (s.tickRandom c).timerPending = s.timerPending := by
  unfold State.tickRandom; split <;> simp_all
@[simp] theorem tickRandom_watchPostponed (c : Option (BitVec 6)) :
    (s.tickRandom c).watchPostponed = s.watchPostponed := by
  unfold State.tickRandom; split <;> simp_all
@[simp] theorem tickRandom_nmiPending (c : Option (BitVec 6)) : (s.tickRandom c).nmiPending = s.nmiPending := by
  unfold State.tickRandom; split <;> simp_all
@[simp] theorem tickRandom_softResetPending (c : Option (BitVec 6)) :
    (s.tickRandom c).softResetPending = s.softResetPending := by
  unfold State.tickRandom; split <;> simp_all
@[simp] theorem tickRandom_coldResetPending (c : Option (BitVec 6)) :
    (s.tickRandom c).coldResetPending = s.coldResetPending := by
  unfold State.tickRandom; split <;> simp_all
@[simp] theorem tickRandom_mem (c : Option (BitVec 6)) : (s.tickRandom c).mem = s.mem := by
  unfold State.tickRandom; split <;> simp_all
@[simp] theorem tickRandom_windows (c : Option (BitVec 6)) : (s.tickRandom c).windows = s.windows := by
  unfold State.tickRandom; split <;> simp_all
@[simp] theorem tickRandom_ddr (c : Option (BitVec 6)) : (s.tickRandom c).ddr = s.ddr := by
  unfold State.tickRandom; split <;> simp_all
@[simp] theorem tickRandom_io (c : Option (BitVec 6)) : (s.tickRandom c).io = s.io := by
  unfold State.tickRandom; split <;> simp_all
@[simp] theorem tickRandom_pins (c : Option (BitVec 6)) : (s.tickRandom c).pins = s.pins := by
  unfold State.tickRandom; split <;> simp_all
@[simp] theorem tickRandom_cfg (c : Option (BitVec 6)) : (s.tickRandom c).cfg = s.cfg := by
  unfold State.tickRandom; split <;> simp_all
@[simp] theorem tickRandom_inputs (c : Option (BitVec 6)) : (s.tickRandom c).inputs = s.inputs := by
  unfold State.tickRandom; split <;> simp_all
@[simp] theorem tickRandom_draws (c : Option (BitVec 6)) : (s.tickRandom c).draws = s.draws := by
  unfold State.tickRandom; split <;> simp_all
@[simp] theorem tickRandom_freeCount (c : Option (BitVec 6)) : (s.tickRandom c).freeCount = s.freeCount := by
  unfold State.tickRandom; split <;> simp_all
@[simp] theorem tickRandom_countPhase (c : Option (BitVec 6)) : (s.tickRandom c).countPhase = s.countPhase := by
  unfold State.tickRandom; split <;> simp_all
@[simp] theorem tickRandom_randomHold (c : Option (BitVec 6)) : (s.tickRandom c).randomHold = false := by
  unfold State.tickRandom; split <;> simp_all
@[simp] theorem tickRandom_randomHeld (c : Option (BitVec 6)) : (s.tickRandom c).randomHeld = s.randomHold := by
  unfold State.tickRandom; split <;> simp_all

/-! ### `tickPerf` -/

@[simp] theorem tickPerf_gpr (i : Input) : (s.tickPerf i).gpr = s.gpr := by
  unfold State.tickPerf; split <;> rfl
@[simp] theorem tickPerf_pc (i : Input) : (s.tickPerf i).pc = s.pc := by
  unfold State.tickPerf; split <;> rfl
@[simp] theorem tickPerf_delay (i : Input) : (s.tickPerf i).delay = s.delay := by
  unfold State.tickPerf; split <;> rfl
@[simp] theorem tickPerf_hi (i : Input) : (s.tickPerf i).hi = s.hi := by
  unfold State.tickPerf; split <;> rfl
@[simp] theorem tickPerf_lo (i : Input) : (s.tickPerf i).lo = s.lo := by
  unfold State.tickPerf; split <;> rfl
@[simp] theorem tickPerf_llbit (i : Input) : (s.tickPerf i).llbit = s.llbit := by
  unfold State.tickPerf; split <;> rfl
@[simp] theorem tickPerf_fpr (i : Input) : (s.tickPerf i).fpr = s.fpr := by
  unfold State.tickPerf; split <;> rfl
@[simp] theorem tickPerf_fcsr (i : Input) : (s.tickPerf i).fcsr = s.fcsr := by
  unfold State.tickPerf; split <;> rfl
@[simp] theorem tickPerf_tlb (i : Input) : (s.tickPerf i).tlb = s.tlb := by
  unfold State.tickPerf; split <;> rfl
@[simp] theorem tickPerf_tlbMask (i : Input) : (s.tickPerf i).tlbMask = s.tlbMask := by
  unfold State.tickPerf; split <;> rfl
@[simp] theorem tickPerf_itlb (i : Input) : (s.tickPerf i).itlb = s.itlb := by
  unfold State.tickPerf; split <;> rfl
@[simp] theorem tickPerf_icache (i : Input) : (s.tickPerf i).icache = s.icache := by
  unfold State.tickPerf; split <;> rfl
@[simp] theorem tickPerf_dcache (i : Input) : (s.tickPerf i).dcache = s.dcache := by
  unfold State.tickPerf; split <;> rfl
@[simp] theorem tickPerf_scache (i : Input) : (s.tickPerf i).scache = s.scache := by
  unfold State.tickPerf; split <;> rfl
@[simp] theorem tickPerf_timerPending (i : Input) : (s.tickPerf i).timerPending = s.timerPending := by
  unfold State.tickPerf; split <;> rfl
@[simp] theorem tickPerf_watchPostponed (i : Input) : (s.tickPerf i).watchPostponed = s.watchPostponed := by
  unfold State.tickPerf; split <;> rfl
@[simp] theorem tickPerf_nmiPending (i : Input) : (s.tickPerf i).nmiPending = s.nmiPending := by
  unfold State.tickPerf; split <;> rfl
@[simp] theorem tickPerf_softResetPending (i : Input) : (s.tickPerf i).softResetPending = s.softResetPending := by
  unfold State.tickPerf; split <;> rfl
@[simp] theorem tickPerf_coldResetPending (i : Input) : (s.tickPerf i).coldResetPending = s.coldResetPending := by
  unfold State.tickPerf; split <;> rfl
@[simp] theorem tickPerf_mem (i : Input) : (s.tickPerf i).mem = s.mem := by
  unfold State.tickPerf; split <;> rfl
@[simp] theorem tickPerf_windows (i : Input) : (s.tickPerf i).windows = s.windows := by
  unfold State.tickPerf; split <;> rfl
@[simp] theorem tickPerf_ddr (i : Input) : (s.tickPerf i).ddr = s.ddr := by
  unfold State.tickPerf; split <;> rfl
@[simp] theorem tickPerf_io (i : Input) : (s.tickPerf i).io = s.io := by
  unfold State.tickPerf; split <;> rfl
@[simp] theorem tickPerf_pins (i : Input) : (s.tickPerf i).pins = s.pins := by
  unfold State.tickPerf; split <;> rfl
@[simp] theorem tickPerf_cfg (i : Input) : (s.tickPerf i).cfg = s.cfg := by
  unfold State.tickPerf; split <;> rfl
@[simp] theorem tickPerf_inputs (i : Input) : (s.tickPerf i).inputs = s.inputs := by
  unfold State.tickPerf; split <;> rfl
@[simp] theorem tickPerf_draws (i : Input) : (s.tickPerf i).draws = s.draws := by
  unfold State.tickPerf; split <;> rfl
@[simp] theorem tickPerf_freeCount (i : Input) : (s.tickPerf i).freeCount = s.freeCount := by
  unfold State.tickPerf; split <;> rfl
@[simp] theorem tickPerf_countPhase (i : Input) : (s.tickPerf i).countPhase = s.countPhase := by
  unfold State.tickPerf; split <;> rfl
@[simp] theorem tickPerf_randomHold (i : Input) : (s.tickPerf i).randomHold = s.randomHold := by
  unfold State.tickPerf; split <;> rfl
@[simp] theorem tickPerf_randomHeld (i : Input) : (s.tickPerf i).randomHeld = s.randomHeld := by
  unfold State.tickPerf; split <;> rfl

/-! ### `pciStore` -/

/-- A store changes memory and the device registers alone, whatever takes it. -/
theorem targetWrite_frame {s t : State} {u : Unit} {T : Target} {off n : Nat} {v : DWord}
    (h : s.targetWrite T off n v = .val u t) :
    t = { s with mem := t.mem, windows := t.windows, ddr := t.ddr, io := t.io } := by
  have regs : ∀ i, s.regWrite i off n v = { s with
      mem := (s.regWrite i off n v).mem, windows := (s.regWrite i off n v).windows,
      ddr := (s.regWrite i off n v).ddr, io := (s.regWrite i off n v).io } := by
    intro i; unfold State.regWrite; split
    · rfl
    · split <;> rfl
  unfold State.targetWrite at h
  split at h <;> (try split at h) <;> cases h <;> first | rfl | exact regs _

/-- So does the store of a PCI master. -/
theorem pciStore_frame (w : PciStore) : s.pciStore w = { s with
    mem := (s.pciStore w).mem, windows := (s.pciStore w).windows, ddr := (s.pciStore w).ddr,
    io := (s.pciStore w).io } := by
  unfold State.pciStore
  split
  · split
    · next h => exact targetWrite_frame h
    · rfl
  · rfl

@[simp] theorem pciStore_gpr (w : PciStore) : (s.pciStore w).gpr = s.gpr := by
  rw [pciStore_frame]
@[simp] theorem pciStore_pc (w : PciStore) : (s.pciStore w).pc = s.pc := by
  rw [pciStore_frame]
@[simp] theorem pciStore_delay (w : PciStore) : (s.pciStore w).delay = s.delay := by
  rw [pciStore_frame]
@[simp] theorem pciStore_hi (w : PciStore) : (s.pciStore w).hi = s.hi := by
  rw [pciStore_frame]
@[simp] theorem pciStore_lo (w : PciStore) : (s.pciStore w).lo = s.lo := by
  rw [pciStore_frame]
@[simp] theorem pciStore_llbit (w : PciStore) : (s.pciStore w).llbit = s.llbit := by
  rw [pciStore_frame]
@[simp] theorem pciStore_fpr (w : PciStore) : (s.pciStore w).fpr = s.fpr := by
  rw [pciStore_frame]
@[simp] theorem pciStore_fcsr (w : PciStore) : (s.pciStore w).fcsr = s.fcsr := by
  rw [pciStore_frame]
@[simp] theorem pciStore_cp0 (w : PciStore) : (s.pciStore w).cp0 = s.cp0 := by
  rw [pciStore_frame]
@[simp] theorem pciStore_tlb (w : PciStore) : (s.pciStore w).tlb = s.tlb := by
  rw [pciStore_frame]
@[simp] theorem pciStore_tlbMask (w : PciStore) : (s.pciStore w).tlbMask = s.tlbMask := by
  rw [pciStore_frame]
@[simp] theorem pciStore_itlb (w : PciStore) : (s.pciStore w).itlb = s.itlb := by
  rw [pciStore_frame]
@[simp] theorem pciStore_icache (w : PciStore) : (s.pciStore w).icache = s.icache := by
  rw [pciStore_frame]
@[simp] theorem pciStore_dcache (w : PciStore) : (s.pciStore w).dcache = s.dcache := by
  rw [pciStore_frame]
@[simp] theorem pciStore_scache (w : PciStore) : (s.pciStore w).scache = s.scache := by
  rw [pciStore_frame]
@[simp] theorem pciStore_timerPending (w : PciStore) : (s.pciStore w).timerPending = s.timerPending := by
  rw [pciStore_frame]
@[simp] theorem pciStore_watchPostponed (w : PciStore) : (s.pciStore w).watchPostponed = s.watchPostponed := by
  rw [pciStore_frame]
@[simp] theorem pciStore_nmiPending (w : PciStore) : (s.pciStore w).nmiPending = s.nmiPending := by
  rw [pciStore_frame]
@[simp] theorem pciStore_softResetPending (w : PciStore) : (s.pciStore w).softResetPending = s.softResetPending := by
  rw [pciStore_frame]
@[simp] theorem pciStore_coldResetPending (w : PciStore) : (s.pciStore w).coldResetPending = s.coldResetPending := by
  rw [pciStore_frame]
@[simp] theorem pciStore_pins (w : PciStore) : (s.pciStore w).pins = s.pins := by
  rw [pciStore_frame]
@[simp] theorem pciStore_cfg (w : PciStore) : (s.pciStore w).cfg = s.cfg := by
  rw [pciStore_frame]
@[simp] theorem pciStore_inputs (w : PciStore) : (s.pciStore w).inputs = s.inputs := by
  rw [pciStore_frame]
@[simp] theorem pciStore_draws (w : PciStore) : (s.pciStore w).draws = s.draws := by
  rw [pciStore_frame]
@[simp] theorem pciStore_freeCount (w : PciStore) : (s.pciStore w).freeCount = s.freeCount := by
  rw [pciStore_frame]
@[simp] theorem pciStore_countPhase (w : PciStore) : (s.pciStore w).countPhase = s.countPhase := by
  rw [pciStore_frame]
@[simp] theorem pciStore_randomHold (w : PciStore) : (s.pciStore w).randomHold = s.randomHold := by
  rw [pciStore_frame]
@[simp] theorem pciStore_randomHeld (w : PciStore) : (s.pciStore w).randomHeld = s.randomHeld := by
  rw [pciStore_frame]

/-! ### `latchInput` -/

@[simp] theorem latchInput_gpr (i : Input) : (s.latchInput i).gpr = s.gpr := by
  unfold State.latchInput; split <;> rfl
@[simp] theorem latchInput_pc (i : Input) : (s.latchInput i).pc = s.pc := by
  unfold State.latchInput; split <;> rfl
@[simp] theorem latchInput_delay (i : Input) : (s.latchInput i).delay = s.delay := by
  unfold State.latchInput; split <;> rfl
@[simp] theorem latchInput_hi (i : Input) : (s.latchInput i).hi = s.hi := by
  unfold State.latchInput; split <;> rfl
@[simp] theorem latchInput_lo (i : Input) : (s.latchInput i).lo = s.lo := by
  unfold State.latchInput; split <;> rfl
@[simp] theorem latchInput_llbit (i : Input) : (s.latchInput i).llbit = s.llbit := by
  unfold State.latchInput; split <;> rfl
@[simp] theorem latchInput_fpr (i : Input) : (s.latchInput i).fpr = s.fpr := by
  unfold State.latchInput; split <;> rfl
@[simp] theorem latchInput_fcsr (i : Input) : (s.latchInput i).fcsr = s.fcsr := by
  unfold State.latchInput; split <;> rfl
@[simp] theorem latchInput_cp0 (i : Input) : (s.latchInput i).cp0 = s.cp0 := by
  unfold State.latchInput; split <;> rfl
@[simp] theorem latchInput_tlb (i : Input) : (s.latchInput i).tlb = s.tlb := by
  unfold State.latchInput; split <;> rfl
@[simp] theorem latchInput_tlbMask (i : Input) : (s.latchInput i).tlbMask = s.tlbMask := by
  unfold State.latchInput; split <;> rfl
@[simp] theorem latchInput_itlb (i : Input) : (s.latchInput i).itlb = s.itlb := by
  unfold State.latchInput; split <;> rfl
@[simp] theorem latchInput_icache (i : Input) : (s.latchInput i).icache = s.icache := by
  unfold State.latchInput; split <;> rfl
@[simp] theorem latchInput_dcache (i : Input) : (s.latchInput i).dcache = s.dcache := by
  unfold State.latchInput; split <;> rfl
@[simp] theorem latchInput_scache (i : Input) : (s.latchInput i).scache = s.scache := by
  unfold State.latchInput; split <;> rfl
@[simp] theorem latchInput_timerPending (i : Input) : (s.latchInput i).timerPending = s.timerPending := by
  unfold State.latchInput; split <;> rfl
@[simp] theorem latchInput_watchPostponed (i : Input) : (s.latchInput i).watchPostponed = s.watchPostponed := by
  unfold State.latchInput; split <;> rfl
@[simp] theorem latchInput_mem (i : Input) : (s.latchInput i).mem = s.mem := by
  unfold State.latchInput; split <;> rfl
@[simp] theorem latchInput_windows (i : Input) : (s.latchInput i).windows = s.windows := by
  unfold State.latchInput; split <;> rfl
@[simp] theorem latchInput_ddr (i : Input) : (s.latchInput i).ddr = s.ddr := by
  unfold State.latchInput; split <;> rfl
@[simp] theorem latchInput_cfg (i : Input) : (s.latchInput i).cfg = s.cfg := by
  unfold State.latchInput; split <;> rfl
@[simp] theorem latchInput_inputs (i : Input) : (s.latchInput i).inputs = s.inputs := by
  unfold State.latchInput; split <;> rfl
@[simp] theorem latchInput_draws (i : Input) : (s.latchInput i).draws = s.draws := by
  unfold State.latchInput; split <;> rfl
@[simp] theorem latchInput_freeCount (i : Input) : (s.latchInput i).freeCount = s.freeCount := by
  unfold State.latchInput; split <;> rfl
@[simp] theorem latchInput_countPhase (i : Input) : (s.latchInput i).countPhase = s.countPhase := by
  unfold State.latchInput; split <;> rfl
@[simp] theorem latchInput_randomHold (i : Input) : (s.latchInput i).randomHold = s.randomHold := by
  unfold State.latchInput; split <;> rfl
@[simp] theorem latchInput_randomHeld (i : Input) : (s.latchInput i).randomHeld = s.randomHeld := by
  unfold State.latchInput; split <;> rfl

/-! ### `itlbFill` -/

@[simp] theorem itlbFill_gpr (va : DWord) : (s.itlbFill va).gpr = s.gpr := by
  unfold State.itlbFill; split <;> simp
@[simp] theorem itlbFill_pc (va : DWord) : (s.itlbFill va).pc = s.pc := by
  unfold State.itlbFill; split <;> simp
@[simp] theorem itlbFill_delay (va : DWord) : (s.itlbFill va).delay = s.delay := by
  unfold State.itlbFill; split <;> simp
@[simp] theorem itlbFill_hi (va : DWord) : (s.itlbFill va).hi = s.hi := by
  unfold State.itlbFill; split <;> simp
@[simp] theorem itlbFill_lo (va : DWord) : (s.itlbFill va).lo = s.lo := by
  unfold State.itlbFill; split <;> simp
@[simp] theorem itlbFill_llbit (va : DWord) : (s.itlbFill va).llbit = s.llbit := by
  unfold State.itlbFill; split <;> simp
@[simp] theorem itlbFill_fpr (va : DWord) : (s.itlbFill va).fpr = s.fpr := by
  unfold State.itlbFill; split <;> simp
@[simp] theorem itlbFill_fcsr (va : DWord) : (s.itlbFill va).fcsr = s.fcsr := by
  unfold State.itlbFill; split <;> simp
@[simp] theorem itlbFill_cp0 (va : DWord) : (s.itlbFill va).cp0 = s.cp0 := by
  unfold State.itlbFill; split <;> simp
@[simp] theorem itlbFill_tlb (va : DWord) : (s.itlbFill va).tlb = s.tlb := by
  unfold State.itlbFill; split <;> simp
@[simp] theorem itlbFill_tlbMask (va : DWord) : (s.itlbFill va).tlbMask = s.tlbMask := by
  unfold State.itlbFill; split <;> simp
@[simp] theorem itlbFill_icache (va : DWord) : (s.itlbFill va).icache = s.icache := by
  unfold State.itlbFill; split <;> simp
@[simp] theorem itlbFill_dcache (va : DWord) : (s.itlbFill va).dcache = s.dcache := by
  unfold State.itlbFill; split <;> simp
@[simp] theorem itlbFill_scache (va : DWord) : (s.itlbFill va).scache = s.scache := by
  unfold State.itlbFill; split <;> simp
@[simp] theorem itlbFill_timerPending (va : DWord) : (s.itlbFill va).timerPending = s.timerPending := by
  unfold State.itlbFill; split <;> simp
@[simp] theorem itlbFill_watchPostponed (va : DWord) : (s.itlbFill va).watchPostponed = s.watchPostponed := by
  unfold State.itlbFill; split <;> simp
@[simp] theorem itlbFill_nmiPending (va : DWord) : (s.itlbFill va).nmiPending = s.nmiPending := by
  unfold State.itlbFill; split <;> simp
@[simp] theorem itlbFill_softResetPending (va : DWord) : (s.itlbFill va).softResetPending = s.softResetPending := by
  unfold State.itlbFill; split <;> simp
@[simp] theorem itlbFill_coldResetPending (va : DWord) : (s.itlbFill va).coldResetPending = s.coldResetPending := by
  unfold State.itlbFill; split <;> simp
@[simp] theorem itlbFill_mem (va : DWord) : (s.itlbFill va).mem = s.mem := by
  unfold State.itlbFill; split <;> simp
@[simp] theorem itlbFill_windows (va : DWord) : (s.itlbFill va).windows = s.windows := by
  unfold State.itlbFill; split <;> simp
@[simp] theorem itlbFill_ddr (va : DWord) : (s.itlbFill va).ddr = s.ddr := by
  unfold State.itlbFill; split <;> simp
@[simp] theorem itlbFill_io (va : DWord) : (s.itlbFill va).io = s.io := by
  unfold State.itlbFill; split <;> simp
@[simp] theorem itlbFill_pins (va : DWord) : (s.itlbFill va).pins = s.pins := by
  unfold State.itlbFill; split <;> simp
@[simp] theorem itlbFill_cfg (va : DWord) : (s.itlbFill va).cfg = s.cfg := by
  unfold State.itlbFill; split <;> simp
@[simp] theorem itlbFill_inputs (va : DWord) : (s.itlbFill va).inputs = s.inputs := by
  unfold State.itlbFill; split <;> simp
@[simp] theorem itlbFill_countPhase (va : DWord) : (s.itlbFill va).countPhase = s.countPhase := by
  unfold State.itlbFill; split <;> simp
@[simp] theorem itlbFill_randomHold (va : DWord) : (s.itlbFill va).randomHold = s.randomHold := by
  unfold State.itlbFill; split <;> simp
@[simp] theorem itlbFill_randomHeld (va : DWord) : (s.itlbFill va).randomHeld = s.randomHeld := by
  unfold State.itlbFill; split <;> simp

end Sys2Proof.Machine
end

