-- ==== Sys2Proof/Laws/Registers.lean ====
section
/-! SUPPORT. What the shared operations over registers answer: register reads after writes, results with their frames,
the usability checks, and the outcome of an operation. -/

namespace Sys2Proof.Machine

/-! ### General registers -/

@[simp] theorem r_zero (s : State) : s.r 0 = 0 := rfl

/-- A register read depends on the register file alone. -/
theorem r_congr {s t : State} (h : t.gpr = s.gpr) (i : RegNum) : t.r i = s.r i := by
  unfold State.r; rw [h]

@[simp] theorem r_advance (s : State) (i : RegNum) : s.advance.r i = s.r i := rfl

/-- Reading after writing a general register. -/
theorem r_setR (s : State) (i j : RegNum) (v : DWord) : (s.setR i v).r j = if j = i ∧ j ≠ 0 then v else s.r j := by
  unfold State.r State.setR
  by_cases hi : i = 0
  · subst hi; by_cases hj : j = 0 <;> simp [hj]
  · by_cases hj : j = 0
    · subst hj; simp
    · rw [if_neg hi, if_neg hj]
      simp only [hj, not_false_eq_true, and_true, if_false, ne_eq]
      by_cases hij : j = i
      · subst hij; simp
      · have : i.toNat ≠ j.toNat := fun h => hij (BitVec.eq_of_toNat_eq h.symm)
        rw [if_neg hij]
        simp [Vector.getElem_set_ne _ _ this]

theorem gprIs_setR (s : State) (rd : RegNum) (v : DWord) : GprIs s (s.setR rd v) rd v :=
  fun j => r_setR s rd j v

/-- GPR[0] stays as it is. -/
theorem setR_gpr_zero (s : State) (i : RegNum) (v : DWord) : (s.setR i v).gpr[0] = s.gpr[0] := by
  unfold State.setR
  by_cases hi : i = 0
  · simp [hi]
  · have : i.toNat ≠ 0 := fun h => hi (BitVec.eq_of_toNat_eq h)
    rw [if_neg hi]
    simp [Vector.getElem_set_ne _ _ this]

@[simp] theorem setR_zero (s : State) (v : DWord) : s.setR 0 v = s := rfl

/-! ### The end of an instruction -/

theorem advance_pc (s : State) : s.advance.pc = s.nextPc := by
  unfold State.advance State.nextPc
  cases s.delay <;> rfl

/-- The next pc depends on the pc and the delay slot alone. -/
theorem nextPc_congr {s t : State} (hp : t.pc = s.pc) (hd : t.delay = s.delay) : t.nextPc = s.nextPc := by
  unfold State.nextPc; rw [hp, hd]

@[simp] theorem andThen_val {α : Type} (a : α) (s : State) (k : α → State → Out) :
    (Result.val a s).andThen k = k a s := rfl
@[simp] theorem andThen_exc {α : Type} (e : Exc) (s : State) (k : α → State → Out) :
    (Result.exc e s).andThen k = .next (takeException e s) := rfl
@[simp] theorem andThen_fault {α : Type} (f : Fault) (k : α → State → Out) :
    (Result.fault f).andThen k = .fault f := rfl
@[simp] theorem andThen_refused {α : Type} (r : Refusal) (k : α → State → Out) :
    (Result.refused r).andThen k = .refused r := rfl

@[simp] theorem bind_val {α β : Type} (a : α) (s : State) (k : α → State → Result β) :
    (Result.val a s).bind k = k a s := rfl
@[simp] theorem bind_exc {α β : Type} (e : Exc) (s : State) (k : α → State → Result β) :
    (Result.exc e s).bind k = .exc e s := rfl
@[simp] theorem bind_fault {α β : Type} (f : Fault) (k : α → State → Result β) :
    (Result.fault f : Result α).bind k = .fault f := rfl
@[simp] theorem bind_refused {α β : Type} (r : Refusal) (k : α → State → Result β) :
    (Result.refused r : Result α).bind k = .refused r := rfl

/-- A sequence that delivers a value: both parts did. -/
theorem bind_eq_val {α β : Type} {r : Result α} {k : α → State → Result β} {b : β} {t : State}
    (h : r.bind k = .val b t) : ∃ a u, r = .val a u ∧ k a u = .val b t := by
  cases r with
  | val a u => exact ⟨a, u, rfl, h⟩
  | _ => simp at h

/-- A sequence that raises an exception: the first part did, or the second after it. -/
theorem bind_eq_exc {α β : Type} {r : Result α} {k : α → State → Result β} {e : Exc} {t : State}
    (h : r.bind k = .exc e t) : r = .exc e t ∨ ∃ a u, r = .val a u ∧ k a u = .exc e t := by
  cases r with
  | val a u => exact .inr ⟨a, u, rfl, h⟩
  | exc e' u => exact .inl (by simpa using h)
  | _ => simp at h

/-- An instruction over an operation that answers a next state: the operation delivered a value, or its exception is
taken. -/
theorem andThen_eq_next {α : Type} {r : Result α} {k : α → State → Out} {t : State} (h : r.andThen k = .next t) :
    (∃ a u, r = .val a u ∧ k a u = .next t) ∨ ∃ e u, r = .exc e u ∧ t = takeException e u := by
  cases r with
  | val a u => exact .inl ⟨a, u, rfl, h⟩
  | exc e u => exact .inr ⟨e, u, rfl, by simpa using h.symm⟩
  | _ => simp at h

/-! ### Results with their frames -/

/-- Finishing in `s` itself changes nothing but the pc and the delay slot. -/
theorem onlyAdvances_done (s : State) : OnlyAdvances (done s) s :=
  ⟨_, rfl, advance_pc s, rfl, fun _ => rfl, rfl⟩

/-- Finishing with a general register written. -/
theorem gprResult_done (s : State) (rd : RegNum) (v : DWord) : GprResult (done (s.setR rd v)) s rd v := by
  refine ⟨_, rfl, gprIs_setR s rd v, ?_, rfl, fun a => ?_, ?_⟩
  · rw [advance_pc]; exact nextPc_congr (by simp) (by simp)
  · simp
  · unfold State.setR; split <;> rfl

/-- Finishing with HI and LO written. -/
theorem hiLoResult_done (s : State) (hi lo : DWord) : HiLoResult (done (s.setHiLo hi lo)) s hi lo :=
  ⟨_, rfl, rfl, rfl, advance_pc _, rfl, fun _ => rfl, rfl⟩

/-- Finishing with FCSR written. -/
theorem fcsrResult_done (s : State) (v : Word) : FcsrResult (done (s.setFcsr v)) s v :=
  ⟨_, rfl, rfl, advance_pc _, rfl, fun _ => rfl, rfl⟩

/-! ### Floating-point registers -/

theorem fr_congr {s t : State} (h : t.cp0 = s.cp0) : t.fr = s.fr := by unfold State.fr; rw [h]

theorem f64_congr {s t : State} (hf : t.fpr = s.fpr) (hc : t.cp0 = s.cp0) (n : RegNum) : t.f64 n = s.f64 n := by
  unfold State.f64 State.f32; rw [fr_congr hc, hf]

/-- The register after a 32-bit write: the value below, the old upper half above. -/
theorem fpr_setF32_same (s : State) (n : RegNum) (v : Word) :
    (s.setF32 n v).fpr[n.toNat] = (s.fpr[n.toNat]).extractLsb' 32 32 ++ v := by
  simp [State.setF32]

theorem fpr_setF32_other (s : State) {n m : RegNum} (v : Word) (h : m ≠ n) :
    (s.setF32 n v).fpr[m.toNat] = s.fpr[m.toNat] := by
  have : n.toNat ≠ m.toNat := fun e => h (BitVec.eq_of_toNat_eq e.symm)
  simp [State.setF32, Vector.getElem_set_ne _ _ this]

theorem upper_append (a b : Word) : (a ++ b).extractLsb' 32 32 = a := by
  ext i hi
  simp only [BitVec.getElem_extractLsb', BitVec.getLsbD_append]
  simpa using BitVec.getLsbD_eq_getElem hi

theorem low_append (a b : Word) : (a ++ b).extractLsb' 0 32 = b := by
  ext i hi
  simp only [BitVec.getElem_extractLsb', BitVec.getLsbD_append]
  simp [hi]

@[simp] theorem f32_setF32_same (s : State) (n : RegNum) (v : Word) : (s.setF32 n v).f32 n = v :=
  (congrArg (BitVec.extractLsb' 0 32) (fpr_setF32_same s n v)).trans (low_append _ v)

theorem f32_setF32_other (s : State) {n m : RegNum} (v : Word) (h : m ≠ n) : (s.setF32 n v).f32 m = s.f32 m := by
  unfold State.f32; rw [fpr_setF32_other _ _ h]

/-- The two halves of a value, put together again. -/
theorem halves_append (v : DWord) : v.extractLsb' 32 32 ++ v.extractLsb' 0 32 = v := by
  ext i hi
  simp only [BitVec.getElem_append, BitVec.getElem_extractLsb']
  split
  · simp [hi]
  · next h => simp [show 32 + (i - 32) = i by omega, hi]

/-- An even register number differs from its odd partner. -/
theorem pair_ne {n : RegNum} (h : bit n 0 = false) : n ||| 1 ≠ n := by
  intro e
  have := congrArg (fun x : RegNum => x.getLsbD 0) e
  simp [bit] at h this
  exact Bool.false_ne_true (h.symm.trans this)

/-- Reading a 64-bit operand after writing it. -/
theorem f64_setF64_same (s : State) {n : RegNum} (v : DWord) (h : s.fprOk n) : (s.setF64 n v).f64 n = v := by
  unfold State.f64
  rw [fr_congr (setF64_cp0 s n v)]
  unfold State.setF64
  by_cases hf : s.fr
  · simp [hf]
  · simp only [State.fprOk, hf, Bool.false_or, Bool.not_eq_true'] at h
    simp only [hf, Bool.false_eq_true, if_false]
    rw [f32_setF32_same, f32_setF32_other _ _ (pair_ne h).symm, f32_setF32_same, halves_append]

/-- A 32-bit write leaves every upper half alone. -/
theorem fpr_setF32_upper (s : State) (n m : RegNum) (v : Word) :
    ((s.setF32 n v).fpr[m.toNat]).extractLsb' 32 32 = (s.fpr[m.toNat]).extractLsb' 32 32 := by
  by_cases h : m = n
  · subst h; rw [fpr_setF32_same, upper_append]
  · rw [fpr_setF32_other _ _ h]

/-- A 64-bit write leaves the bits outside its operand alone. -/
theorem otherFprs_setF64 (s : State) (n : RegNum) (v : DWord) : OtherFprs s (s.setF64 n v) n := by
  refine ⟨fun m hm hp => ?_, fun hf m => ?_⟩
  rotate_left
  · simp only [State.setF64, hf, Bool.false_eq_true, if_false, fpr_setF32_upper]
  unfold State.setF64
  by_cases hf : s.fr
  · rw [if_pos hf]
    have : n.toNat ≠ m.toNat := fun e => hm (BitVec.eq_of_toNat_eq e.symm)
    simp [Vector.getElem_set_ne _ _ this]
  · have hp' : m ≠ n ||| 1 := hp.resolve_left hf
    simp only [if_neg hf]
    rw [fpr_setF32_other _ _ hp', fpr_setF32_other _ _ hm]

/-- Finishing with a 64-bit FPR operand written and FCSR replaced. -/
theorem fprResult_done (s : State) {fd : RegNum} (f : Word) (v : DWord) (P : DWord → Prop) (h : s.fprOk fd) (hv : P v) :
    FprResult (done ((s.setFcsr f).setF64 fd v)) s fd f P := by
  refine ⟨_, rfl, ?_, ?_, ?_, ?_, rfl, fun a => ?_, ?_⟩
  · have : ((s.setFcsr f).setF64 fd v).advance.f64 fd = v := (f64_congr rfl rfl fd).trans (f64_setF64_same _ v h)
    rwa [this]
  · exact otherFprs_setF64 (s.setFcsr f) fd v
  · simp
  · rw [advance_pc]; exact nextPc_congr (by simp) (by simp)
  · simp
  · unfold State.setF64; split <;> rfl

/-- The same where FCSR is left alone. -/
theorem fprResult_done' (s : State) {fd : RegNum} (v : DWord) (P : DWord → Prop) (h : s.fprOk fd) (hv : P v) :
    FprResult (done (s.setF64 fd v)) s fd s.fcsr P := fprResult_done s s.fcsr v P h hv

/-- Finishing with a 32-bit FPR operand written and FCSR replaced. -/
theorem fpr32Result_done (s : State) (fd : RegNum) (f v : Word) :
    Fpr32Result (done ((s.setFcsr f).setF32 fd v)) s fd f v := by
  refine ⟨_, rfl, ?_, ?_, ?_, ?_, rfl, fun a => ?_, ?_⟩
  · exact fpr_setF32_same (s.setFcsr f) fd v
  · exact fun n hn => fpr_setF32_other (s.setFcsr f) v hn
  · simp
  · rw [advance_pc]; exact nextPc_congr (by simp) (by simp)
  · simp
  · rfl

/-! ### The usability checks -/

theorem withCp0_allowed {s : State} {k : Out} (h : s.cu0 ∨ s.mode = some .kernel) : withCp0 s k = k := by
  unfold withCp0
  rcases h with h | h
  · rw [if_pos h]
  · split
    · rfl
    · rw [h]

theorem withCp0_denied {s : State} {k : Out} {m : Mode} (h : s.cu0 = false) (hm : s.mode = some m) (hk : m ≠ .kernel) :
    withCp0 s k = raise (.coprocessorUnusable 0) s := by
  unfold withCp0
  rw [if_neg (by simp [h]), hm]
  cases m with
  | kernel => exact absurd rfl hk
  | _ => rfl

/-- What the privilege check can do: let the instruction run, take the exception, or stop in no mode. -/
theorem withCp0_cases (s : State) (k : Out) :
    withCp0 s k = k ∨ withCp0 s k = raise (.coprocessorUnusable 0) s ∨ withCp0 s k = .fault .undefinedMode := by
  unfold withCp0
  split
  · exact .inl rfl
  · split
    · exact .inl rfl
    · exact .inr (.inl rfl)
    · exact .inr (.inr rfl)

theorem withFpu_enabled {s : State} {k : Out} (h : s.cu1) : withFpu s k = k := if_pos h

theorem withFpu_disabled {s : State} {k : Out} (h : s.cu1 = false) :
    withFpu s k = raise (.coprocessorUnusable 1) s := if_neg (by simp [h])

theorem withFpu_cases (s : State) (k : Out) : withFpu s k = k ∨ withFpu s k = raise (.coprocessorUnusable 1) s := by
  unfold withFpu; split
  · exact .inl rfl
  · exact .inr rfl

theorem withFpu64_ready {s : State} {k : Out} {regs : List RegNum} (h : s.cu1) (hr : regs.all s.fprOk) :
    withFpu64 s regs k = k := by
  unfold withFpu64; rw [withFpu_enabled h, if_pos hr]

theorem withFpu64_disabled {s : State} {k : Out} {regs : List RegNum} (h : s.cu1 = false) :
    withFpu64 s regs k = raise (.coprocessorUnusable 1) s := withFpu_disabled h

/-- What the check of the 64-bit operands can do. -/
theorem withFpu64_cases (s : State) (regs : List RegNum) (k : Out) :
    withFpu64 s regs k = k ∨ withFpu64 s regs k = raise (.coprocessorUnusable 1) s ∨
      withFpu64 s regs k = .fault .oddFpr := by
  unfold withFpu64
  rcases withFpu_cases s (if regs.all s.fprOk then k else .fault .oddFpr) with h | h
  · rw [h]; split
    · exact .inl rfl
    · exact .inr (.inr rfl)
  · exact .inr (.inl h)

/-! ### Writes to CP0 (45_cp0 R467) -/

/-- A write to a CP0 register leaves the others the model stores, Random with Wired aside. -/
theorem cp0Others_writeCp0 (s : State) (n : RegNum) (v : DWord) : Cp0Others s.cp0 (s.writeCp0 n v).cp0 n := by
  unfold Cp0Others State.writeCp0
  split <;> simp

/-- A write to Cause changes IP[1:0] alone. -/
theorem writeCp0_cause (s : State) (v : DWord) :
    (s.writeCp0 13 v).cp0.cause = maskedWrite 0x300 s.cp0.cause (low32 v) := rfl

end Sys2Proof.Machine
end

