-- ==== Sys2Proof/Laws/Exceptions.lean ====
section
/-! SUPPORT. What taking an exception and returning from one do. -/

namespace Sys2Proof.Machine

theorem cause_bd (old : Word) (b : Bool) (e : Exc) : bit (causeAfter old b e) 31 = b := by
  simp only [bit, causeAfter, BitVec.getLsbD_append]
  cases b <;> rfl

theorem cause_code (old : Word) (b : Bool) (e : Exc) : (causeAfter old b e).extractLsb' 2 5 = e.code := by
  ext i hi
  simp only [causeAfter, BitVec.getElem_extractLsb', BitVec.getLsbD_append]
  rw [if_neg (by omega), if_pos (by omega)]
  simp [hi]

theorem cause_unit (old : Word) (b : Bool) (e : Exc) : (causeAfter old b e).extractLsb' 28 2 = e.unit := by
  ext i hi
  simp only [causeAfter, BitVec.getElem_extractLsb', BitVec.getLsbD_append]
  rw [if_neg (by omega), if_neg (by omega), if_neg (by omega), if_neg (by omega), if_neg (by omega), if_pos (by omega)]
  simp [hi, show 28 + i - 2 - 5 - 1 - 2 - 18 = i by omega]

theorem cause_requests (old : Word) (b : Bool) (e : Exc) :
    (causeAfter old b e).extractLsb' 8 2 = old.extractLsb' 8 2 := by
  ext i hi
  simp only [causeAfter, BitVec.getElem_extractLsb', BitVec.getLsbD_append]
  rw [if_neg (by omega), if_neg (by omega), if_neg (by omega), if_pos (by omega)]
  simp [hi, show 8 + i - 2 - 5 - 1 = i by omega]

/-- Recording an address touches neither Status nor EPC nor Cause. -/
@[simp] theorem record_status (c : Cp0) (e : Exc) : (c.record e).status = c.status := by cases e <;> rfl
@[simp] theorem record_epc (c : Cp0) (e : Exc) : (c.record e).epc = c.epc := by cases e <;> rfl
@[simp] theorem record_cause (c : Cp0) (e : Exc) : (c.record e).cause = c.cause := by cases e <;> rfl

/-- Every register an exception records nothing in. -/
theorem record_frame (c : Cp0) (e : Exc) : c.record e = { c with
    badVAddr := (c.record e).badVAddr, context := (c.record e).context, xContext := (c.record e).xContext,
    entryHi := (c.record e).entryHi } := by cases e <;> rfl

/-- Exception entry at the general vector. -/
theorem entered_takeException (e : Exc) (s : State) (h : e.isRefill = false ∨ s.exl) :
    Entered s (takeException e s) 0x180 e.code e.unit where
  pc := by
    have : (e.isRefill && !s.exl) = false := by rcases h with h | h <;> simp [h]
    simp [takeException, vectorBase, this]
  noSlot := rfl
  status := by simp [takeException]
  epc := by simp [takeException]
  bd := by simp [takeException, cause_bd]
  code := by simp [takeException, cause_code]
  unit := by simp [takeException, cause_unit]
  requests := by simp [takeException, cause_requests]
  held := rfl
  memory := fun _ => rfl
  frame := by
    simp only [takeException]
    rw [record_frame s.cp0 e]

/-- Exception entry at the refill vector. -/
theorem entered_refill (store : Bool) (va : DWord) (s : State) (h : s.exl = false) :
    Entered s (takeException (.tlbRefill store va) s) 0 (if store then 3 else 2) 0 where
  pc := by simp [takeException, vectorBase, Exc.isRefill, h]
  noSlot := rfl
  status := by simp [takeException]
  epc := by simp [takeException]
  bd := by simp [takeException, cause_bd]
  code := by simp [takeException, cause_code, Exc.code]
  unit := by simp [takeException, cause_unit, Exc.unit]
  requests := by simp [takeException, cause_requests]
  held := rfl
  memory := fun _ => rfl
  frame := by
    simp only [takeException]
    rw [record_frame s.cp0 (.tlbRefill store va)]

/-- Raising an exception that records no address. -/
theorem traps_raise (e : Exc) (s : State) (hr : e.isRefill = false) (h : s.cp0.record e = s.cp0) :
    Traps (raise e s) s e.code e.unit := by
  refine ⟨_, rfl, entered_takeException e s (.inl hr), ?_, ?_, ?_, ?_⟩ <;> simp [takeException, h]

/-- Raising an Address Error. -/
theorem addressTraps_raise (store : Bool) (va : DWord) (s : State) :
    AddressTraps (raise (.addressError store va) s) s store va :=
  ⟨_, rfl, entered_takeException _ s (.inl rfl), rfl, rfl, rfl, rfl⟩

/-- Returning clears ERL if it is set, else EXL, and no other bit of Status. -/
theorem returnFromException_status (s : State) : (returnFromException s).cp0.status =
    if s.erl then s.cp0.status &&& ~~~4 else s.cp0.status &&& ~~~2 := rfl

end Sys2Proof.Machine
end

