-- ==== Sys2Proof/Laws/Sparse.lean ====
section
/-! SUPPORT. The laws of data kept by address: read after write, and every write keeps the canonical form. -/

namespace Sys2Proof.Machine

variable {α : Type} [DecidableEq α] {d : α}

/-- A write leaves every other key alone. -/
theorem sparseRead_write_other {k k' : Nat} (v : α) (l : List (Nat × α)) (h : k' ≠ k) :
    sparseRead d k' (sparseWrite d k v l) = sparseRead d k' l := by
  induction l with
  | nil => unfold sparseWrite; split <;> simp [sparseRead, h.symm]
  | cons e l ih =>
    obtain ⟨j, w⟩ := e
    unfold sparseWrite
    split
    · split <;> simp [sparseRead, h.symm]
    · split
      · next hj => subst hj; split <;> simp [sparseRead, h.symm]
      · simp [sparseRead, ih]

/-- A list in canonical form above `b` lists no key up to `b`. -/
theorem sparseRead_below {b k : Nat} (l : List (Nat × α)) (h : sparseWfFrom d (some b) l) (hk : k ≤ b) :
    sparseRead d k l = d := by
  induction l generalizing b with
  | nil => rfl
  | cons e l ih =>
    obtain ⟨j, w⟩ := e
    simp only [sparseWfFrom, Bool.and_eq_true, decide_eq_true_eq] at h
    have hj : j ≠ k := by omega
    simp only [sparseRead, if_neg hj]
    exact ih h.2 (by omega)

/-- The canonical form above a bound is the canonical form above every smaller one. -/
theorem sparseWfFrom_weaken {b : Nat} {lo : Option Nat} (l : List (Nat × α)) (h : sparseWfFrom d (some b) l)
    (hb : ∀ c, lo = some c → c ≤ b) : sparseWfFrom d lo l := by
  cases l with
  | nil => rfl
  | cons e l =>
    obtain ⟨j, w⟩ := e
    simp only [sparseWfFrom, Bool.and_eq_true, decide_eq_true_eq] at h ⊢
    refine ⟨⟨?_, h.1.2⟩, h.2⟩
    cases lo with
    | none => rfl
    | some c => have := hb c rfl; simp; omega

theorem sparseRead_write_same_from {k : Nat} {lo : Option Nat} (v : α) (l : List (Nat × α))
    (h : sparseWfFrom d lo l) : sparseRead d k (sparseWrite d k v l) = v := by
  induction l generalizing lo with
  | nil => unfold sparseWrite; split <;> simp_all [sparseRead]
  | cons e l ih =>
    obtain ⟨j, w⟩ := e
    simp only [sparseWfFrom, Bool.and_eq_true] at h
    unfold sparseWrite
    split
    · next hk =>
      split
      · next hv =>
        have : j ≠ k := by omega
        simp only [sparseRead, if_neg this]
        rw [sparseRead_below l h.2 (by omega), hv]
      · simp [sparseRead]
    · split
      · next hj =>
        split
        · next hv => rw [sparseRead_below l h.2 (by omega), hv]
        · simp [sparseRead]
      · next hj =>
        simp only [sparseRead, if_neg hj]
        exact ih h.2

/-- Reading a key after writing it gives the value written. -/
theorem sparseRead_write_same {k : Nat} (v : α) (l : List (Nat × α)) (h : sparseWf d l) :
    sparseRead d k (sparseWrite d k v l) = v := sparseRead_write_same_from v l h

/-- The canonical form, entry by entry. -/
theorem sparseWfFrom_cons {lo : Option Nat} {j : Nat} {w : α} {l : List (Nat × α)} :
    sparseWfFrom d lo ((j, w) :: l) ↔ (∀ c, lo = some c → c < j) ∧ w ≠ d ∧ sparseWfFrom d (some j) l := by
  cases lo <;> simp [sparseWfFrom, and_assoc]

theorem sparseWfFrom_write {k : Nat} {lo : Option Nat} (v : α) (l : List (Nat × α)) (h : sparseWfFrom d lo l)
    (hk : ∀ c, lo = some c → c < k) : sparseWfFrom d lo (sparseWrite d k v l) := by
  induction l generalizing lo with
  | nil =>
    unfold sparseWrite
    split
    · rfl
    · next hv => exact sparseWfFrom_cons.2 ⟨hk, hv, rfl⟩
  | cons e l ih =>
    obtain ⟨j, w⟩ := e
    have h' := sparseWfFrom_cons.1 h
    unfold sparseWrite
    split
    · next hkj =>
      split
      · exact h
      · next hv =>
        exact sparseWfFrom_cons.2 ⟨hk, hv, sparseWfFrom_cons.2 ⟨fun c hc => by cases hc; exact hkj, h'.2⟩⟩
    · split
      · next hj =>
        subst hj
        split
        · exact sparseWfFrom_weaken l h'.2.2 (fun c hc => (hk c hc).le)
        · next hv => exact sparseWfFrom_cons.2 ⟨hk, hv, h'.2.2⟩
      · exact sparseWfFrom_cons.2 ⟨h'.1, h'.2.1, ih h'.2.2 fun c hc => by cases hc; omega⟩

/-- Every write keeps the canonical form. -/
theorem sparseWf_write {k : Nat} (v : α) (l : List (Nat × α)) (h : sparseWf d l) :
    sparseWf d (sparseWrite d k v l) := sparseWfFrom_write v l h (by simp)

/-- Two lists in canonical form that read alike everywhere are the same list. -/
theorem sparse_ext_from {lo : Option Nat} (l m : List (Nat × α)) (hl : sparseWfFrom d lo l) (hm : sparseWfFrom d lo m)
    (h : ∀ k, sparseRead d k l = sparseRead d k m) : l = m := by
  induction l generalizing lo m with
  | nil =>
    cases m with
    | nil => rfl
    | cons e m =>
      obtain ⟨j, w⟩ := e
      simp only [sparseWfFrom, Bool.and_eq_true, decide_eq_true_eq] at hm
      have := h j
      simp [sparseRead] at this
      exact absurd this.symm (by simpa using hm.1.2)
  | cons e l ih =>
    obtain ⟨j, w⟩ := e
    cases m with
    | nil =>
      simp only [sparseWfFrom, Bool.and_eq_true, decide_eq_true_eq] at hl
      have := h j
      simp [sparseRead] at this
      exact absurd this (by simpa using hl.1.2)
    | cons f m =>
      obtain ⟨i, u⟩ := f
      simp only [sparseWfFrom, Bool.and_eq_true, decide_eq_true_eq] at hl hm
      have hij : j = i := by
        rcases Nat.lt_trichotomy j i with hlt | rfl | hlt
        · have := h j
          simp only [sparseRead, if_true, if_neg (show ¬ i = j by omega)] at this
          rw [sparseRead_below m hm.2 (by omega)] at this
          exact absurd this (by simpa using hl.1.2)
        · rfl
        · have := h i
          simp only [sparseRead, if_true, if_neg (show ¬ j = i by omega)] at this
          rw [sparseRead_below l hl.2 (by omega)] at this
          exact absurd this.symm (by simpa using hm.1.2)
      subst hij
      have hv := h j
      simp [sparseRead] at hv
      subst hv
      refine congrArg _ (ih m hl.2 hm.2 fun k => ?_)
      by_cases hk : j = k
      · subst hk
        rw [sparseRead_below l hl.2 le_rfl, sparseRead_below m hm.2 le_rfl]
      · have := h k
        simpa [sparseRead, hk] using this

/-- In canonical form, equal contents are equal data. -/
theorem sparse_ext {l m : List (Nat × α)} (hl : sparseWf d l) (hm : sparseWf d m)
    (h : ∀ k, sparseRead d k l = sparseRead d k m) : l = m := sparse_ext_from l m hl hm h

end Sys2Proof.Machine
end

