-- ==== Sys2Proof/Laws/Memory.lean ====
section
/-! SUPPORT. The laws of memory: bytes, and accesses of several bytes built from them. -/

namespace Sys2Proof.Machine

@[simp] theorem memByte_nil (a : Nat) : memByte [] a = 0 := rfl

theorem memByte_set_same {m : List Host.Cell} (a : Nat) (b : Byte) (h : Memory.wf m) :
    memByte (memSetByte m a b) a = b := sparseRead_write_same b m h

theorem memByte_set_other (m : List Host.Cell) {a a' : Nat} (b : Byte) (h : a' ≠ a) :
    memByte (memSetByte m a b) a' = memByte m a' := sparseRead_write_other b m h

theorem Memory.wf_setByte {m : List Host.Cell} (a : Nat) (b : Byte) (h : Memory.wf m) :
    Memory.wf (memSetByte m a b) := sparseWf_write b m h

/-- Every store keeps the canonical form. -/
theorem Memory.wf_writeLe {w : Nat} {m : List Host.Cell} (a : Nat) (v : BitVec w) (n : Nat) (h : Memory.wf m) :
    Memory.wf (writeLe m a v n) := by
  induction n generalizing m a v with
  | zero => exact h
  | succ n ih => exact ih _ _ (Memory.wf_setByte _ _ h)

/-- The memory of the reset state is in canonical form. -/
theorem Memory.wf_reset : Memory.wf State.reset.mem := rfl

/-- A store of `n` bytes leaves every byte outside them alone. -/
theorem memByte_writeLe_other {w : Nat} (m : List Host.Cell) (a : Nat) (v : BitVec w) (n : Nat) {b : Nat}
    (h : b < a ∨ a + n ≤ b) : memByte (writeLe m a v n) b = memByte m b := by
  induction n generalizing m a v with
  | zero => rfl
  | succ n ih =>
    rw [writeLe, ih _ _ _ (by omega), memByte_set_other _ _ (by omega)]

/-- Byte `i` of a store of `n` bytes is byte `i` of the value. -/
theorem memByte_writeLe_same {w : Nat} {m : List Host.Cell} (a : Nat) (v : BitVec w) (n : Nat) {i : Nat} (hi : i < n)
    (h : Memory.wf m) : memByte (writeLe m a v n) (a + i) = byteOf v i := by
  induction n generalizing m a v i with
  | zero => omega
  | succ n ih =>
    rw [writeLe]
    cases i with
    | zero =>
      rw [memByte_writeLe_other _ _ _ _ (by omega), Nat.add_zero, memByte_set_same _ _ h]
      ext j hj
      simp [byteOf]
    | succ i =>
      rw [show a + (i + 1) = a + 1 + i by omega, ih _ _ (by omega) (Memory.wf_setByte _ _ h)]
      ext j hj
      simp [byteOf, show 8 * (i + 1) + j = 8 + (8 * i + j) by omega]

/-- Byte `i` of a read of `n` bytes is byte `i` of memory; above them the value is zero. -/
theorem byteOf_readLe {w : Nat} (m : List Host.Cell) (a n i : Nat) (hw : 8 * n ≤ w) :
    byteOf (readLe m a n : BitVec w) i = if i < n then memByte m (a + i) else 0 := by
  induction n generalizing a i with
  | zero => simp [readLe, byteOf]
  | succ n ih =>
    have low : ∀ j, j < 8 → j < w := fun j hj => by omega
    rw [readLe]
    cases i with
    | zero =>
      ext j hj
      simp only [byteOf, BitVec.getElem_extractLsb', BitVec.getLsbD_or, BitVec.getLsbD_shiftLeft,
        BitVec.getLsbD_setWidth]
      simp [low j hj, hj]
    | succ i =>
      have ih' := ih (a + 1) i (by omega)
      rw [show (if i + 1 < n + 1 then memByte m (a + (i + 1)) else 0) =
        (if i < n then memByte m (a + 1 + i) else 0) by
          simp only [show i + 1 < n + 1 ↔ i < n by omega, show a + (i + 1) = a + 1 + i by omega]]
      rw [← ih']
      ext j hj
      simp only [byteOf, BitVec.getElem_extractLsb', BitVec.getLsbD_or, BitVec.getLsbD_shiftLeft,
        BitVec.getLsbD_setWidth]
      have h1 : ¬ (8 * (i + 1) + j < 8) := by omega
      have h2 : 8 * (i + 1) + j - 8 = 8 * i + j := by omega
      have h3 : (memByte m a).getLsbD (8 * (i + 1) + j) = false := BitVec.getLsbD_of_ge _ _ (by omega)
      simp only [h1, h2, h3, decide_false, Bool.not_false, Bool.and_false, Bool.or_false, Bool.and_true]
      by_cases hlt : 8 * (i + 1) + j < w
      · simp [hlt]
      · have : (readLe m (a + 1) n : BitVec w).getLsbD (8 * i + j) = false := by
          have hb := congrArg (fun x : Byte => x.getLsbD j) (ih (a + 1) i (by omega))
          simp only [byteOf, BitVec.getLsbD_extractLsb', hj, decide_true, Bool.true_and] at hb
          rw [hb, if_neg (by omega)]
          simp
        simp [hlt, this]

/-- Reads of the same bytes give the same value. -/
theorem readLe_congr {w : Nat} {m m' : List Host.Cell} {a a' : Nat} (n : Nat)
    (h : ∀ i, i < n → memByte m (a + i) = memByte m' (a' + i)) : (readLe m a n : BitVec w) = readLe m' a' n := by
  induction n generalizing a a' with
  | zero => rfl
  | succ n ih =>
    have first : memByte m a = memByte m' a' := h 0 (by omega)
    have rest : (readLe m (a + 1) n : BitVec w) = readLe m' (a' + 1) n := ih fun i hi => by
      have := h (i + 1) (by omega)
      rwa [show a + (i + 1) = a + 1 + i by omega, show a' + (i + 1) = a' + 1 + i by omega] at this
    rw [readLe, readLe, first, rest]

/-! ### Reads as words -/

/-- A value of whole bytes is determined by its bytes. -/
theorem byteOf_inj {w : Nat} {x y : BitVec (8 * w)} (h : ∀ i, i < w → byteOf x i = byteOf y i) : x = y := by
  apply BitVec.eq_of_getLsbD_eq
  intro i hi
  have := congrArg (fun b : Byte => b.getLsbD (i % 8)) (h (i / 8) (by omega))
  simpa only [byteOf, BitVec.getLsbD_extractLsb', show i % 8 < 8 by omega, decide_true, Bool.true_and, Nat.div_add_mod] using this

/-- The bytes above the lowest one of an append. -/
theorem byteOf_append {n : Nat} (a : BitVec n) (b : Byte) (i : Nat) : byteOf (a ++ b) (i + 1) = byteOf a i := by
  apply BitVec.eq_of_getLsbD_eq
  intro j hj
  simp only [byteOf, BitVec.getLsbD_extractLsb', BitVec.getLsbD_append]
  rw [if_neg (by omega), show 8 * (i + 1) + j - 8 = 8 * i + j by omega]

/-- The lowest byte of an append. -/
theorem byteOf_append_zero {n : Nat} (a : BitVec n) (b : Byte) : byteOf (a ++ b) 0 = b := by
  apply BitVec.eq_of_getLsbD_eq
  intro j hj
  simp only [byteOf, BitVec.getLsbD_extractLsb', BitVec.getLsbD_append]
  rw [if_pos (by omega)]; simp [hj]

/-- A byte is its only byte. -/
theorem byteOf_byte (b : Byte) : byteOf b 0 = b := by
  apply BitVec.eq_of_getLsbD_eq
  intro j hj
  simp only [byteOf, BitVec.getLsbD_extractLsb']; simp [hj]

/-- The bytes of the low part of a value. -/
theorem byteOf_low {w k : Nat} (x : BitVec w) (i : Nat) (h : 8 * i + 8 ≤ k) : byteOf (x.extractLsb' 0 k) i = byteOf x i := by
  apply BitVec.eq_of_getLsbD_eq
  intro j hj
  simp only [byteOf, BitVec.getLsbD_extractLsb']; simp [hj, show 8 * i + j < k by omega]

/-- The bytes of a word of memory. -/
theorem byteOf_wordAt (m : List Host.Cell) (a i : Nat) (h : i < 4) : byteOf (wordAt m a) i = memByte m (a + i) := by
  unfold wordAt
  rcases i with _ | _ | _ | _ | i
  · exact byteOf_append_zero _ _
  · exact (byteOf_append _ _ 0).trans (byteOf_append_zero _ _)
  · exact (byteOf_append _ _ 1).trans ((byteOf_append _ _ 0).trans (byteOf_append_zero _ _))
  · exact (byteOf_append _ _ 2).trans ((byteOf_append _ _ 1).trans ((byteOf_append _ _ 0).trans (byteOf_byte _)))
  · omega

/-- A four-byte read is the word at the address. -/
theorem low32_readLe (m : List Host.Cell) (a : Nat) : low32 (readLe m a 4) = wordAt m a := by
  apply byteOf_inj (w := 4)
  intro i hi
  rw [byteOf_wordAt m a i hi, low32, byteOf_low _ _ (by omega), byteOf_readLe _ _ _ _ (by omega), if_pos hi]

/-- The bytes of a doubleword of memory. -/
theorem byteOf_doubleAt (m : List Host.Cell) (a i : Nat) (h : i < 8) : byteOf (doubleAt m a) i = memByte m (a + i) := by
  have e : doubleAt m a = wordAt m (a + 4) ++ wordAt m a := rfl
  rw [e]
  by_cases hi : i < 4
  · rw [← byteOf_wordAt m a i hi]
    apply BitVec.eq_of_getLsbD_eq
    intro j hj
    simp only [byteOf, BitVec.getLsbD_extractLsb', BitVec.getLsbD_append]
    rw [if_pos (by omega)]
  · have := byteOf_wordAt m (a + 4) (i - 4) (by omega)
    rw [show a + i = a + 4 + (i - 4) by omega, ← this]
    apply BitVec.eq_of_getLsbD_eq
    intro j hj
    simp only [byteOf, BitVec.getLsbD_extractLsb', BitVec.getLsbD_append]
    rw [if_neg (by omega), show 8 * i + j - 32 = 8 * (i - 4) + j by omega]

/-- An eight-byte read is the doubleword at the address. -/
theorem readLe_double (m : List Host.Cell) (a : Nat) : readLe m a 8 = doubleAt m a := by
  apply byteOf_inj (w := 8)
  intro i hi
  rw [byteOf_doubleAt m a i hi, byteOf_readLe _ _ _ _ (by omega), if_pos hi]

/-- A two-byte read is the two bytes, the higher address on top. -/
theorem readLe_half (m : List Host.Cell) (a : Nat) : (readLe (w := 64) m a 2).extractLsb' 0 16 = memByte m (a + 1) ++ memByte m a := by
  apply byteOf_inj (w := 2)
  intro i hi
  rw [byteOf_low _ _ (by omega), byteOf_readLe _ _ _ _ (by omega), if_pos hi]
  rcases i with _ | _ | i
  · exact (byteOf_append_zero _ _).symm
  · exact ((byteOf_append _ _ 0).trans (byteOf_byte _)).symm
  · omega

/-- A one-byte read is the byte. -/
theorem readLe_byte (m : List Host.Cell) (a : Nat) : (readLe (w := 64) m a 1).extractLsb' 0 8 = memByte m a := by
  have := byteOf_readLe (w := 64) m a 1 0 (by omega)
  simpa [byteOf] using this

end Sys2Proof.Machine
end

