-- ==== Sys2Proof/Laws/Boundary.lean ====
section
/-! SUPPORT. What the boundary of an instruction changes, and what a free value uses up. -/

namespace Sys2Proof.Machine

/-- A step whose boundary brings an event takes it. -/
theorem step_event {s t : State} (h : s.boundary.event = some t) : step s = .next t := by simp only [step, h]

/-- A step whose boundary brings none runs the word the fetch delivers. -/
theorem step_word {s t : State} {w : Word} (h : s.boundary.event = none) (hf : s.boundary.fetch = .val w t) :
    step s = stepWord w t := by simp only [step, h, hf, andThen_val]

/-- The stores of PCI masters change memory and the device registers alone. -/
theorem pciStores_frame (s : State) (l : List PciStore) : l.foldl State.pciStore s = { s with
    mem := (l.foldl State.pciStore s).mem, windows := (l.foldl State.pciStore s).windows,
    ddr := (l.foldl State.pciStore s).ddr, io := (l.foldl State.pciStore s).io } := by
  induction l generalizing s with
  | nil => rfl
  | cons w l h =>
    rw [List.foldl_cons]
    have h1 := pciStore_frame s w
    generalize s.pciStore w = u at *
    have h2 := h u
    generalize l.foldl State.pciStore u = t at *
    rw [h2, h1]

/-- Latching the inputs. -/
theorem latchInput_frame (s : State) (i : Input) : s.latchInput i = { s with
    io := { s.io with intLatch := (s.latchInput i).io.intLatch }, pins := i.pins.getD s.pins,
    coldResetPending := s.coldResetPending || i.coldReset, softResetPending := s.softResetPending || i.softReset,
    nmiPending := s.nmiPending || i.nmi } := by
  unfold State.latchInput; cases i.pins <;> rfl

/-- Count. -/
theorem tickCount_frame (s : State) (n : Nat) : s.tickCount n = { s with cp0 := { s.cp0 with count := (s.tickCount n).cp0.count }, timerPending := (s.tickCount n).timerPending, countPhase := (s.tickCount n).countPhase } := rfl

/-- Random. -/
theorem tickRandom_frame (s : State) (c) : s.tickRandom c = { s with
    cp0 := { s.cp0 with random := (s.tickRandom c).cp0.random }, randomHold := false, randomHeld := s.randomHold } := by
  unfold State.tickRandom; split <;> simp_all

/-- The performance counters. -/
theorem tickPerf_frame (s : State) (c) : s.tickPerf c = { s with cp0 := { s.cp0 with perfCounter := (s.tickPerf c).cp0.perfCounter } } := by
  unfold State.tickPerf; split <;> rfl

/-- What a boundary changes, after the stores of the PCI masters. -/
theorem boundary_frame (s : State) :
    let u := s.nextInput.pciWrites.foldl State.pciStore { s with inputs := s.inputs.tail }
    ∃ latch timer phase count random counters, s.boundary = { s with
      inputs := s.inputs.tail, io := { u.io with intLatch := latch }, pins := s.nextInput.pins.getD s.pins,
      coldResetPending := s.coldResetPending || s.nextInput.coldReset,
      softResetPending := s.softResetPending || s.nextInput.softReset, nmiPending := s.nmiPending || s.nextInput.nmi,
      timerPending := timer, mem := u.mem, windows := u.windows, ddr := u.ddr, countPhase := phase,
      randomHold := false, randomHeld := s.randomHold,
      cp0 := { s.cp0 with count := count, random := random, perfCounter := counters } } := by
  unfold State.boundary
  simp only []
  have h := pciStores_frame { s with inputs := s.inputs.tail } s.nextInput.pciWrites
  generalize s.nextInput.pciWrites.foldl State.pciStore { s with inputs := s.inputs.tail } = u at *
  rw [latchInput_frame, tickPerf_frame, tickRandom_frame, tickCount_frame]
  rw [h]
  exact ⟨_, _, _, _, _, _, rfl⟩

/-- Taking a free value changes the draws or the counter and nothing else. -/
theorem free_eq (s : State) : ∃ d n, s.free.2 = { s with draws := d, freeCount := n } := by
  unfold State.free; split
  · exact ⟨_, s.freeCount, rfl⟩
  · exact ⟨s.draws, _, rfl⟩

end Sys2Proof.Machine
end

