-- ==== Sys2Proof/Laws/Access.lean ====
section
/-! SUPPORT. What a load or a store does on plain uncached memory. -/

namespace Sys2Proof.Machine

/-- An unmapped address keeps its low bits. -/
theorem segmentOf_low {m : Mode} {k0 : BitVec 3} {va : DWord} {pa : PAddr} {attr : BitVec 3}
    (h : segmentOf m k0 va = .unmapped pa attr) : pa.extractLsb' 0 12 = va.extractLsb' 0 12 := by
  have cut : ∀ n, 12 ≤ n → ((va.extractLsb' 0 n).setWidth 40).extractLsb' 0 12 = va.extractLsb' 0 12 := by
    intro n hn
    apply BitVec.eq_of_getLsbD_eq
    intro i hi
    simp [hi, show i < 40 by omega, show i < n by omega]
  have pick : ∀ {n : Nat} {c : BitVec 3}, 12 ≤ n →
      Segment.unmapped ((va.extractLsb' 0 n).setWidth 40) c = .unmapped pa attr →
      pa.extractLsb' 0 12 = va.extractLsb' 0 12 := by
    intro n c hn e
    rw [← (Segment.unmapped.inj e).1]
    exact cut n hn
  simp only [segmentOf] at h
  split_ifs at h
  · exact pick (by omega) h
  all_goals
    split at h
    all_goals first
      | exact pick (by omega) h
      | exact Segment.noConfusion h

/-- A translated address keeps its low twelve bits. -/
theorem translate_low {s : State} {k : Access} {va : DWord} {pa : PAddr} {attr : BitVec 3}
    (h : s.translate k va = .ok pa attr) : pa.extractLsb' 0 12 = va.extractLsb' 0 12 := by
  have attrOk : ∀ {p : PAddr} {c : BitVec 3}, withAttr p c = .ok pa attr → p = pa := by
    intro p c hw
    unfold withAttr at hw
    split at hw
    · cases hw; rfl
    · cases hw
  unfold State.translate at h
  split at h
  · cases h
  · split at h
    · cases h
    · next p c hs => rw [← attrOk h]; exact segmentOf_low hs
    · unfold State.translateMapped at h
      split at h
      · unfold pageTrans at h
        split at h
        · cases h
        · split at h
          · cases h
          · rw [← attrOk h]
            apply BitVec.eq_of_getLsbD_eq
            intro i hi
            simp only [physical, BitVec.getLsbD_extractLsb', BitVec.getLsbD_append]
            simp [hi]
      · cases h
      · cases h

/-- The low bits of a translated address, as a number. -/
theorem translate_mod {s : State} {k : Access} {va : DWord} {pa : PAddr} {attr : BitVec 3}
    (h : s.translate k va = .ok pa attr) : pa.toNat % 4096 = va.toNat % 4096 := by
  simpa using congrArg BitVec.toNat (translate_low h)

/-- The address of a byte of the same doubleword, as a number. -/
theorem toNat_sameDouble (pa : PAddr) (va0 : DWord) : (sameDouble pa va0).toNat = pa.toNat / 8 * 8 + va0.toNat % 8 := by
  have h : pa.toNat < 2 ^ 40 := pa.isLt
  simp only [sameDouble, BitVec.toNat_append, BitVec.extractLsb'_toNat, Nat.shiftRight_eq_div_pow]
  rw [Nat.mod_eq_of_lt (by omega), ← Nat.shiftLeft_add_eq_or_of_lt (by omega), Nat.shiftLeft_eq]
  omega

/-- The address of the accessed byte itself. -/
theorem sameDouble_self {s : State} {k : Access} {va : DWord} {pa : PAddr} {attr : BitVec 3}
    (h : s.translate k va = .ok pa attr) : sameDouble pa va = pa := by
  have := translate_mod h
  apply BitVec.eq_of_toNat_eq
  rw [toNat_sameDouble]; omega

/-- The first byte of the aligned word or doubleword: `n` below the accessed byte. -/
theorem sameDouble_base {s : State} {k : Access} {va va0 : DWord} {pa : PAddr} {attr : BitVec 3} {n : Nat}
    (h : s.translate k va = .ok pa attr) (hn : n ≤ va.toNat % 8) (hv : va0.toNat = va.toNat - n) :
    sameDouble pa va0 = pa - BitVec.ofNat 40 n := by
  have hm := translate_mod h
  have hp : pa.toNat < 2 ^ 40 := pa.isLt
  have hv2 : va.toNat < 2 ^ 64 := va.isLt
  have hs : (BitVec.ofNat 40 n).toNat = n := by rw [BitVec.toNat_ofNat]; exact Nat.mod_eq_of_lt (by omega)
  have hle : BitVec.ofNat 40 n ≤ pa := by rw [BitVec.le_def, hs]; omega
  apply BitVec.eq_of_toNat_eq
  rw [toNat_sameDouble, BitVec.toNat_sub_of_le hle, hs, hv]
  omega

@[simp] theorem postponeWatch_false (s : State) : s.postponeWatch false = s := rfl

/-- The state an access completes from, as the model leaves it. -/
theorem postponeWatch_eq (s : State) (k : Access) (va : DWord) :
    s.postponeWatch (s.watchMatch k va) = s.afterWatch k va := by
  unfold State.postponeWatch State.afterWatch
  cases s.watchMatch k va <;> simp

/-- An access for which no Watch exception is due does its operation and remembers a match. -/
theorem access_ok {α : Type} {s : State} {k : Access} {va : DWord} {pa : PAddr} {attr : BitVec 3}
    (op : State → BitVec 3 → PAddr → Result α) (h : s.translate k va = .ok pa attr)
    (hw : s.watchMatch k va = true → s.exl = true ∨ s.erl = true) :
    s.access k va op = (op s attr pa).bind fun a t => .val a (t.postponeWatch (s.watchMatch k va)) := by
  have : (s.watchMatch k va && !s.exl && !s.erl) = false := by
    cases hm : s.watchMatch k va
    · rfl
    · rcases hw hm with h | h <;> simp [h]
  simp only [State.access, h, this, Bool.false_eq_true, if_false]

/-- An access for which a Watch exception is due. -/
theorem access_watch {α : Type} {s : State} {k : Access} {va : DWord} {pa : PAddr} {attr : BitVec 3}
    (op : State → BitVec 3 → PAddr → Result α) (h : s.translate k va = .ok pa attr) (hw : s.watchMatch k va = true)
    (hx : s.exl = false) (he : s.erl = false) : s.access k va op = .exc .watch (s.watchFill k attr va pa) := by
  simp [State.access, h, hw, hx, he]

/-- An access whose translation raises an exception. -/
theorem access_exc {α : Type} {s : State} {k : Access} {va : DWord} {e : Exc}
    (op : State → BitVec 3 → PAddr → Result α) (h : s.translate k va = .exc e) : s.access k va op = .exc e s := by
  simp [State.access, h]

/-- The attribute of a plain access is not the cached one. -/
theorem PlainAccess.uncached {s : State} {k : Access} {va : DWord} {pa first : PAddr} {a : Nat}
    (h : PlainAccess s k va pa first a) :
    ∃ attr, attr ≠ 3 ∧ s.translate k va = .ok pa attr := by
  rcases h.translated with h | h
  · exact ⟨2, by decide, h⟩
  · exact ⟨7, by decide, h⟩

/-- Bytes read from plain memory. -/
theorem loadBytes_plain {s : State} {va va0 : DWord} {pa first : PAddr} {a : Nat} (n : Nat)
    (h : PlainAccess s .load va pa first a) (hf : sameDouble pa va0 = first) :
    s.loadBytes va va0 n = .val (readLe s.mem a n) (s.afterWatch .load va) := by
  obtain ⟨attr, ha, ht⟩ := h.uncached
  rw [State.loadBytes, access_ok _ ht h.unwatched, ← postponeWatch_eq]
  rcases h.memory with hm | ⟨_, hm⟩ <;>
    simp only [State.readAttr, if_neg ha, State.busRead, hf, h.noError rfl, Bool.false_eq_true, if_false, hm,
      State.targetRead, Result.bind]

/-- Bytes stored to plain memory. -/
theorem storeBytes_plain {s : State} {va va0 : DWord} {pa first : PAddr} {a : Nat} (n : Nat) (v : DWord)
    (h : PlainAccess s .store va pa first a) (hf : sameDouble pa va0 = first) :
    s.storeBytes va va0 n v = .val () { s.afterWatch .store va with mem := writeLe s.mem a v n } := by
  obtain ⟨attr, ha, ht⟩ := h.uncached
  rw [State.storeBytes, access_ok _ ht h.unwatched]
  rcases h.memory with hm | ⟨hk, _⟩
  · simp only [State.writeAttr, if_neg ha, State.busWrite, hf, hm, State.targetWrite, Result.bind]
    exact congrArg (Result.val ()) (postponeWatch_eq { s with mem := writeLe s.mem a v n } .store va)
  · cases hk

/-- An aligned load from plain memory. -/
theorem load_plain {s : State} {va : DWord} {pa : PAddr} {a : Nat} (n : Nat) (ha : va.toNat % n = 0)
    (h : PlainAccess s .load va pa pa a) : s.load va n = .val (readLe s.mem a n) (s.afterWatch .load va) := by
  obtain ⟨attr, _, ht⟩ := h.uncached
  rw [State.load, aligned, if_pos (decide_eq_true ha), loadBytes_plain n h (sameDouble_self ht)]

/-- An aligned store to plain memory. -/
theorem store_plain {s : State} {va : DWord} {pa : PAddr} {a : Nat} (n : Nat) (v : DWord) (ha : va.toNat % n = 0)
    (h : PlainAccess s .store va pa pa a) :
    s.store va n v = .val () { s.afterWatch .store va with mem := writeLe s.mem a v n } := by
  obtain ⟨attr, _, ht⟩ := h.uncached
  rw [State.store, aligned, if_pos (decide_eq_true ha), storeBytes_plain n v h (sameDouble_self ht)]

/-- A misaligned load. -/
theorem load_misaligned (s : State) {va : DWord} {n : Nat} (h : va.toNat % n ≠ 0) :
    s.load va n = .exc (.addressError false va) s := by
  rw [State.load, aligned, if_neg (by simpa using h)]

/-- A misaligned store. -/
theorem store_misaligned (s : State) {va : DWord} {n : Nat} (v : DWord) (h : va.toNat % n ≠ 0) :
    s.store va n v = .exc (.addressError true va) s := by
  rw [State.store, aligned, if_neg (by simpa using h)]

/-- Finishing with bytes stored to memory. -/
theorem storeResult_done {w : Nat} {s : State} (a : Nat) (v : BitVec w) (n : Nat) (h : Memory.wf s.mem) :
    StoreResult (done { s with mem := writeLe s.mem a v n }) s a n (byteOf v) :=
  ⟨_, rfl, fun _ hi => memByte_writeLe_same a v n hi h, fun _ hb => memByte_writeLe_other s.mem a v n hb,
    advance_pc _, rfl, rfl⟩

/-! ### Loads to register 0 -/

/-- A load to register 0 from a misaligned address is a plain no-operation (40_loads_stores R246). -/
theorem prefetch_misaligned {s : State} {va : DWord} {n : Nat} (h : va.toNat % n ≠ 0) : s.prefetch va n = s := by
  simp [State.prefetch, aligned, h]

end Sys2Proof.Machine
end

