-- ==== Sys2Proof/Laws/Cache.lean ====
section
/-! SUPPORT. What the caches do: lookup, lines after a write, fills and write-backs. -/

namespace Sys2Proof.Machine

/-! ### Lookup -/

/-- The ways of a set. -/
theorem mem_ways {set k : Nat} : k ∈ [0, 1, 2, 3].map (4 * set + ·) ↔ k / 4 = set := by
  simp only [List.map_cons, List.map_nil, List.mem_cons, List.not_mem_nil, or_false]; omega

/-- A hit is a way of the set that holds the line. -/
theorem findWay_some {set k : Nat} {p : Nat → Bool} (h : findWay set p = some k) : k / 4 = set ∧ p k = true :=
  ⟨mem_ways.1 (List.mem_of_find?_eq_some h), List.find?_some h⟩

/-- A miss: no way of the set holds the line. -/
theorem findWay_none {set : Nat} {p : Nat → Bool} : findWay set p = none ↔ ∀ k, k / 4 = set → p k = false := by
  simp only [findWay, List.find?_eq_none, Bool.not_eq_true]
  exact ⟨fun h k hk => h k (mem_ways.2 hk), fun h k hk => h k (mem_ways.1 hk)⟩

/-- The only way of a set that holds the line is found. -/
theorem findWay_only {set k : Nat} {p : Nat → Bool} (hk : k / 4 = set) (hp : p k = true)
    (h : ∀ j, j / 4 = set → p j = true → j = k) : findWay set p = some k := by
  cases hf : findWay set p with
  | none => rw [findWay_none.1 hf k hk] at hp; cases hp
  | some j => rw [h j (findWay_some hf).1 (findWay_some hf).2]

/-! ### Lines -/

theorem dLine_set {s : State} (h : sparseWf DLine.empty s.dcache) (k j : Nat) (l : DLine) :
    (s.setDLine k l).dLine j = if j = k then l else s.dLine j := by
  split
  · next e => subst e; exact sparseRead_write_same l _ h
  · next e => exact sparseRead_write_other l _ e

theorem sLine_set {s : State} (h : sparseWf SLine.empty s.scache) (k j : Nat) (l : SLine) :
    (s.setSLine k l).sLine j = if j = k then l else s.sLine j := by
  split
  · next e => subst e; exact sparseRead_write_same l _ h
  · next e => exact sparseRead_write_other l _ e

theorem iLine_set {s : State} (h : sparseWf ILine.empty s.icache) (k j : Nat) (l : ILine) :
    (s.setILine k l).iLine j = if j = k then l else s.iLine j := by
  split
  · next e => subst e; exact sparseRead_write_same l _ h
  · next e => exact sparseRead_write_other l _ e

/-- A free way is a way of the set. -/
theorem pickWay_set (s : State) (set : Nat) : (s.pickWay set).1 / 4 = set := by
  simp only [State.pickWay]; omega

/-- Choosing a way uses up a free value. -/
theorem pickWay_frame (s : State) (set : Nat) :
    ∃ d n, (s.pickWay set).2 = { s with draws := d, freeCount := n } := free_eq s

/-! ### Memory -/

/-- The bytes of memory after a store of several. -/
theorem bytesStored_writeLe {w : Nat} (s : State) (a : Nat) (data : BitVec w) (n : Nat) (h : Memory.wf s.mem) :
    BytesStored s { s with mem := writeLe s.mem a data n } a n (byteOf data) := by
  intro b
  show memByte (writeLe s.mem a data n) b = _
  split
  · next hb =>
    have := memByte_writeLe_same a data n (i := b - a) (by omega) h
    rwa [show a + (b - a) = b by omega] at this
  · next hb => exact memByte_writeLe_other _ _ _ _ (by omega)

/-- What the write of a line does, if it completes. -/
theorem lineWrite_spec {s t : State} {p : PAddr} {data : BitVec 256} {x : Unit} (hm : Memory.wf s.mem)
    (h : s.lineWrite p data = .val x t) :
    LineWritten s t p data ∧ Memory.wf t.mem ∧ t = { s with mem := t.mem } := by
  unfold State.lineWrite at h
  split at h
  · next a ha =>
    have hb := bytesStored_writeLe s a data 32 hm
    have hw := Memory.wf_writeLe a data 32 hm
    generalize writeLe s.mem a data 32 = m at hb hw h
    cases h
    exact ⟨.inl ⟨a, ha, hb⟩, hw, rfl⟩
  · next a ha => cases h; exact ⟨.inr ⟨⟨a, ha⟩, fun _ => rfl⟩, hm, rfl⟩
  all_goals cases h

/-- It completes where the line has its place. -/
theorem lineWrite_ready {s : State} {p : PAddr} (data : BitVec 256) (h : LinePlace s p) :
    ∃ t, s.lineWrite p data = .val () t := by
  obtain ⟨a, h | h⟩ := h
  · exact ⟨{ s with mem := writeLe s.mem a data 32 }, by simp only [State.lineWrite, h]⟩
  · exact ⟨s, by simp only [State.lineWrite, h]⟩

/-- What a block read answers. -/
theorem lineRead_spec {s t : State} {k : Access} {p : PAddr} {d : BitVec 256} (h : s.lineRead k p = .val d t) :
    t = s ∧ ∃ a, BlockAt s k p a ∧ ∀ i, i < 32 → byteOf d i = memByte s.mem (a + i) := by
  have bytes : ∀ a i, i < 32 → byteOf (readLe s.mem a 32 : BitVec 256) i = memByte s.mem (a + i) := fun a i hi => by
    rw [byteOf_readLe _ _ _ _ (by omega), if_pos hi]
  unfold State.lineRead at h
  split at h
  · cases h
  · next he =>
    split at h
    · next a ha => cases h; exact ⟨rfl, a, ⟨by simpa using he, .inl ha⟩, bytes a⟩
    · next a ha =>
      split at h
      · next hb => cases h; exact ⟨rfl, a, ⟨by simpa using he, .inr ⟨ha, hb⟩⟩, bytes a⟩
      · cases h
    all_goals cases h

/-- It answers where the spec has a block read. -/
theorem lineRead_ready {s : State} {k : Access} {p : PAddr} {a : Nat} (h : BlockAt s k p a) :
    ∃ d, s.lineRead k p = .val d s := by
  rcases h with ⟨he, h | ⟨h, hb⟩⟩
  · exact ⟨_, by simp only [State.lineRead, he, h, Bool.false_eq_true, if_false]; rfl⟩
  · have : s.io.blockReadable = true := hb
    exact ⟨_, by simp only [State.lineRead, he, h, this, Bool.false_eq_true, if_false, if_true]; rfl⟩

/-- A block read that gets an error. -/
theorem lineRead_error {s : State} {k : Access} {p : PAddr} (h : s.busErrorAt k p = true) :
    s.lineRead k p = .exc (.busError (k == .fetch)) s := by simp only [State.lineRead, h, if_true]

/-- The bytes determine a line. -/
theorem line_ext {x y : BitVec 256} (h : ∀ i, i < 32 → byteOf x i = byteOf y i) : x = y := byteOf_inj (w := 32) h

/-! ### What depends on the secondary lines, memory and the map alone -/

/-- Two states agree beneath the primary caches. -/
structure SameBelow (s t : State) : Prop where
  scache : t.scache = s.scache
  mem : t.mem = s.mem
  io : t.io = s.io
  target : ∀ p, t.target p = s.target p

theorem SameBelow.sLine {s t : State} (h : SameBelow s t) (i : Nat) : t.sLine i = s.sLine i := by
  rw [State.sLine, h.scache]; rfl

theorem SameBelow.sHit {s t : State} (h : SameBelow s t) (p : PAddr) : t.sHit p = s.sHit p := by
  unfold State.sHit; simp only [h.sLine]

theorem SameBelow.sLineAddr {s t : State} (h : SameBelow s t) (i : Nat) : t.sLineAddr i = s.sLineAddr i := by
  unfold State.sLineAddr; rw [h.sLine]

theorem SameMemory.congr {s t s' t' : State} (h : SameMemory s t) (h1 : s'.mem = s.mem) (h2 : t'.mem = t.mem) :
    SameMemory s' t' := fun a => by rw [h1, h2]; exact h a

theorem LinePlace.congr {s s' : State} {p : PAddr} (h : LinePlace s p) (h1 : SameBelow s s') : LinePlace s' p := by
  obtain ⟨a, h⟩ := h; exact ⟨a, by rw [h1.target]; exact h⟩

theorem LineWritten.congr {s t s' t' : State} {p : PAddr} {d : BitVec 256} (h : LineWritten s t p d)
    (h1 : SameBelow s s') (h2 : t'.mem = t.mem) : LineWritten s' t' p d := by
  rcases h with ⟨a, h, hb⟩ | ⟨⟨a, h⟩, hb⟩
  · exact .inl ⟨a, by rw [h1.target]; exact h, fun b => by rw [h1.mem, h2]; exact hb b⟩
  · exact .inr ⟨⟨a, by rw [h1.target]; exact h⟩, hb.congr h1.mem h2⟩

theorem SecondaryVictimsReady.congr {s s' : State} {p : PAddr} (h : SecondaryVictimsReady s p)
    (h1 : SameBelow s s') : SecondaryVictimsReady s' p := fun w hw hd => by
  rw [h1.sLineAddr]; exact (h w hw (by rwa [← h1.sLine])).congr h1

theorem SecondaryFill.congr {s t s' t' : State} {p : PAddr} {w : Nat} {st : BitVec 2} {data : BitVec 256}
    (h : SecondaryFill s t p w st data) (h1 : SameBelow s s') (h2 : SameBelow t t') :
    SecondaryFill s' t' p w st data := by
  refine ⟨h.way, fun i => ?_, fun hd => ?_, fun hd => ?_⟩
  · rw [h1.sLine, h2.sLine]; exact h.lines i
  · exact (h.clean (by rwa [← h1.sLine])).congr h1.mem h2.mem
  · rw [h1.sLine, h1.sLineAddr] at *; exact (h.dirty hd).congr h1 h2.mem

theorem WrittenBelow.congr {s t s' t' : State} {p : PAddr} {data : BitVec 256} (h : WrittenBelow s t p data)
    (h1 : SameBelow s s') (h2 : SameBelow t t') : WrittenBelow s' t' p data := by
  unfold WrittenBelow at h ⊢
  rw [h1.io, h1.sHit]
  split at h
  · next hd => rw [if_pos hd]; exact ⟨by rw [h2.scache, h.1, h1.scache], h.2.congr h1 h2.mem⟩
  · next hd =>
    rw [if_neg hd]
    split at h
    · next j hj => exact ⟨h.1.congr h1.mem h2.mem, fun i => by rw [h2.sLine, h1.sLine, h1.sLine]; exact h.2 i⟩
    · next hj => exact ⟨h.choose, h.choose_spec.congr h1 h2⟩

/-- A free value changes nothing beneath the caches. -/
theorem sameBelow_draws (s : State) (d n) : SameBelow s { s with draws := d, freeCount := n } :=
  ⟨rfl, rfl, rfl, fun _ => rfl⟩

/-! ### The secondary cache -/

/-- `t` is `s` with other secondary lines, memory and free values, both in canonical form. -/
structure BelowStep (s t : State) : Prop where
  lines : sparseWf SLine.empty t.scache
  memory : Memory.wf t.mem
  frame : t = { s with scache := t.scache, mem := t.mem, draws := t.draws, freeCount := t.freeCount }

theorem BelowStep.target {s t : State} (h : BelowStep s t) (p : PAddr) : t.target p = s.target p := by
  rw [h.frame]; rfl

/-- A line about to be replaced goes to memory if it is dirty. -/
theorem sEvict_spec {s t : State} {w : Nat} {x : Unit} (hm : Memory.wf s.mem) (h : s.sEvict w = .val x t) :
    ((s.sLine w).state ≠ 3 → SameMemory s t) ∧
      ((s.sLine w).state = 3 → LineWritten s t (s.sLineAddr w) (s.sLine w).data) ∧
      Memory.wf t.mem ∧ t = { s with mem := t.mem } := by
  unfold State.sEvict at h
  simp only [] at h
  split at h
  · next hd =>
    obtain ⟨h1, h2, h3⟩ := lineWrite_spec hm h
    exact ⟨fun hn => absurd hd hn, fun _ => h1, h2, h3⟩
  · next hd => cases h; exact ⟨fun _ _ => rfl, fun hn => absurd hn hd, hm, rfl⟩

theorem sEvict_ready {s : State} {w : Nat} (h : (s.sLine w).state = 3 → LinePlace s (s.sLineAddr w)) :
    ∃ t, s.sEvict w = .val () t := by
  unfold State.sEvict
  simp only []
  split
  · next hd => exact lineWrite_ready _ (h hd)
  · exact ⟨_, rfl⟩

/-- A line comes into the secondary cache. -/
theorem sInstall_spec {s t : State} {p : PAddr} {st : BitVec 2} {data : BitVec 256} {w : Nat}
    (hs : sparseWf SLine.empty s.scache) (hm : Memory.wf s.mem) (h : s.sInstall p st data = .val w t) :
    SecondaryFill s t p w st data ∧ BelowStep s t := by
  obtain ⟨d, n, hf⟩ := pickWay_frame s (secondarySet p)
  have hw := pickWay_set s (secondarySet p)
  unfold State.sInstall at h
  simp only [hf] at h
  generalize (s.pickWay (secondarySet p)).1 = k at hw h
  obtain ⟨y, u, e, h⟩ := bind_eq_val h
  cases h
  obtain ⟨h1, h2, h3, h4⟩ := sEvict_spec (s := { s with draws := d, freeCount := n }) hm e
  have hl : u.scache = s.scache := by rw [h4]
  refine ⟨⟨hw, fun i => ?_, fun hd => h1 hd, fun hd => ?_⟩, sparseWf_write _ _ (by rw [hl]; exact hs), h3, ?_⟩
  · rw [sLine_set (by rw [hl]; exact hs)]
    show (if _ then _ else sparseRead SLine.empty i u.scache) = _
    rw [hl]; rfl
  · exact (h2 hd).congr ⟨rfl, rfl, rfl, fun _ => rfl⟩ rfl
  · rw [h4]; rfl

theorem sInstall_ready {s : State} {p : PAddr} (st : BitVec 2) (data : BitVec 256) (h : SecondaryVictimsReady s p) :
    ∃ w t, s.sInstall p st data = .val w t := by
  obtain ⟨d, n, hf⟩ := pickWay_frame s (secondarySet p)
  have hw := pickWay_set s (secondarySet p)
  unfold State.sInstall
  simp only [hf]
  generalize (s.pickWay (secondarySet p)).1 = k at hw
  obtain ⟨t, ht⟩ := sEvict_ready (s := { s with draws := d, freeCount := n }) (w := k)
    fun hd => (h k hw hd).congr (sameBelow_draws s d n)
  exact ⟨k, t.setSLine k ⟨secondaryTag p, st, data⟩, by simp only [ht, Result.bind]⟩

/-- A dirty primary line is written back. -/
theorem sPut_spec {s t : State} {p : PAddr} {data : BitVec 256} {x : Unit} (hs : sparseWf SLine.empty s.scache)
    (hm : Memory.wf s.mem) (h : s.sPut p data = .val x t) : WrittenBelow s t p data ∧ BelowStep s t := by
  unfold State.sPut at h
  unfold WrittenBelow
  split at h
  · next hd =>
    rw [if_pos hd]
    obtain ⟨h1, h2, h3⟩ := lineWrite_spec hm h
    exact ⟨⟨by rw [h3], h1⟩, by rw [h3]; exact hs, h2, by rw [h3]⟩
  · next hd =>
    rw [if_neg hd]
    cases hj : s.sHit p with
    | some j =>
      simp only [hj] at h
      cases h
      exact ⟨⟨fun _ => rfl, fun i => sLine_set hs ..⟩, sparseWf_write _ _ hs, hm, rfl⟩
    | none =>
      simp only [hj] at h
      obtain ⟨w, u, e, h⟩ := bind_eq_val h
      cases h
      obtain ⟨h1, h2⟩ := sInstall_spec hs hm e
      exact ⟨⟨w, h1⟩, h2⟩

theorem sPut_ready {s : State} {p : PAddr} (data : BitVec 256) (h : WritableBelow s p) :
    ∃ t, s.sPut p data = .val () t := by
  unfold WritableBelow at h
  unfold State.sPut
  split
  · next hd => rw [if_pos hd] at h; exact lineWrite_ready data h
  · next hd =>
    rw [if_neg hd] at h
    split
    · exact ⟨_, rfl⟩
    · next hj =>
      obtain ⟨w, t, ht⟩ := sInstall_ready dirtyState data (h hj)
      exact ⟨t, by rw [ht]; rfl⟩

/-- A line comes up for a primary miss. -/
theorem sFetch_spec {s t : State} {k : Access} {p : PAddr} {r : BitVec 256 × BitVec 2}
    (hs : sparseWf SLine.empty s.scache) (hm : Memory.wf s.mem) (h : s.sFetch k p = .val r t) :
    LineFetched s t k p r.1 r.2 ∧ BelowStep s t := by
  unfold State.sFetch at h
  split at h
  · next hd =>
    obtain ⟨d, u, e, h⟩ := bind_eq_val h
    cases h
    obtain ⟨rfl, a, h1, h2⟩ := lineRead_spec e
    exact ⟨.inr ⟨a, h1, h2, .inl ⟨hd, rfl, rfl, rfl⟩⟩, hs, hm, rfl⟩
  · next hd =>
    have hd : s.io.disableScache = false := by simpa using hd
    split at h
    · next j hj => cases h; exact ⟨.inl ⟨j, hd, hj, rfl, rfl, rfl, rfl⟩, hs, hm, rfl⟩
    · next hj =>
      obtain ⟨d, u, e, hi⟩ := bind_eq_val h
      obtain ⟨rfl, a, h1, h2⟩ := lineRead_spec e
      obtain ⟨w, v, ei, hr⟩ := bind_eq_val hi
      cases hr
      obtain ⟨h3, h4⟩ := sInstall_spec hs hm ei
      exact ⟨.inr ⟨a, h1, h2, .inr ⟨hd, hj, w, rfl, h3⟩⟩, h4⟩

theorem sFetch_ready {s : State} {k : Access} {p : PAddr} (h : (s.io.disableScache = false ∧ s.sHit p ≠ none) ∨
    ((∃ a, BlockAt s k p a) ∧ (s.io.disableScache = false → SecondaryVictimsReady s p))) :
    ∃ r t, s.sFetch k p = .val r t := by
  unfold State.sFetch
  cases hd : s.io.disableScache with
  | true =>
    rcases h with h | ⟨⟨a, ha⟩, -⟩
    · rw [hd] at h; cases h.1
    · obtain ⟨d, e⟩ := lineRead_ready ha
      exact ⟨_, _, by rw [if_pos rfl, e]; rfl⟩
  | false =>
    rw [if_neg (by decide)]
    cases hh : s.sHit p with
    | some j => exact ⟨_, _, rfl⟩
    | none =>
      rcases h with h | ⟨⟨a, ha⟩, hv⟩
      · exact absurd hh h.2
      · obtain ⟨d, e⟩ := lineRead_ready ha
        obtain ⟨w, t, e2⟩ := sInstall_ready cleanState d (hv hd)
        exact ⟨_, _, by simp only [e, Result.bind, e2]; rfl⟩

/-- A line whose block read gets an error. -/
theorem sFetch_error {s : State} {k : Access} {p : PAddr} (h : s.io.disableScache = true ∨ s.sHit p = none)
    (he : s.busErrorAt k p = true) : s.sFetch k p = .exc (.busError (k == .fetch)) s := by
  cases hd : s.io.disableScache with
  | true => simp only [State.sFetch, hd, if_true, lineRead_error he, Result.bind]
  | false =>
    have hh : s.sHit p = none := by simpa [hd] using h
    simp only [State.sFetch, hd, hh, Bool.false_eq_true, if_false, lineRead_error he, Result.bind]

/-! ### The data cache -/

/-- A hit delivers the line. -/
theorem dEnsure_hit {s : State} {va : DWord} {pa : PAddr} {key : Nat} (k : Access) (h : s.dHit va pa = some key) :
    s.dEnsure k va pa = .val key s := by simp only [State.dEnsure, h]

/-- What a miss leaves, if it completes: the line has come in. -/
theorem dEnsure_spec {s t : State} {k : Access} {va : DWord} {pa : PAddr} {v : Nat} (h : s.dHit va pa = none)
    (hdc : sparseWf DLine.empty s.dcache) (hs : sparseWf SLine.empty s.scache) (hm : Memory.wf s.mem)
    (he : s.dEnsure k va pa = .val v t) : LineFilled s t k va pa v := by
  simp only [State.dEnsure, h] at he
  obtain ⟨r, u, e, he⟩ := bind_eq_val he
  obtain ⟨h1, h2⟩ := sFetch_spec hs hm e
  obtain ⟨d, n, hf⟩ := pickWay_frame u (primarySet va)
  have hw := pickWay_set u (primarySet va)
  simp only [hf] at he
  generalize (u.pickWay (primarySet va)).1 = j at hw he
  obtain ⟨y, x, e2, he⟩ := bind_eq_val he
  cases he
  have hud : u.dcache = s.dcache := by rw [h2.frame]
  have hul : ∀ i, u.dLine i = s.dLine i := fun i => by rw [State.dLine, hud]; rfl
  have hb : BelowStep u x ∧ ((s.dLine v).state = 3 → WrittenBelow u x (s.dLineAddr v) (s.dLine v).data) ∧
      ((s.dLine v).state ≠ 3 → x.scache = u.scache ∧ x.mem = u.mem) := by
    unfold State.dWriteBack at e2
    rw [show ({ u with draws := d, freeCount := n } : State).dLine v = s.dLine v from hul v] at e2
    simp only [] at e2
    split at e2
    · next hd =>
      obtain ⟨h3, h4⟩ := sPut_spec (s := { u with draws := d, freeCount := n }) h2.lines h2.memory e2
      exact ⟨⟨h4.lines, h4.memory, by rw [h4.frame]⟩,
        fun _ => h3.congr ⟨rfl, rfl, rfl, fun _ => rfl⟩ ⟨rfl, rfl, rfl, fun _ => rfl⟩, fun hn => absurd hd hn⟩
    · next hd => cases e2; exact ⟨⟨h2.lines, h2.memory, rfl⟩, fun hn => absurd hn hd, fun _ => ⟨rfl, rfl⟩⟩
  have hxd : x.dcache = s.dcache := by rw [hb.1.frame]; exact hud
  have same : ∀ {z : State}, BelowStep s z → SameBelow z { s with scache := z.scache, mem := z.mem } := fun hz =>
    ⟨rfl, rfl, by rw [hz.frame], fun p => by rw [hz.frame]; rfl⟩
  have fetched : LineFetched s { s with scache := u.scache, mem := u.mem } k (lineBase pa) r.1 r.2 := by
    rcases h1 with h1 | ⟨a, h3, h4, h5 | ⟨h5, h6, w, h7, h8⟩⟩
    · exact .inl h1
    · exact .inr ⟨a, h3, h4, .inl h5⟩
    · exact .inr ⟨a, h3, h4, .inr ⟨h5, h6, w, h7, h8.congr ⟨rfl, rfl, rfl, fun _ => rfl⟩ (same h2)⟩⟩
  refine ⟨hw, ⟨{ s with scache := u.scache, mem := u.mem }, r.1, r.2, rfl, fetched, fun i => ?_, fun hd => ?_,
    hb.2.2⟩, ?_⟩
  · rw [dLine_set (by rw [hxd]; exact hdc)]
    show (if _ then _ else sparseRead DLine.empty i x.dcache) = _
    rw [hxd]; rfl
  · exact (hb.2.1 hd).congr (same h2) ⟨rfl, rfl, rfl, fun _ => rfl⟩
  · rw [hb.1.frame, h2.frame]; rfl

/-- A miss that can be served completes. -/
theorem dEnsure_ready {s : State} {k : Access} {va : DWord} {pa : PAddr} (h : s.dHit va pa = none)
    (hs : sparseWf SLine.empty s.scache) (hm : Memory.wf s.mem) (hr : FillReady s k va pa) :
    ∃ v t, s.dEnsure k va pa = .val v t := by
  obtain ⟨h1, h2⟩ := hr
  obtain ⟨r, u, e⟩ := sFetch_ready h1
  obtain ⟨h3, h4⟩ := sFetch_spec hs hm e
  obtain ⟨d, n, hf⟩ := pickWay_frame u (primarySet va)
  have hw := pickWay_set u (primarySet va)
  have e : s.sFetch k (lineBase pa) = .val r u := e
  simp only [State.dEnsure, h, e, Result.bind, hf]
  generalize (u.pickWay (primarySet va)).1 = v at hw
  have hul : u.dLine v = s.dLine v := by rw [h4.frame]; rfl
  have hio : u.io = s.io := by rw [h4.frame]
  suffices ∃ t, ({ u with draws := d, freeCount := n } : State).dWriteBack v = .val () t by
    obtain ⟨t, ht⟩ := this
    exact ⟨v, t.setDLine v ⟨primaryTag pa, cleanState, r.2, 0, r.1⟩, by simp only [ht]⟩
  unfold State.dWriteBack
  rw [show ({ u with draws := d, freeCount := n } : State).dLine v = s.dLine v from hul]
  simp only []
  split
  · next hd =>
    apply sPut_ready
    have hp := h2 v hw hd
    unfold WritableBelow
    by_cases hx : s.io.disableScache = true
    · rw [if_pos hx] at hp
      rw [if_pos (show u.io.disableScache = true by rw [hio]; exact hx)]
      obtain ⟨a, ha⟩ := hp
      rw [← h4.target] at ha
      exact ⟨a, ha⟩
    · rw [if_neg hx] at hp
      rw [if_neg (show ¬u.io.disableScache = true by rw [hio]; exact hx)]
      intro hn
      have hn : u.sHit (s.dLineAddr v) = none := hn
      suffices SecondaryVictimsReady u (s.dLineAddr v) from this.congr (sameBelow_draws u d n)
      have near : SameBelow s u → SecondaryVictimsReady u (s.dLineAddr v) := fun hsb => by
        rw [hsb.sHit] at hn
        rcases hp with ⟨_, hp⟩ | hp
        · exact absurd hn hp
        · exact hp.congr hsb
      rcases h3 with ⟨_, _, _, _, _, h5, h6⟩ | ⟨_, _, _, ⟨_, _, h5, h6⟩ | ⟨_, h7, w, _, h8⟩⟩
      · exact near ⟨h5, h6, hio, h4.target⟩
      · exact near ⟨h5, h6, hio, h4.target⟩
      · rcases hp with ⟨hp, _⟩ | hp
        · exact absurd h7 hp
        · intro i hi hd'
          have hl := h8.lines i
          by_cases hiw : i = w
          · rw [hl, if_pos hiw] at hd'; cases hd'
          · rw [if_neg hiw] at hl
            rw [State.sLineAddr, hl]
            rw [hl] at hd'
            obtain ⟨a, ha⟩ := hp i hi hd'
            exact ⟨a, by rw [h4.target]; exact ha⟩
  · exact ⟨_, rfl⟩

/-- A line whose block read gets an error is not brought in. -/
theorem dEnsure_error {s : State} {k : Access} {va : DWord} {pa : PAddr} (h : s.dHit va pa = none)
    (hs : s.io.disableScache = true ∨ s.sHit (lineBase pa) = none) (he : s.busErrorAt k (lineBase pa) = true) :
    s.dEnsure k va pa = .exc (.busError (k == .fetch)) s := by
  simp only [State.dEnsure, h, sFetch_error hs he, Result.bind]

/-- A cached store to a line the cache holds, dirty or with its upgrade granted, changes that line alone. -/
theorem cachedWrite_hit {s : State} {va : DWord} {pa : PAddr} {key n : Nat} (v : DWord) (h : s.dHit va pa = some key)
    (hg : (s.dLine key).state = 3 ∨ s.busErrorAt .store (lineBase pa) = false) :
    s.cachedWrite va pa n v = .val () (s.setDLine key { s.dLine key with
      state := 3, data := writeLanes (s.dLine key).data (pa.toNat % 32) n v }) := by
  have : s.upgradeError key pa = false := by rcases hg with h | h <;> simp [State.upgradeError, dirtyState, h]
  simp only [State.cachedWrite, dEnsure_hit _ h, Result.bind, this]
  rfl

/-- One to a clean line whose upgrade gets an error changes nothing. -/
theorem cachedWrite_error {s : State} {va : DWord} {pa : PAddr} {key n : Nat} (v : DWord) (h : s.dHit va pa = some key)
    (hd : (s.dLine key).state ≠ 3) (he : s.busErrorAt .store (lineBase pa) = true) :
    s.cachedWrite va pa n v = .exc (.busError false) s := by
  have : s.upgradeError key pa = true := by simpa [State.upgradeError, dirtyState, he] using hd
  simp only [State.cachedWrite, dEnsure_hit _ h, Result.bind, this, if_true]

/-- The line a miss has brought in is the one a lookup finds. -/
theorem LineFilled.hit {s t : State} {k : Access} {va : DWord} {pa : PAddr} {v : Nat} (h : LineFilled s t k va pa v)
    (hm : s.dHit va pa = none) : t.dHit va pa = some v := by
  obtain ⟨hv, ⟨u, data, way, -, -, hl, -⟩, -⟩ := h
  refine findWay_only hv ?_ fun j hj hh => ?_
  · rw [hl, if_pos rfl]; simp [DLine.holds, primaryTag]
  · by_contra hne
    rw [hl, if_neg hne, findWay_none.1 hm j hj] at hh
    cases hh

end Sys2Proof.Machine
end

