-- ==== Sys2Proof/Laws/CacheOps.lean ====
section
/-! SUPPORT. What the CACHE operations on the data cache do: write-backs of one line in a row, and the flush of the ways
of a set (45_cp0 R483, R491). -/

namespace Sys2Proof.Machine

/-! ### Writing one line back twice -/

/-- A line written back can be written back again: the secondary cache now holds it, or is off. -/
theorem WrittenBelow.writable {s t : State} {p : PAddr} {d : BitVec 256} (h : WrittenBelow s t p d)
    (hw : WritableBelow s p) (hio : t.io = s.io) (ht : ∀ q, t.target q = s.target q) : WritableBelow t p := by
  unfold WritableBelow at hw ⊢
  unfold WrittenBelow at h
  rw [hio]
  split at h
  · next hd => rw [if_pos hd] at hw ⊢; obtain ⟨a, ha⟩ := hw; exact ⟨a, by rw [ht]; exact ha⟩
  · next hd =>
    rw [if_neg hd]
    have holds : ∃ j, j / 4 = secondarySet p ∧ (t.sLine j).holds p = true := by
      split at h
      · next j hj =>
        obtain ⟨h1, h2⟩ := findWay_some hj
        have tag : (s.sLine j).tag = secondaryTag p := by simp [SLine.holds] at h2; exact h2.2
        exact ⟨j, h1, by rw [h.2, if_pos rfl]; simp [SLine.holds, tag]⟩
      · obtain ⟨w, hw'⟩ := h
        exact ⟨w, hw'.way, by rw [hw'.lines, if_pos rfl]; simp [SLine.holds, secondaryTag]⟩
    obtain ⟨j, h1, h2⟩ := holds
    exact fun hn => absurd h2 (by rw [findWay_none.1 hn j h1]; decide)

/-- Two write-backs of one line, one after the other, leave what the second alone would leave. -/
theorem WrittenBelow.again {s t u : State} {p : PAddr} {d e : BitVec 256} (h1 : WrittenBelow s t p d)
    (h2 : WrittenBelow t u p e) (hio : t.io = s.io) (ht : ∀ q, t.target q = s.target q) : WrittenBelow s u p e := by
  unfold WrittenBelow at *
  rw [hio] at h2
  split at h1
  · next hd =>
    rw [if_pos hd] at h2 ⊢
    refine ⟨h2.1.trans h1.1, ?_⟩
    rcases h1.2 with ⟨a, ha, hb⟩ | ⟨⟨a, ha⟩, hb⟩ <;> rcases h2.2 with ⟨a', ha', hb'⟩ | ⟨⟨a', ha'⟩, hb'⟩ <;>
      rw [ht] at ha' <;> rw [ha] at ha' <;> cases ha'
    · refine .inl ⟨a, ha, fun b => ?_⟩
      rw [hb' b]
      split
      · rfl
      · next hn => rw [hb b, if_neg hn]
    · exact .inr ⟨⟨a, ha⟩, fun b => (hb' b).trans (hb b)⟩
  · next hd =>
    rw [if_neg hd] at h2 ⊢
    split at h1
    · next j hj =>
      have hj' : t.sHit p = some j := by
        unfold State.sHit at hj ⊢
        rw [← hj]
        congr 1
        funext i
        rw [h1.2]
        split
        · next hi =>
          subst hi
          have := (findWay_some hj).2
          simp only [SLine.holds] at this ⊢
          simp_all
        · rfl
      rw [hj'] at h2
      refine ⟨fun b => (h2.1 b).trans (h1.1 b), fun i => ?_⟩
      rw [h2.2, h1.2 i, h1.2 j]
      split <;> simp_all
    · next hn =>
      obtain ⟨w, hw⟩ := h1
      have hj' : t.sHit p = some w := by
        refine findWay_only hw.way ?_ fun j hj hh => ?_
        · rw [hw.lines, if_pos rfl]; simp [SLine.holds, secondaryTag]
        · by_contra hne
          rw [hw.lines, if_neg hne, findWay_none.1 hn j hj] at hh
          cases hh
      rw [hj'] at h2
      refine ⟨w, hw.way, fun i => ?_, fun hd b => (h2.1 b).trans (hw.clean hd b), fun hd => ?_⟩
      · rw [h2.2, hw.lines i, hw.lines w]
        split <;> simp_all
      · rcases hw.dirty hd with ⟨a, ha, hb⟩ | ⟨ha, hb⟩
        · exact .inl ⟨a, ha, fun b => (h2.1 b).trans (hb b)⟩
        · exact .inr ⟨ha, fun b => (h2.1 b).trans (hb b)⟩


/-! ### Flushing data lines -/

/-- `t` is `s` with other data and secondary lines, memory and free values, all in canonical form. -/
structure DataStep (s t : State) : Prop where
  dataLines : sparseWf DLine.empty t.dcache
  lines : sparseWf SLine.empty t.scache
  memory : Memory.wf t.mem
  frame : t = { s with
    dcache := t.dcache, scache := t.scache, mem := t.mem, draws := t.draws, freeCount := t.freeCount }

theorem DataStep.target {s t : State} (h : DataStep s t) (p : PAddr) : t.target p = s.target p := by
  rw [h.frame]; rfl

theorem DataStep.trans {s t u : State} (h1 : DataStep s t) (h2 : DataStep t u) : DataStep s u :=
  ⟨h2.dataLines, h2.lines, h2.memory, by rw [h2.frame, h1.frame]⟩

/-- A data line is flushed: it is invalid, and where it was dirty its data has been written back. -/
theorem dFlush_writeBack {s : State} {k : Nat} (hdc : sparseWf DLine.empty s.dcache)
    (hs : sparseWf SLine.empty s.scache) (hm : Memory.wf s.mem)
    (hw : (s.dLine k).state = 3 → WritableBelow s (primaryAddr (s.dLine k).tag k)) :
    ∃ t, dFlush true k s = .val () t ∧ DataStep s t ∧
      (∀ j, t.dLine j = if j = k then { s.dLine k with state := 0 } else s.dLine j) ∧
      ((s.dLine k).state ≠ 3 → t = { s with dcache := t.dcache }) ∧
      ((s.dLine k).state = 3 → WrittenBelow s t (primaryAddr (s.dLine k).tag k) (s.dLine k).data) := by
  by_cases hd : (s.dLine k).state = 3
  · obtain ⟨u, hu⟩ := sPut_ready (s.dLine k).data (hw hd)
    obtain ⟨h1, h2⟩ := sPut_spec hs hm hu
    have hl : u.dcache = s.dcache := by rw [h2.frame]
    have hk : ∀ j, u.dLine j = s.dLine j := fun j => by rw [State.dLine, hl]; rfl
    refine ⟨u.dInvalidate k, ?_, ⟨sparseWf_write _ _ (by rw [hl]; exact hdc), h2.lines, h2.memory, ?_⟩,
      fun j => ?_, fun hn => absurd hd hn, fun _ => h1.congr ⟨rfl, rfl, rfl, fun _ => rfl⟩ ⟨rfl, rfl, rfl, fun _ => rfl⟩⟩
    · have hd' : (s.dLine k).state = dirtyState := hd
      simp only [dFlush, if_true, State.dWriteBack, hd', hu, Result.bind]
    · unfold State.dInvalidate State.setDLine; rw [h2.frame]
    · rw [State.dInvalidate, dLine_set (by rw [hl]; exact hdc), hk, hk]
  · refine ⟨s.dInvalidate k, ?_, ⟨sparseWf_write _ _ hdc, hs, hm, rfl⟩, fun j => dLine_set hdc .., fun _ => rfl,
      fun h => absurd h hd⟩
    have hd' : ¬(s.dLine k).state = dirtyState := hd
    simp only [dFlush, if_true, State.dWriteBack, hd', if_false, Result.bind]

/-- Hit WriteBack Invalidate over rising ways, where all those that hold `pa` are lines of `p`: they are all invalid,
and of the dirty ones the last is what has been written back (45_cp0 R491). -/
theorem dFlushHits_writeBack {pa p : PAddr} : ∀ (ks : List Nat) (s : State), ks.Pairwise (· < ·) →
    (∀ k ∈ ks, (s.dLine k).holds pa = true → primaryAddr (s.dLine k).tag k = p) →
    sparseWf DLine.empty s.dcache → sparseWf SLine.empty s.scache → Memory.wf s.mem → WritableBelow s p →
    ∃ t, dFlushHits true pa ks s = .val () t ∧ DataStep s t ∧
      (∀ j, t.dLine j = if j ∈ ks ∧ (s.dLine j).holds pa = true then { s.dLine j with state := 0 } else s.dLine j) ∧
      ((∀ k ∈ ks, (s.dLine k).holds pa = true → (s.dLine k).state ≠ 3) → t = { s with dcache := t.dcache }) ∧
      ∀ k ∈ ks, (s.dLine k).holds pa = true → (s.dLine k).state = 3 →
        (∀ j ∈ ks, k < j → (s.dLine j).holds pa = true → (s.dLine j).state ≠ 3) →
        WrittenBelow s t p (s.dLine k).data
  | [], s, _, _, hdc, hs, hm, _ =>
    ⟨s, rfl, ⟨hdc, hs, hm, rfl⟩, fun j => by simp, fun _ => rfl, fun k hk => by simp at hk⟩
  | k :: ks, s, hsort, ha, hdc, hs, hm, hw => by
    obtain ⟨hlt, hsort⟩ := List.pairwise_cons.1 hsort
    by_cases hk : (s.dLine k).holds pa = true
    · have hp := ha k (by simp) hk
      obtain ⟨u, e, h1, h2, h3, h4⟩ := dFlush_writeBack (k := k) hdc hs hm (fun _ => by rw [hp]; exact hw)
      rw [hp] at h4
      have hio : u.io = s.io := by rw [h1.frame]
      have other : ∀ j ∈ ks, u.dLine j = s.dLine j := fun j hj => by
        rw [h2, if_neg (Nat.ne_of_gt (hlt j hj))]
      have hw' : WritableBelow u p := by
        by_cases hd : (s.dLine k).state = 3
        · exact (h4 hd).writable hw hio h1.target
        · rw [h3 hd]; exact hw
      obtain ⟨t, e', g1, g2, g3, g4⟩ := dFlushHits_writeBack ks u hsort
        (fun j hj hh => by rw [other j hj] at hh ⊢; exact ha j (by simp [hj]) hh) h1.dataLines h1.lines h1.memory hw'
      refine ⟨t, ?_, h1.trans g1, fun j => ?_, fun hn => ?_, fun i hi hh hd hlast => ?_⟩
      · show Result.bind _ _ = _
        simp only [hk, if_true, e, Result.bind]
        exact e'
      · rw [g2]
        by_cases hj : j ∈ ks
        · simp only [other j hj, hj, List.mem_cons, or_true]
        · rw [if_neg (by simp [hj]), h2]
          by_cases hjk : j = k
          · subst hjk; simp [hk]
          · simp [hj, hjk]
      · have hd := hn k (by simp) hk
        have := g3 fun j hj hh => by rw [other j hj] at hh ⊢; exact hn j (by simp [hj]) hh
        rw [this, h3 hd]
      · have clean : (∀ j ∈ ks, (s.dLine j).holds pa = true → (s.dLine j).state ≠ 3) →
            t = { u with dcache := t.dcache } := fun hc => g3 fun j hj hh => by rw [other j hj] at hh ⊢; exact hc j hj hh
        rcases List.mem_cons.1 hi with rfl | hi
        · have := clean fun j hj hh => hlast j (by simp [hj]) (hlt j hj) hh
          refine (h4 hd).congr ⟨rfl, rfl, rfl, fun _ => rfl⟩ ?_
          rw [this]; exact ⟨rfl, rfl, rfl, fun _ => rfl⟩
        · have hwr := g4 i hi (by rw [other i hi]; exact hh) (by rw [other i hi]; exact hd)
            fun j hj hij hh' => by rw [other j hj] at hh' ⊢; exact hlast j (by simp [hj]) hij hh'
          rw [other i hi] at hwr
          by_cases hdk : (s.dLine k).state = 3
          · exact (h4 hdk).again hwr hio h1.target
          · refine hwr.congr ?_ ⟨rfl, rfl, rfl, fun _ => rfl⟩
            rw [h3 hdk]; exact ⟨rfl, rfl, rfl, fun _ => rfl⟩
    · obtain ⟨t, e', g1, g2, g3, g4⟩ := dFlushHits_writeBack ks s hsort (fun j hj => ha j (by simp [hj])) hdc hs hm hw
      refine ⟨t, ?_, g1, fun j => ?_, fun hn => g3 fun j hj => hn j (by simp [hj]), fun i hi hh hd hlast => ?_⟩
      · show Result.bind _ _ = _
        simp only [hk, Result.bind]
        exact e'
      · rw [g2]
        by_cases hjk : j = k
        · subst hjk; simp [hk]
        · simp [hjk]
      · rcases List.mem_cons.1 hi with rfl | hi
        · exact absurd hh hk
        · exact g4 i hi hh hd fun j hj => hlast j (by simp [hj])

end Sys2Proof.Machine
end

