-- ==== Sys2Proof/Laws/Decode.lean ====
section
/-! SUPPORT. The fields of a word: taking apart what was put together, and the other way round. -/

namespace Sys2Proof

/-- The fields of the word with fields `f` are `f`. -/
theorem fieldsOf_wordOf (f : Fields) : fieldsOf (wordOf f) = f := by
  obtain ⟨op, rs, rt, rd, sa, funct⟩ := f
  simp only [fieldsOf, wordOf, Fields.mk.injEq]
  refine ⟨?_, ?_, ?_, ?_, ?_, ?_⟩ <;>
  · ext i hi
    simp only [BitVec.getElem_extractLsb', BitVec.getLsbD_append]
    repeat' first | rw [if_neg (by omega)] | rw [if_pos (by omega)]
    simp only [← BitVec.getLsbD_eq_getElem]
    congr 1; omega

/-- The word with the fields of `w` is `w`. -/
theorem wordOf_fieldsOf (w : Word) : wordOf (fieldsOf w) = w := by
  apply BitVec.eq_of_getLsbD_eq
  intro i hi
  simp only [fieldsOf, wordOf, BitVec.getLsbD_append, BitVec.getLsbD_extractLsb']
  split
  · simp [*]
  · split
    · simp only [*, decide_true, Bool.true_and]; congr 1; omega
    · split
      · simp only [*, decide_true, Bool.true_and]; congr 1; omega
      · split
        · simp only [*, decide_true, Bool.true_and]; congr 1; omega
        · split
          · simp only [*, decide_true, Bool.true_and]; congr 1; omega
          · rw [decide_eq_true (by omega), Bool.true_and]; congr 1; omega

/-- The immediate of an I-type word. -/
theorem imm_iType (op : BitVec 6) (rs rt : BitVec 5) (imm : Half) : (iType op rs rt imm).imm = imm := by
  apply BitVec.eq_of_getLsbD_eq
  intro i hi
  simp only [Fields.imm, iType, BitVec.getLsbD_append, BitVec.getLsbD_extractLsb']
  split
  · simp [*]
  · split
    · simp only [*, decide_true, Bool.true_and]; congr 1; omega
    · rw [decide_eq_true (by omega), Bool.true_and]; congr 1; omega

/-- The target of a J-type word. -/
theorem target_jType (op : BitVec 6) (t : BitVec 26) : (jType op t).target = t := by
  apply BitVec.eq_of_getLsbD_eq
  intro i hi
  simp only [Fields.target, jType, BitVec.getLsbD_append, BitVec.getLsbD_extractLsb']
  split
  · simp [*]
  · split
    · simp only [*, decide_true, Bool.true_and]; congr 1; omega
    · split
      · simp only [*, decide_true, Bool.true_and]; congr 1; omega
      · split
        · simp only [*, decide_true, Bool.true_and]; congr 1; omega
        · rw [decide_eq_true (by omega), Bool.true_and]; congr 1; omega

/-- The code of SYSCALL and BREAK. -/
theorem code20_code20Type (c : BitVec 20) (funct : BitVec 6) : (code20Type c funct).code20 = c := by
  apply BitVec.eq_of_getLsbD_eq
  intro i hi
  simp only [Fields.code20, code20Type, BitVec.getLsbD_append, BitVec.getLsbD_extractLsb']
  split
  · simp [*]
  · split
    · simp only [*, decide_true, Bool.true_and]; congr 1; omega
    · split
      · simp only [*, decide_true, Bool.true_and]; congr 1; omega
      · rw [decide_eq_true (by omega), Bool.true_and]; congr 1; omega

/-- The code of the register traps. -/
theorem code10_code10Type (rs rt : BitVec 5) (c : BitVec 10) (funct : BitVec 6) :
    (code10Type rs rt c funct).code10 = c := by
  apply BitVec.eq_of_getLsbD_eq
  intro i hi
  simp only [Fields.code10, code10Type, BitVec.getLsbD_append, BitVec.getLsbD_extractLsb']
  split
  · simp [*]
  · rw [decide_eq_true (by omega), Bool.true_and]; congr 1; omega

end Sys2Proof
end

