-- ==== Sys2Proof/Laws/Devices.lean ====
section
/-! SUPPORT. What answers on the bus: memory and the device registers, for the core and for the PCI masters. -/

namespace Sys2Proof.Machine
variable {s : State} {T : Target} {off n : Nat} {v : DWord}

theorem whb_iff : whb n = true ↔ n = 1 ∨ n = 2 ∨ n = 4 := by simp [whb, or_assoc]

/-- The accesses of a PCI master that are made at all. -/
theorem naturalAccess_iff {a : DWord} : naturalAccess a n = true ↔ n ∈ [1, 2, 4, 8] ∧ a.toNat % n = 0 := by
  simp [naturalAccess, whb]; omega

/-- The bits of a word with some bytes replaced. -/
theorem writeLanes_bit (x : Word) {b : Nat} (hb : b < 32) (hn : n = 1 ∨ n = 2 ∨ n = 4) :
    (writeLanes x off n v).getLsbD b =
      if 8 * off ≤ b ∧ b < 8 * (off + n) then v.getLsbD (b - 8 * off) else x.getLsbD b := by
  have hlow : ∀ j, (BitVec.ofNat 32 (2 ^ (8 * n) - 1)).getLsbD j = (decide (j < 32) && decide (j < 8 * n)) := fun j => by
    rw [BitVec.getLsbD_ofNat, Nat.testBit_two_pow_sub_one]
  have hlow' : ∀ j, (BitVec.ofNat 64 (2 ^ (8 * n) - 1)).getLsbD j = (decide (j < 64) && decide (j < 8 * n)) := fun j => by
    rw [BitVec.getLsbD_ofNat, Nat.testBit_two_pow_sub_one]
  have h8 : 8 * n ≤ 32 := by omega
  simp only [writeLanes, maskedWrite, lowBytes, BitVec.getLsbD_or, BitVec.getLsbD_and, BitVec.getLsbD_not,
    BitVec.getLsbD_shiftLeft, BitVec.getLsbD_setWidth, hlow, hlow', hb, decide_true, Bool.true_and]
  by_cases h1 : 8 * off ≤ b
  · by_cases h2 : b < 8 * (off + n)
    · rw [if_pos ⟨h1, h2⟩]
      simp [show ¬b < 8 * off by omega, show b - 8 * off < 8 * n by omega, show b - 8 * off < 32 by omega,
        show b - 8 * off < 64 by omega]
    · rw [if_neg (by omega)]
      simp [show ¬b < 8 * off by omega, show ¬b - 8 * off < 8 * n by omega]
  · rw [if_neg (by omega)]
    simp [show b < 8 * off by omega]

/-- The writable bits of a word with some bytes replaced. -/
theorem maskedLanes_bit (m x : Word) {b : Nat} (hb : b < 32) (hn : n = 1 ∨ n = 2 ∨ n = 4) :
    (maskedWrite m x (writeLanes x off n v)).getLsbD b =
      if decide (8 * off ≤ b ∧ b < 8 * (off + n)) && m.getLsbD b then v.getLsbD (b - 8 * off) else x.getLsbD b := by
  simp only [maskedWrite, BitVec.getLsbD_or, BitVec.getLsbD_and, BitVec.getLsbD_not, writeLanes_bit x hb hn, hb,
    decide_true, Bool.true_and]
  by_cases h : 8 * off ≤ b ∧ b < 8 * (off + n) <;> cases m.getLsbD b <;> simp [h]

/-- Bytes put into a word of zeros, under a mask. -/
theorem putLanes_bit (m : Word) {b : Nat} (hb : b < 32) (hn : n = 1 ∨ n = 2 ∨ n = 4) :
    (writeLanes (0 : Word) off n v &&& m).getLsbD b =
      (decide (8 * off ≤ b ∧ b < 8 * (off + n)) && m.getLsbD b && v.getLsbD (b - 8 * off)) := by
  rw [BitVec.getLsbD_and, writeLanes_bit _ hb hn]
  by_cases h : 8 * off ≤ b ∧ b < 8 * (off + n) <;> simp [h, Bool.and_comm]

theorem ddrWrite_same (ddr : Vector DWord 29) (i : Fin 29) (v : DWord) :
    (ddrWrite ddr i v)[i] = (ddr[i] &&& ddrFixed i) ||| (v &&& ~~~ddrFixed i) := by
  unfold ddrWrite
  simp only [Fin.getElem_fin]
  split
  · next h =>
    have : i.val ≠ 16 := by rw [h.1]; decide
    rw [Vector.getElem_set_ne _ _ this.symm, Vector.getElem_set_self, maskedWrite, BitVec.not_not]
  · rw [Vector.getElem_set_self, maskedWrite, BitVec.not_not]

theorem ddrWrite_other (ddr : Vector DWord 29) (i : Fin 29) (v : DWord) {j : Fin 29} (hj : j ≠ i) :
    (ddrWrite ddr i v)[j] =
      if i = 3 ∧ v.getLsbD 40 = true ∧ j = 16 then ddr[j] ||| 0x0500000000000000 else ddr[j] := by
  have hne : i.val ≠ j.val := fun e => hj (Fin.ext e.symm)
  unfold ddrWrite bit
  simp only [Fin.getElem_fin]
  split
  · next h =>
    by_cases h16 : j = 16
    · subst h16
      exact ((Vector.getElem_set_self _).trans (congrArg (· ||| _) (Vector.getElem_set_ne _ _ hne))).trans
        (if_pos ⟨h.1, h.2, rfl⟩).symm
    · exact ((Vector.getElem_set_ne _ _ fun e => h16 (Fin.ext e.symm)).trans (Vector.getElem_set_ne _ _ hne)).trans
        (if_neg fun hh => h16 hh.2.2).symm
  · next h => exact (Vector.getElem_set_ne _ _ hne).trans (if_neg fun hh => h ⟨hh.1, hh.2.1⟩).symm

/-- What a store to the register block leaves. -/
theorem regWrite_stored {i : Fin 64} (h : n = 1 ∨ n = 2 ∨ n = 4) : Stored s (s.regWrite i off n v) (.regs i) off n v := by
  have mask : ∀ b, (regMask 14).getLsbD b = decide (b < 11) := fun b => by
    show (BitVec.ofNat 32 (2 ^ 11 - 1)).getLsbD b = _
    rw [BitVec.getLsbD_ofNat, Nat.testBit_two_pow_sub_one]
    by_cases hb : b < 11 <;> simp [hb]; omega
  by_cases h12 : i = 12
  · subst h12
    refine ⟨fun _ => ⟨fun b hb => ?_, fun j hj => ?_, rfl⟩, fun e => absurd e (by decide), fun e => absurd rfl e, rfl⟩
    · show ((s.io.regs.set 14 _)[14]).getLsbD b = _
      rw [Vector.getElem_set_self, BitVec.getLsbD_or, putLanes_bit _ hb h, mask]
    · exact Vector.getElem_set_ne (by omega) (by omega) fun e => hj (Fin.ext e.symm)
  · by_cases h13 : i = 13
    · subst h13
      refine ⟨fun e => absurd e (by decide), fun _ => ⟨fun b hb => ?_, fun b hb => ?_, fun j hj => ?_⟩,
        fun _ e => absurd rfl e, rfl⟩
      · show ((s.io.regs.set 14 _)[14]).getLsbD b = _
        rw [Vector.getElem_set_self, BitVec.getLsbD_and, BitVec.getLsbD_not, putLanes_bit _ hb h, mask]
        simp [hb]
      · show (s.io.intLatch &&& ~~~(writeLanes (0 : Word) off n v).setWidth 15).getLsbD b = _
        rw [BitVec.getLsbD_and, BitVec.getLsbD_not, BitVec.getLsbD_setWidth, writeLanes_bit _ (by omega) h]
        by_cases hp : 8 * off ≤ b ∧ b < 8 * (off + n) <;> simp [hp, hb]
      · exact Vector.getElem_set_ne (by omega) (by omega) fun e => hj (Fin.ext e.symm)
    · unfold State.regWrite
      rw [if_neg h12, if_neg h13]
      refine ⟨fun e => absurd e h12, fun e => absurd e h13, fun _ _ => ⟨fun b hb => ?_, fun j hj => ?_, fun b hb => ?_⟩,
        rfl⟩
      · show ((s.io.regs.set i _)[i]).getLsbD b = _
        rw [Fin.getElem_fin, Vector.getElem_set_self]
        exact maskedLanes_bit _ _ hb h
      · exact Vector.getElem_set_ne (by omega) (by omega) fun e => hj (Fin.ext e.symm)
      · simp only [latchEdges, intLevel, IoRegs.intedge, IoRegs.intpol, BitVec.getLsbD_or, BitVec.getLsbD_and,
          BitVec.getLsbD_not, BitVec.getLsbD_xor, BitVec.getLsbD_extractLsb', hb, decide_true, Bool.true_and, Nat.zero_add]
        congr 1
        generalize (IoRegs.setReg _ _ _).regs[9].getLsbD b = x
        generalize (IoRegs.setReg _ _ _).regs[11].getLsbD b = y
        generalize s.io.regs[11].getLsbD b = z
        cases x <;> cases y <;> cases z <;> cases s.pins.getLsbD b <;> rfl

/-- The bytes read from some places of a word. -/
theorem readLanes_byte (x : Word) {j : Nat} (hj : j < n) (hn : n = 1 ∨ n = 2 ∨ n = 4) :
    byteOf (readLanes x off n) j = byteOf x (off + j) := by
  apply BitVec.eq_of_getLsbD_eq
  intro i hi
  have : (BitVec.ofNat 64 (2 ^ (8 * n) - 1)).getLsbD (8 * j + i) = true := by
    rw [BitVec.getLsbD_ofNat, Nat.testBit_two_pow_sub_one]
    simp; omega
  simp only [byteOf, readLanes, lowBytes, BitVec.getLsbD_extractLsb', BitVec.getLsbD_and, BitVec.getLsbD_setWidth,
    BitVec.getLsbD_ushiftRight, this, hi, decide_true, Bool.true_and, Bool.and_true,
    show 8 * j + i < 64 by omega, show 8 * off + (8 * j + i) = 8 * (off + j) + i by omega]

/-- What a read that its target takes gets. -/
theorem targetRead_spec (h : T.Takes n) (hn : n ≤ 8) :
    ∃ x, s.targetRead T off n = .val x s ∧ Answers s T off n x := by
  cases T with
  | dram a => exact ⟨_, rfl, fun j hj => by rw [byteOf_readLe _ _ _ _ (by omega), if_pos hj]⟩
  | rom a => exact ⟨_, rfl, fun j hj => by rw [byteOf_readLe _ _ _ _ (by omega), if_pos hj]⟩
  | window i => exact ⟨_, if_pos h, rfl⟩
  | ddr i => exact ⟨_, if_pos h, rfl⟩
  | header i => exact ⟨_, if_pos (whb_iff.2 h), fun j hj => readLanes_byte _ hj h⟩
  | regs i => exact ⟨_, if_pos (whb_iff.2 h), fun j hj => readLanes_byte _ hj h⟩
  | outside r => exact h.elim
  | hole => exact h.elim

/-- A read that its target does not take stops. -/
theorem targetRead_stop (h : ¬T.Takes n) (k : DWord → State → Out) : (s.targetRead T off n).andThen k = T.stop := by
  cases T with
  | dram a => exact (h trivial).elim
  | rom a => exact (h trivial).elim
  | window i => rw [State.targetRead]; simp only [if_neg (show ¬n = 8 from h)]; rfl
  | ddr i => rw [State.targetRead]; simp only [if_neg (show ¬n = 8 from h)]; rfl
  | header i => rw [State.targetRead]; simp only [if_neg (show ¬whb n = true from fun e => h (whb_iff.1 e))]; rfl
  | regs i => rw [State.targetRead]; simp only [if_neg (show ¬whb n = true from fun e => h (whb_iff.1 e))]; rfl
  | outside r => rfl
  | hole => rfl

/-- What a store that its target takes leaves. -/
theorem targetWrite_spec (hm : Memory.wf s.mem) (h : T.Takes n) :
    ∃ t, s.targetWrite T off n v = .val () t ∧ Stored s t T off n v := by
  cases T with
  | dram a => exact ⟨_, rfl, bytesStored_writeLe s a v n hm, rfl⟩
  | rom a => exact ⟨_, rfl, rfl⟩
  | window i =>
    refine ⟨_, if_pos h, ?_, fun j hj => ?_, rfl⟩
    · exact Vector.getElem_set_self _
    · exact Vector.getElem_set_ne (by omega) (by omega) fun e => hj (Fin.ext e.symm)
  | ddr i =>
    refine ⟨_, if_pos h, ddrWrite_same .., fun j hj => ddrWrite_other _ _ _ hj, rfl⟩
  | header i =>
    refine ⟨_, if_pos (whb_iff.2 h), fun b hb => ?_, fun j hj => ?_, rfl⟩
    · show ((s.io.header.set i _)[i]).getLsbD b = _
      rw [Fin.getElem_fin, Vector.getElem_set_self]
      exact maskedLanes_bit _ _ hb h
    · exact Vector.getElem_set_ne (by omega) (by omega) fun e => hj (Fin.ext e.symm)
  | regs i => exact ⟨_, if_pos (whb_iff.2 h), regWrite_stored h⟩
  | outside r => exact h.elim
  | hole => exact h.elim

/-- A store that its target does not take stops. -/
theorem targetWrite_stop (h : ¬T.Takes n) (k : Unit → State → Out) :
    (s.targetWrite T off n v).andThen k = T.stop := by
  cases T with
  | dram a => exact (h trivial).elim
  | rom a => exact (h trivial).elim
  | window i => rw [State.targetWrite]; simp only [if_neg (show ¬n = 8 from h)]; rfl
  | ddr i => rw [State.targetWrite]; simp only [if_neg (show ¬n = 8 from h)]; rfl
  | header i => rw [State.targetWrite]; simp only [if_neg (show ¬whb n = true from fun e => h (whb_iff.1 e))]; rfl
  | regs i => rw [State.targetWrite]; simp only [if_neg (show ¬whb n = true from fun e => h (whb_iff.1 e))]; rfl
  | outside r => rfl
  | hole => rfl

end Sys2Proof.Machine
end

