-- ==== Sys2Proof/Laws/Flow.lean ====
section
/-! SUPPORT. What jumps, branches and traps do, taken or not. -/

namespace Sys2Proof.Machine

/-- A jump or branch outside a delay slot. -/
theorem flowResult_branch {s : State} (likely taken : Bool) (t : DWord) (h : s.delay = none) :
    FlowResult (branch likely taken t s) s (if likely && !taken then s.pc + 8 else s.pc + 4)
      (if taken then some t else if likely then none else some (s.pc + 8)) 0 0 := by
  refine ⟨_, by simp only [branch, h]; rfl, ?_, ?_, ?_, ?_, ?_⟩ <;> cases taken <;> cases likely <;>
    simp [GprIs, State.branchTo, State.skipSlot, SameMemory, State.r]

/-- The same with a link. -/
theorem flowResult_link {s : State} (likely taken : Bool) (rd : RegNum) (t : DWord) (h : s.delay = none) :
    FlowResult (branchLink likely taken rd t s) s (if likely && !taken then s.pc + 8 else s.pc + 4)
      (if taken then some t else if likely then none else some (s.pc + 8)) rd (s.pc + 8) := by
  obtain ⟨u, hu, hg, hp, hd, hm, hf⟩ := flowResult_branch (s := s.setR rd s.linkValue) likely taken t (by simp [h])
  refine ⟨u, hu, ?_, ?_, ?_, ?_, ?_⟩
  · intro i; rw [hg i]; simp; exact r_setR ..
  · simpa using hp
  · simpa using hd
  · intro a; rw [hm]; simp
  · rw [hf]; unfold State.setR; split <;> rfl

/-- A branch in a delay slot stops. -/
theorem branch_in_slot {s : State} {d : DWord} (likely taken : Bool) (t : DWord) (h : s.delay = some d) :
    branch likely taken t s = .fault .branchInDelaySlot := by simp [branch, h]

/-- The sign test of the branches. -/
theorem negative_iff (s : State) (i : RegNum) : s.negative i = true ↔ (s.r i).toInt < 0 := by
  rw [State.negative, BitVec.msb_eq_toInt]; simp

/-- The test of BLEZ. -/
theorem notPositive_iff (s : State) (i : RegNum) : (s.negative i || decide (s.r i = 0)) = true ↔ (s.r i).toInt ≤ 0 := by
  have := negative_iff s i
  have h0 : s.r i = 0 ↔ (s.r i).toInt = 0 := by rw [← BitVec.toInt_inj]; rfl
  simp only [Bool.or_eq_true, decide_eq_true_eq, this, h0]; omega

/-- A branch on CC0 with CU1 set. -/
theorem branchFp_eq {s : State} (l b : Bool) (t : DWord) (hc : s.cu1 = true) : branchFp l b t s = branch l b t s :=
  withFpu_enabled hc

/-- What a conditional trap does. -/
theorem trapIf_spec {s : State} {c : Prop} {b : Bool} (h : b = true ↔ c) :
    (c → Traps (trapIf b s) s 13 0) ∧ (¬c → OnlyAdvances (trapIf b s) s) := by
  constructor
  · intro hc; rw [h.2 hc]; exact traps_raise .trap s rfl rfl
  · intro hc; have : b = false := by simpa [hc] using h
    rw [this]; exact onlyAdvances_done s

end Sys2Proof.Machine
end

