-- ==== Sys2Proof/Laws/Forms.lean ====
section
/-! SUPPORT. Loads and stores of every form: one access, and what follows it. -/

namespace Sys2Proof.Machine
variable {s : State} {base rt : RegNum} {o : Half} {i : Instr} {n back m : Nat} {v va : DWord}

/-! ### Addresses -/

theorem inWord_eq (va : DWord) : inWord va = va.toNat % 4 := by simp [inWord]
theorem inDouble_eq (va : DWord) : inDouble va = va.toNat % 8 := by simp [inDouble]

/-- Clearing the low bits of an address. -/
theorem and_not_low (va : DWord) (k : Nat) :
    (va &&& ~~~BitVec.ofNat 64 (2 ^ k - 1)).toNat = va.toNat - va.toNat % 2 ^ k := by
  have e : (va &&& ~~~BitVec.ofNat 64 (2 ^ k - 1)).toNat = 2 ^ k * (va.toNat / 2 ^ k) := by
    apply Nat.eq_of_testBit_eq
    intro i
    rw [Nat.testBit_two_pow_mul, Nat.testBit_div_two_pow]
    by_cases hi : i < 64
    · change (va &&& ~~~BitVec.ofNat 64 (2 ^ k - 1)).getLsbD i = (decide (i ≥ k) && va.getLsbD (i - k + k))
      rw [BitVec.getLsbD_and, BitVec.getLsbD_not, BitVec.getLsbD_ofNat, Nat.testBit_two_pow_sub_one]
      by_cases h : k ≤ i
      · rw [show i - k + k = i by omega]; simp [hi, h]
      · simp [hi, h]; omega
    · change (va &&& ~~~BitVec.ofNat 64 (2 ^ k - 1)).getLsbD i = (decide (i ≥ k) && va.getLsbD (i - k + k))
      by_cases h : k ≤ i
      · rw [show i - k + k = i by omega, BitVec.getLsbD_of_ge _ _ (by omega), BitVec.getLsbD_of_ge _ _ (by omega)]; simp
      · rw [BitVec.getLsbD_of_ge _ _ (by omega)]; simp [h]
  have := Nat.div_add_mod va.toNat (2 ^ k)
  omega

theorem wordBase_toNat (va : DWord) : (wordBase va).toNat = va.toNat - va.toNat % 4 := and_not_low va 2
theorem doubleBase_toNat (va : DWord) : (doubleBase va).toNat = va.toNat - va.toNat % 8 := and_not_low va 3

/-! ### The shape of a form -/

/-- `t` differs from `s` in the data caches, memory and the free values alone. -/
def SameCore (s t : State) : Prop :=
  t = { s with dcache := t.dcache, scache := t.scache, mem := t.mem, draws := t.draws, freeCount := t.freeCount }

theorem SameCore.ea {s t : State} (h : SameCore s t) (base : RegNum) (o : Half) :
    t.ea base o = s.r base + o.signExtend 64 := by rw [h]; rfl

theorem loadGpr_shape (m : Nat) (f : DWord → DWord) (hr : rt ≠ 0) (hv : s.r base + o.signExtend 64 = va)
    (ha : va.toNat % m = 0) {t : State} (ht : SameCore s t) : loadGpr m f base rt o t =
      (t.loadBytes va va m).andThen fun x t => done (t.setR rt (f x)) := by
  rw [loadGpr, if_neg hr, ht.ea, hv, State.load, aligned, if_pos (decide_eq_true ha)]

theorem loadLinked_shape (m : Nat) (f : DWord → DWord) (hr : rt ≠ 0) (hv : s.r base + o.signExtend 64 = va)
    (ha : va.toNat % m = 0) {t : State} (ht : SameCore s t) : loadLinked m f base rt o t =
      (t.loadBytes va va m).andThen fun x t => done ((t.setR rt (f x)).setLlbit true) := by
  rw [loadLinked, if_neg hr, ht.ea, hv, State.load, aligned, if_pos (decide_eq_true ha)]

theorem loadPart_shape (b : DWord → DWord) (c : DWord → Nat) (f) (hr : rt ≠ 0)
    (hv : s.r base + o.signExtend 64 = va) {t : State} (ht : SameCore s t) : loadPart base rt o b c f t =
      (t.loadBytes va (b va) (c va)).andThen fun x t => done (t.setR rt (f va x (t.r rt))) := by
  simp only [loadPart, if_neg hr, ht.ea, hv]

/-- Every load that may run reads its bytes and goes on with them, whatever the caches, memory and the free values. -/
theorem LoadForm.exec (h : LoadForm s base rt o i n back m) (hv : s.r base + o.signExtend 64 = va)
    (ha : va.toNat % n = 0) : ∃ (va0 : DWord) (cont : DWord → State → Out),
      va0.toNat = va.toNat - back ∧ back ≤ va.toNat % 8 ∧
      ∀ t, SameCore s t → Machine.exec i t = (t.loadBytes va va0 m).andThen cont := by
  cases h with
  | lb hr => exact ⟨va, _, rfl, Nat.zero_le _, fun t ht => loadGpr_shape 1 _ hr hv ha ht⟩
  | lbu hr => exact ⟨va, _, rfl, Nat.zero_le _, fun t ht => loadGpr_shape 1 _ hr hv ha ht⟩
  | lh hr => exact ⟨va, _, rfl, Nat.zero_le _, fun t ht => loadGpr_shape 2 _ hr hv ha ht⟩
  | lhu hr => exact ⟨va, _, rfl, Nat.zero_le _, fun t ht => loadGpr_shape 2 _ hr hv ha ht⟩
  | lw hr => exact ⟨va, _, rfl, Nat.zero_le _, fun t ht => loadGpr_shape 4 _ hr hv ha ht⟩
  | lwu hr => exact ⟨va, _, rfl, Nat.zero_le _, fun t ht => loadGpr_shape 4 _ hr hv ha ht⟩
  | ld hr => exact ⟨va, _, rfl, Nat.zero_le _, fun t ht => loadGpr_shape 8 _ hr hv ha ht⟩
  | lwl hr =>
    rw [hv, ← inWord_eq]
    exact ⟨wordBase va, fun x t => done (t.setR rt (mergeWordLeft va x (t.r rt))),
      by rw [wordBase_toNat, inWord_eq], by rw [inWord_eq]; omega,
      fun t ht => loadPart_shape wordBase (fun va => inWord va + 1) mergeWordLeft hr hv ht⟩
  | lwr hr =>
    rw [hv, ← inWord_eq]
    exact ⟨va, fun x t => done (t.setR rt (mergeWordRight va x (t.r rt))), rfl, Nat.zero_le _,
      fun t ht => loadPart_shape (fun va => va) (fun va => 4 - inWord va) mergeWordRight hr hv ht⟩
  | ldl hr =>
    rw [hv, ← inDouble_eq]
    exact ⟨doubleBase va, fun x t => done (t.setR rt (mergeDoubleLeft va x (t.r rt))),
      by rw [doubleBase_toNat, inDouble_eq], Nat.le_refl _,
      fun t ht => loadPart_shape doubleBase (fun va => inDouble va + 1) mergeDoubleLeft hr hv ht⟩
  | ldr hr =>
    rw [hv, ← inDouble_eq]
    exact ⟨va, fun x t => done (t.setR rt (mergeDoubleRight va x (t.r rt))), rfl, Nat.zero_le _,
      fun t ht => loadPart_shape (fun va => va) (fun va => 8 - inDouble va) mergeDoubleRight hr hv ht⟩
  | ll hr => exact ⟨va, _, rfl, Nat.zero_le _, fun t ht => loadLinked_shape 4 _ hr hv ha ht⟩
  | lld hr => exact ⟨va, _, rfl, Nat.zero_le _, fun t ht => loadLinked_shape 8 _ hr hv ha ht⟩
  | lwc1 hc =>
    refine ⟨va, fun m t => done (t.setF32 rt (low32 m)), rfl, Nat.zero_le _, fun t ht => ?_⟩
    show withFpu t ((t.load (t.ea base o) 4).andThen _) = _
    rw [withFpu_enabled (by rw [ht]; exact hc), ht.ea, hv, State.load, aligned, if_pos (decide_eq_true ha)]
  | ldc1 hc =>
    refine ⟨va, fun m t => done (t.setF64 rt m), rfl, Nat.zero_le _, fun t ht => ?_⟩
    show withFpu64 t [rt] ((t.load (t.ea base o) 8).andThen _) = _
    rw [withFpu64_ready (by rw [ht]; exact hc.1) (by rw [ht]; exact List.all_eq_true.2 hc.2), ht.ea, hv, State.load,
      aligned, if_pos (decide_eq_true ha)]

theorem storeGpr_shape (m : Nat) (hv : s.r base + o.signExtend 64 = va)
    (ha : va.toNat % m = 0) {t : State} (ht : SameCore s t) : storeGpr m base rt o t =
      (t.storeBytes va va m (s.r rt)).andThen fun _ t => done t := by
  rw [storeGpr, ht.ea, hv, State.store, aligned, if_pos (decide_eq_true ha), show t.r rt = s.r rt by rw [ht]; rfl]

theorem storePart_shape (b : DWord → DWord) (c : DWord → Nat) (f)
    (hv : s.r base + o.signExtend 64 = va) {t : State} (ht : SameCore s t) : storePart base rt o b c f t =
      (t.storeBytes va (b va) (c va) (f va (s.r rt))).andThen fun _ t => done t := by
  simp only [storePart, ht.ea, hv, show t.r rt = s.r rt by rw [ht]; rfl]

theorem storeConditional_shape (m : Nat) (hv : s.r base + o.signExtend 64 = va)
    (ha : va.toNat % m = 0) {t : State} (ht : SameCore s t) : storeConditional m base rt o t =
      (t.access .store va fun u attr pa => if u.llbit then u.writeAttr attr va pa m (u.r rt) else .val () u).andThen
        fun _ t => done ((t.setR rt (if s.llbit then 1 else 0)).setLlbit false) := by
  have e2 : t.llbit = s.llbit := by rw [ht]
  have := ht.ea base o
  simp only [storeConditional, this, hv, aligned, ha, decide_true, if_true, e2]

/-- Whether a form is no store-conditional, or one whose link bit is set: whether it stores. -/
def Stores (s : State) (base rt : RegNum) (o : Half) (i : Instr) : Prop :=
  s.llbit = true ∨ (i ≠ .sc base rt o ∧ i ≠ .scd base rt o)

/-- Every store that may run makes one access and goes on, whatever the caches, memory and the free values. The access
stores its bytes, unless it is a store-conditional without the link bit. -/
theorem StoreForm.exec (h : StoreForm s base rt o i n back m v) (hv : s.r base + o.signExtend 64 = va)
    (ha : va.toNat % n = 0) : ∃ (va0 : DWord) (op : State → BitVec 3 → PAddr → Result Unit)
      (cont : Unit → State → Out),
      va0.toNat = va.toNat - back ∧ back ≤ va.toNat % 8 ∧
      (∀ t, SameCore s t → Machine.exec i t = (t.access .store va op).andThen cont) ∧
      (Stores s base rt o i → ∀ u attr pa, SameCore s u →
        pa.toNat % 4096 = va.toNat % 4096 → op u attr pa = u.writeAttr attr va0 (sameDouble pa va0) m v) := by
  have plain : ∀ (va0 : DWord) (e : State → Out), va0.toNat = va.toNat - back →
      back ≤ va.toNat % 8 →
      (∀ t, SameCore s t → e t = (t.storeBytes va va0 m v).andThen fun _ t => done t) →
      ∃ (va0 : DWord) (op : State → BitVec 3 → PAddr → Result Unit)
      (cont : Unit → State → Out), va0.toNat = va.toNat - back ∧ back ≤ va.toNat % 8 ∧
      (∀ t, SameCore s t → e t = (t.access .store va op).andThen cont) ∧
      (Stores s base rt o i → ∀ u attr pa, SameCore s u →
        pa.toNat % 4096 = va.toNat % 4096 → op u attr pa = u.writeAttr attr va0 (sameDouble pa va0) m v) :=
    fun va0 e h1 h2 h3 => ⟨va0, _, _, h1, h2, h3, fun _ _ _ _ _ _ => rfl⟩
  have cond : back = 0 → v = s.r rt → va.toNat % m = 0 → (i = .sc base rt o ∨ i = .scd base rt o) →
      ∃ (va0 : DWord) (op : State → BitVec 3 → PAddr → Result Unit)
      (cont : Unit → State → Out), va0.toNat = va.toNat - back ∧ back ≤ va.toNat % 8 ∧
      (∀ t, SameCore s t → storeConditional m base rt o t = (t.access .store va op).andThen cont) ∧
      (Stores s base rt o i → ∀ u attr pa, SameCore s u →
        pa.toNat % 4096 = va.toNat % 4096 → op u attr pa = u.writeAttr attr va0 (sameDouble pa va0) m v) := by
    intro hb hr hm hi
    refine ⟨va, _, _, by omega, by omega, fun t ht => storeConditional_shape m hv hm ht, ?_⟩
    intro hl u attr pa hu hp
    have hl' : u.llbit = true := by
      rw [hu]
      rcases hl with h | ⟨h1, h2⟩
      · exact h
      · rcases hi with h | h <;> contradiction
    have hr' : u.r rt = v := by rw [hu, hr]; rfl
    simp only [hl', if_true, hr']
    congr 1
    apply BitVec.eq_of_toNat_eq
    rw [toNat_sameDouble]; omega
  cases h with
  | sb => exact plain va _ rfl (Nat.zero_le _) fun t ht => storeGpr_shape 1 hv ha ht
  | sh => exact plain va _ rfl (Nat.zero_le _) fun t ht => storeGpr_shape 2 hv ha ht
  | sw => exact plain va _ rfl (Nat.zero_le _) fun t ht => storeGpr_shape 4 hv ha ht
  | sd => exact plain va _ rfl (Nat.zero_le _) fun t ht => storeGpr_shape 8 hv ha ht
  | swl =>
    subst hv
    simp only [← inWord_eq] at *
    exact plain (wordBase _) _ (by rw [wordBase_toNat, inWord_eq]) (by rw [inWord_eq]; omega) fun t ht =>
      storePart_shape wordBase (fun va => inWord va + 1) (fun va v => (zext64 (low32 v)) >>> (24 - 8 * inWord va)) rfl ht
  | swr =>
    subst hv
    simp only [← inWord_eq] at *
    exact plain _ _ rfl (Nat.zero_le _) fun t ht => storePart_shape (fun va => va) (fun va => 4 - inWord va)
      (fun _ v => v) rfl ht
  | sdl =>
    subst hv
    simp only [← inDouble_eq] at *
    exact plain (doubleBase _) _ (by rw [doubleBase_toNat, inDouble_eq]) (Nat.le_refl _) fun t ht =>
      storePart_shape doubleBase (fun va => inDouble va + 1) (fun va v => v >>> (56 - 8 * inDouble va)) rfl ht
  | sdr =>
    subst hv
    simp only [← inDouble_eq] at *
    exact plain _ _ rfl (Nat.zero_le _) fun t ht => storePart_shape (fun va => va) (fun va => 8 - inDouble va)
      (fun _ v => v) rfl ht
  | sc => exact cond rfl rfl ha (.inl rfl)
  | scd => exact cond rfl rfl ha (.inr rfl)
  | swc1 hc =>
    refine plain va _ rfl (Nat.zero_le _) fun t ht => ?_
    show withFpu t ((t.store (t.ea base o) 4 (zext64 (t.f32 rt))).andThen _) = _
    rw [withFpu_enabled (by rw [ht]; exact hc), ht.ea, hv, State.store, aligned, if_pos (decide_eq_true ha),
      show t.f32 rt = s.f32 rt by rw [ht]; rfl]
    rfl
  | sdc1 hc =>
    refine plain va _ rfl (Nat.zero_le _) fun t ht => ?_
    show withFpu64 t [rt] ((t.store (t.ea base o) 8 (t.f64 rt)).andThen _) = _
    rw [withFpu64_ready (by rw [ht]; exact hc.1) (by rw [ht]; exact List.all_eq_true.2 hc.2), ht.ea, hv, State.store,
      aligned, if_pos (decide_eq_true ha), show t.f64 rt = s.f64 rt by rw [ht]; rfl]

/-- Loads and stores alike: one access and what follows it; on a cached address the access is the line, then what is
done with it. -/
theorem AccessForm.exec {k : Access} (h : AccessForm s k base rt o i n back) (hv : s.r base + o.signExtend 64 = va)
    (ha : va.toNat % n = 0) : ∃ (α : Type) (va0 : DWord) (op : State → BitVec 3 → PAddr → Result α)
      (cont : α → State → Out),
      va0.toNat = va.toNat - back ∧ back ≤ va.toNat % 8 ∧
      (∀ t, SameCore s t → Machine.exec i t = (t.access k va op).andThen cont) ∧
      (Stores s base rt o i → ∀ pa : PAddr,
        pa.toNat % 4096 = va.toNat % 4096 → ∃ f, ∀ u, SameCore s u →
          op u 3 pa = (u.dEnsure k va0 (sameDouble pa va0)).bind f) := by
  rcases h with ⟨rfl, m, h⟩ | ⟨rfl, m, v, h⟩
  · obtain ⟨va0, cont, h1, h2, h3⟩ := h.exec hv ha
    exact ⟨_, va0, _, cont, h1, h2, h3, fun _ pa _ => ⟨_, fun u _ => if_pos rfl⟩⟩
  · obtain ⟨va0, op, cont, h1, h2, h3, h4⟩ := h.exec hv ha
    exact ⟨_, va0, op, cont, h1, h2, h3, fun hl pa hp => ⟨_, fun u hu => (h4 hl u 3 pa hu hp).trans (if_pos rfl)⟩⟩

/-! ### Lines and accesses -/

/-- The first byte of an access lies in the line of the accessed address. -/
theorem sameDouble_line {pa : PAddr} {va va0 : DWord} {b : Nat} (hm : pa.toNat % 4096 = va.toNat % 4096)
    (hb : b ≤ va.toNat % 8) (hv : va0.toNat = va.toNat - b) :
    primarySet va0 = primarySet va ∧ primaryTag (sameDouble pa va0) = primaryTag pa ∧
      lineBase (sameDouble pa va0) = lineBase pa := by
  have h := toNat_sameDouble pa va0
  refine ⟨?_, ?_, ?_⟩
  · simp only [primarySet, BitVec.extractLsb'_toNat, Nat.shiftRight_eq_div_pow, hv]; omega
  · apply BitVec.eq_of_toNat_eq
    simp only [primaryTag, BitVec.extractLsb'_toNat, Nat.shiftRight_eq_div_pow, h, hv]; omega
  · have : (sameDouble pa va0).extractLsb' 5 35 = pa.extractLsb' 5 35 := by
      apply BitVec.eq_of_toNat_eq
      simp only [BitVec.extractLsb'_toNat, Nat.shiftRight_eq_div_pow, h, hv]; omega
    rw [lineBase, this, lineBase]

/-- It hits the same data line. -/
theorem dHit_sameDouble {pa : PAddr} {va va0 : DWord} {b : Nat} (hm : pa.toNat % 4096 = va.toNat % 4096)
    (hb : b ≤ va.toNat % 8) (hv : va0.toNat = va.toNat - b) (s : State) :
    s.dHit va0 (sameDouble pa va0) = s.dHit va pa := by
  obtain ⟨h1, h2, _⟩ := sameDouble_line hm hb hv
  simp only [State.dHit, h1, DLine.holds, h2]

/-- It brings in the same data line. -/
theorem dEnsure_sameDouble {pa : PAddr} {va va0 : DWord} {b : Nat} (hm : pa.toNat % 4096 = va.toNat % 4096)
    (hb : b ≤ va.toNat % 8) (hv : va0.toNat = va.toNat - b) (s : State) (k) :
    s.dEnsure k va0 (sameDouble pa va0) = s.dEnsure k va pa := by
  obtain ⟨h1, h2, h3⟩ := sameDouble_line hm hb hv
  simp only [State.dEnsure, dHit_sameDouble hm hb hv, h1, h2, h3]

/-- An access that misses runs as from the state its line has come into. -/
theorem exec_miss {t : State} {k : Access} {pa : PAddr} {key : Nat} (h : AccessForm s k base rt o i n back)
    (hv : s.r base + o.signExtend 64 = va) (ha : va.toNat % n = 0)
    (hl : Stores s base rt o i) (htr : s.translate k va = .ok pa 3)
    (he : s.dEnsure k va pa = .val key t) (ht : SameCore s t) (hh : t.dHit va pa = some key) :
    Machine.exec i s = Machine.exec i t := by
  obtain ⟨α, va0, op, cont, h1, h2, h3, h4⟩ := h.exec hv ha
  obtain ⟨f, h5⟩ := h4 hl pa (translate_mod htr)
  have hs : SameCore s s := rfl
  rw [h3 s hs, h3 t ht]
  congr 1
  have htr' : t.translate k va = .ok pa 3 := by rw [ht]; exact htr
  have hop : op s 3 pa = op t 3 pa := by
    rw [h5 s hs, h5 t ht, dEnsure_sameDouble (translate_mod htr) h2 h1, dEnsure_sameDouble (translate_mod htr) h2 h1,
      he, dEnsure_hit k hh]
  have hf : s.watchFill k 3 va pa = t.watchFill k 3 va pa := by
    simp only [State.watchFill, if_true, he, dEnsure_hit k hh]
  have hw : t.watchMatch k va = s.watchMatch k va := by rw [ht]; rfl
  have hx : t.exl = s.exl ∧ t.erl = s.erl := by rw [ht]; exact ⟨rfl, rfl⟩
  simp only [State.access, htr, htr', hw, hx.1, hx.2, hop, hf]

end Sys2Proof.Machine
end

