-- ==== Sys2Proof/Laws/Invariant.lean ====
section
/-! SUPPORT. Every shared operation keeps the invariant of the machine: one lemma for each. -/

namespace Sys2Proof.Machine

/-! ### Reserved bits -/

theorem clear_and {w : Nat} {x m k : BitVec w} (h : x &&& k = 0) : (x &&& m) &&& k = 0 := by
  rw [BitVec.and_assoc, BitVec.and_comm m k, ← BitVec.and_assoc, h]; simp

theorem clear_mask {w : Nat} {v m k : BitVec w} (h : m &&& k = 0) : (v &&& m) &&& k = 0 := by
  rw [BitVec.and_assoc, h]; simp

theorem clear_or {w : Nat} {x y k : BitVec w} (hx : x &&& k = 0) (hy : y &&& k = 0) : (x ||| y) &&& k = 0 := by
  ext i hi
  have h1 := congrArg (fun v => v.getLsbD i) hx
  have h2 := congrArg (fun v => v.getLsbD i) hy
  simp [hi] at h1 h2 ⊢
  rintro (h | h)
  · exact h1 h
  · exact h2 h

theorem clear_maskedWrite {w : Nat} {x v m k : BitVec w} (hx : x &&& k = 0) (hm : m &&& k = 0) :
    maskedWrite m x v &&& k = 0 := clear_or (clear_and hx) (clear_mask hm)

/-- Bits outside the mask of a write keep their value. -/
theorem maskedWrite_fixed {w : Nat} (x v m : BitVec w) : maskedWrite m x v &&& ~~~m = x &&& ~~~m := by
  ext i hi
  simp only [maskedWrite, BitVec.getElem_and, BitVec.getElem_or, BitVec.getElem_not]
  cases x[i] <;> cases v[i] <;> cases m[i] <;> rfl

theorem or_mask_fixed {w : Nat} (x v m : BitVec w) : (x ||| (v &&& m)) &&& ~~~m = x &&& ~~~m := by
  ext i hi
  simp only [BitVec.getElem_and, BitVec.getElem_or, BitVec.getElem_not]
  cases x[i] <;> cases v[i] <;> cases m[i] <;> rfl

theorem clear_mask_fixed {w : Nat} (x v m : BitVec w) : (x &&& ~~~(v &&& m)) &&& ~~~m = x &&& ~~~m := by
  ext i hi
  simp only [BitVec.getElem_and, BitVec.getElem_not]
  cases x[i] <;> cases v[i] <;> cases m[i] <;> rfl

theorem clear_cause (old : Word) (b : Bool) (e : Exc) : causeAfter old b e &&& 0x4FFFFC83 = 0 := by
  ext i hi
  rw [BitVec.getElem_and, ← BitVec.getLsbD_eq_getElem hi]
  simp only [causeAfter, BitVec.getLsbD_append]
  interval_cases i <;> simp

theorem clear_lo (p : TlbHalf) (g : Bool) : loOf p g &&& 0x1FFFFFFC00000000 = 0 := by
  ext i hi
  rw [BitVec.getElem_and, ← BitVec.getLsbD_eq_getElem hi]
  simp only [loOf, BitVec.getLsbD_append]
  interval_cases i <;> simp

theorem clear_hi (r : BitVec 2) (v : BitVec 27) (a : BitVec 8) :
    (r ++ (0 : BitVec 22) ++ v ++ (0 : BitVec 5) ++ a) &&& (0x3FFFFF0000001F00 : DWord) = 0 := by
  ext i hi
  rw [BitVec.getElem_and, ← BitVec.getLsbD_eq_getElem hi]
  simp only [BitVec.getLsbD_append]
  interval_cases i <;> simp

theorem clear_page (m : BitVec 12) : (m ++ (0 : BitVec 13)).setWidth 32 &&& (0xFE001FFF : Word) = 0 := by
  ext i hi
  rw [BitVec.getElem_and, BitVec.getElem_setWidth, BitVec.getLsbD_append]
  interval_cases i <;> simp

theorem clear_index (x : BitVec 6) : (0x80000000 ||| x.setWidth 32) &&& (0x7FFFFFC0 : Word) = 0 := by
  refine clear_or (by decide) ?_
  ext i hi
  rw [BitVec.getElem_and, BitVec.getElem_setWidth]
  interval_cases i <;> simp

/-! ### Updates of the state -/

variable {s : State}

/-- The invariant looks at these fields alone. -/
theorem Inv.congr {t : State} (h : Inv s) (e : t = { s with
    pc := t.pc, delay := t.delay, hi := t.hi, lo := t.lo, llbit := t.llbit, fpr := t.fpr, tlb := t.tlb,
    timerPending := t.timerPending, watchPostponed := t.watchPostponed, nmiPending := t.nmiPending,
    softResetPending := t.softResetPending, coldResetPending := t.coldResetPending, windows := t.windows, pins := t.pins,
    inputs := t.inputs, draws := t.draws, freeCount := t.freeCount, countPhase := t.countPhase,
    randomHold := t.randomHold, randomHeld := t.randomHeld }) : Inv t := by
  rw [e]
  exact ⟨h.memory, h.icache, h.dcache, h.scache, h.zero, h.fcsr, h.cp0, h.mask, h.itlb,
    ⟨h.devices.header, h.devices.regs, h.devices.ddr⟩⟩

theorem Inv.advance (h : Inv s) : Inv s.advance := h.congr rfl
theorem Inv.branchTo (h : Inv s) (t : DWord) : Inv (s.branchTo t) := h.congr rfl
theorem Inv.skipSlot (h : Inv s) : Inv s.skipSlot := h.congr rfl
theorem Inv.setHi (h : Inv s) (v : DWord) : Inv (s.setHi v) := h.congr rfl
theorem Inv.setLo (h : Inv s) (v : DWord) : Inv (s.setLo v) := h.congr rfl
theorem Inv.setHiLo (h : Inv s) (a b : DWord) : Inv (s.setHiLo a b) := h.congr rfl
theorem Inv.setLlbit (h : Inv s) (b : Bool) : Inv (s.setLlbit b) := h.congr rfl
theorem Inv.setF32 (h : Inv s) (n : RegNum) (v : Word) : Inv (s.setF32 n v) := h.congr rfl

theorem Inv.setF64 (h : Inv s) (n : RegNum) (v : DWord) : Inv (s.setF64 n v) := by
  unfold State.setF64; split
  · exact h.congr rfl
  · exact (h.setF32 _ _).setF32 _ _

theorem Inv.free (h : Inv s) : Inv s.free.2 := by
  unfold State.free; split <;> exact h.congr rfl

theorem Inv.postponeWatch (h : Inv s) (b : Bool) : Inv (s.postponeWatch b) := by
  unfold State.postponeWatch; split
  · exact h.congr rfl
  · exact h

theorem Inv.setR (h : Inv s) (i : RegNum) (v : DWord) : Inv (s.setR i v) := by
  have hz := setR_gpr_zero s i v
  unfold State.setR at *
  split
  · exact h
  · rename_i hi
    rw [if_neg hi] at hz
    exact ⟨h.memory, h.icache, h.dcache, h.scache, hz.trans h.zero, h.fcsr, h.cp0, h.mask, h.itlb,
      ⟨h.devices.header, h.devices.regs, h.devices.ddr⟩⟩

theorem Inv.withFcsr (h : Inv s) {v : Word} (hv : v &&& 0x007C0000 = 0) : Inv (s.setFcsr v) :=
  ⟨h.memory, h.icache, h.dcache, h.scache, h.zero, hv, h.cp0, h.mask, h.itlb,
    ⟨h.devices.header, h.devices.regs, h.devices.ddr⟩⟩

/-- The CP0 registers replaced by others without reserved bits. -/
theorem Inv.withCp0 (h : Inv s) {c : Cp0} (hc : c.Legal) : Inv { s with cp0 := c } :=
  ⟨h.memory, h.icache, h.dcache, h.scache, h.zero, h.fcsr, hc, h.mask, h.itlb,
    ⟨h.devices.header, h.devices.regs, h.devices.ddr⟩⟩

theorem Inv.withMem (h : Inv s) {m : List Host.Cell} (hm : Memory.wf m) : Inv { s with mem := m } :=
  ⟨hm, h.icache, h.dcache, h.scache, h.zero, h.fcsr, h.cp0, h.mask, h.itlb,
    ⟨h.devices.header, h.devices.regs, h.devices.ddr⟩⟩

theorem Inv.withItlb (h : Inv s) {l : List ItlbEntry} (hl : l.length ≤ 16) : Inv { s with itlb := l } :=
  ⟨h.memory, h.icache, h.dcache, h.scache, h.zero, h.fcsr, h.cp0, h.mask, hl,
    ⟨h.devices.header, h.devices.regs, h.devices.ddr⟩⟩

theorem Inv.setILine (h : Inv s) (k : Nat) (l : ILine) : Inv (s.setILine k l) :=
  ⟨h.memory, sparseWf_write _ _ h.icache, h.dcache, h.scache, h.zero, h.fcsr, h.cp0, h.mask, h.itlb,
    ⟨h.devices.header, h.devices.regs, h.devices.ddr⟩⟩

theorem Inv.setDLine (h : Inv s) (k : Nat) (l : DLine) : Inv (s.setDLine k l) :=
  ⟨h.memory, h.icache, sparseWf_write _ _ h.dcache, h.scache, h.zero, h.fcsr, h.cp0, h.mask, h.itlb,
    ⟨h.devices.header, h.devices.regs, h.devices.ddr⟩⟩

theorem Inv.setSLine (h : Inv s) (k : Nat) (l : SLine) : Inv (s.setSLine k l) :=
  ⟨h.memory, h.icache, h.dcache, sparseWf_write _ _ h.scache, h.zero, h.fcsr, h.cp0, h.mask, h.itlb,
    ⟨h.devices.header, h.devices.regs, h.devices.ddr⟩⟩

/-! ### FCSR -/

theorem clear_fcsrAfter {f : Word} (x : FpExc) (h : f &&& 0x007C0000 = 0) : fcsrAfter f x &&& 0x007C0000 = 0 := by
  have hc : fcsrWithCause f x.cause &&& 0x007C0000 = 0 := clear_maskedWrite h (by decide)
  simp only [fcsrAfter]; split
  · exact hc
  · refine clear_or hc ?_
    ext i hi
    rw [BitVec.getElem_and, BitVec.getElem_shiftLeft]
    interval_cases i <;> simp

theorem clear_fcsrSetCc {f : Word} {n : Nat} (hn : n < 2) (b : Bool) (h : f &&& 0x007C0000 = 0) :
    fcsrSetCc f n b &&& 0x007C0000 = 0 := by
  interval_cases n <;> exact clear_maskedWrite h (by decide)

theorem clear_fcsrFromGpr (v : DWord) : fcsrFromGpr v &&& 0x007C0000 = 0 := clear_mask (by decide)

/-! ### CP0 -/

theorem Cp0.Legal.recordTlb {c : Cp0} (h : c.Legal) (va : DWord) : (c.recordTlb va).Legal :=
  { h with
    context := clear_maskedWrite h.context (by decide)
    xContext := clear_maskedWrite h.xContext (by decide)
    entryHi := clear_maskedWrite h.entryHi (by decide) }

theorem Cp0.Legal.record {c : Cp0} (h : c.Legal) (e : Exc) : (c.record e).Legal := by
  cases e <;> first | exact h.recordTlb _ | exact h | exact { h with }

theorem Inv.takeException (h : Inv s) (e : Exc) : Inv (takeException e s) := by
  have hc := h.cp0.record e
  refine Inv.congr (s := { s with cp0 := (Machine.takeException e s).cp0 }) (h.withCp0 ?_) rfl
  exact { hc with
    cause := clear_cause _ _ _
    status := clear_or hc.status (by decide) }

theorem Inv.returnFromException (h : Inv s) : Inv (returnFromException s) := by
  refine Inv.congr (s := { s with cp0 := (Machine.returnFromException s).cp0 }) (h.withCp0 ?_) rfl
  exact { h.cp0 with
    status := by
      show (if s.erl then s.cp0.status &&& ~~~(4 : Word) else s.cp0.status &&& ~~~(2 : Word)) &&& _ = _
      split <;> exact clear_and h.cp0.status }

theorem Inv.enterReset (h : Inv s) : Inv (enterReset s) := by
  refine Inv.congr (s := { s with cp0 := (Machine.enterReset s).cp0 }) (h.withCp0 ?_) rfl
  exact { h.cp0 with status := clear_or h.cp0.status (by decide) }

theorem Inv.setTags (h : Inv s) (hi lo : Word) : Inv (s.setTags hi lo) := h.withCp0 { h.cp0 with }

theorem Inv.setIndex (h : Inv s) {v : Word} (hv : v &&& 0x7FFFFFC0 = 0) : Inv (s.setIndex v) :=
  h.withCp0 { h.cp0 with index := hv }

theorem Inv.readTlb (h : Inv s) : Inv s.readTlb :=
  h.withCp0 { h.cp0 with
    pageMask := clear_page _
    entryHi := clear_hi _ _ _
    entryLo0 := clear_lo _ _
    entryLo1 := clear_lo _ _ }

theorem Inv.writeTlb (h : Inv s) (i : BitVec 6) (hm : legalMask s.pageMaskField) : Inv (s.writeTlb i) :=
  ⟨h.memory, h.icache, h.dcache, h.scache, h.zero, h.fcsr, h.cp0, hm, h.itlb,
    ⟨h.devices.header, h.devices.regs, h.devices.ddr⟩⟩

/-- Random starts from the highest entry, which no Wired exceeds. -/
theorem wired_le_random (w : BitVec 6) : w ≤ 63 := by bv_omega

theorem Inv.writeCp0 (h : Inv s) (n : RegNum) (v : DWord) : Inv (s.writeCp0 n v) := by
  have hc := h.cp0
  unfold State.writeCp0
  split
  · exact h.withCp0 { hc with index := clear_mask (by decide) }
  · exact h.withCp0 { hc with entryLo0 := clear_mask (by decide) }
  · exact h.withCp0 { hc with entryLo1 := clear_mask (by decide) }
  · exact h.withCp0 { hc with context := clear_maskedWrite hc.context (by decide) }
  · exact h.withCp0 { hc with pageMask := clear_mask (by decide) }
  · exact (h.withCp0 (c := { s.cp0 with wired := v.extractLsb' 0 6, random := 63 })
      { hc with random := wired_le_random _ }).congr rfl
  · exact (h.withCp0 (c := { s.cp0 with count := low32 v }) { hc with }).congr rfl
  · exact h.withCp0 { hc with entryHi := clear_mask (by decide) }
  · exact (h.withCp0 (c := { s.cp0 with compare := low32 v }) { hc with }).congr rfl
  · exact h.withCp0 { hc with status := clear_mask (by decide) }
  · exact h.withCp0 { hc with cause := clear_maskedWrite hc.cause (by decide) }
  · exact h.withCp0 { hc with }
  · exact h.withCp0 { hc with }
  · exact (h.withCp0 (c := { s.cp0 with watch := v &&& 0xFFFFFFFFFFFFFFFB })
      { hc with watch := clear_mask (by decide) }).congr rfl
  · exact h.withCp0 { hc with xContext := clear_maskedWrite hc.xContext (by decide) }
  · refine (h.withCp0 (c := { s.cp0 with diagnostic := v &&& 0xF1 }) { hc with diagnostic := clear_mask (by decide) }).withItlb ?_
    show (if bit v 2 then [] else s.itlb).length ≤ 16
    split
    · exact Nat.zero_le _
    · exact h.itlb
  · exact h.withCp0 { hc with perfControl := clear_mask (by decide) }
  · exact h.withCp0 { hc with }
  · exact h.withCp0 { hc with }
  · exact h.withCp0 { hc with }
  · exact h.withCp0 { hc with }
  · exact h

/-! ### The boundary -/

/-- Another IO block with the same header and register block. -/
theorem Inv.withLatch (h : Inv s) (l : BitVec 15) : Inv { s with io := { s.io with intLatch := l } } :=
  ⟨h.memory, h.icache, h.dcache, h.scache, h.zero, h.fcsr, h.cp0, h.mask, h.itlb,
    ⟨h.devices.header, h.devices.regs, h.devices.ddr⟩⟩

theorem Inv.latchInput (h : Inv s) (i : Input) : Inv (s.latchInput i) := by
  unfold State.latchInput
  cases i.pins with
  | none => exact h.congr rfl
  | some p => exact (h.withLatch _).congr rfl

theorem Inv.tickCount (h : Inv s) (n : Nat) : Inv (s.tickCount n) :=
  (h.withCp0 (c := { s.cp0 with count := (s.tickCount n).cp0.count }) { h.cp0 with }).congr rfl

theorem Inv.tickRandom (h : Inv s) (c : Option (BitVec 6)) : Inv (s.tickRandom c) := by
  have hr := h.cp0.random
  refine Inv.congr (s := { s with cp0 := { s.cp0 with random := (s.tickRandom c).cp0.random } })
    (h.withCp0 { h.cp0 with random := ?_ }) ?_
  · show s.cp0.wired ≤ (s.tickRandom c).cp0.random
    unfold State.tickRandom
    split
    · exact hr
    · have hd : s.cp0.wired ≤ if s.cp0.random ≤ s.cp0.wired then 63 else s.cp0.random - 1 := by split <;> bv_omega
      cases c with
      | none => exact hd
      | some x =>
        show s.cp0.wired ≤ if s.cp0.wired ≤ x then x else _
        split
        · assumption
        · exact hd
  · unfold State.tickRandom; split <;> rfl

theorem Inv.tickPerf (h : Inv s) (i : Input) : Inv (s.tickPerf i) := by
  unfold State.tickPerf; split
  · exact h.withCp0 { h.cp0 with }
  · exact h

/-! ### Memory and the caches -/

/-- An operation that ends in a state that meets the invariant, whether it delivers or raises an exception. -/
def Result.Keeps {α : Type} : Result α → Prop
  | .val _ t => Inv t
  | .exc _ t => Inv t
  | _ => True

theorem Result.Keeps.bind {α β : Type} {r : Result α} {k : α → State → Result β} (h : r.Keeps)
    (hk : ∀ a t, Inv t → (k a t).Keeps) : (r.bind k).Keeps := by
  cases r with
  | val a t => exact hk a t h
  | exc e t => exact h
  | fault f => trivial
  | refused r => trivial

/-- An instruction over such an operation. -/
theorem Result.Keeps.andThen {α : Type} {r : Result α} {k : α → State → Out} (h : r.Keeps)
    (hk : ∀ a t u, Inv t → k a t = .next u → Inv u) {u : State} (hu : r.andThen k = .next u) : Inv u := by
  rcases andThen_eq_next hu with ⟨a, t, rfl, h2⟩ | ⟨e, t, rfl, rfl⟩
  · exact hk a t u h h2
  · exact Inv.takeException h e

theorem Inv.setWord (h : Inv s) {i : Fin 64} {v : Word} {l : BitVec 15}
    (hv : v &&& ~~~regMask i = s.io.regs[i] &&& ~~~regMask i) :
    Inv { s with io := { s.io with regs := s.io.regs.set i v, intLatch := l } } := by
  refine ⟨h.memory, h.icache, h.dcache, h.scache, h.zero, h.fcsr, h.cp0, h.mask, h.itlb,
    ⟨h.devices.header, fun j => ?_, h.devices.ddr⟩⟩
  show (s.io.regs.set i v)[j] &&& _ = _
  by_cases hj : i = j
  · subst hj; rw [Fin.getElem_fin, Vector.getElem_set_self]; exact hv.trans (h.devices.regs i)
  · rw [Fin.getElem_fin, Vector.getElem_set_ne _ _ (fun g => hj (Fin.ext g))]; exact h.devices.regs j

theorem Inv.regWrite (h : Inv s) (i : Fin 64) (off n : Nat) (v : DWord) : Inv (s.regWrite i off n v) := by
  unfold State.regWrite
  split
  · exact h.setWord (i := 14) (l := s.io.intLatch) (or_mask_fixed _ _ _)
  · split
    · exact h.setWord (i := 14) (clear_mask_fixed _ _ _)
    · exact h.setWord (i := i) (maskedWrite_fixed _ _ _)

theorem Inv.headerWrite (h : Inv s) (i : Fin 64) (v : Word) : Inv { s with io := { s.io with
    header := s.io.header.set i (maskedWrite (headerMask i) s.io.header[i] v) } } := by
  refine ⟨h.memory, h.icache, h.dcache, h.scache, h.zero, h.fcsr, h.cp0, h.mask, h.itlb,
    ⟨fun j => ?_, h.devices.regs, h.devices.ddr⟩⟩
  show (s.io.header.set i (maskedWrite (headerMask i) s.io.header[i] v))[j] &&& _ = _
  by_cases hj : i = j
  · subst hj; rw [Fin.getElem_fin, Vector.getElem_set_self, maskedWrite_fixed]; exact h.devices.header i
  · rw [Fin.getElem_fin, Vector.getElem_set_ne _ _ (fun g => hj (Fin.ext g))]; exact h.devices.header j

theorem ddrWrite_fixed (d : Vector DWord 29) (i j : Fin 29) (v : DWord) (hj : j ≠ 16) :
    (ddrWrite d i v)[j] &&& ddrFixed j = d[j] &&& ddrFixed j := by
  have h1 : (d.set i (maskedWrite (~~~ddrFixed i) d[i] v))[j] &&& ddrFixed j = d[j] &&& ddrFixed j := by
    by_cases h : i = j
    · subst h
      rw [Fin.getElem_fin, Vector.getElem_set_self]
      have := maskedWrite_fixed d[i] v (~~~ddrFixed i)
      rwa [BitVec.not_not] at this
    · rw [Fin.getElem_fin, Vector.getElem_set_ne _ _ (fun g => h (Fin.ext g))]; rfl
  unfold ddrWrite; simp only
  split
  · exact (congrArg (· &&& ddrFixed j)
      (Vector.getElem_set_ne (i := 16) (j := j.val) _ _ (fun g => hj (Fin.ext g.symm)))).trans h1
  · exact h1

theorem Inv.ddrWrite (h : Inv s) (i : Fin 29) (v : DWord) : Inv { s with ddr := ddrWrite s.ddr i v } :=
  ⟨h.memory, h.icache, h.dcache, h.scache, h.zero, h.fcsr, h.cp0, h.mask, h.itlb,
    ⟨h.devices.header, h.devices.regs, fun j hj => (ddrWrite_fixed _ _ _ _ hj).trans (h.devices.ddr j hj)⟩⟩

theorem Inv.targetRead (h : Inv s) (T : Target) (off n : Nat) : (s.targetRead T off n).Keeps := by
  unfold State.targetRead
  split <;> first | exact h | trivial | (split <;> first | exact h | trivial)

theorem Inv.targetWrite (h : Inv s) (T : Target) (off n : Nat) (v : DWord) : (s.targetWrite T off n v).Keeps := by
  unfold State.targetWrite
  split
  · exact h.withMem (Memory.wf_writeLe _ _ _ h.memory)
  · exact h
  · split
    · exact h.congr rfl
    · trivial
  · split
    · exact h.ddrWrite _ _
    · trivial
  · split
    · exact h.headerWrite _ _
    · trivial
  · split
    · exact h.regWrite _ _ _ _
    · trivial
  · trivial
  · trivial

theorem Inv.busRead (h : Inv s) (kind : Access) (pa : PAddr) (n : Nat) : (s.busRead kind pa n).Keeps := by
  unfold State.busRead
  split
  · exact h
  · exact h.targetRead _ _ _

theorem Inv.busWrite (h : Inv s) (pa : PAddr) (n : Nat) (v : DWord) : (s.busWrite pa n v).Keeps :=
  h.targetWrite _ _ _ _

/-! ### The PCI masters, and the boundary as a whole -/

theorem Inv.pciStore (h : Inv s) (w : PciStore) : Inv (s.pciStore w) := by
  unfold State.pciStore
  split
  · have := h.targetWrite (s.pciTarget w.addr) (w.addr.toNat % 4) w.size w.data
    split
    · next e => rw [e] at this; exact this
    · exact h
  · exact h

theorem Inv.pciStores (h : Inv s) (l : List PciStore) : Inv (l.foldl State.pciStore s) := by
  induction l generalizing s with
  | nil => exact h
  | cons w l ih => exact ih (h.pciStore w)

theorem Inv.boundary (h : Inv s) : Inv s.boundary :=
  (((((Inv.congr (t := { s with inputs := s.inputs.tail }) h rfl).pciStores _).latchInput _).tickCount _).tickRandom _).tickPerf _

/-! ### Lines -/

theorem Inv.lineRead (h : Inv s) (kind : Access) (pa : PAddr) : (s.lineRead kind pa).Keeps := by
  unfold State.lineRead
  split
  · exact h
  · split
    · exact h
    · split
      · exact h
      · trivial
    all_goals trivial

theorem Inv.lineWrite (h : Inv s) (pa : PAddr) (d : BitVec 256) : (s.lineWrite pa d).Keeps := by
  unfold State.lineWrite
  split
  · exact h.withMem (Memory.wf_writeLe _ _ _ h.memory)
  all_goals first | exact h | trivial

theorem Inv.pickWay (h : Inv s) (set : Nat) : Inv (s.pickWay set).2 := h.free

theorem Inv.sEvict (h : Inv s) (k : Nat) : (s.sEvict k).Keeps := by
  unfold State.sEvict; simp only
  split
  · exact h.lineWrite _ _
  · exact h

theorem Inv.sInstall (h : Inv s) (pa : PAddr) (st : BitVec 2) (d : BitVec 256) : (s.sInstall pa st d).Keeps :=
  Result.Keeps.bind ((h.pickWay _).sEvict _) fun _ _ ht => ht.setSLine _ _

theorem Inv.sFetch (h : Inv s) (kind : Access) (pa : PAddr) : (s.sFetch kind pa).Keeps := by
  unfold State.sFetch
  split
  · exact Result.Keeps.bind (h.lineRead _ _) fun _ _ ht => ht
  · split
    · exact h
    · exact Result.Keeps.bind (h.lineRead _ _) fun _ _ ht =>
        Result.Keeps.bind (ht.sInstall _ _ _) fun _ _ hu => hu

theorem Inv.sPut (h : Inv s) (pa : PAddr) (d : BitVec 256) : (s.sPut pa d).Keeps := by
  unfold State.sPut
  split
  · exact h.lineWrite _ _
  · split
    · exact h.setSLine _ _
    · exact Result.Keeps.bind (h.sInstall _ _ _) fun _ _ ht => ht

theorem Inv.dWriteBack (h : Inv s) (k : Nat) : (s.dWriteBack k).Keeps := by
  unfold State.dWriteBack; simp only
  split
  · exact h.sPut _ _
  · exact h

theorem Inv.dEnsure (h : Inv s) (kind : Access) (va : DWord) (pa : PAddr) : (s.dEnsure kind va pa).Keeps := by
  unfold State.dEnsure
  split
  · exact h
  · exact Result.Keeps.bind (h.sFetch _ _) fun _ _ ht =>
      Result.Keeps.bind ((ht.pickWay _).dWriteBack _) fun _ _ hu => hu.setDLine _ _

theorem Inv.cachedRead (h : Inv s) (va : DWord) (pa : PAddr) (n : Nat) : (s.cachedRead va pa n).Keeps :=
  Result.Keeps.bind (h.dEnsure _ _ _) fun _ _ ht => ht

theorem Inv.cachedWrite (h : Inv s) (va : DWord) (pa : PAddr) (n : Nat) (v : DWord) : (s.cachedWrite va pa n v).Keeps :=
  Result.Keeps.bind (h.dEnsure _ _ _) fun _ t ht => by
    show Result.Keeps (if t.upgradeError _ _ then _ else _)
    split
    · exact ht
    · exact ht.setDLine _ _

theorem Inv.cachedFetch (h : Inv s) (va : DWord) (pa : PAddr) : (s.cachedFetch va pa).Keeps := by
  unfold State.cachedFetch
  split
  · exact h
  · exact Result.Keeps.bind (h.sFetch _ _) fun _ _ ht => (ht.pickWay _).setILine _ _

/-! ### Accesses -/

theorem Inv.readAttr (h : Inv s) (attr : BitVec 3) (va : DWord) (pa : PAddr) (n : Nat) :
    (s.readAttr attr va pa n).Keeps := by
  unfold State.readAttr; split
  · exact h.cachedRead _ _ _
  · exact h.busRead _ _ _

theorem Inv.writeAttr (h : Inv s) (attr : BitVec 3) (va : DWord) (pa : PAddr) (n : Nat) (v : DWord) :
    (s.writeAttr attr va pa n v).Keeps := by
  unfold State.writeAttr; split
  · exact h.cachedWrite _ _ _ _
  · exact h.busWrite _ _ _

theorem Inv.watchFill (h : Inv s) (k : Access) (attr : BitVec 3) (va : DWord) (pa : PAddr) :
    Inv (s.watchFill k attr va pa) := by
  have := h.dEnsure k va pa
  unfold State.watchFill
  split
  · split
    · rename_i e; rw [e] at this; exact this
    · exact h
  · exact h

theorem Inv.access {α : Type} (h : Inv s) (k : Access) (va : DWord) {op : State → BitVec 3 → PAddr → Result α}
    (ho : ∀ attr pa, (op s attr pa).Keeps) : (s.access k va op).Keeps := by
  unfold State.access
  split
  · exact h
  · trivial
  · simp only
    split
    · exact h.watchFill _ _ _ _
    · exact Result.Keeps.bind (ho _ _) fun _ _ ht => ht.postponeWatch _

theorem Inv.loadBytes (h : Inv s) (va va0 : DWord) (n : Nat) : (s.loadBytes va va0 n).Keeps :=
  h.access _ _ fun _ _ => h.readAttr _ _ _ _

theorem Inv.storeBytes (h : Inv s) (va va0 : DWord) (n : Nat) (v : DWord) : (s.storeBytes va va0 n v).Keeps :=
  h.access _ _ fun _ _ => h.writeAttr _ _ _ _ _

theorem Inv.load (h : Inv s) (va : DWord) (n : Nat) : (s.load va n).Keeps := by
  unfold State.load; split
  · exact h.loadBytes _ _ _
  · exact h

theorem Inv.store (h : Inv s) (va : DWord) (n : Nat) (v : DWord) : (s.store va n v).Keeps := by
  unfold State.store; split
  · exact h.storeBytes _ _ _ _
  · exact h

theorem Inv.prefetch (h : Inv s) (va : DWord) (n : Nat) : Inv (s.prefetch va n) := by
  unfold State.prefetch
  split
  · split
    · have hf := h.free
      simp only
      split
      · split
        · rename_i pa _ _ _ _ _ _ _ e
          have := hf.dEnsure .load va pa; rw [e] at this; exact this
        · exact hf
      · exact hf
    · exact h
  · exact h

/-! ### Fetching -/

theorem itlbAdd_length {l : List ItlbEntry} (e : ItlbEntry) (c : Nat) (h : l.length ≤ 16) : (itlbAdd l e c).length ≤ 16 := by
  unfold itlbAdd
  split
  · exact h
  · split
    · simpa using h
    · have : c % 17 < 17 := Nat.mod_lt _ (by decide)
      simp; omega

theorem Inv.itlbFill (h : Inv s) (va : DWord) : Inv (s.itlbFill va) := by
  unfold State.itlbFill
  split
  · exact h.free.withItlb (itlbAdd_length _ _ h.itlb)
  · exact h

theorem Inv.translateFetch (h : Inv s) (va : DWord) : Inv (s.translateFetch va).2 := by
  unfold State.translateFetch
  split
  · exact h
  · split
    · exact h
    · exact h
    · unfold State.translateFetchMapped
      split
      · exact h
      · split
        · exact h.itlbFill _
        · exact h

theorem Inv.fetch (h : Inv s) : s.fetch.Keeps := by
  have ht := h.translateFetch s.pc
  unfold State.fetch
  split
  · split <;> rename_i e <;> rw [e] at ht
    · exact ht
    · trivial
    · split
      · exact ht.cachedFetch _ _
      · exact Result.Keeps.bind (ht.busRead _ _ _) fun _ _ hu => hu
  · exact h

end Sys2Proof.Machine
end

