-- ==== Sys2Proof/Laws/PerInstr.lean ====
section
/-! SUPPORT. Facts about every instruction as syntax, one lemma per constructor: the family `Tables`, the two tables of
the encodings agree. -/

namespace Sys2Proof.Laws.Tables

/-- The decoder's tables give back an instruction from the fields the encoder's table gives it. -/
def Statement (i : Instr) : Prop := i.wellFormed = true → decodeFields (fieldsOfInstr i) = .ok i

theorem lb (base rt : RegNum) (offset : Half) : Statement (.lb base rt offset) :=
  fun _ => congrArg (fun x => Except.ok (α := Instr) (Instr.lb base rt x)) (imm_iType 0b100000#6 base rt offset)
theorem lbu (base rt : RegNum) (offset : Half) : Statement (.lbu base rt offset) :=
  fun _ => congrArg (fun x => Except.ok (α := Instr) (Instr.lbu base rt x)) (imm_iType 0b100100#6 base rt offset)
theorem lh (base rt : RegNum) (offset : Half) : Statement (.lh base rt offset) :=
  fun _ => congrArg (fun x => Except.ok (α := Instr) (Instr.lh base rt x)) (imm_iType 0b100001#6 base rt offset)
theorem lhu (base rt : RegNum) (offset : Half) : Statement (.lhu base rt offset) :=
  fun _ => congrArg (fun x => Except.ok (α := Instr) (Instr.lhu base rt x)) (imm_iType 0b100101#6 base rt offset)
theorem lw (base rt : RegNum) (offset : Half) : Statement (.lw base rt offset) :=
  fun _ => congrArg (fun x => Except.ok (α := Instr) (Instr.lw base rt x)) (imm_iType 0b100011#6 base rt offset)
theorem lwu (base rt : RegNum) (offset : Half) : Statement (.lwu base rt offset) :=
  fun _ => congrArg (fun x => Except.ok (α := Instr) (Instr.lwu base rt x)) (imm_iType 0b100111#6 base rt offset)
theorem ld (base rt : RegNum) (offset : Half) : Statement (.ld base rt offset) :=
  fun _ => congrArg (fun x => Except.ok (α := Instr) (Instr.ld base rt x)) (imm_iType 0b110111#6 base rt offset)
theorem lwl (base rt : RegNum) (offset : Half) : Statement (.lwl base rt offset) :=
  fun _ => congrArg (fun x => Except.ok (α := Instr) (Instr.lwl base rt x)) (imm_iType 0b100010#6 base rt offset)
theorem lwr (base rt : RegNum) (offset : Half) : Statement (.lwr base rt offset) :=
  fun _ => congrArg (fun x => Except.ok (α := Instr) (Instr.lwr base rt x)) (imm_iType 0b100110#6 base rt offset)
theorem ldl (base rt : RegNum) (offset : Half) : Statement (.ldl base rt offset) :=
  fun _ => congrArg (fun x => Except.ok (α := Instr) (Instr.ldl base rt x)) (imm_iType 0b011010#6 base rt offset)
theorem ldr (base rt : RegNum) (offset : Half) : Statement (.ldr base rt offset) :=
  fun _ => congrArg (fun x => Except.ok (α := Instr) (Instr.ldr base rt x)) (imm_iType 0b011011#6 base rt offset)
theorem sb (base rt : RegNum) (offset : Half) : Statement (.sb base rt offset) :=
  fun _ => congrArg (fun x => Except.ok (α := Instr) (Instr.sb base rt x)) (imm_iType 0b101000#6 base rt offset)
theorem sh (base rt : RegNum) (offset : Half) : Statement (.sh base rt offset) :=
  fun _ => congrArg (fun x => Except.ok (α := Instr) (Instr.sh base rt x)) (imm_iType 0b101001#6 base rt offset)
theorem sw (base rt : RegNum) (offset : Half) : Statement (.sw base rt offset) :=
  fun _ => congrArg (fun x => Except.ok (α := Instr) (Instr.sw base rt x)) (imm_iType 0b101011#6 base rt offset)
theorem sd (base rt : RegNum) (offset : Half) : Statement (.sd base rt offset) :=
  fun _ => congrArg (fun x => Except.ok (α := Instr) (Instr.sd base rt x)) (imm_iType 0b111111#6 base rt offset)
theorem swl (base rt : RegNum) (offset : Half) : Statement (.swl base rt offset) :=
  fun _ => congrArg (fun x => Except.ok (α := Instr) (Instr.swl base rt x)) (imm_iType 0b101010#6 base rt offset)
theorem swr (base rt : RegNum) (offset : Half) : Statement (.swr base rt offset) :=
  fun _ => congrArg (fun x => Except.ok (α := Instr) (Instr.swr base rt x)) (imm_iType 0b101110#6 base rt offset)
theorem sdl (base rt : RegNum) (offset : Half) : Statement (.sdl base rt offset) :=
  fun _ => congrArg (fun x => Except.ok (α := Instr) (Instr.sdl base rt x)) (imm_iType 0b101100#6 base rt offset)
theorem sdr (base rt : RegNum) (offset : Half) : Statement (.sdr base rt offset) :=
  fun _ => congrArg (fun x => Except.ok (α := Instr) (Instr.sdr base rt x)) (imm_iType 0b101101#6 base rt offset)
theorem ll (base rt : RegNum) (offset : Half) : Statement (.ll base rt offset) :=
  fun _ => congrArg (fun x => Except.ok (α := Instr) (Instr.ll base rt x)) (imm_iType 0b110000#6 base rt offset)
theorem lld (base rt : RegNum) (offset : Half) : Statement (.lld base rt offset) :=
  fun _ => congrArg (fun x => Except.ok (α := Instr) (Instr.lld base rt x)) (imm_iType 0b110100#6 base rt offset)
theorem sc (base rt : RegNum) (offset : Half) : Statement (.sc base rt offset) :=
  fun _ => congrArg (fun x => Except.ok (α := Instr) (Instr.sc base rt x)) (imm_iType 0b111000#6 base rt offset)
theorem scd (base rt : RegNum) (offset : Half) : Statement (.scd base rt offset) :=
  fun _ => congrArg (fun x => Except.ok (α := Instr) (Instr.scd base rt x)) (imm_iType 0b111100#6 base rt offset)
theorem lwc1 (base ft : RegNum) (offset : Half) : Statement (.lwc1 base ft offset) :=
  fun _ => congrArg (fun x => Except.ok (α := Instr) (Instr.lwc1 base ft x)) (imm_iType 0b110001#6 base ft offset)
theorem ldc1 (base ft : RegNum) (offset : Half) : Statement (.ldc1 base ft offset) :=
  fun _ => congrArg (fun x => Except.ok (α := Instr) (Instr.ldc1 base ft x)) (imm_iType 0b110101#6 base ft offset)
theorem swc1 (base ft : RegNum) (offset : Half) : Statement (.swc1 base ft offset) :=
  fun _ => congrArg (fun x => Except.ok (α := Instr) (Instr.swc1 base ft x)) (imm_iType 0b111001#6 base ft offset)
theorem sdc1 (base ft : RegNum) (offset : Half) : Statement (.sdc1 base ft offset) :=
  fun _ => congrArg (fun x => Except.ok (α := Instr) (Instr.sdc1 base ft x)) (imm_iType 0b111101#6 base ft offset)
theorem addi (rs rt : RegNum) (imm : Half) : Statement (.addi rs rt imm) :=
  fun _ => congrArg (fun x => Except.ok (α := Instr) (Instr.addi rs rt x)) (imm_iType 0b001000#6 rs rt imm)
theorem addiu (rs rt : RegNum) (imm : Half) : Statement (.addiu rs rt imm) :=
  fun _ => congrArg (fun x => Except.ok (α := Instr) (Instr.addiu rs rt x)) (imm_iType 0b001001#6 rs rt imm)
theorem daddi (rs rt : RegNum) (imm : Half) : Statement (.daddi rs rt imm) :=
  fun _ => congrArg (fun x => Except.ok (α := Instr) (Instr.daddi rs rt x)) (imm_iType 0b011000#6 rs rt imm)
theorem daddiu (rs rt : RegNum) (imm : Half) : Statement (.daddiu rs rt imm) :=
  fun _ => congrArg (fun x => Except.ok (α := Instr) (Instr.daddiu rs rt x)) (imm_iType 0b011001#6 rs rt imm)
theorem slti (rs rt : RegNum) (imm : Half) : Statement (.slti rs rt imm) :=
  fun _ => congrArg (fun x => Except.ok (α := Instr) (Instr.slti rs rt x)) (imm_iType 0b001010#6 rs rt imm)
theorem sltiu (rs rt : RegNum) (imm : Half) : Statement (.sltiu rs rt imm) :=
  fun _ => congrArg (fun x => Except.ok (α := Instr) (Instr.sltiu rs rt x)) (imm_iType 0b001011#6 rs rt imm)
theorem andi (rs rt : RegNum) (imm : Half) : Statement (.andi rs rt imm) :=
  fun _ => congrArg (fun x => Except.ok (α := Instr) (Instr.andi rs rt x)) (imm_iType 0b001100#6 rs rt imm)
theorem ori (rs rt : RegNum) (imm : Half) : Statement (.ori rs rt imm) :=
  fun _ => congrArg (fun x => Except.ok (α := Instr) (Instr.ori rs rt x)) (imm_iType 0b001101#6 rs rt imm)
theorem xori (rs rt : RegNum) (imm : Half) : Statement (.xori rs rt imm) :=
  fun _ => congrArg (fun x => Except.ok (α := Instr) (Instr.xori rs rt x)) (imm_iType 0b001110#6 rs rt imm)
theorem lui (rt : RegNum) (imm : Half) : Statement (.lui rt imm) :=
  fun _ => congrArg (fun x => Except.ok (α := Instr) (Instr.lui rt x)) (imm_iType 0b001111#6 0 rt imm)
theorem add (rs rt rd : RegNum) : Statement (.add rs rt rd) := fun _ => rfl
theorem addu (rs rt rd : RegNum) : Statement (.addu rs rt rd) := fun _ => rfl
theorem sub (rs rt rd : RegNum) : Statement (.sub rs rt rd) := fun _ => rfl
theorem subu (rs rt rd : RegNum) : Statement (.subu rs rt rd) := fun _ => rfl
theorem dadd (rs rt rd : RegNum) : Statement (.dadd rs rt rd) := fun _ => rfl
theorem daddu (rs rt rd : RegNum) : Statement (.daddu rs rt rd) := fun _ => rfl
theorem dsub (rs rt rd : RegNum) : Statement (.dsub rs rt rd) := fun _ => rfl
theorem dsubu (rs rt rd : RegNum) : Statement (.dsubu rs rt rd) := fun _ => rfl
theorem slt (rs rt rd : RegNum) : Statement (.slt rs rt rd) := fun _ => rfl
theorem sltu (rs rt rd : RegNum) : Statement (.sltu rs rt rd) := fun _ => rfl
theorem and (rs rt rd : RegNum) : Statement (.and rs rt rd) := fun _ => rfl
theorem or (rs rt rd : RegNum) : Statement (.or rs rt rd) := fun _ => rfl
theorem xor (rs rt rd : RegNum) : Statement (.xor rs rt rd) := fun _ => rfl
theorem nor (rs rt rd : RegNum) : Statement (.nor rs rt rd) := fun _ => rfl
theorem movz (rs rt rd : RegNum) : Statement (.movz rs rt rd) := fun _ => rfl
theorem movn (rs rt rd : RegNum) : Statement (.movn rs rt rd) := fun _ => rfl
theorem sllv (rs rt rd : RegNum) : Statement (.sllv rs rt rd) := fun _ => rfl
theorem srlv (rs rt rd : RegNum) : Statement (.srlv rs rt rd) := fun _ => rfl
theorem srav (rs rt rd : RegNum) : Statement (.srav rs rt rd) := fun _ => rfl
theorem dsllv (rs rt rd : RegNum) : Statement (.dsllv rs rt rd) := fun _ => rfl
theorem dsrlv (rs rt rd : RegNum) : Statement (.dsrlv rs rt rd) := fun _ => rfl
theorem dsrav (rs rt rd : RegNum) : Statement (.dsrav rs rt rd) := fun _ => rfl
theorem sll (rt rd sa : RegNum) : Statement (.sll rt rd sa) := fun _ => rfl
theorem srl (rt rd sa : RegNum) : Statement (.srl rt rd sa) := fun _ => rfl
theorem sra (rt rd sa : RegNum) : Statement (.sra rt rd sa) := fun _ => rfl
theorem dsll (rt rd sa : RegNum) : Statement (.dsll rt rd sa) := fun _ => rfl
theorem dsrl (rt rd sa : RegNum) : Statement (.dsrl rt rd sa) := fun _ => rfl
theorem dsra (rt rd sa : RegNum) : Statement (.dsra rt rd sa) := fun _ => rfl
theorem dsll32 (rt rd sa : RegNum) : Statement (.dsll32 rt rd sa) := fun _ => rfl
theorem dsrl32 (rt rd sa : RegNum) : Statement (.dsrl32 rt rd sa) := fun _ => rfl
theorem dsra32 (rt rd sa : RegNum) : Statement (.dsra32 rt rd sa) := fun _ => rfl
theorem mult (rs rt : RegNum) : Statement (.mult rs rt) := fun _ => rfl
theorem multu (rs rt : RegNum) : Statement (.multu rs rt) := fun _ => rfl
theorem dmult (rs rt : RegNum) : Statement (.dmult rs rt) := fun _ => rfl
theorem dmultu (rs rt : RegNum) : Statement (.dmultu rs rt) := fun _ => rfl
theorem div (rs rt : RegNum) : Statement (.div rs rt) := fun _ => rfl
theorem divu (rs rt : RegNum) : Statement (.divu rs rt) := fun _ => rfl
theorem ddiv (rs rt : RegNum) : Statement (.ddiv rs rt) := fun _ => rfl
theorem ddivu (rs rt : RegNum) : Statement (.ddivu rs rt) := fun _ => rfl
theorem mfhi (rd : RegNum) : Statement (.mfhi rd) := fun _ => rfl
theorem mflo (rd : RegNum) : Statement (.mflo rd) := fun _ => rfl
theorem mthi (rs : RegNum) : Statement (.mthi rs) := fun _ => rfl
theorem mtlo (rs : RegNum) : Statement (.mtlo rs) := fun _ => rfl
theorem multG (rs rt rd : RegNum) : Statement (.multG rs rt rd) := fun _ => rfl
theorem multuG (rs rt rd : RegNum) : Statement (.multuG rs rt rd) := fun _ => rfl
theorem dmultG (rs rt rd : RegNum) : Statement (.dmultG rs rt rd) := fun _ => rfl
theorem dmultuG (rs rt rd : RegNum) : Statement (.dmultuG rs rt rd) := fun _ => rfl
theorem divG (rs rt rd : RegNum) : Statement (.divG rs rt rd) := fun _ => rfl
theorem divuG (rs rt rd : RegNum) : Statement (.divuG rs rt rd) := fun _ => rfl
theorem ddivG (rs rt rd : RegNum) : Statement (.ddivG rs rt rd) := fun _ => rfl
theorem ddivuG (rs rt rd : RegNum) : Statement (.ddivuG rs rt rd) := fun _ => rfl
theorem modG (rs rt rd : RegNum) : Statement (.modG rs rt rd) := fun _ => rfl
theorem moduG (rs rt rd : RegNum) : Statement (.moduG rs rt rd) := fun _ => rfl
theorem dmodG (rs rt rd : RegNum) : Statement (.dmodG rs rt rd) := fun _ => rfl
theorem dmoduG (rs rt rd : RegNum) : Statement (.dmoduG rs rt rd) := fun _ => rfl
theorem j (target : BitVec 26) : Statement (.j target) :=
  fun _ => congrArg (fun x => Except.ok (α := Instr) (Instr.j x)) (target_jType 0b000010#6 target)
theorem jal (target : BitVec 26) : Statement (.jal target) :=
  fun _ => congrArg (fun x => Except.ok (α := Instr) (Instr.jal x)) (target_jType 0b000011#6 target)
theorem jr (rs : RegNum) : Statement (.jr rs) := fun _ => rfl
theorem jalr (rs rd : RegNum) : Statement (.jalr rs rd) := fun _ => rfl
theorem beq (rs rt : RegNum) (offset : Half) : Statement (.beq rs rt offset) :=
  fun _ => congrArg (fun x => Except.ok (α := Instr) (Instr.beq rs rt x)) (imm_iType 0b000100#6 rs rt offset)
theorem bne (rs rt : RegNum) (offset : Half) : Statement (.bne rs rt offset) :=
  fun _ => congrArg (fun x => Except.ok (α := Instr) (Instr.bne rs rt x)) (imm_iType 0b000101#6 rs rt offset)
theorem beql (rs rt : RegNum) (offset : Half) : Statement (.beql rs rt offset) :=
  fun _ => congrArg (fun x => Except.ok (α := Instr) (Instr.beql rs rt x)) (imm_iType 0b010100#6 rs rt offset)
theorem bnel (rs rt : RegNum) (offset : Half) : Statement (.bnel rs rt offset) :=
  fun _ => congrArg (fun x => Except.ok (α := Instr) (Instr.bnel rs rt x)) (imm_iType 0b010101#6 rs rt offset)
theorem blez (rs : RegNum) (offset : Half) : Statement (.blez rs offset) :=
  fun _ => congrArg (fun x => Except.ok (α := Instr) (Instr.blez rs x)) (imm_iType 0b000110#6 rs 0 offset)
theorem bgtz (rs : RegNum) (offset : Half) : Statement (.bgtz rs offset) :=
  fun _ => congrArg (fun x => Except.ok (α := Instr) (Instr.bgtz rs x)) (imm_iType 0b000111#6 rs 0 offset)
theorem blezl (rs : RegNum) (offset : Half) : Statement (.blezl rs offset) :=
  fun _ => congrArg (fun x => Except.ok (α := Instr) (Instr.blezl rs x)) (imm_iType 0b010110#6 rs 0 offset)
theorem bgtzl (rs : RegNum) (offset : Half) : Statement (.bgtzl rs offset) :=
  fun _ => congrArg (fun x => Except.ok (α := Instr) (Instr.bgtzl rs x)) (imm_iType 0b010111#6 rs 0 offset)
theorem bltz (rs : RegNum) (offset : Half) : Statement (.bltz rs offset) :=
  fun _ => congrArg (fun x => Except.ok (α := Instr) (Instr.bltz rs x)) (imm_iType 0b000001#6 rs 0b00000#5 offset)
theorem bgez (rs : RegNum) (offset : Half) : Statement (.bgez rs offset) :=
  fun _ => congrArg (fun x => Except.ok (α := Instr) (Instr.bgez rs x)) (imm_iType 0b000001#6 rs 0b00001#5 offset)
theorem bltzal (rs : RegNum) (offset : Half) : Statement (.bltzal rs offset) :=
  fun _ => congrArg (fun x => Except.ok (α := Instr) (Instr.bltzal rs x)) (imm_iType 0b000001#6 rs 0b10000#5 offset)
theorem bgezal (rs : RegNum) (offset : Half) : Statement (.bgezal rs offset) :=
  fun _ => congrArg (fun x => Except.ok (α := Instr) (Instr.bgezal rs x)) (imm_iType 0b000001#6 rs 0b10001#5 offset)
theorem bltzl (rs : RegNum) (offset : Half) : Statement (.bltzl rs offset) :=
  fun _ => congrArg (fun x => Except.ok (α := Instr) (Instr.bltzl rs x)) (imm_iType 0b000001#6 rs 0b00010#5 offset)
theorem bgezl (rs : RegNum) (offset : Half) : Statement (.bgezl rs offset) :=
  fun _ => congrArg (fun x => Except.ok (α := Instr) (Instr.bgezl rs x)) (imm_iType 0b000001#6 rs 0b00011#5 offset)
theorem bltzall (rs : RegNum) (offset : Half) : Statement (.bltzall rs offset) :=
  fun _ => congrArg (fun x => Except.ok (α := Instr) (Instr.bltzall rs x)) (imm_iType 0b000001#6 rs 0b10010#5 offset)
theorem bgezall (rs : RegNum) (offset : Half) : Statement (.bgezall rs offset) :=
  fun _ => congrArg (fun x => Except.ok (α := Instr) (Instr.bgezall rs x)) (imm_iType 0b000001#6 rs 0b10011#5 offset)
theorem syscall (code20 : BitVec 20) : Statement (.syscall code20) :=
  fun _ => congrArg (fun x => Except.ok (α := Instr) (Instr.syscall x)) (code20_code20Type code20 0b001100#6)
theorem brk (code20 : BitVec 20) : Statement (.brk code20) :=
  fun _ => congrArg (fun x => Except.ok (α := Instr) (Instr.brk x)) (code20_code20Type code20 0b001101#6)
theorem sync : Statement (.sync) := fun _ => rfl
theorem tge (rs rt : RegNum) (code10 : BitVec 10) : Statement (.tge rs rt code10) :=
  fun _ => congrArg (fun x => Except.ok (α := Instr) (Instr.tge rs rt x)) (code10_code10Type rs rt code10 0b110000#6)
theorem tgeu (rs rt : RegNum) (code10 : BitVec 10) : Statement (.tgeu rs rt code10) :=
  fun _ => congrArg (fun x => Except.ok (α := Instr) (Instr.tgeu rs rt x)) (code10_code10Type rs rt code10 0b110001#6)
theorem tlt (rs rt : RegNum) (code10 : BitVec 10) : Statement (.tlt rs rt code10) :=
  fun _ => congrArg (fun x => Except.ok (α := Instr) (Instr.tlt rs rt x)) (code10_code10Type rs rt code10 0b110010#6)
theorem tltu (rs rt : RegNum) (code10 : BitVec 10) : Statement (.tltu rs rt code10) :=
  fun _ => congrArg (fun x => Except.ok (α := Instr) (Instr.tltu rs rt x)) (code10_code10Type rs rt code10 0b110011#6)
theorem teq (rs rt : RegNum) (code10 : BitVec 10) : Statement (.teq rs rt code10) :=
  fun _ => congrArg (fun x => Except.ok (α := Instr) (Instr.teq rs rt x)) (code10_code10Type rs rt code10 0b110100#6)
theorem tne (rs rt : RegNum) (code10 : BitVec 10) : Statement (.tne rs rt code10) :=
  fun _ => congrArg (fun x => Except.ok (α := Instr) (Instr.tne rs rt x)) (code10_code10Type rs rt code10 0b110110#6)
theorem tgei (rs : RegNum) (imm : Half) : Statement (.tgei rs imm) :=
  fun _ => congrArg (fun x => Except.ok (α := Instr) (Instr.tgei rs x)) (imm_iType 0b000001#6 rs 0b01000#5 imm)
theorem tgeiu (rs : RegNum) (imm : Half) : Statement (.tgeiu rs imm) :=
  fun _ => congrArg (fun x => Except.ok (α := Instr) (Instr.tgeiu rs x)) (imm_iType 0b000001#6 rs 0b01001#5 imm)
theorem tlti (rs : RegNum) (imm : Half) : Statement (.tlti rs imm) :=
  fun _ => congrArg (fun x => Except.ok (α := Instr) (Instr.tlti rs x)) (imm_iType 0b000001#6 rs 0b01010#5 imm)
theorem tltiu (rs : RegNum) (imm : Half) : Statement (.tltiu rs imm) :=
  fun _ => congrArg (fun x => Except.ok (α := Instr) (Instr.tltiu rs x)) (imm_iType 0b000001#6 rs 0b01011#5 imm)
theorem teqi (rs : RegNum) (imm : Half) : Statement (.teqi rs imm) :=
  fun _ => congrArg (fun x => Except.ok (α := Instr) (Instr.teqi rs x)) (imm_iType 0b000001#6 rs 0b01100#5 imm)
theorem tnei (rs : RegNum) (imm : Half) : Statement (.tnei rs imm) :=
  fun _ => congrArg (fun x => Except.ok (α := Instr) (Instr.tnei rs x)) (imm_iType 0b000001#6 rs 0b01110#5 imm)
theorem mfc0 (rt rd : RegNum) : Statement (.mfc0 rt rd) := fun _ => if_neg (show ¬((0b00000#5)[4] = true) by decide)
theorem dmfc0 (rt rd : RegNum) : Statement (.dmfc0 rt rd) := fun _ => if_neg (show ¬((0b00001#5)[4] = true) by decide)
theorem mtc0 (rt rd : RegNum) : Statement (.mtc0 rt rd) := fun _ => if_neg (show ¬((0b00100#5)[4] = true) by decide)
theorem dmtc0 (rt rd : RegNum) : Statement (.dmtc0 rt rd) := fun _ => if_neg (show ¬((0b00101#5)[4] = true) by decide)
theorem tlbr : Statement (.tlbr) := fun _ => rfl
theorem tlbwi : Statement (.tlbwi) := fun _ => rfl
theorem tlbwr : Statement (.tlbwr) := fun _ => rfl
theorem tlbp : Statement (.tlbp) := fun _ => rfl
theorem eret : Statement (.eret) := fun _ => rfl
/-- The generic CACHE: the operations Table 51 lists are ruled out by well-formedness. -/
theorem cache (base : RegNum) (cacheop : BitVec 5) (offset : Half) : Statement (.cache base cacheop offset) := by
  intro h
  have imm := imm_iType 0b101111#6 base cacheop offset
  obtain ⟨⟨n, hn⟩⟩ := cacheop
  interval_cases n <;>
    first
    | exact absurd (show false = true from h) Bool.false_ne_true
    | exact congrArg (fun x => Except.ok (α := Instr) (Instr.cache base ⟨⟨_, hn⟩⟩ x)) imm
theorem cache0 (base : RegNum) (offset : Half) : Statement (.cache0 base offset) :=
  fun _ => congrArg (fun x => Except.ok (α := Instr) (Instr.cache0 base x)) (imm_iType 0b101111#6 base 0b00000#5 offset)
theorem cache1 (base : RegNum) (offset : Half) : Statement (.cache1 base offset) :=
  fun _ => congrArg (fun x => Except.ok (α := Instr) (Instr.cache1 base x)) (imm_iType 0b101111#6 base 0b00001#5 offset)
theorem cache5 (base : RegNum) (offset : Half) : Statement (.cache5 base offset) :=
  fun _ => congrArg (fun x => Except.ok (α := Instr) (Instr.cache5 base x)) (imm_iType 0b101111#6 base 0b00101#5 offset)
theorem cache9 (base : RegNum) (offset : Half) : Statement (.cache9 base offset) :=
  fun _ => congrArg (fun x => Except.ok (α := Instr) (Instr.cache9 base x)) (imm_iType 0b101111#6 base 0b01001#5 offset)
theorem cache17 (base : RegNum) (offset : Half) : Statement (.cache17 base offset) :=
  fun _ => congrArg (fun x => Except.ok (α := Instr) (Instr.cache17 base x)) (imm_iType 0b101111#6 base 0b10001#5 offset)
theorem cache21 (base : RegNum) (offset : Half) : Statement (.cache21 base offset) :=
  fun _ => congrArg (fun x => Except.ok (α := Instr) (Instr.cache21 base x)) (imm_iType 0b101111#6 base 0b10101#5 offset)
theorem cache25 (base : RegNum) (offset : Half) : Statement (.cache25 base offset) :=
  fun _ => congrArg (fun x => Except.ok (α := Instr) (Instr.cache25 base x)) (imm_iType 0b101111#6 base 0b11001#5 offset)
theorem cache29 (base : RegNum) (offset : Half) : Statement (.cache29 base offset) :=
  fun _ => congrArg (fun x => Except.ok (α := Instr) (Instr.cache29 base x)) (imm_iType 0b101111#6 base 0b11101#5 offset)
theorem cache3 (base : RegNum) (offset : Half) : Statement (.cache3 base offset) :=
  fun _ => congrArg (fun x => Except.ok (α := Instr) (Instr.cache3 base x)) (imm_iType 0b101111#6 base 0b00011#5 offset)
theorem cache7 (base : RegNum) (offset : Half) : Statement (.cache7 base offset) :=
  fun _ => congrArg (fun x => Except.ok (α := Instr) (Instr.cache7 base x)) (imm_iType 0b101111#6 base 0b00111#5 offset)
theorem cache11 (base : RegNum) (offset : Half) : Statement (.cache11 base offset) :=
  fun _ => congrArg (fun x => Except.ok (α := Instr) (Instr.cache11 base x)) (imm_iType 0b101111#6 base 0b01011#5 offset)
theorem cache19 (base : RegNum) (offset : Half) : Statement (.cache19 base offset) :=
  fun _ => congrArg (fun x => Except.ok (α := Instr) (Instr.cache19 base x)) (imm_iType 0b101111#6 base 0b10011#5 offset)
theorem cache23 (base : RegNum) (offset : Half) : Statement (.cache23 base offset) :=
  fun _ => congrArg (fun x => Except.ok (α := Instr) (Instr.cache23 base x)) (imm_iType 0b101111#6 base 0b10111#5 offset)
theorem cache27 (base : RegNum) (offset : Half) : Statement (.cache27 base offset) :=
  fun _ => congrArg (fun x => Except.ok (α := Instr) (Instr.cache27 base x)) (imm_iType 0b101111#6 base 0b11011#5 offset)
theorem cache31 (base : RegNum) (offset : Half) : Statement (.cache31 base offset) :=
  fun _ => congrArg (fun x => Except.ok (α := Instr) (Instr.cache31 base x)) (imm_iType 0b101111#6 base 0b11111#5 offset)
theorem addS (ft fs fd : RegNum) : Statement (.addS ft fs fd) := fun _ => rfl
theorem addD (ft fs fd : RegNum) : Statement (.addD ft fs fd) := fun _ => rfl
theorem subS (ft fs fd : RegNum) : Statement (.subS ft fs fd) := fun _ => rfl
theorem subD (ft fs fd : RegNum) : Statement (.subD ft fs fd) := fun _ => rfl
theorem mulS (ft fs fd : RegNum) : Statement (.mulS ft fs fd) := fun _ => rfl
theorem mulD (ft fs fd : RegNum) : Statement (.mulD ft fs fd) := fun _ => rfl
theorem divS (ft fs fd : RegNum) : Statement (.divS ft fs fd) := fun _ => rfl
theorem divD (ft fs fd : RegNum) : Statement (.divD ft fs fd) := fun _ => rfl
theorem sqrtS (fs fd : RegNum) : Statement (.sqrtS fs fd) := fun _ => rfl
theorem sqrtD (fs fd : RegNum) : Statement (.sqrtD fs fd) := fun _ => rfl
theorem absS (fs fd : RegNum) : Statement (.absS fs fd) := fun _ => rfl
theorem absD (fs fd : RegNum) : Statement (.absD fs fd) := fun _ => rfl
theorem movS (fs fd : RegNum) : Statement (.movS fs fd) := fun _ => rfl
theorem movD (fs fd : RegNum) : Statement (.movD fs fd) := fun _ => rfl
theorem negS (fs fd : RegNum) : Statement (.negS fs fd) := fun _ => rfl
theorem negD (fs fd : RegNum) : Statement (.negD fs fd) := fun _ => rfl
theorem roundLS (fs fd : RegNum) : Statement (.roundLS fs fd) := fun _ => rfl
theorem roundLD (fs fd : RegNum) : Statement (.roundLD fs fd) := fun _ => rfl
theorem truncLS (fs fd : RegNum) : Statement (.truncLS fs fd) := fun _ => rfl
theorem truncLD (fs fd : RegNum) : Statement (.truncLD fs fd) := fun _ => rfl
theorem ceilLS (fs fd : RegNum) : Statement (.ceilLS fs fd) := fun _ => rfl
theorem ceilLD (fs fd : RegNum) : Statement (.ceilLD fs fd) := fun _ => rfl
theorem floorLS (fs fd : RegNum) : Statement (.floorLS fs fd) := fun _ => rfl
theorem floorLD (fs fd : RegNum) : Statement (.floorLD fs fd) := fun _ => rfl
theorem roundWS (fs fd : RegNum) : Statement (.roundWS fs fd) := fun _ => rfl
theorem roundWD (fs fd : RegNum) : Statement (.roundWD fs fd) := fun _ => rfl
theorem truncWS (fs fd : RegNum) : Statement (.truncWS fs fd) := fun _ => rfl
theorem truncWD (fs fd : RegNum) : Statement (.truncWD fs fd) := fun _ => rfl
theorem ceilWS (fs fd : RegNum) : Statement (.ceilWS fs fd) := fun _ => rfl
theorem ceilWD (fs fd : RegNum) : Statement (.ceilWD fs fd) := fun _ => rfl
theorem floorWS (fs fd : RegNum) : Statement (.floorWS fs fd) := fun _ => rfl
theorem floorWD (fs fd : RegNum) : Statement (.floorWD fs fd) := fun _ => rfl
theorem cvtWS (fs fd : RegNum) : Statement (.cvtWS fs fd) := fun _ => rfl
theorem cvtWD (fs fd : RegNum) : Statement (.cvtWD fs fd) := fun _ => rfl
theorem cvtLS (fs fd : RegNum) : Statement (.cvtLS fs fd) := fun _ => rfl
theorem cvtLD (fs fd : RegNum) : Statement (.cvtLD fs fd) := fun _ => rfl
theorem cvtSD (fs fd : RegNum) : Statement (.cvtSD fs fd) := fun _ => rfl
theorem cvtSW (fs fd : RegNum) : Statement (.cvtSW fs fd) := fun _ => rfl
theorem cvtSL (fs fd : RegNum) : Statement (.cvtSL fs fd) := fun _ => rfl
theorem cvtDS (fs fd : RegNum) : Statement (.cvtDS fs fd) := fun _ => rfl
theorem cvtDW (fs fd : RegNum) : Statement (.cvtDW fs fd) := fun _ => rfl
theorem cvtDL (fs fd : RegNum) : Statement (.cvtDL fs fd) := fun _ => rfl
theorem cFS (ft fs : RegNum) : Statement (.cFS ft fs) := fun _ => rfl
theorem cFD (ft fs : RegNum) : Statement (.cFD ft fs) := fun _ => rfl
theorem cUnS (ft fs : RegNum) : Statement (.cUnS ft fs) := fun _ => rfl
theorem cUnD (ft fs : RegNum) : Statement (.cUnD ft fs) := fun _ => rfl
theorem cEqS (ft fs : RegNum) : Statement (.cEqS ft fs) := fun _ => rfl
theorem cEqD (ft fs : RegNum) : Statement (.cEqD ft fs) := fun _ => rfl
theorem cUeqS (ft fs : RegNum) : Statement (.cUeqS ft fs) := fun _ => rfl
theorem cUeqD (ft fs : RegNum) : Statement (.cUeqD ft fs) := fun _ => rfl
theorem cOltS (ft fs : RegNum) : Statement (.cOltS ft fs) := fun _ => rfl
theorem cOltD (ft fs : RegNum) : Statement (.cOltD ft fs) := fun _ => rfl
theorem cUltS (ft fs : RegNum) : Statement (.cUltS ft fs) := fun _ => rfl
theorem cUltD (ft fs : RegNum) : Statement (.cUltD ft fs) := fun _ => rfl
theorem cOleS (ft fs : RegNum) : Statement (.cOleS ft fs) := fun _ => rfl
theorem cOleD (ft fs : RegNum) : Statement (.cOleD ft fs) := fun _ => rfl
theorem cUleS (ft fs : RegNum) : Statement (.cUleS ft fs) := fun _ => rfl
theorem cUleD (ft fs : RegNum) : Statement (.cUleD ft fs) := fun _ => rfl
theorem cSfS (ft fs : RegNum) : Statement (.cSfS ft fs) := fun _ => rfl
theorem cSfD (ft fs : RegNum) : Statement (.cSfD ft fs) := fun _ => rfl
theorem cNgleS (ft fs : RegNum) : Statement (.cNgleS ft fs) := fun _ => rfl
theorem cNgleD (ft fs : RegNum) : Statement (.cNgleD ft fs) := fun _ => rfl
theorem cSeqS (ft fs : RegNum) : Statement (.cSeqS ft fs) := fun _ => rfl
theorem cSeqD (ft fs : RegNum) : Statement (.cSeqD ft fs) := fun _ => rfl
theorem cNglS (ft fs : RegNum) : Statement (.cNglS ft fs) := fun _ => rfl
theorem cNglD (ft fs : RegNum) : Statement (.cNglD ft fs) := fun _ => rfl
theorem cLtS (ft fs : RegNum) : Statement (.cLtS ft fs) := fun _ => rfl
theorem cLtD (ft fs : RegNum) : Statement (.cLtD ft fs) := fun _ => rfl
theorem cNgeS (ft fs : RegNum) : Statement (.cNgeS ft fs) := fun _ => rfl
theorem cNgeD (ft fs : RegNum) : Statement (.cNgeD ft fs) := fun _ => rfl
theorem cLeS (ft fs : RegNum) : Statement (.cLeS ft fs) := fun _ => rfl
theorem cLeD (ft fs : RegNum) : Statement (.cLeD ft fs) := fun _ => rfl
theorem cNgtS (ft fs : RegNum) : Statement (.cNgtS ft fs) := fun _ => rfl
theorem cNgtD (ft fs : RegNum) : Statement (.cNgtD ft fs) := fun _ => rfl
theorem bc1f (offset : Half) : Statement (.bc1f offset) :=
  fun _ => congrArg (fun x => Except.ok (α := Instr) (Instr.bc1f x)) (imm_iType 0b010001#6 0b01000#5 0b00000#5 offset)
theorem bc1t (offset : Half) : Statement (.bc1t offset) :=
  fun _ => congrArg (fun x => Except.ok (α := Instr) (Instr.bc1t x)) (imm_iType 0b010001#6 0b01000#5 0b00001#5 offset)
theorem bc1fl (offset : Half) : Statement (.bc1fl offset) :=
  fun _ => congrArg (fun x => Except.ok (α := Instr) (Instr.bc1fl x)) (imm_iType 0b010001#6 0b01000#5 0b00010#5 offset)
theorem bc1tl (offset : Half) : Statement (.bc1tl offset) :=
  fun _ => congrArg (fun x => Except.ok (α := Instr) (Instr.bc1tl x)) (imm_iType 0b010001#6 0b01000#5 0b00011#5 offset)
theorem mfc1 (rt fs : RegNum) : Statement (.mfc1 rt fs) := fun _ => rfl
theorem dmfc1 (rt fs : RegNum) : Statement (.dmfc1 rt fs) := fun _ => rfl
theorem cfc1 (rt fs : RegNum) : Statement (.cfc1 rt fs) := fun _ => rfl
theorem mtc1 (rt fs : RegNum) : Statement (.mtc1 rt fs) := fun _ => rfl
theorem dmtc1 (rt fs : RegNum) : Statement (.dmtc1 rt fs) := fun _ => rfl
theorem ctc1 (rt fs : RegNum) : Statement (.ctc1 rt fs) := fun _ => rfl
theorem addPs (ft fs fd : RegNum) : Statement (.addPs ft fs fd) := fun _ => rfl
theorem subPs (ft fs fd : RegNum) : Statement (.subPs ft fs fd) := fun _ => rfl
theorem mulPs (ft fs fd : RegNum) : Statement (.mulPs ft fs fd) := fun _ => rfl
theorem absPs (fs fd : RegNum) : Statement (.absPs fs fd) := fun _ => rfl
theorem movPs (fs fd : RegNum) : Statement (.movPs fs fd) := fun _ => rfl
theorem negPs (fs fd : RegNum) : Statement (.negPs fs fd) := fun _ => rfl
theorem cFPs (ft fs : RegNum) : Statement (.cFPs ft fs) := fun _ => rfl
theorem cUnPs (ft fs : RegNum) : Statement (.cUnPs ft fs) := fun _ => rfl
theorem cEqPs (ft fs : RegNum) : Statement (.cEqPs ft fs) := fun _ => rfl
theorem cUeqPs (ft fs : RegNum) : Statement (.cUeqPs ft fs) := fun _ => rfl
theorem cOltPs (ft fs : RegNum) : Statement (.cOltPs ft fs) := fun _ => rfl
theorem cUltPs (ft fs : RegNum) : Statement (.cUltPs ft fs) := fun _ => rfl
theorem cOlePs (ft fs : RegNum) : Statement (.cOlePs ft fs) := fun _ => rfl
theorem cUlePs (ft fs : RegNum) : Statement (.cUlePs ft fs) := fun _ => rfl
theorem cSfPs (ft fs : RegNum) : Statement (.cSfPs ft fs) := fun _ => rfl
theorem cNglePs (ft fs : RegNum) : Statement (.cNglePs ft fs) := fun _ => rfl
theorem cSeqPs (ft fs : RegNum) : Statement (.cSeqPs ft fs) := fun _ => rfl
theorem cNglPs (ft fs : RegNum) : Statement (.cNglPs ft fs) := fun _ => rfl
theorem cLtPs (ft fs : RegNum) : Statement (.cLtPs ft fs) := fun _ => rfl
theorem cNgePs (ft fs : RegNum) : Statement (.cNgePs ft fs) := fun _ => rfl
theorem cLePs (ft fs : RegNum) : Statement (.cLePs ft fs) := fun _ => rfl
theorem cNgtPs (ft fs : RegNum) : Statement (.cNgtPs ft fs) := fun _ => rfl
theorem maddS (ft fs fd : RegNum) : Statement (.maddS ft fs fd) := fun _ => rfl
theorem maddD (ft fs fd : RegNum) : Statement (.maddD ft fs fd) := fun _ => rfl
theorem maddPs (ft fs fd : RegNum) : Statement (.maddPs ft fs fd) := fun _ => rfl
theorem msubS (ft fs fd : RegNum) : Statement (.msubS ft fs fd) := fun _ => rfl
theorem msubD (ft fs fd : RegNum) : Statement (.msubD ft fs fd) := fun _ => rfl
theorem msubPs (ft fs fd : RegNum) : Statement (.msubPs ft fs fd) := fun _ => rfl
theorem nmaddS (ft fs fd : RegNum) : Statement (.nmaddS ft fs fd) := fun _ => rfl
theorem nmaddD (ft fs fd : RegNum) : Statement (.nmaddD ft fs fd) := fun _ => rfl
theorem nmaddPs (ft fs fd : RegNum) : Statement (.nmaddPs ft fs fd) := fun _ => rfl
theorem nmsubS (ft fs fd : RegNum) : Statement (.nmsubS ft fs fd) := fun _ => rfl
theorem nmsubD (ft fs fd : RegNum) : Statement (.nmsubD ft fs fd) := fun _ => rfl
theorem nmsubPs (ft fs fd : RegNum) : Statement (.nmsubPs ft fs fd) := fun _ => rfl
theorem paddb (ft fs fd : RegNum) : Statement (.paddb ft fs fd) := fun _ => rfl
theorem paddh (ft fs fd : RegNum) : Statement (.paddh ft fs fd) := fun _ => rfl
theorem paddw (ft fs fd : RegNum) : Statement (.paddw ft fs fd) := fun _ => rfl
theorem paddd (ft fs fd : RegNum) : Statement (.paddd ft fs fd) := fun _ => rfl
theorem paddsb (ft fs fd : RegNum) : Statement (.paddsb ft fs fd) := fun _ => rfl
theorem paddsh (ft fs fd : RegNum) : Statement (.paddsh ft fs fd) := fun _ => rfl
theorem paddusb (ft fs fd : RegNum) : Statement (.paddusb ft fs fd) := fun _ => rfl
theorem paddush (ft fs fd : RegNum) : Statement (.paddush ft fs fd) := fun _ => rfl
theorem psubb (ft fs fd : RegNum) : Statement (.psubb ft fs fd) := fun _ => rfl
theorem psubh (ft fs fd : RegNum) : Statement (.psubh ft fs fd) := fun _ => rfl
theorem psubw (ft fs fd : RegNum) : Statement (.psubw ft fs fd) := fun _ => rfl
theorem psubd (ft fs fd : RegNum) : Statement (.psubd ft fs fd) := fun _ => rfl
theorem psubsb (ft fs fd : RegNum) : Statement (.psubsb ft fs fd) := fun _ => rfl
theorem psubsh (ft fs fd : RegNum) : Statement (.psubsh ft fs fd) := fun _ => rfl
theorem psubusb (ft fs fd : RegNum) : Statement (.psubusb ft fs fd) := fun _ => rfl
theorem psubush (ft fs fd : RegNum) : Statement (.psubush ft fs fd) := fun _ => rfl
theorem pshufh (ft fs fd : RegNum) : Statement (.pshufh ft fs fd) := fun _ => rfl
theorem packsswh (ft fs fd : RegNum) : Statement (.packsswh ft fs fd) := fun _ => rfl
theorem packsshb (ft fs fd : RegNum) : Statement (.packsshb ft fs fd) := fun _ => rfl
theorem packushb (ft fs fd : RegNum) : Statement (.packushb ft fs fd) := fun _ => rfl
theorem pandn (ft fs fd : RegNum) : Statement (.pandn ft fs fd) := fun _ => rfl
theorem punpcklhw (ft fs fd : RegNum) : Statement (.punpcklhw ft fs fd) := fun _ => rfl
theorem punpckhhw (ft fs fd : RegNum) : Statement (.punpckhhw ft fs fd) := fun _ => rfl
theorem punpcklbh (ft fs fd : RegNum) : Statement (.punpcklbh ft fs fd) := fun _ => rfl
theorem punpckhbh (ft fs fd : RegNum) : Statement (.punpckhbh ft fs fd) := fun _ => rfl
theorem punpcklwd (ft fs fd : RegNum) : Statement (.punpcklwd ft fs fd) := fun _ => rfl
theorem punpckhwd (ft fs fd : RegNum) : Statement (.punpckhwd ft fs fd) := fun _ => rfl
theorem pinsrh0 (ft fs fd : RegNum) : Statement (.pinsrh0 ft fs fd) := fun _ => rfl
theorem pinsrh1 (ft fs fd : RegNum) : Statement (.pinsrh1 ft fs fd) := fun _ => rfl
theorem pinsrh2 (ft fs fd : RegNum) : Statement (.pinsrh2 ft fs fd) := fun _ => rfl
theorem pinsrh3 (ft fs fd : RegNum) : Statement (.pinsrh3 ft fs fd) := fun _ => rfl
theorem pavgh (ft fs fd : RegNum) : Statement (.pavgh ft fs fd) := fun _ => rfl
theorem pavgb (ft fs fd : RegNum) : Statement (.pavgb ft fs fd) := fun _ => rfl
theorem pmaxsh (ft fs fd : RegNum) : Statement (.pmaxsh ft fs fd) := fun _ => rfl
theorem pminsh (ft fs fd : RegNum) : Statement (.pminsh ft fs fd) := fun _ => rfl
theorem pmaxub (ft fs fd : RegNum) : Statement (.pmaxub ft fs fd) := fun _ => rfl
theorem pminub (ft fs fd : RegNum) : Statement (.pminub ft fs fd) := fun _ => rfl
theorem pcmpeqw (ft fs fd : RegNum) : Statement (.pcmpeqw ft fs fd) := fun _ => rfl
theorem pcmpgtw (ft fs fd : RegNum) : Statement (.pcmpgtw ft fs fd) := fun _ => rfl
theorem pcmpeqh (ft fs fd : RegNum) : Statement (.pcmpeqh ft fs fd) := fun _ => rfl
theorem pcmpgth (ft fs fd : RegNum) : Statement (.pcmpgth ft fs fd) := fun _ => rfl
theorem pcmpeqb (ft fs fd : RegNum) : Statement (.pcmpeqb ft fs fd) := fun _ => rfl
theorem pcmpgtb (ft fs fd : RegNum) : Statement (.pcmpgtb ft fs fd) := fun _ => rfl
theorem psllw (ft fs fd : RegNum) : Statement (.psllw ft fs fd) := fun _ => rfl
theorem psllh (ft fs fd : RegNum) : Statement (.psllh ft fs fd) := fun _ => rfl
theorem pmullh (ft fs fd : RegNum) : Statement (.pmullh ft fs fd) := fun _ => rfl
theorem pmulhh (ft fs fd : RegNum) : Statement (.pmulhh ft fs fd) := fun _ => rfl
theorem pmuluw (ft fs fd : RegNum) : Statement (.pmuluw ft fs fd) := fun _ => rfl
theorem pmulhuh (ft fs fd : RegNum) : Statement (.pmulhuh ft fs fd) := fun _ => rfl
theorem psrlw (ft fs fd : RegNum) : Statement (.psrlw ft fs fd) := fun _ => rfl
theorem psrlh (ft fs fd : RegNum) : Statement (.psrlh ft fs fd) := fun _ => rfl
theorem psraw (ft fs fd : RegNum) : Statement (.psraw ft fs fd) := fun _ => rfl
theorem psrah (ft fs fd : RegNum) : Statement (.psrah ft fs fd) := fun _ => rfl
theorem pasubub (ft fs fd : RegNum) : Statement (.pasubub ft fs fd) := fun _ => rfl
theorem biadd (fs fd : RegNum) : Statement (.biadd fs fd) := fun _ => rfl
theorem pextrh (ft fs fd : RegNum) : Statement (.pextrh ft fs fd) := fun _ => rfl
theorem pmaddhw (ft fs fd : RegNum) : Statement (.pmaddhw ft fs fd) := fun _ => rfl
theorem pmovmskb (fs fd : RegNum) : Statement (.pmovmskb fs fd) := fun _ => rfl
theorem fxAdd (ft fs fd : RegNum) : Statement (.fxAdd ft fs fd) := fun _ => rfl
theorem fxAddu (ft fs fd : RegNum) : Statement (.fxAddu ft fs fd) := fun _ => rfl
theorem fxDadd (ft fs fd : RegNum) : Statement (.fxDadd ft fs fd) := fun _ => rfl
theorem fxSub (ft fs fd : RegNum) : Statement (.fxSub ft fs fd) := fun _ => rfl
theorem fxSubu (ft fs fd : RegNum) : Statement (.fxSubu ft fs fd) := fun _ => rfl
theorem fxDsub (ft fs fd : RegNum) : Statement (.fxDsub ft fs fd) := fun _ => rfl
theorem fxOr (ft fs fd : RegNum) : Statement (.fxOr ft fs fd) := fun _ => rfl
theorem fxXor (ft fs fd : RegNum) : Statement (.fxXor ft fs fd) := fun _ => rfl
theorem fxNor (ft fs fd : RegNum) : Statement (.fxNor ft fs fd) := fun _ => rfl
theorem fxAnd (ft fs fd : RegNum) : Statement (.fxAnd ft fs fd) := fun _ => rfl
theorem fxSll (ft fs fd : RegNum) : Statement (.fxSll ft fs fd) := fun _ => rfl
theorem fxSrl (ft fs fd : RegNum) : Statement (.fxSrl ft fs fd) := fun _ => rfl
theorem fxSra (ft fs fd : RegNum) : Statement (.fxSra ft fs fd) := fun _ => rfl
theorem fxDsll (ft fs fd : RegNum) : Statement (.fxDsll ft fs fd) := fun _ => rfl
theorem fxDsrl (ft fs fd : RegNum) : Statement (.fxDsrl ft fs fd) := fun _ => rfl
theorem fxDsra (ft fs fd : RegNum) : Statement (.fxDsra ft fs fd) := fun _ => rfl
theorem fxSequ (ft fs : RegNum) : Statement (.fxSequ ft fs) := fun _ => rfl
theorem fxSeq (ft fs : RegNum) : Statement (.fxSeq ft fs) := fun _ => rfl
theorem fxSltu (ft fs : RegNum) : Statement (.fxSltu ft fs) := fun _ => rfl
theorem fxSlt (ft fs : RegNum) : Statement (.fxSlt ft fs) := fun _ => rfl
theorem fxSleu (ft fs : RegNum) : Statement (.fxSleu ft fs) := fun _ => rfl
theorem fxSle (ft fs : RegNum) : Statement (.fxSle ft fs) := fun _ => rfl

end Sys2Proof.Laws.Tables
end

