-- ==== Sys2Proof/Laws/Values.lean ====
section
/-! SUPPORT. The arithmetic of the bit vectors as integers: what each operation of the integer unit computes. -/

namespace Sys2Proof.Machine

/-! ### Sums and differences, computed on integers -/

/-- A wrapping sum is the integer sum narrowed. -/
theorem ofInt_add {w : Nat} (a b : BitVec w) : BitVec.ofInt w (a.toInt + b.toInt) = a + b := by
  apply BitVec.eq_of_toInt_eq; rw [BitVec.toInt_ofInt, BitVec.toInt_add]

/-- A wrapping difference is the integer difference narrowed. -/
theorem ofInt_sub {w : Nat} (a b : BitVec w) : BitVec.ofInt w (a.toInt - b.toInt) = a - b := by
  apply BitVec.eq_of_toInt_eq; rw [BitVec.toInt_ofInt, BitVec.toInt_sub]

/-- The sum with a sign-extended immediate. -/
theorem ofInt_add_half (a : Word) (imm : Half) : BitVec.ofInt 32 (a.toInt + imm.toInt) = a + imm.signExtend 32 := by
  apply BitVec.eq_of_toInt_eq
  rw [BitVec.toInt_ofInt, BitVec.toInt_add, BitVec.toInt_signExtend_of_le (by omega)]

/-- A value that fits a word is its own sign extension. -/
theorem ofInt_fits {v : Int} (h : -2 ^ 31 ≤ v ∧ v < 2 ^ 31) : (BitVec.ofInt 32 v).signExtend 64 = BitVec.ofInt 64 v := by
  apply BitVec.eq_of_toInt_eq
  rw [BitVec.toInt_signExtend_of_le (by omega), BitVec.toInt_ofInt, BitVec.toInt_ofInt,
    Int.bmod_eq_of_le (by omega) (by omega), Int.bmod_eq_of_le (by omega) (by omega)]

/-- The overflow test of a sum: the exact sum is out of range. -/
theorem addOverflows_iff {w : Nat} (a b : BitVec w) : addOverflows a b = true ↔ ¬(-2 ^ (w-1) ≤ a.toInt + b.toInt ∧ a.toInt + b.toInt < 2 ^ (w-1)) := by
  simp only [addOverflows, BitVec.saddOverflow, Bool.or_eq_true, decide_eq_true_eq, ge_iff_le, not_and_or, not_le, not_lt]
  omega

/-- The overflow test of a difference: the exact difference is out of range. -/
theorem subOverflows_iff {w : Nat} (a b : BitVec w) : subOverflows a b = true ↔ ¬(-2 ^ (w-1) ≤ a.toInt - b.toInt ∧ a.toInt - b.toInt < 2 ^ (w-1)) := by
  simp only [subOverflows, BitVec.ssubOverflow, Bool.or_eq_true, decide_eq_true_eq, ge_iff_le, not_and_or, not_le, not_lt]
  omega

/-- A halfword over sixteen zeros is the halfword times 2^16. -/
theorem toInt_append_zeros (imm : Half) : (imm ++ (0 : BitVec 16)).toInt = imm.toInt * 2 ^ 16 := by
  have h := imm.isLt
  simp only [BitVec.toInt_eq_toNat_cond, BitVec.toNat_append]
  simp only [Nat.shiftLeft_eq]
  simp
  split <;> split <;> omega

/-! ### Shifts, computed on integers -/

/-- A left shift multiplies. -/
theorem ofNat_shl {w : Nat} (x : BitVec w) (n : Nat) : BitVec.ofNat w (x.toNat * 2 ^ n) = x <<< n := by
  apply BitVec.eq_of_toNat_eq; rw [BitVec.toNat_ofNat, BitVec.toNat_shiftLeft, Nat.shiftLeft_eq]

/-- A logical right shift divides. -/
theorem ofNat_shr {w : Nat} (x : BitVec w) (n : Nat) : BitVec.ofNat w (x.toNat / 2 ^ n) = x >>> n := by
  apply BitVec.eq_of_toNat_eq; rw [BitVec.toNat_ofNat, BitVec.toNat_ushiftRight, Nat.shiftRight_eq_div_pow]
  exact Nat.mod_eq_of_lt (lt_of_le_of_lt (Nat.div_le_self _ _) x.isLt)

/-- An arithmetic right shift divides, rounding down. -/
theorem ofInt_sar {w : Nat} (x : BitVec w) (n : Nat) : BitVec.ofInt w (x.toInt / 2 ^ n) = x.sshiftRight n := by
  apply BitVec.eq_of_toInt_eq; rw [BitVec.toInt_ofInt, show (2 : Int) ^ n = ((2 ^ n : Nat) : Int) by push_cast; rfl, ← Int.shiftRight_eq_div_pow,
    ← BitVec.toInt_sshiftRight]
  exact BitVec.toInt_bmod_cancel _

/-- The same for a word, sign-extended. -/
theorem ofInt_sar_word (x : Word) (n : Nat) : BitVec.ofInt 64 (x.toInt / 2 ^ n) = sext64 (x.sshiftRight n) := by
  apply BitVec.eq_of_toInt_eq
  rw [sext64, BitVec.toInt_signExtend_of_le (by omega), BitVec.toInt_sshiftRight, Int.shiftRight_eq_div_pow, BitVec.toInt_ofInt]
  have := x.toInt_lt; have := x.le_toInt
  have h2 : (0 : Int) < ((2 ^ n : Nat) : Int) := by positivity
  push_cast at *
  have : x.toInt / 2 ^ n ≤ max x.toInt 0 := by
    rcases le_total 0 x.toInt with h | h
    · exact (Int.ediv_le_self _ h).trans (le_max_left _ _)
    · exact (Int.ediv_nonpos_of_nonpos_of_neg h (by omega)).trans (le_max_right _ _)
  have : min x.toInt 0 ≤ x.toInt / 2 ^ n := by
    rcases le_total 0 x.toInt with h | h
    · exact (min_le_right _ _).trans (Int.ediv_nonneg h (by omega))
    · refine (min_le_left _ _).trans ?_
      rw [Int.le_ediv_iff_mul_le h2]; nlinarith
  apply Int.bmod_eq_of_le <;> omega

/-! ### Products and quotients, computed on integers -/

/-- The full signed product is the exact one. -/
theorem smulFull_eq {w : Nat} (a b : BitVec w) : smulFull a b = BitVec.ofInt (w + w) (a.toInt * b.toInt) := by
  apply BitVec.eq_of_toInt_eq
  rw [smulFull, BitVec.toInt_mul, BitVec.toInt_signExtend_of_le (by omega), BitVec.toInt_signExtend_of_le (by omega), BitVec.toInt_ofInt]

/-- The full unsigned product is the exact one. -/
theorem umulFull_eq {w : Nat} (a b : BitVec w) : umulFull a b = BitVec.ofNat (w + w) (a.toNat * b.toNat) := by
  apply BitVec.eq_of_toNat_eq
  rw [umulFull, BitVec.toNat_mul, BitVec.toNat_ofNat, BitVec.toNat_setWidth, BitVec.toNat_setWidth,
   Nat.mod_eq_of_lt (lt_of_lt_of_le a.isLt (Nat.pow_le_pow_right (by omega) (by omega))), Nat.mod_eq_of_lt (lt_of_lt_of_le b.isLt (Nat.pow_le_pow_right (by omega) (by omega)))]

/-- A field of a narrowed integer. -/
theorem extract_ofInt (n k w : Nat) (v : Int) (h : k + w ≤ n) : (BitVec.ofInt n v).extractLsb' k w = BitVec.ofInt w (v / 2 ^ k) := by
  apply BitVec.eq_of_toNat_eq
  rw [BitVec.extractLsb'_toNat, BitVec.toNat_ofInt, BitVec.toNat_ofInt, Nat.shiftRight_eq_div_pow]
  zify
  rw [Int.toNat_of_nonneg (Int.emod_nonneg _ (by positivity)), Int.toNat_of_nonneg (Int.emod_nonneg _ (by positivity))]
  obtain ⟨d, rfl⟩ := Nat.exists_eq_add_of_le h
  have hk : (0:Int) < 2 ^ k := by positivity
  have e : v = v % 2 ^ (k + w + d) + 2 ^ k * (2 ^ w * (2 ^ d * (v / 2 ^ (k + w + d)))) := by
    conv_lhs => rw [← Int.emod_add_mul_ediv v (2 ^ (k + w + d))]
    ring
  conv_rhs => rw [e, Int.add_mul_ediv_left _ _ hk.ne', Int.add_mul_emod_self_left]

/-- A field of a narrowed natural number. -/
theorem extract_ofNat (n k w : Nat) (v : Nat) (h : k + w ≤ n) : (BitVec.ofNat n v).extractLsb' k w = BitVec.ofNat w (v / 2 ^ k) := by
  have := extract_ofInt n k w v h
  rw [BitVec.ofInt_natCast] at this; rw [this, ← BitVec.ofInt_natCast]; push_cast; rfl

/-- The signed quotient truncates. -/
theorem ofInt_tdiv {w : Nat} (a b : BitVec w) : BitVec.ofInt w (a.toInt.tdiv b.toInt) = a.sdiv b := by
  apply BitVec.eq_of_toInt_eq; rw [BitVec.toInt_ofInt, BitVec.toInt_sdiv]

/-- The signed remainder has the sign of the dividend. -/
theorem ofInt_tmod {w : Nat} (a b : BitVec w) : BitVec.ofInt w (a.toInt.tmod b.toInt) = a.srem b := by
  apply BitVec.eq_of_toInt_eq; rw [BitVec.toInt_ofInt, ← BitVec.toInt_srem]; exact BitVec.toInt_bmod_cancel _

/-- The unsigned quotient. -/
theorem ofNat_div {w : Nat} (a b : BitVec w) : BitVec.ofNat w (a.toNat / b.toNat) = a.udiv b := by
  apply BitVec.eq_of_toNat_eq; rw [BitVec.toNat_ofNat, BitVec.udiv_eq, BitVec.toNat_udiv]
  exact Nat.mod_eq_of_lt (lt_of_le_of_lt (Nat.div_le_self _ _) a.isLt)

/-- The unsigned remainder. -/
theorem ofNat_mod {w : Nat} (a b : BitVec w) : BitVec.ofNat w (a.toNat % b.toNat) = a.umod b := by
  apply BitVec.eq_of_toNat_eq; rw [BitVec.toNat_ofNat, BitVec.umod_eq, BitVec.toNat_umod]
  exact Nat.mod_eq_of_lt (lt_of_le_of_lt (Nat.mod_le _ _) a.isLt)

end Sys2Proof.Machine
end

