-- ==== Sys2Proof/Tests/Slice0.lean ====
section
/-! SUPPORT. Small tests: the check of well-formedness, the decoding of every row of the opcode table from a word
written out from its encoding, witnesses for the hypotheses of the statements, and single steps by hand. -/

namespace Sys2Proof.Tests
open Sys2Proof.Machine

/-! ### Well-formedness -/

theorem test_wellFormed_refuses_listed_cache_operations :
    listedCacheOps.all (fun op => (Instr.cache 4 op 0).wellFormed = false) = true := rfl

theorem test_wellFormed_accepts_unlisted_cache_operation : (Instr.cache 4 2 0).wellFormed = true := rfl

/-! ### Decoding: one word for every row, its fields as 30_encoding draws them -/

theorem test_decode_main_1 :
    ([
      0b100000_10011_01010_1000111100111101, 0b100100_10011_01010_1000111100111101,
      0b100001_10011_01010_1000111100111101, 0b100101_10011_01010_1000111100111101,
      0b100011_10011_01010_1000111100111101, 0b100111_10011_01010_1000111100111101,
      0b110111_10011_01010_1000111100111101, 0b100010_10011_01010_1000111100111101,
      0b100110_10011_01010_1000111100111101, 0b011010_10011_01010_1000111100111101,
      0b011011_10011_01010_1000111100111101, 0b101000_10011_01010_1000111100111101,
      0b101001_10011_01010_1000111100111101, 0b101011_10011_01010_1000111100111101,
      0b111111_10011_01010_1000111100111101, 0b101010_10011_01010_1000111100111101,
      0b101110_10011_01010_1000111100111101, 0b101100_10011_01010_1000111100111101,
      0b101101_10011_01010_1000111100111101, 0b110000_10011_01010_1000111100111101,
      0b110100_10011_01010_1000111100111101, 0b111000_10011_01010_1000111100111101,
      0b111100_10011_01010_1000111100111101, 0b110001_10011_01010_1000111100111101] : List Word).map decode = ([
      .lb 19 10 36669, .lbu 19 10 36669, .lh 19 10 36669, .lhu 19 10 36669, .lw 19 10 36669, .lwu 19 10 36669,
      .ld 19 10 36669, .lwl 19 10 36669, .lwr 19 10 36669, .ldl 19 10 36669, .ldr 19 10 36669, .sb 19 10 36669,
      .sh 19 10 36669, .sw 19 10 36669, .sd 19 10 36669, .swl 19 10 36669, .swr 19 10 36669, .sdl 19 10 36669,
      .sdr 19 10 36669, .ll 19 10 36669, .lld 19 10 36669, .sc 19 10 36669, .scd 19 10 36669, .lwc1 19 10 36669]
      : List Instr).map .ok := rfl

theorem test_decode_main_2 :
    ([
      0b110101_10011_01010_1000111100111101, 0b111001_10011_01010_1000111100111101,
      0b111101_10011_01010_1000111100111101, 0b001000_10011_01010_1000111100111101,
      0b001001_10011_01010_1000111100111101, 0b011000_10011_01010_1000111100111101,
      0b011001_10011_01010_1000111100111101, 0b001010_10011_01010_1000111100111101,
      0b001011_10011_01010_1000111100111101, 0b001100_10011_01010_1000111100111101,
      0b001101_10011_01010_1000111100111101, 0b001110_10011_01010_1000111100111101,
      0b001111_00000_01010_1000111100111101, 0b000010_10110000001111111011101101,
      0b000011_10110000001111111011101101, 0b000100_10011_01010_1000111100111101,
      0b000101_10011_01010_1000111100111101, 0b010100_10011_01010_1000111100111101,
      0b010101_10011_01010_1000111100111101, 0b000110_10011_00000_1000111100111101,
      0b000111_10011_00000_1000111100111101, 0b010110_10011_00000_1000111100111101,
      0b010111_10011_00000_1000111100111101] : List Word).map decode = ([
      .ldc1 19 10 36669, .swc1 19 10 36669, .sdc1 19 10 36669, .addi 19 10 36669, .addiu 19 10 36669,
      .daddi 19 10 36669, .daddiu 19 10 36669, .slti 19 10 36669, .sltiu 19 10 36669, .andi 19 10 36669,
      .ori 19 10 36669, .xori 19 10 36669, .lui 10 36669, .j 46202605, .jal 46202605, .beq 19 10 36669,
      .bne 19 10 36669, .beql 19 10 36669, .bnel 19 10 36669, .blez 19 36669, .bgtz 19 36669, .blezl 19 36669,
      .bgtzl 19 36669]
      : List Instr).map .ok := rfl

theorem test_decode_special_1 :
    ([
      0b000000_10011_01010_11001_00000_100000, 0b000000_10011_01010_11001_00000_100001,
      0b000000_10011_01010_11001_00000_100010, 0b000000_10011_01010_11001_00000_100011,
      0b000000_10011_01010_11001_00000_101100, 0b000000_10011_01010_11001_00000_101101,
      0b000000_10011_01010_11001_00000_101110, 0b000000_10011_01010_11001_00000_101111,
      0b000000_10011_01010_11001_00000_101010, 0b000000_10011_01010_11001_00000_101011,
      0b000000_10011_01010_11001_00000_100100, 0b000000_10011_01010_11001_00000_100101,
      0b000000_10011_01010_11001_00000_100110, 0b000000_10011_01010_11001_00000_100111,
      0b000000_10011_01010_11001_00000_001010, 0b000000_10011_01010_11001_00000_001011,
      0b000000_10011_01010_11001_00000_000100, 0b000000_10011_01010_11001_00000_000110,
      0b000000_10011_01010_11001_00000_000111, 0b000000_10011_01010_11001_00000_010100,
      0b000000_10011_01010_11001_00000_010110, 0b000000_10011_01010_11001_00000_010111,
      0b000000_00000_01010_11001_00110_000000, 0b000000_00000_01010_11001_00110_000010] : List Word).map decode = ([
      .add 19 10 25, .addu 19 10 25, .sub 19 10 25, .subu 19 10 25, .dadd 19 10 25, .daddu 19 10 25, .dsub 19 10 25,
      .dsubu 19 10 25, .slt 19 10 25, .sltu 19 10 25, .and 19 10 25, .or 19 10 25, .xor 19 10 25, .nor 19 10 25,
      .movz 19 10 25, .movn 19 10 25, .sllv 19 10 25, .srlv 19 10 25, .srav 19 10 25, .dsllv 19 10 25,
      .dsrlv 19 10 25, .dsrav 19 10 25, .sll 10 25 6, .srl 10 25 6]
      : List Instr).map .ok := rfl

theorem test_decode_special_2 :
    ([
      0b000000_00000_01010_11001_00110_000011, 0b000000_00000_01010_11001_00110_111000,
      0b000000_00000_01010_11001_00110_111010, 0b000000_00000_01010_11001_00110_111011,
      0b000000_00000_01010_11001_00110_111100, 0b000000_00000_01010_11001_00110_111110,
      0b000000_00000_01010_11001_00110_111111, 0b000000_10011_01010_00000_00000_011000,
      0b000000_10011_01010_00000_00000_011001, 0b000000_10011_01010_00000_00000_011100,
      0b000000_10011_01010_00000_00000_011101, 0b000000_10011_01010_00000_00000_011010,
      0b000000_10011_01010_00000_00000_011011, 0b000000_10011_01010_00000_00000_011110,
      0b000000_10011_01010_00000_00000_011111, 0b000000_00000_00000_11001_00000_010000,
      0b000000_00000_00000_11001_00000_010010, 0b000000_10011_00000_00000_00000_010001,
      0b000000_10011_00000_00000_00000_010011, 0b000000_10011_00000_00000_00000_001000,
      0b000000_10011_00000_11001_00000_001001, 0b000000_10100101110000111110_001100,
      0b000000_10100101110000111110_001101, 0b000000_00000_00000_00000_00000_001111] : List Word).map decode = ([
      .sra 10 25 6, .dsll 10 25 6, .dsrl 10 25 6, .dsra 10 25 6, .dsll32 10 25 6, .dsrl32 10 25 6, .dsra32 10 25 6,
      .mult 19 10, .multu 19 10, .dmult 19 10, .dmultu 19 10, .div 19 10, .divu 19 10, .ddiv 19 10, .ddivu 19 10,
      .mfhi 25, .mflo 25, .mthi 19, .mtlo 19, .jr 19, .jalr 19 25, .syscall 678974, .brk 678974, .sync]
      : List Instr).map .ok := rfl

theorem test_decode_special_3 :
    ([
      0b000000_10011_01010_10101_10111_110000, 0b000000_10011_01010_10101_10111_110001,
      0b000000_10011_01010_10101_10111_110010, 0b000000_10011_01010_10101_10111_110011,
      0b000000_10011_01010_10101_10111_110100, 0b000000_10011_01010_10101_10111_110110] : List Word).map decode = ([
      .tge 19 10 695, .tgeu 19 10 695, .tlt 19 10 695, .tltu 19 10 695, .teq 19 10 695, .tne 19 10 695]
      : List Instr).map .ok := rfl

theorem test_decode_special2 :
    ([
      0b011100_10011_01010_11001_00000_010000, 0b011100_10011_01010_11001_00000_010010,
      0b011100_10011_01010_11001_00000_010001, 0b011100_10011_01010_11001_00000_010011,
      0b011100_10011_01010_11001_00000_010100, 0b011100_10011_01010_11001_00000_010110,
      0b011100_10011_01010_11001_00000_010101, 0b011100_10011_01010_11001_00000_010111,
      0b011100_10011_01010_11001_00000_011100, 0b011100_10011_01010_11001_00000_011110,
      0b011100_10011_01010_11001_00000_011101, 0b011100_10011_01010_11001_00000_011111,
      0b011100_10000_01010_11001_00110_011000, 0b011100_10001_01010_11001_00110_011000,
      0b011100_10110_01010_11001_00110_011000, 0b011100_10000_01010_11001_00110_011001,
      0b011100_10001_01010_11001_00110_011001, 0b011100_10110_01010_11001_00110_011001,
      0b011100_10000_01010_11001_00110_011010, 0b011100_10001_01010_11001_00110_011010,
      0b011100_10110_01010_11001_00110_011010, 0b011100_10000_01010_11001_00110_011011,
      0b011100_10001_01010_11001_00110_011011, 0b011100_10110_01010_11001_00110_011011] : List Word).map decode = ([
      .multG 19 10 25, .multuG 19 10 25, .dmultG 19 10 25, .dmultuG 19 10 25, .divG 19 10 25, .divuG 19 10 25,
      .ddivG 19 10 25, .ddivuG 19 10 25, .modG 19 10 25, .moduG 19 10 25, .dmodG 19 10 25, .dmoduG 19 10 25,
      .maddS 10 25 6, .maddD 10 25 6, .maddPs 10 25 6, .msubS 10 25 6, .msubD 10 25 6, .msubPs 10 25 6,
      .nmaddS 10 25 6, .nmaddD 10 25 6, .nmaddPs 10 25 6, .nmsubS 10 25 6, .nmsubD 10 25 6, .nmsubPs 10 25 6]
      : List Instr).map .ok := rfl

theorem test_decode_regimm :
    ([
      0b000001_10011_00000_1000111100111101, 0b000001_10011_00001_1000111100111101,
      0b000001_10011_10000_1000111100111101, 0b000001_10011_10001_1000111100111101,
      0b000001_10011_00010_1000111100111101, 0b000001_10011_00011_1000111100111101,
      0b000001_10011_10010_1000111100111101, 0b000001_10011_10011_1000111100111101,
      0b000001_10011_01000_1000111100111101, 0b000001_10011_01001_1000111100111101,
      0b000001_10011_01010_1000111100111101, 0b000001_10011_01011_1000111100111101,
      0b000001_10011_01100_1000111100111101, 0b000001_10011_01110_1000111100111101] : List Word).map decode = ([
      .bltz 19 36669, .bgez 19 36669, .bltzal 19 36669, .bgezal 19 36669, .bltzl 19 36669, .bgezl 19 36669,
      .bltzall 19 36669, .bgezall 19 36669, .tgei 19 36669, .tgeiu 19 36669, .tlti 19 36669, .tltiu 19 36669,
      .teqi 19 36669, .tnei 19 36669]
      : List Instr).map .ok := rfl

theorem test_decode_cop0 :
    ([
      0b010000_00000_01010_11001_00000_000000, 0b010000_00001_01010_11001_00000_000000,
      0b010000_00100_01010_11001_00000_000000, 0b010000_00101_01010_11001_00000_000000,
      0b010000_10000_00000_00000_00000_000001, 0b010000_10000_00000_00000_00000_000010,
      0b010000_10000_00000_00000_00000_000110, 0b010000_10000_00000_00000_00000_001000,
      0b010000_10000_00000_00000_00000_011000] : List Word).map decode = ([
      .mfc0 10 25, .dmfc0 10 25, .mtc0 10 25, .dmtc0 10 25, .tlbr, .tlbwi, .tlbwr, .tlbp, .eret]
      : List Instr).map .ok := rfl

theorem test_decode_cache :
    ([
      0b101111_10011_00010_1000111100111101, 0b101111_10011_00000_1000111100111101,
      0b101111_10011_00001_1000111100111101, 0b101111_10011_00101_1000111100111101,
      0b101111_10011_01001_1000111100111101, 0b101111_10011_10001_1000111100111101,
      0b101111_10011_10101_1000111100111101, 0b101111_10011_11001_1000111100111101,
      0b101111_10011_11101_1000111100111101, 0b101111_10011_00011_1000111100111101,
      0b101111_10011_00111_1000111100111101, 0b101111_10011_01011_1000111100111101,
      0b101111_10011_10011_1000111100111101, 0b101111_10011_10111_1000111100111101,
      0b101111_10011_11011_1000111100111101, 0b101111_10011_11111_1000111100111101] : List Word).map decode = ([
      .cache 19 2 36669, .cache0 19 36669, .cache1 19 36669, .cache5 19 36669, .cache9 19 36669, .cache17 19 36669,
      .cache21 19 36669, .cache25 19 36669, .cache29 19 36669, .cache3 19 36669, .cache7 19 36669, .cache11 19 36669,
      .cache19 19 36669, .cache23 19 36669, .cache27 19 36669, .cache31 19 36669]
      : List Instr).map .ok := rfl

theorem test_decode_cop1_single_1 :
    ([
      0b010001_10000_01010_11001_00110_000000, 0b010001_10000_01010_11001_00110_000001,
      0b010001_10000_01010_11001_00110_000010, 0b010001_10000_01010_11001_00110_000011,
      0b010001_10000_00000_11001_00110_000100, 0b010001_10000_00000_11001_00110_000101,
      0b010001_10000_00000_11001_00110_000110, 0b010001_10000_00000_11001_00110_000111,
      0b010001_10000_00000_11001_00110_001000, 0b010001_10000_00000_11001_00110_001001,
      0b010001_10000_00000_11001_00110_001010, 0b010001_10000_00000_11001_00110_001011,
      0b010001_10000_00000_11001_00110_001100, 0b010001_10000_00000_11001_00110_001101,
      0b010001_10000_00000_11001_00110_001110, 0b010001_10000_00000_11001_00110_001111,
      0b010001_10000_00000_11001_00110_100100, 0b010001_10000_00000_11001_00110_100101,
      0b010001_10000_00000_11001_00110_100001, 0b010001_10000_01010_11001_00000_110000,
      0b010001_10000_01010_11001_00000_110001, 0b010001_10000_01010_11001_00000_110010,
      0b010001_10000_01010_11001_00000_110011, 0b010001_10000_01010_11001_00000_110100] : List Word).map decode = ([
      .addS 10 25 6, .subS 10 25 6, .mulS 10 25 6, .divS 10 25 6, .sqrtS 25 6, .absS 25 6, .movS 25 6, .negS 25 6,
      .roundLS 25 6, .truncLS 25 6, .ceilLS 25 6, .floorLS 25 6, .roundWS 25 6, .truncWS 25 6, .ceilWS 25 6,
      .floorWS 25 6, .cvtWS 25 6, .cvtLS 25 6, .cvtDS 25 6, .cFS 10 25, .cUnS 10 25, .cEqS 10 25, .cUeqS 10 25,
      .cOltS 10 25]
      : List Instr).map .ok := rfl

theorem test_decode_cop1_single_2 :
    ([
      0b010001_10000_01010_11001_00000_110101, 0b010001_10000_01010_11001_00000_110110,
      0b010001_10000_01010_11001_00000_110111, 0b010001_10000_01010_11001_00000_111000,
      0b010001_10000_01010_11001_00000_111001, 0b010001_10000_01010_11001_00000_111010,
      0b010001_10000_01010_11001_00000_111011, 0b010001_10000_01010_11001_00000_111100,
      0b010001_10000_01010_11001_00000_111101, 0b010001_10000_01010_11001_00000_111110,
      0b010001_10000_01010_11001_00000_111111] : List Word).map decode = ([
      .cUltS 10 25, .cOleS 10 25, .cUleS 10 25, .cSfS 10 25, .cNgleS 10 25, .cSeqS 10 25, .cNglS 10 25, .cLtS 10 25,
      .cNgeS 10 25, .cLeS 10 25, .cNgtS 10 25]
      : List Instr).map .ok := rfl

theorem test_decode_cop1_double_1 :
    ([
      0b010001_10001_01010_11001_00110_000000, 0b010001_10001_01010_11001_00110_000001,
      0b010001_10001_01010_11001_00110_000010, 0b010001_10001_01010_11001_00110_000011,
      0b010001_10001_00000_11001_00110_000100, 0b010001_10001_00000_11001_00110_000101,
      0b010001_10001_00000_11001_00110_000110, 0b010001_10001_00000_11001_00110_000111,
      0b010001_10001_00000_11001_00110_001000, 0b010001_10001_00000_11001_00110_001001,
      0b010001_10001_00000_11001_00110_001010, 0b010001_10001_00000_11001_00110_001011,
      0b010001_10001_00000_11001_00110_001100, 0b010001_10001_00000_11001_00110_001101,
      0b010001_10001_00000_11001_00110_001110, 0b010001_10001_00000_11001_00110_001111,
      0b010001_10001_00000_11001_00110_100100, 0b010001_10001_00000_11001_00110_100101,
      0b010001_10001_00000_11001_00110_100000, 0b010001_10001_01010_11001_00000_110000,
      0b010001_10001_01010_11001_00000_110001, 0b010001_10001_01010_11001_00000_110010,
      0b010001_10001_01010_11001_00000_110011, 0b010001_10001_01010_11001_00000_110100] : List Word).map decode = ([
      .addD 10 25 6, .subD 10 25 6, .mulD 10 25 6, .divD 10 25 6, .sqrtD 25 6, .absD 25 6, .movD 25 6, .negD 25 6,
      .roundLD 25 6, .truncLD 25 6, .ceilLD 25 6, .floorLD 25 6, .roundWD 25 6, .truncWD 25 6, .ceilWD 25 6,
      .floorWD 25 6, .cvtWD 25 6, .cvtLD 25 6, .cvtSD 25 6, .cFD 10 25, .cUnD 10 25, .cEqD 10 25, .cUeqD 10 25,
      .cOltD 10 25]
      : List Instr).map .ok := rfl

theorem test_decode_cop1_double_2 :
    ([
      0b010001_10001_01010_11001_00000_110101, 0b010001_10001_01010_11001_00000_110110,
      0b010001_10001_01010_11001_00000_110111, 0b010001_10001_01010_11001_00000_111000,
      0b010001_10001_01010_11001_00000_111001, 0b010001_10001_01010_11001_00000_111010,
      0b010001_10001_01010_11001_00000_111011, 0b010001_10001_01010_11001_00000_111100,
      0b010001_10001_01010_11001_00000_111101, 0b010001_10001_01010_11001_00000_111110,
      0b010001_10001_01010_11001_00000_111111] : List Word).map decode = ([
      .cUltD 10 25, .cOleD 10 25, .cUleD 10 25, .cSfD 10 25, .cNgleD 10 25, .cSeqD 10 25, .cNglD 10 25, .cLtD 10 25,
      .cNgeD 10 25, .cLeD 10 25, .cNgtD 10 25]
      : List Instr).map .ok := rfl

theorem test_decode_cop1_word :
    ([
      0b010001_10100_00000_11001_00110_100000, 0b010001_10100_00000_11001_00110_100001] : List Word).map decode = ([
      .cvtSW 25 6, .cvtDW 25 6]
      : List Instr).map .ok := rfl

theorem test_decode_cop1_long :
    ([
      0b010001_10101_00000_11001_00110_100000, 0b010001_10101_00000_11001_00110_100001] : List Word).map decode = ([
      .cvtSL 25 6, .cvtDL 25 6]
      : List Instr).map .ok := rfl

theorem test_decode_cop1_branch :
    ([
      0b010001_01000_00000_1000111100111101, 0b010001_01000_00001_1000111100111101,
      0b010001_01000_00010_1000111100111101, 0b010001_01000_00011_1000111100111101] : List Word).map decode = ([
      .bc1f 36669, .bc1t 36669, .bc1fl 36669, .bc1tl 36669]
      : List Instr).map .ok := rfl

theorem test_decode_cop1_moves :
    ([
      0b010001_00000_01010_11001_00000_000000, 0b010001_00001_01010_11001_00000_000000,
      0b010001_00010_01010_11001_00000_000000, 0b010001_00100_01010_11001_00000_000000,
      0b010001_00101_01010_11001_00000_000000, 0b010001_00110_01010_11001_00000_000000] : List Word).map decode = ([
      .mfc1 10 25, .dmfc1 10 25, .cfc1 10 25, .mtc1 10 25, .dmtc1 10 25, .ctc1 10 25]
      : List Instr).map .ok := rfl

theorem test_decode_cop1_paired :
    ([
      0b010001_10110_01010_11001_00110_000000, 0b010001_10110_01010_11001_00110_000001,
      0b010001_10110_01010_11001_00110_000010, 0b010001_10110_00000_11001_00110_000101,
      0b010001_10110_00000_11001_00110_000110, 0b010001_10110_00000_11001_00110_000111,
      0b010001_10110_01010_11001_00000_110000, 0b010001_10110_01010_11001_00000_110001,
      0b010001_10110_01010_11001_00000_110010, 0b010001_10110_01010_11001_00000_110011,
      0b010001_10110_01010_11001_00000_110100, 0b010001_10110_01010_11001_00000_110101,
      0b010001_10110_01010_11001_00000_110110, 0b010001_10110_01010_11001_00000_110111,
      0b010001_10110_01010_11001_00000_111000, 0b010001_10110_01010_11001_00000_111001,
      0b010001_10110_01010_11001_00000_111010, 0b010001_10110_01010_11001_00000_111011,
      0b010001_10110_01010_11001_00000_111100, 0b010001_10110_01010_11001_00000_111101,
      0b010001_10110_01010_11001_00000_111110, 0b010001_10110_01010_11001_00000_111111] : List Word).map decode = ([
      .addPs 10 25 6, .subPs 10 25 6, .mulPs 10 25 6, .absPs 25 6, .movPs 25 6, .negPs 25 6, .cFPs 10 25,
      .cUnPs 10 25, .cEqPs 10 25, .cUeqPs 10 25, .cOltPs 10 25, .cUltPs 10 25, .cOlePs 10 25, .cUlePs 10 25,
      .cSfPs 10 25, .cNglePs 10 25, .cSeqPs 10 25, .cNglPs 10 25, .cLtPs 10 25, .cNgePs 10 25, .cLePs 10 25,
      .cNgtPs 10 25]
      : List Instr).map .ok := rfl

theorem test_decode_cop2_1 :
    ([
      0b010010_11110_01010_11001_00110_000000, 0b010010_11010_01010_11001_00110_000000,
      0b010010_11011_01010_11001_00110_000000, 0b010010_11111_01010_11001_00110_000000,
      0b010010_11100_01010_11001_00110_000000, 0b010010_11000_01010_11001_00110_000000,
      0b010010_11101_01010_11001_00110_000000, 0b010010_11001_01010_11001_00110_000000,
      0b010010_11110_01010_11001_00110_000001, 0b010010_11010_01010_11001_00110_000001,
      0b010010_11011_01010_11001_00110_000001, 0b010010_11111_01010_11001_00110_000001,
      0b010010_11100_01010_11001_00110_000001, 0b010010_11000_01010_11001_00110_000001,
      0b010010_11101_01010_11001_00110_000001, 0b010010_11001_01010_11001_00110_000001,
      0b010010_11000_01010_11001_00110_000010, 0b010010_11001_01010_11001_00110_000010,
      0b010010_11010_01010_11001_00110_000010, 0b010010_11011_01010_11001_00110_000010,
      0b010010_11111_01010_11001_00110_000010, 0b010010_11000_01010_11001_00110_000011,
      0b010010_11001_01010_11001_00110_000011, 0b010010_11010_01010_11001_00110_000011] : List Word).map decode = ([
      .paddb 10 25 6, .paddh 10 25 6, .paddw 10 25 6, .paddd 10 25 6, .paddsb 10 25 6, .paddsh 10 25 6,
      .paddusb 10 25 6, .paddush 10 25 6, .psubb 10 25 6, .psubh 10 25 6, .psubw 10 25 6, .psubd 10 25 6,
      .psubsb 10 25 6, .psubsh 10 25 6, .psubusb 10 25 6, .psubush 10 25 6, .pshufh 10 25 6, .packsswh 10 25 6,
      .packsshb 10 25 6, .packushb 10 25 6, .pandn 10 25 6, .punpcklhw 10 25 6, .punpckhhw 10 25 6,
      .punpcklbh 10 25 6]
      : List Instr).map .ok := rfl

theorem test_decode_cop2_2 :
    ([
      0b010010_11011_01010_11001_00110_000011, 0b010010_11100_01010_11001_00110_001011,
      0b010010_11101_01010_11001_00110_001011, 0b010010_11100_01010_11001_00110_000011,
      0b010010_11101_01010_11001_00110_000011, 0b010010_11110_01010_11001_00110_000011,
      0b010010_11111_01010_11001_00110_000011, 0b010010_11000_01010_11001_00110_001000,
      0b010010_11001_01010_11001_00110_001000, 0b010010_11010_01010_11001_00110_001000,
      0b010010_11011_01010_11001_00110_001000, 0b010010_11100_01010_11001_00110_001000,
      0b010010_11101_01010_11001_00110_001000, 0b010010_11000_01010_11001_00110_001001,
      0b010010_11001_01010_11001_00110_001001, 0b010010_11010_01010_11001_00110_001001,
      0b010010_11011_01010_11001_00110_001001, 0b010010_11100_01010_11001_00110_001001,
      0b010010_11101_01010_11001_00110_001001, 0b010010_11000_01010_11001_00110_001010,
      0b010010_11001_01010_11001_00110_001010, 0b010010_11010_01010_11001_00110_001010,
      0b010010_11011_01010_11001_00110_001010, 0b010010_11100_01010_11001_00110_001010] : List Word).map decode = ([
      .punpckhbh 10 25 6, .punpcklwd 10 25 6, .punpckhwd 10 25 6, .pinsrh0 10 25 6, .pinsrh1 10 25 6,
      .pinsrh2 10 25 6, .pinsrh3 10 25 6, .pavgh 10 25 6, .pavgb 10 25 6, .pmaxsh 10 25 6, .pminsh 10 25 6,
      .pmaxub 10 25 6, .pminub 10 25 6, .pcmpeqw 10 25 6, .pcmpgtw 10 25 6, .pcmpeqh 10 25 6, .pcmpgth 10 25 6,
      .pcmpeqb 10 25 6, .pcmpgtb 10 25 6, .psllw 10 25 6, .psllh 10 25 6, .pmullh 10 25 6, .pmulhh 10 25 6,
      .pmuluw 10 25 6]
      : List Instr).map .ok := rfl

theorem test_decode_cop2_3 :
    ([
      0b010010_11101_01010_11001_00110_001010, 0b010010_11000_01010_11001_00110_001011,
      0b010010_11001_01010_11001_00110_001011, 0b010010_11010_01010_11001_00110_001011,
      0b010010_11011_01010_11001_00110_001011, 0b010010_11001_01010_11001_00110_001101,
      0b010010_11100_00000_11001_00110_001111, 0b010010_11010_01010_11001_00110_001110,
      0b010010_11011_01010_11001_00110_001110, 0b010010_11101_00000_11001_00110_001111,
      0b010010_11010_01010_11001_00110_001100, 0b010010_11000_01010_11001_00110_001100,
      0b010010_11011_01010_11001_00110_001100, 0b010010_11010_01010_11001_00110_001101,
      0b010010_11000_01010_11001_00110_001101, 0b010010_11011_01010_11001_00110_001101,
      0b010010_11001_01010_11001_00110_001100, 0b010010_11100_01010_11001_00110_000010,
      0b010010_11101_01010_11001_00110_000010, 0b010010_11110_01010_11001_00110_000010,
      0b010010_11000_01010_11001_00110_001110, 0b010010_11000_01010_11001_00110_001111,
      0b010010_11010_01010_11001_00110_001111, 0b010010_11001_01010_11001_00110_001110] : List Word).map decode = ([
      .pmulhuh 10 25 6, .psrlw 10 25 6, .psrlh 10 25 6, .psraw 10 25 6, .psrah 10 25 6, .pasubub 10 25 6,
      .biadd 25 6, .pextrh 10 25 6, .pmaddhw 10 25 6, .pmovmskb 25 6, .fxAdd 10 25 6, .fxAddu 10 25 6,
      .fxDadd 10 25 6, .fxSub 10 25 6, .fxSubu 10 25 6, .fxDsub 10 25 6, .fxOr 10 25 6, .fxXor 10 25 6,
      .fxNor 10 25 6, .fxAnd 10 25 6, .fxSll 10 25 6, .fxSrl 10 25 6, .fxSra 10 25 6, .fxDsll 10 25 6]
      : List Instr).map .ok := rfl

theorem test_decode_cop2_4 :
    ([
      0b010010_11001_01010_11001_00110_001111, 0b010010_11011_01010_11001_00110_001111,
      0b010010_11100_01010_11001_00000_001100, 0b010010_11101_01010_11001_00000_001100,
      0b010010_11100_01010_11001_00000_001101, 0b010010_11101_01010_11001_00000_001101,
      0b010010_11100_01010_11001_00000_001110, 0b010010_11101_01010_11001_00000_001110] : List Word).map decode = ([
      .fxDsrl 10 25 6, .fxDsra 10 25 6, .fxSequ 10 25, .fxSeq 10 25, .fxSltu 10 25, .fxSlt 10 25, .fxSleu 10 25,
      .fxSle 10 25]
      : List Instr).map .ok := rfl

/-! ### Witnesses: states and operands that meet the hypotheses of the statements -/

/-- The state after reset with another Status. -/
def withStatus (v : Word) : State := State.reset.setStatus v

/-- The state after reset with one general register set. -/
def withReg (i : RegNum) (v : DWord) : State := State.reset.setR i v

/-- A JTLB entry for the first pair of pages: both valid, the even one writable and cached, the odd one neither. -/
def pagePair : TlbEntry := ⟨0, 0, true, 0, ⟨0, false, 0x123, 3, true, true⟩, ⟨0, false, 0x456, 2, false, true⟩⟩

/-- The state after reset with one JTLB entry replaced. -/
def withEntry (i : Fin 64) (e : TlbEntry) : State := { State.reset with tlb := State.reset.tlb.set i e }

/-- The state after reset with one dirty data line in set 1 and, where `below`, the secondary line that holds it. -/
def withLines (below : Bool) : State :=
  { withReg 4 0x9800000000000020 with
    dcache := [(4, ⟨0, 3, 0, 0, 0xAB⟩)], scache := if below then [(5, ⟨0, 1, 0⟩)] else [] }

theorem test_witness_round_trip_listed : (Instr.cache21 31 0xFFFF).wellFormed = true ∧
    decode (encode (.cache21 31 0xFFFF)) = .ok (.cache21 31 0xFFFF) := ⟨rfl, rfl⟩

theorem test_witness_round_trip_generic : (Instr.cache 31 30 0xFFFF).wellFormed = true ∧
    decode (encode (.cache 31 30 0xFFFF)) = .ok (.cache 31 30 0xFFFF) := ⟨rfl, rfl⟩

theorem test_witness_step_runs : State.reset.boundary.event = none ∧
    State.reset.boundary.fetch = .val 0 State.reset.boundary ∧ decode 0 = .ok (.sll 0 0 0) := ⟨rfl, rfl, rfl⟩

theorem test_witness_fetch_misaligned : ({ State.reset with pc := 0xFFFFFFFFBFC00001 } : State).pc.toNat % 4 ≠ 0 ∧
    ({ State.reset with pc := 0xFFFFFFFFBFC00003 } : State).pc.toNat % 4 ≠ 0 := by decide

theorem test_witness_fetch_rom : State.reset.pc.toNat % 4 = 0 ∧
    State.reset.translateFetch State.reset.pc = (.ok 0x1FC00000 2, State.reset) ∧
    State.reset.target 0x1FC00000 = .rom 0x1FC00000 ∧ State.reset.busErrorAt .fetch 0x1FC00000 = false ∧
    sparseWf ILine.empty State.reset.icache ∧ sparseWf SLine.empty State.reset.scache ∧ Memory.wf State.reset.mem :=
  ⟨rfl, rfl, rfl, rfl, rfl, rfl, rfl⟩

/-- The state after reset about to fetch from the cached address of physical address 0x24. -/
def atCached : State := { State.reset with pc := 0x9800000000000024 }

/-- The same with the secondary cache switched off. -/
def scacheOff (s : State) : State := { s with io := s.io.setReg 32 8 }

/-- The same with every fetch, load, block read and upgrade getting an error. -/
def withBusErrors (s : State) : State :=
  { s with cfg := { s.cfg with busErrors :=
    [⟨0, 0xFFFFFFFFFF, .fetch⟩, ⟨0, 0xFFFFFFFFFF, .load⟩, ⟨0, 0xFFFFFFFFFF, .store⟩] } }

theorem test_witness_fetch_cached : let line : PAddr := (0x24 : PAddr).extractLsb' 5 35 ++ 0#5
    atCached.pc.toNat % 4 = 0 ∧ atCached.translateFetch atCached.pc = (.ok 0x24 3, atCached) ∧
    ({ atCached with icache := [(5, ⟨0, true, 0xAB⟩)] } : State).iHit atCached.pc 0x24 = some 5 ∧
    atCached.iHit atCached.pc 0x24 = none ∧ ({ atCached with scache := [(6, ⟨0, 1, 7⟩)] } : State).sHit line = some 6 ∧
    atCached.sHit line = none ∧ atCached.io.disableScache = false ∧ (scacheOff atCached).io.disableScache = true ∧
    BlockAt atCached .fetch line 0x20 ∧ BlockAt (scacheOff atCached) .fetch line 0x20 :=
  ⟨rfl, rfl, rfl, rfl, rfl, rfl, rfl, rfl, ⟨rfl, .inl rfl⟩, ⟨rfl, .inl rfl⟩⟩

/-- Secondary set 1 with a dirty line of another page pair. -/
def withVictim (s : State) : State := { s with scache := [(6, ⟨1, 3, 0xCD⟩)] }

theorem victim_ready (s : State) (h : (withVictim s).target 0x20020 = .dram 0x20020) (p : PAddr) :
    SecondaryVictimsReady (withVictim s) p := by
  intro w _ hd
  by_cases hw : w = 6
  · subst hw
    have e : (withVictim s).sLineAddr 6 = 0x20020 := by
      show (1 : BitVec 23) ++ BitVec.ofNat 12 1 ++ 0#5 = (0x20020 : PAddr); decide
    exact ⟨0x20020, .inl (by rw [e]; exact h)⟩
  · have : (withVictim s).sLine w = SLine.empty := if_neg (fun g => hw g.symm)
    rw [this] at hd; exact absurd hd (by decide)

theorem test_witness_secondary_victim : SecondaryVictimsReady (withVictim atCached) 0x20 ∧
    inSecondarySet 0x20 6 ∧ ((withVictim atCached).sLine 6).state = 3 ∧ (withVictim atCached).sHit 0x20 = none :=
  ⟨victim_ready _ rfl _, rfl, rfl, rfl⟩

theorem test_witness_fetch_bus_error : (withBusErrors State.reset).busErrorAt .fetch 0x1FC00000 = true ∧
    (withBusErrors atCached).busErrorAt .fetch 0x20 = true ∧ (withBusErrors atCached).iHit atCached.pc 0x24 = none ∧
    (withBusErrors atCached).sHit 0x20 = none := by decide

/-- The state after reset with stores of PCI masters at the next boundary. -/
def withPciStores (l : List PciStore) : State := { State.reset with inputs := [{ pciWrites := l }] }

theorem test_witness_pci_store : let s := withPciStores [⟨0x100, 2, 0xBBAA⟩, ⟨0x1FE0011C, 2, 5⟩]
    Memory.wf s.mem ∧ s.pciTarget 0x100 = .dram 0x100 ∧ s.pciTarget 0x1FE0011C = .regs 7 ∧
      memByte s.boundary.mem 0x101 = 0xBB ∧ s.boundary.io.regs[7].extractLsb' 0 16 = 5 := ⟨rfl, rfl, rfl, rfl, rfl⟩

theorem test_witness_pci_store_not_taken : let s := State.reset
    s.pciTarget 0x3FF00000 = .window 0 ∧ s.pciTarget 0x1FD00000 = .outside .pciIo ∧
      s.pciTarget 0x10000000000 = .hole ∧ s.pciStore ⟨0x3FF00000, 4, 1⟩ = s ∧ s.pciStore ⟨0x101, 2, 1⟩ = s ∧
      s.pciRead 0x3FF00000 4 = none ∧ s.pciRead 0x1FE00102 4 = none ∧ s.pciRead 0x3FF00004 8 = none ∧
      s.pciRead 0x3FF00000 8 ≠ none ∧ s.pciRead 0x1FE00100 4 ≠ none := by decide

theorem test_witness_cold_reset_pending :
    ({ State.reset with coldResetPending := true } : State).boundary.coldResetPending = true := rfl

theorem test_witness_soft_reset_pending :
    let b := ({ State.reset with softResetPending := true, io := { State.reset.io with intLatch := 1 } } : State).boundary
    b.coldResetPending = false ∧ b.softResetPending = true ∧ b.io.intLatch ≠ 0 := by decide

theorem test_witness_nmi_pending : let b := ({ State.reset with nmiPending := true } : State).boundary
    b.coldResetPending = false ∧ b.softResetPending = false ∧ b.nmiPending = true := by decide

-- 60_exceptions R805: with both pending the Soft Reset is taken, and the NMI stays pending
theorem test_witness_soft_reset_and_nmi_pending :
    let s : State := { State.reset with softResetPending := true, nmiPending := true }
    s.boundary.coldResetPending = false ∧ s.boundary.softResetPending = true ∧ s.boundary.nmiPending = true ∧
      ∃ t, step s = .next t ∧ t.softResetPending = false ∧ t.nmiPending = true := ⟨rfl, rfl, rfl, _, rfl, rfl, rfl⟩

theorem test_witness_no_event : let b := State.reset.boundary
    b.coldResetPending = false ∧ b.softResetPending = false ∧ b.nmiPending = false ∧ b.watchPostponed = false ∧
      b.ie = false := by decide

theorem test_witness_watch_postponed : let b := ({ withStatus 0 with watchPostponed := true } : State).boundary
    b.coldResetPending = false ∧ b.softResetPending = false ∧ b.nmiPending = false ∧ b.watchPostponed = true ∧
      b.exl = false ∧ b.erl = false := by decide

theorem test_witness_interrupt_pending : let b := ({ withStatus 0x8001 with timerPending := true } : State).boundary
    b.coldResetPending = false ∧ b.softResetPending = false ∧ b.nmiPending = false ∧ b.watchPostponed = false ∧
      b.ie = true ∧ b.exl = false ∧ b.erl = false ∧ b.ip &&& b.cp0.status.extractLsb' 8 8 ≠ 0 := by decide

theorem test_witness_reserved_words :
    decode 0b000000_00000_00000_00000_00000_000001 = .error .reserved ∧
    decode 0b010000_00010_00000_0000000000000000 = .error .reservedCop0 ∧
    decode 0b010001_00011_00000_0000000000000000 = .error .reservedCop1 ∧
    decode 0b010010_00000_00000_0000000000000000 = .error .reservedCop2 := ⟨rfl, rfl, rfl, rfl⟩

theorem test_witness_reserved_word_fetched :
    let s := State.reset.placeWord 0x44600000
    s.boundary.event = none ∧ s.boundary.fetch = .val 0x44600000 s.boundary ∧ s.boundary.cu1 = true ∧
      s.boundary.mode = some .kernel := ⟨rfl, rfl, rfl, rfl⟩

theorem test_witness_reserved_word_without_fpu :
    let s := (withStatus 4).placeWord 0x44600000
    s.boundary.event = none ∧ s.boundary.fetch = .val 0x44600000 s.boundary ∧
      s.boundary.cu1 = false := ⟨rfl, rfl, rfl⟩

theorem test_witness_reserved_word_in_user_mode :
    let s : State := { withEntry 7 pagePair with
      pc := 0x1000, draws := [16], cp0 := { State.reset.cp0 with status := 0x10 },
      mem := [(0x456002, 0x40), (0x456003, 0x40)] }
    s.boundary.event = none ∧ ∃ t, s.boundary.fetch = .val 0x40400000 t ∧ t.cu0 = false ∧ t.mode = some .user :=
  ⟨rfl, _, rfl, rfl, rfl⟩

theorem test_witness_invariant_kept : let s : State := { State.reset with pc := 0xFFFFFFFFA0000000 }
    Inv s ∧ ∃ t, step s = .next t :=
  ⟨⟨rfl, rfl, rfl, rfl, rfl, rfl, by constructor <;> decide, rfl, by decide,
    ⟨fun _ => by simp [State.reset, State.coldReset], fun _ => rfl, fun _ _ => rfl⟩⟩, _, rfl⟩

theorem test_witness_sum_in_range : (low32 ((withReg 1 0x7FFFFFFE).r 1)).toInt + (0x0001 : Half).toInt = 2 ^ 31 - 1 ∧
    (low32 ((withReg 1 0x7FFFFFFF).r 1)).toInt + (0x0001 : Half).toInt = 2 ^ 31 := by decide

theorem test_witness_moves : (withReg 1 0).r 1 = 0 ∧ (withReg 1 0x100000000).r 1 ≠ 0 := by decide

theorem test_witness_divisors :
    low32 ((withReg 1 0xFFFFFFFF00000001).r 1) ≠ 0 ∧ (withReg 1 0xFFFFFFFFFFFFFFFF).r 1 ≠ 0 ∧
    low32 ((withReg 1 0xFFFFFFFF00000000).r 1) = 0 ∧ (withReg 1 0).r 1 = 0 := by decide

theorem test_witness_outside_slot : State.reset.delay = none ∧ State.reset.cu1 = true := by decide

theorem test_witness_in_slot : let s : State := { State.reset with delay := some 0 }
    s.delay ≠ none ∧ s.cu1 = true ∧ Privileged s := ⟨by decide, rfl, .inr rfl⟩

theorem test_witness_trap_conditions : let s := withReg 1 0x8000000000000000
    (s.r 0).toInt ≤ (s.r 0).toInt ∧ (s.r 1).toInt < (s.r 0).toInt ∧ ¬(s.r 1).toNat < (s.r 0).toNat ∧
      s.r 0 = (0 : Half).signExtend 64 ∧ s.r 1 ≠ s.r 0 := by decide

theorem test_witness_exception_entry :
    (∀ store va, Exc.systemCall ≠ .tlbRefill store va) ∧ (withStatus 2).exl = true ∧ (withStatus 0).exl = false ∧
      (∀ store va, Exc.systemCall ≠ .addressError store va) ∧
      (∀ va, ¬(Exc.systemCall = .tlbModified va ∨
        ∃ store, Exc.systemCall = .tlbRefill store va ∨ Exc.systemCall = .tlbInvalid store va)) :=
  ⟨fun _ _ h => (by cases h), by decide, by decide, fun _ _ h => (by cases h),
    fun _ h => (by rcases h with h | ⟨_, h | h⟩ <;> cases h)⟩

theorem test_witness_recording_exceptions : ∃ store, Exc.tlbRefill true 8 = .tlbRefill store 8 ∧
    Exc.addressError true 9 = .addressError store 9 ∧ Exc.tlbInvalid true 8 = .tlbInvalid store 8 := ⟨true, rfl, rfl, rfl⟩

theorem test_witness_return : State.reset.delay = none ∧ Privileged State.reset := ⟨rfl, .inr rfl⟩

theorem test_witness_user_mode : let s := withStatus 0x20000010
    s.cu0 = false ∧ s.mode = some .user ∧ Mode.user ≠ .kernel ∧ s.delay = none := by decide

theorem test_witness_privilege_registers : (25 : RegNum) ≠ 24 ∧ (23 : RegNum) ≠ 24 ∧ (23 : RegNum) ≠ 25 := by decide

theorem test_witness_undefined_mode : (withStatus 0x18).cu0 = false ∧ (withStatus 0x18).mode = none := by decide

theorem test_witness_fpu_off : let f := fieldsOfInstr (.nmsubPs 2 4 6)
    (withStatus 0).cu1 = false ∧ f.op = 0b011100 ∧ f.funct ∈ [0b011000#6, 0b011001, 0b011010, 0b011011] ∧
      (withStatus 0).delay = none := by decide

theorem test_witness_odd_register :
    State.reset.cu1 = true ∧ State.reset.fr = false ∧ State.reset.noFdiv = false ∧ State.reset.noFsqr = false ∧
    (fieldsOfInstr (.addD 31 2 4)).rt.getLsbD 0 = true ∧ (fieldsOfInstr (.nmsubPs 2 4 31)).sa.getLsbD 0 = true ∧
    (fieldsOfInstr (.cvtLS 2 31)).sa.getLsbD 0 = true ∧ (fieldsOfInstr (.cvtLS 2 31)).funct = 0b100101 ∧
    (fieldsOfInstr (.cvtSL 31 2)).rd.getLsbD 0 = true ∧ (fieldsOfInstr (.dmtc1 4 31)).rd.getLsbD 0 = true ∧
    (fieldsOfInstr (.dmtc1 4 31)).rs = 0b00101 ∧ (fieldsOfInstr (.sdc1 0 31 0)).rt.getLsbD 0 = true ∧
    (fieldsOfInstr (.paddb 31 2 4)).rt.getLsbD 0 = true := by decide

theorem test_witness_cp0_moves : Privileged (withStatus 0x10000010) ∧ (withStatus 0x10000010).cp0.Legal :=
  ⟨.inl rfl, by constructor <;> decide⟩

theorem test_witness_cp0_moves_unprivileged : (25 : RegNum) = 24 ∨ (25 : RegNum) = 25 := .inr rfl

theorem test_witness_legal_page_mask : Privileged State.reset ∧
    (0x01FFE000 : Word).extractLsb' 13 12 ∈ [0#12, 3, 0xF, 0x3F, 0xFF, 0x3FF, 0xFFF] ∧
    State.reset.cp0.pageMask.extractLsb' 13 12 ∈ [0#12, 3, 0xF, 0x3F, 0xFF, 0x3FF, 0xFFF] ∧
    State.reset.tlbMask ∈ [0#12, 3, 0xF, 0x3F, 0xFF, 0x3FF, 0xFFF] := ⟨.inr rfl, by decide, by decide, by decide⟩

theorem test_witness_illegal_page_mask :
    (0x00002000 : Word).extractLsb' 13 12 ∉ [0#12, 3, 0xF, 0x3F, 0xFF, 0x3FF, 0xFFF] := by decide

/-- What TLBP asks of an entry, as the statement says it. -/
abbrev probeHits (s : State) (i : Fin 64) : Prop :=
  (s.tlb[i]).r = s.cp0.entryHi.extractLsb' 62 2 ∧
    ((s.tlb[i]).g = true ∨ (s.tlb[i]).asid = s.cp0.entryHi.extractLsb' 0 8) ∧
    (s.tlb[i]).vpn2 &&& ~~~s.tlbMask.setWidth 27 = s.cp0.entryHi.extractLsb' 13 27 &&& ~~~s.tlbMask.setWidth 27

/-- The state after reset with another EntryHi. -/
def withEntryHi (v : DWord) : State := { State.reset with cp0 := { State.reset.cp0 with entryHi := v } }

theorem test_witness_illegal_shared_mask : Privileged { State.reset with tlbMask := 1 } ∧
    ({ State.reset with tlbMask := 1 } : State).tlbMask ∉ [0#12, 3, 0xF, 0x3F, 0xFF, 0x3FF, 0xFFF] :=
  ⟨.inr rfl, by decide⟩

theorem test_witness_probe_one : ∀ j, probeHits (withEntryHi 0x800000000007E000) j ↔ j = 63 := by decide

theorem test_witness_probe_none : ∀ j, ¬probeHits (withEntryHi 0x8000000000080000) j := by decide

theorem test_witness_probe_two : let s := withEntry 5 (TlbEntry.atReset 3)
    let t : State := { s with cp0 := { s.cp0 with entryHi := 0x8000000000006000 } }
    (3 : Fin 64) ≠ 5 ∧ probeHits t 3 ∧ probeHits t 5 := by decide

theorem test_witness_segments :
    segmentOf .user 2 0xFFFFFFFFFF = .mapped ∧ segmentOf .kernel 2 0x10000000000 = .error ∧
    segmentOf .supervisor 2 0x400000FFFFFFFFFF = .mapped ∧ segmentOf .user 2 0x4000000000000000 = .error ∧
    segmentOf .kernel 2 0x4000010000000000 = .error ∧
    segmentOf .kernel 2 0x9800000FFFFFFFFF = .unmapped 0x0FFFFFFFFF 3 ∧
      segmentOf .kernel 2 0x9800001000000000 = .error ∧
    segmentOf .kernel 2 0xC00000FF7FFFFFFF = .mapped ∧ segmentOf .kernel 2 0xC00000FF80000000 = .error ∧
    segmentOf .kernel 3 0xFFFFFFFF80000000 = .unmapped 0 3 ∧
      segmentOf .kernel 3 0xFFFFFFFFBFFFFFFF = .unmapped 0x1FFFFFFF 2 ∧
    segmentOf .supervisor 2 0xFFFFFFFFC0000000 = .mapped ∧ segmentOf .supervisor 2 0xFFFFFFFFE0000000 = .error ∧
    segmentOf .kernel 2 0xFFFFFFFFFFFFFFFF = .mapped := by decide

/-- What translation asks of an entry, as the statement says it, with pages of 4 KB. -/
abbrev translationHits (s : State) (va : DWord) (i : Fin 64) : Prop :=
  (s.tlb[i]).r = va.extractLsb' 62 2 ∧ ((s.tlb[i]).g = true ∨ (s.tlb[i]).asid = s.cp0.entryHi.extractLsb' 0 8) ∧
    (s.tlb[i]).vpn2.toNat / 2 ^ (2 * (0 : Fin 7).val) = va.toNat % 2 ^ 40 / (2 * 2 ^ (12 + 2 * (0 : Fin 7).val))

theorem test_witness_translation_masks : (0 : BitVec 12).toNat = 2 ^ (2 * (0 : Fin 7).val) - 1 ∧
    (0xFFF : BitVec 12).toNat = 2 ^ (2 * (6 : Fin 7).val) - 1 := by decide

theorem test_witness_translation_none : ∀ i, ¬translationHits State.reset 0x1FFF i := by decide

theorem test_witness_translation_one :
    (∀ i, translationHits (withEntry 7 pagePair) 0x1FFF i ↔ i = 7) ∧
    (pagePair.lo0.v = true ∧ pagePair.lo0.d = true ∧ pagePair.lo0.e = false ∧ pagePair.lo0.c = 3) ∧
    (pagePair.lo1.v = true ∧ pagePair.lo1.d = false) ∧ (State.reset.tlb[7]).lo0.v = false := by decide

theorem test_witness_translation_no_execution :
    let s : State := { withEntry 7 { pagePair with lo1 := ⟨0, true, 0x456, 5, false, true⟩ } with
      cfg := { State.reset.cfg with nxEnforced := true } }
    (∀ i, translationHits s 0x1FFF i ↔ i = 7) ∧ s.cfg.nxEnforced = true ∧ (s.tlb[7]).lo1.e = true ∧
      (s.tlb[7]).lo1.v = true ∧ (s.tlb[7]).lo1.c = 5 := by decide

theorem test_witness_translation_two :
    let s : State := { State.reset with tlb := (withEntry 7 pagePair).tlb.set 9 pagePair }
    (7 : Fin 64) ≠ 9 ∧ translationHits s 0x1FFF 7 ∧ translationHits s 0x1FFF 9 := by decide

/-- A copy of the first page in the instruction TLB. -/
def pageCopy : ItlbEntry := ⟨0, 1, 0, true, 0, ⟨0, true, 0x777, 3, false, true⟩⟩

/-- The match of a copy, as the statement says it. -/
abbrev copyHits (s : State) (va : DWord) (e : ItlbEntry) : Bool :=
  e.r = va.extractLsb' 62 2 && e.vpn = (va.extractLsb' 12 28 &&& ~~~e.mask.setWidth 28) &&
    (e.g || e.asid = s.cp0.entryHi.extractLsb' 0 8)

theorem test_witness_itlb_copy : let s : State := { State.reset with itlb := [pageCopy] }
    s.mode = some .kernel ∧ segmentOf .kernel (s.cp0.configLow.extractLsb' 0 3) 0x1FFC = .mapped ∧
    s.itlb.find? (copyHits s 0x1FFC) = some pageCopy ∧ pageCopy.page.v = true ∧ s.cfg.nxEnforced = false ∧
    pageCopy.page.c = 3 ∧ copyHits s 0x2000 pageCopy = false := by decide

theorem test_witness_itlb_copy_refuses :
    let s : State := { State.reset with
      itlb := [{ pageCopy with page := ⟨0, false, 0x777, 3, false, false⟩ }]
      cfg := { State.reset.cfg with nxEnforced := true } }
    (s.itlb.find? (copyHits s 0x1FFC)).map (·.page.v) = some false ∧ s.cfg.nxEnforced = true ∧
      pageCopy.page.e = true := by decide

theorem test_witness_itlb_without_copy : let s := withEntry 7 pagePair
    segmentOf .kernel (s.cp0.configLow.extractLsb' 0 3) 0x1FFC = .mapped ∧ (∀ e ∈ s.itlb, copyHits s 0x1FFC e = false) ∧
      s.translateMapped .fetch 0x1FFC = .ok 0x456FFC 2 ∧
      s.translateMapped .fetch 0x2000 = .exc (.tlbRefill false 0x2000) :=
  ⟨rfl, fun _ h => (by cases h), rfl, rfl⟩

theorem test_witness_fetch_segments :
    segmentOf .kernel 2 0x8000001000000000 = .error ∧ segmentOf .kernel 2 0xFFFFFFFF80000000 = .unmapped 0 2 ∧
    segmentOf .user 2 0xFFFFFFFF80000000 = .error := by decide

theorem test_witness_cached_address : let s := withLines true
    Privileged s ∧ s.translate .load (s.r 4 + (0 : Half).signExtend 64) = .ok 0x20 3 ∧
      sparseWf DLine.empty s.dcache ∧ sparseWf SLine.empty s.scache ∧ sparseWf ILine.empty s.icache ∧
      s.io.disableScache = false ∧ Memory.wf s.mem := ⟨.inr rfl, rfl, rfl, rfl, rfl, rfl, rfl⟩

theorem test_witness_data_line_dirty : let s := withLines true
    s.sHit ((0x20 : PAddr).extractLsb' 5 35 ++ 0#5) = some 5 ∧ (0x20 : PAddr).extractLsb' 5 7 = BitVec.ofNat 7 1 ∧
      (s.dLine 4).holds 0x20 = true ∧ (s.dLine 4).state = 3 ∧ (s.dLine 5).state ≠ 3 ∧
      s.sHit ((s.dLine 4).tag ++ BitVec.ofNat 7 1 ++ 0#5) = some 5 := by decide

theorem test_witness_data_line_writable : WritableBelow (withLines true) 0x20 ∧ WritableBelow (withLines false) 0x20 ∧
    WritableBelow (scacheOff (withLines true)) 0x20 ∧ (withLines false).sHit 0x20 = none := by
  refine ⟨fun h => absurd h (by decide), fun _ w _ hd => ?_, ⟨0x20, .inl rfl⟩, rfl⟩
  exact absurd (show SLine.empty.state = 3 from hd) (by decide)

theorem test_witness_data_line_alone (k : Nat) : (k / 4 = 1 ∧
    ((withLines true).dLine k).holds 0x20 = true) ↔ k = 4 := by
  by_cases h : k = 4
  · subst h; decide
  · have : (withLines true).dLine k = DLine.empty := if_neg (fun g => h g.symm)
    rw [this]; exact ⟨fun g => absurd g.2 (by decide), fun g => absurd g h⟩

/-- Three ways of data set 1 that hold one line: a dirty one, a clean one, and a dirty one that comes last. -/
def withThreeWays : State := { withLines true with
  dcache := [(4, ⟨0, 3, 0, 0, 0xAB⟩), (5, ⟨0, 1, 0, 0, 0xCD⟩), (7, ⟨0, 3, 0, 0, 0xEF⟩)] }

theorem test_witness_data_lines_several : let s := withThreeWays
    sparseWf DLine.empty s.dcache ∧ s.translate .load (s.r 4 + (0 : Half).signExtend 64) = .ok 0x20 3 ∧
    (∀ k ∈ [4, 5, 7], k / 4 = 1 ∧ (s.dLine k).holds 0x20 = true) ∧ (s.dLine 4).state = 3 ∧ (s.dLine 5).state ≠ 3 ∧
    (s.dLine 7).state = 3 ∧ s.sHit 0x20 = some 5 := by decide

theorem test_witness_last_dirty_way (k : Nat) (h : 7 < k) : ¬(k / 4 = 1 ∧ (withThreeWays.dLine k).holds 0x20 = true) :=
  fun g => by omega

-- 45_cp0 R491: the ways are written back in the order 0 to 3, so the data of way 3 is what stays
theorem test_hit_writeback_several_ways : ∃ t, exec (.cache21 4 0) withThreeWays = .next t ∧
    t.sLine 5 = ⟨0, 3, 0xEF⟩ ∧ (t.dLine 4).state = 0 ∧ (t.dLine 5).state = 0 ∧ (t.dLine 7).state = 0 :=
  ⟨_, rfl, rfl, rfl, rfl, rfl⟩

theorem test_witness_data_line_clean (k : Nat) :
    ¬(k / 4 = 1 ∧ (({ withLines true with dcache := [] } : State).dLine k).holds 0x20 = true) := fun h => by
  exact absurd h.2 (by show ¬DLine.empty.holds 0x20 = true; decide)

/-- Cached line 0x20 in the secondary cache, and these data lines. -/
def withSecondary (l : SLine) (d : List (Nat × DLine)) : State :=
  { withReg 4 0x9800000000000020 with scache := [(4, l)], dcache := d }

theorem test_witness_secondary_line : let s := withSecondary ⟨0, 3, 0xCD⟩ []
    Privileged s ∧ s.translate .load (s.r 4 + (0 : Half).signExtend 64) = .ok 0x20 3 ∧ (s.sLine 4).state = 3 ∧
      s.sHit 0x20 = some 4 ∧ (∀ k, (s.dLine k).holds (s.sLineAddr 4) = false) ∧ LinePlace s (s.sLineAddr 4) ∧
      sparseWf ILine.empty s.icache ∧ sparseWf DLine.empty s.dcache ∧ sparseWf SLine.empty s.scache ∧ Memory.wf s.mem :=
  ⟨.inr rfl, rfl, rfl, rfl, fun _ => rfl, ⟨0x20, .inl rfl⟩, rfl, rfl, rfl, rfl⟩

theorem test_witness_secondary_subsets :
    let s := withSecondary ⟨0, 1, 0xCD⟩ [(4, ⟨0, 3, 0, 0, 0xAB⟩), (516, ⟨0, 3, 0, 0, 0xEF⟩)]
    BitVec.ofNat 7 (516 / 4) = (s.sLineAddr 4).extractLsb' 5 7 ∧ (s.dLine 516).holds (s.sLineAddr 4) = true ∧
      (s.dLine 516).state = 3 ∧ (s.dLine 4).state = 3 ∧ (∀ j, 516 < j → (s.dLine j).state ≠ 3) ∧
      LinePlace s (s.sLineAddr 4) ∧ sparseWf DLine.empty s.dcache := by
  refine ⟨by decide, by decide, by decide, by decide, fun j hj => ?_, ⟨0x20, .inl rfl⟩, by decide⟩
  have : (withSecondary ⟨0, 1, 0xCD⟩ [(4, ⟨0, 3, 0, 0, 0xAB⟩), (516, ⟨0, 3, 0, 0, 0xEF⟩)]).dLine j = DLine.empty :=
    (if_neg (by omega)).trans (if_neg (by omega))
  rw [this]; decide

theorem test_witness_secondary_line_without_place : let s := withSecondary ⟨0x800, 3, 0xCD⟩ []
    s.target (s.sLineAddr 4) = .outside .pciMemory ∧ ¬LinePlace s (s.sLineAddr 4) := by
  have h : (withSecondary ⟨0x800, 3, 0xCD⟩ []).target ((withSecondary ⟨0x800, 3, 0xCD⟩ []).sLineAddr 4) =
    .outside .pciMemory := by decide
  exact ⟨h, fun ⟨a, g⟩ => by rw [h] at g; rcases g with g | g <;> cases g⟩

theorem test_witness_secondary_miss : let s := withReg 4 0x9800000000000020
    s.translate .load (s.r 4 + (0 : Half).signExtend 64) = .ok 0x20 3 ∧ (s.sLine 4).state = 0 ∧ s.sHit 0x20 = none := by
  decide

theorem test_witness_cache_uncached : let s := withReg 4 0xFFFFFFFFA0000020
    Privileged s ∧ s.translate .load (s.r 4 + (0xFFFF : Half).signExtend 64) = .ok 0x1F 2 ∧ (2 : BitVec 3) ≠ 3 :=
  ⟨.inr rfl, rfl, by decide⟩

/-- A watch on both kinds of access to the doubleword of an address, and the state that ignores it for now. -/
def watching (status : Word) (va : DWord) : State :=
  { withReg 4 va with cp0 := { State.reset.cp0 with status := status, watch := va ||| 3 } }

theorem test_witness_plain_load :
    let s := withReg 4 0xFFFFFFFFA0000010
    let va := s.r 4 + (0xFFF8 : Half).signExtend 64
    (31 : RegNum) ≠ 0 ∧ PlainAccess s .load va 8 8 8 ∧ va.toNat % 8 = 0 ∧ va.toNat % 4 = 0 ∧ va.toNat % 2 = 0 :=
  ⟨by decide, ⟨.inl rfl, fun _ => .inr rfl, .inl rfl, fun _ => rfl⟩, by decide, by decide, by decide⟩

theorem test_witness_rom_load : let s := withReg 4 0xFFFFFFFFBFC00000
    PlainAccess s .load (s.r 4 + (0 : Half).signExtend 64) 0x1FC00000 0x1FC00000 0x1FC00000 :=
  ⟨.inl rfl, fun _ => .inr rfl, .inr ⟨rfl, rfl⟩, fun _ => rfl⟩

theorem test_witness_watched_access : let s := watching 0x00400002 0xFFFFFFFFA0000010
    let va := s.r 4 + (0 : Half).signExtend 64
    s.watchMatch .load va = true ∧ s.watchMatch .store va = true ∧ PlainAccess s .load va 0x10 0x10 0x10 ∧
      PlainAccess s .store va 0x10 0x10 0x10 :=
  ⟨rfl, rfl, ⟨.inl rfl, fun _ => .inl rfl, .inl rfl, fun _ => rfl⟩,
    ⟨.inl rfl, fun _ => .inl rfl, .inl rfl, fun h => by cases h⟩⟩

theorem test_witness_partial_load :
    let s := withReg 4 0xFFFFFFFFA0000010
    let va := s.r 4 + (0xFFFF : Half).signExtend 64
    PlainAccess s .load va 15 (15 - BitVec.ofNat 40 (va.toNat % 4)) 12 ∧
      PlainAccess s .load va 15 (15 - BitVec.ofNat 40 (va.toNat % 8)) 8 ∧ PlainAccess s .load va 15 15 15 :=
  ⟨⟨.inl rfl, fun _ => .inr rfl, .inl rfl, fun _ => rfl⟩, ⟨.inl rfl, fun _ => .inr rfl, .inl rfl, fun _ => rfl⟩,
    ⟨.inl rfl, fun _ => .inr rfl, .inl rfl, fun _ => rfl⟩⟩

theorem test_witness_load_to_zero (pa : PAddr) : let s := withReg 4 0xFFFFFFFFA0000010
    s.translate .load (s.r 4 + (0 : Half).signExtend 64) ≠ .ok pa 3 := by
  show Trans.ok 0x10 2 ≠ .ok pa 3
  intro h; injection h with _ h; exact absurd h (by decide)

-- 40_loads_stores R246: a misaligned load to register 0 of a cached address is a NOP
theorem test_witness_misaligned_load_to_zero : let s := withReg 4 0x9800000000000024
    let va := s.r 4 + (0xFFFF : Half).signExtend 64
    va.toNat % 2 ≠ 0 ∧ va.toNat % 4 ≠ 0 ∧ va.toNat % 8 ≠ 0 ∧ s.translate .load va = .ok 0x23 3 ∧
      s.dHit va 0x23 = none := by decide

theorem test_witness_plain_store :
    let s := withReg 4 0xFFFFFFFFA0000010
    let va := s.r 4 + (0xFFF8 : Half).signExtend 64
    Memory.wf s.mem ∧ PlainAccess s .store va 8 8 8 ∧ va.toNat % 8 = 0 :=
  ⟨rfl, ⟨.inl rfl, fun _ => .inr rfl, .inl rfl, fun h => by cases h⟩, by decide⟩

theorem test_witness_partial_store :
    let s := withReg 4 0xFFFFFFFFA0000010
    let va := s.r 4 + (0xFFFF : Half).signExtend 64
    PlainAccess s .store va 15 (15 - BitVec.ofNat 40 (va.toNat % 4)) 12 ∧
      PlainAccess s .store va 15 (15 - BitVec.ofNat 40 (va.toNat % 8)) 8 ∧ PlainAccess s .store va 15 15 15 :=
  ⟨⟨.inl rfl, fun _ => .inr rfl, .inl rfl, fun h => by cases h⟩,
    ⟨.inl rfl, fun _ => .inr rfl, .inl rfl, fun h => by cases h⟩,
    ⟨.inl rfl, fun _ => .inr rfl, .inl rfl, fun h => by cases h⟩⟩

theorem test_witness_link_bit : ({ State.reset with llbit := true } : State).llbit = true ∧
    State.reset.llbit = false :=
  ⟨rfl, rfl⟩

theorem test_witness_misaligned : ((0 : DWord) + (1 : Half).signExtend 64).toNat % 2 ≠ 0 ∧
    ((0 : DWord) + (2 : Half).signExtend 64).toNat % 4 ≠ 0 ∧ ((0 : DWord) + (4 : Half).signExtend 64).toNat % 8 ≠ 0 ∧
    State.reset.cu1 = true := by decide

theorem test_witness_fpu_ready : FpuReady State.reset [] ∧ FpuReady State.reset [30] ∧
    FpuReady State.reset [0, 2, 30] ∧ FpuReady (withStatus 0x34400004) [1, 3, 31] := by
  refine ⟨⟨rfl, ?_⟩, ⟨rfl, ?_⟩, ⟨rfl, ?_⟩, ⟨rfl, ?_⟩⟩ <;> decide

theorem test_witness_cache_hit : let s := withLines true; let va := s.r 4 + (0x18 : Half).signExtend 64
    sparseWf DLine.empty s.dcache ∧ CacheHit s .load va 0x38 4 ∧ CacheHit s .store va 0x38 4 ∧ va.toNat % 8 = 0 :=
  ⟨rfl, ⟨rfl, fun _ => .inr rfl, rfl, fun h => by cases h⟩, ⟨rfl, fun _ => .inr rfl, rfl, fun _ => .inr rfl⟩, by decide⟩

-- 60_exceptions R830: the upgrade of a cached store can report a Bus Error, a store to a dirty line makes none
theorem test_witness_upgrade_error : let u := withBusErrors (withLines true); let va := u.r 4 + (0x18 : Half).signExtend 64
    let s : State := { u with dcache := [(4, ⟨0, 1, 0, 0, 7⟩)] }
    s.translate .store va = .ok 0x38 3 ∧ (s.watchMatch .store va = true → s.exl = true ∨ s.erl = true) ∧
    s.dHit va 0x38 = some 4 ∧ (s.dLine 4).state ≠ 3 ∧ AccessForm s .store 4 2 0x18 (.sdr 4 2 0x18) 1 0 ∧
    s.busErrorAt .store ((0x38 : PAddr).extractLsb' 5 35 ++ 0#5) = true ∧ CacheHit u .store va 0x38 4 :=
  ⟨rfl, fun _ => .inr rfl, rfl, by decide, .inr ⟨rfl, _, _, .sdr⟩, rfl, ⟨rfl, fun _ => .inr rfl, rfl, fun _ => .inl rfl⟩⟩

/-! #### Exceptions of accesses -/

theorem test_witness_translation_exceptions : let s := withReg 4 0x8000001000000000; let u := withReg 4 0x2000
    s.translate .store (s.r 4 + (0 : Half).signExtend 64) = .exc (.addressError true 0x8000001000000000) ∧
    u.translate .load (u.r 4 + (0 : Half).signExtend 64) = .exc (.tlbRefill false 0x2000) ∧ Privileged u ∧
    AccessForm s .store 4 2 0 (.swl 4 2 0) 1 0 ∧ AccessForm u .load 4 2 0 (.ldc1 4 2 0) 8 0 :=
  ⟨rfl, rfl, .inr rfl, .inr ⟨rfl, _, _, .swl⟩, .inl ⟨rfl, _, .ldc1 ⟨rfl, by decide⟩⟩⟩

theorem test_witness_fetch_exception : let s : State := { State.reset with pc := 0x2000 }
    s.pc.toNat % 4 = 0 ∧ s.translateFetch s.pc = (.exc (.tlbRefill false 0x2000), s) ∧ s.boundary.event = none ∧
      s.boundary.fetch = .exc (.tlbRefill false 0x2000) s.boundary := ⟨rfl, rfl, rfl, rfl⟩

theorem test_witness_watch_exception : let s := watching 0 0xFFFFFFFFA0000010; let u := watching 0 0x9800000000000020
    s.translate .load (s.r 4 + (0 : Half).signExtend 64) = .ok 0x10 2 ∧
    s.watchMatch .load (s.r 4 + (0 : Half).signExtend 64) = true ∧ s.exl = false ∧ s.erl = false ∧
    u.translate .store (u.r 4 + (0 : Half).signExtend 64) = .ok 0x20 3 ∧
    u.watchMatch .store (u.r 4 + (0 : Half).signExtend 64) = true ∧ u.exl = false ∧ u.erl = false := by decide

theorem test_witness_load_bus_error : let s := withBusErrors (withReg 4 0xFFFFFFFFA0000010)
    (∃ m, LoadForm s 4 2 0 (.lwr 4 2 0) 1 0 m) ∧ s.translate .load (s.r 4 + (0 : Half).signExtend 64) = .ok 0x10 2 ∧
    ∃ b ∈ s.cfg.busErrors, b.access = .load ∧ b.first ≤ (0x10 : PAddr).toNat - 0 ∧ (0x10 : PAddr).toNat - 0 ≤ b.last :=
  ⟨⟨_, .lwr (by decide)⟩, rfl, ⟨0, 0xFFFFFFFFFF, .load⟩, by decide, rfl, by decide, by decide⟩

/-! #### Misses of the data cache -/

theorem test_witness_cache_miss : let s := withReg 4 0x9800000000000020; let va := s.r 4 + (4 : Half).signExtend 64
    let line : PAddr := (0x24 : PAddr).extractLsb' 5 35 ++ 0#5
    s.translate .load va = .ok 0x24 3 ∧ s.translate .store va = .ok 0x24 3 ∧ s.dHit va 0x24 = none ∧
    s.sHit line = none ∧ s.io.disableScache = false ∧ BlockAt s .load line 0x20 ∧ BlockAt s .store line 0x20 ∧
    BlockAt (scacheOff s) .store line 0x20 ∧ ({ s with scache := [(5, ⟨0, 1, 9⟩)] } : State).sHit line = some 5 ∧
    (withBusErrors s).busErrorAt .load line = true ∧ (withBusErrors s).busErrorAt .store line = true ∧
    ({ withBusErrors s with llbit := true } : State).llbit = true ∧ (s.dLine 4).state ≠ 3 ∧
    AccessForm s .store 4 2 4 (.scd 4 2 4) 8 0 ∧ AccessForm s .load 4 2 4 (.lwl 4 2 4) 1 (va.toNat % 4) :=
  ⟨rfl, rfl, rfl, rfl, rfl, ⟨rfl, .inl rfl⟩, ⟨rfl, .inl rfl⟩, ⟨rfl, .inl rfl⟩, rfl, rfl, rfl, rfl, by decide, .inr ⟨rfl, _, _, .scd⟩,
    .inl ⟨rfl, _, .lwl (by decide)⟩⟩

/-- No line of the secondary cache has to be written to memory. -/
theorem no_victims {s : State} (h : s.scache = []) (p : PAddr) : SecondaryVictimsReady s p := fun w _ hd => by
  rw [State.sLine, h] at hd; exact absurd hd (by decide : SLine.empty.state ≠ 3)

/-- Data set 1 with a dirty line of another page. -/
def withDirtySet : State := { withReg 4 0x9800000000000020 with dcache := [(7, ⟨5, 3, 0, 0, 0xEE⟩)] }

theorem test_witness_fill_from_memory : let s := withDirtySet
    s.dHit (s.r 4) 0x20 = none ∧ (s.dLine 7).state = 3 ∧ s.sHit 0x20 = none ∧ FillReady s .load (s.r 4) 0x20 ∧
      FillReady s .store (s.r 4) 0x20 :=
  ⟨rfl, rfl, rfl, ⟨.inr ⟨⟨0x20, rfl, .inl rfl⟩, fun _ => no_victims rfl _⟩, fun _ _ _ => .inr (no_victims rfl _)⟩,
    ⟨.inr ⟨⟨0x20, rfl, .inl rfl⟩, fun _ => no_victims rfl _⟩, fun _ _ _ => .inr (no_victims rfl _)⟩⟩

theorem test_witness_fill_from_secondary :
    let s : State := { withDirtySet with scache := [(5, ⟨0, 1, 9⟩), (2564, ⟨0, 1, 9⟩)] }
    s.sHit 0x20 = some 5 ∧ s.sHit (s.dLineAddr 7) = some 2564 ∧ FillReady s .load (s.r 4) 0x20 := by
  refine ⟨rfl, by decide, .inl ⟨rfl, by decide⟩, fun v _ hd => .inl ⟨by decide, ?_⟩⟩
  by_cases hv : v = 7
  · subst hv; decide
  · have : sparseRead DLine.empty v [(7, ⟨5, 3, 0, 0, 0xEE⟩)] = DLine.empty := if_neg (fun g => hv g.symm)
    exact absurd (show (sparseRead DLine.empty v [(7, ⟨5, 3, 0, 0, 0xEE⟩)]).state = 3 from hd) (by rw [this]; decide)

theorem test_witness_fill_without_secondary : let s := scacheOff withDirtySet
    (s.dLine 7).state = 3 ∧ s.dLineAddr 7 = 0x5020 ∧ LinePlace s (s.dLineAddr 7) ∧ BlockAt s .load 0x20 0x20 :=
  ⟨rfl, rfl, ⟨0x5020, .inl rfl⟩, rfl, .inl rfl⟩

theorem test_witness_watch_on_a_miss : let u := watching 0 0x9800000000000020
    u.dHit (u.r 4) 0x20 = none ∧ sparseWf DLine.empty u.dcache ∧ sparseWf SLine.empty u.scache ∧ Memory.wf u.mem ∧
      FillReady u .store (u.r 4) 0x20 :=
  ⟨rfl, rfl, rfl, rfl, .inr ⟨⟨0x20, rfl, .inl rfl⟩, fun _ => no_victims rfl _⟩, fun _ _ _ => .inr (no_victims rfl _)⟩

/-! #### The address map and the devices -/

/-- The state after reset with the core as master 0 and the PCI bridge as master 1, and every window register `v`. -/
def withWindows (v : DWord) : State :=
  { State.reset with
    cfg := { State.reset.cfg with crossbar := ⟨some 0, some 1, 2, 1⟩ }
    windows := Vector.replicate 48 v }

/-- The claim of a window, as the statement says it. -/
abbrev windowClaims (s : State) (m w : Fin 4) (y : DWord) : Prop :=
  y &&& s.windows[12 * m.val + 4 * 1 + w.val] = s.windows[12 * m.val + 4 * 0 + w.val]

theorem test_witness_windows : windowClaims (withWindows 0) 0 0 0x1FE00000 ∧ windowClaims (withWindows 0) 1 0 0x100 ∧
    ((withWindows 0).windows[8]).extractLsb' 0 2 = 0 ∧ (withWindows 1).cfg.crossbar.dramPort = 2 ∧
    (withWindows 1).cfg.crossbar.ioPort = 1 ∧ windowClaims (withWindows 1) 0 0 1 ∧
    ((withWindows 1).windows[8]).extractLsb' 0 2 = 1 ∧ windowClaims (withWindows 2) 0 0 2 ∧
    ((withWindows 2).windows[8]).extractLsb' 0 2 = 2 ∧ (∀ w, ¬windowClaims (withWindows 2) 0 w 0) := by decide

theorem test_witness_map_rows : State.reset.cfg.crossbar.core = none ∧ State.reset.cfg.crossbar.pci = none ∧
    State.reset.target 0x0FFFFDFF = .dram 0x0FFFFDFF ∧ State.reset.target 0x0FFFFFC0 = .ddr 28 ∧
    State.reset.target 0x0FFFFFC8 = .hole ∧ State.reset.target 0x0FFFFFD0 = .hole ∧
    State.reset.target 0x10000000 = .outside .pciMemory ∧ State.reset.target 0x1FE001FC = .regs 63 ∧
    State.reset.target 0x3FF00180 = .outside .pciMemory := by decide

theorem test_witness_dram_over_registers :
    let s : State := { State.reset with io := State.reset.io.setReg 32 0x100 }
    (s.io.regs[32]).getLsbD 8 = true ∧ s.target 0x0FFFFFC0 = .dram 0x0FFFFFC0 := by decide

/-- A state whose register 4 holds the uncached address of a physical one. -/
def device (pa : DWord) : State := withReg 4 (0x9000000000000000 + pa)

/-- What the statement asks of an access at `pa` that leads to `t`. -/
abbrev deviceAccess (pa : PAddr) (t : Target) : Prop :=
  let s := device (pa.setWidth 64); let va := s.r 4 + (0 : Half).signExtend 64
  (∀ k ∈ [Access.load, .store], s.translate k va = .ok pa 2 ∧ s.watchMatch k va = false ∧ s.busErrorAt k pa = false) ∧
    s.target (pa - BitVec.ofNat 40 0) = t

theorem test_witness_device_widths : Target.Takes (.window 47) 8 ∧ ¬Target.Takes (.ddr 28) 4 ∧
    Target.Takes (.regs 12) 1 ∧ ¬Target.Takes (.header 2) 3 ∧ ¬Target.Takes .hole 4 ∧ Target.Takes (.rom 8) 3 ∧
    ¬Target.Takes (.outside .pciIo) 1 := by simp [Target.Takes]

theorem test_witness_device_windows : deviceAccess 0x3FF00178 (.window 47) ∧ deviceAccess 0x0FFFFFC0 (.ddr 28) ∧
    deviceAccess 0x0FFFFE30 (.ddr 3) ∧ deviceAccess 0x1FE0000A (.header 2) ∧ deviceAccess 0x1FE00130 (.regs 12) := by
  decide

theorem test_witness_device_words : deviceAccess 0x1FE00134 (.regs 13) ∧ deviceAccess 0x1FE0012C (.regs 11) ∧
    deviceAccess 0x1FC00000 (.rom 0x1FC00000) ∧ deviceAccess 0x0FFFFFC8 .hole ∧
    deviceAccess 0x10000000 (.outside .pciMemory) := by decide

theorem test_witness_block_reads : let s := withReg 4 0x980000001FC00000; let u := withReg 4 0x980000003FF00000
    s.translate .load (s.r 4 + (0 : Half).signExtend 64) = .ok 0x1FC00000 3 ∧ s.target 0x1FC00000 = .rom 0x1FC00000 ∧
    (s.io.regs[2]).getLsbD 14 = false ∧ s.dHit (s.r 4) 0x1FC00000 = none ∧ s.sHit 0x1FC00000 = none ∧
    u.translate .store (u.r 4 + (0 : Half).signExtend 64) = .ok 0x3FF00000 3 ∧ u.target 0x3FF00000 = .window 0 ∧
    s.target 0x1FE00200 = .hole ∧ s.target 0x1FD00000 = .outside .pciIo := by decide

theorem test_witness_counting : let c : State := { withStatus 0 with cp0 := { (withStatus 0).cp0 with perfControl := 2 } }
    State.reset.randomHold = true ∧ ({ State.reset with randomHold := false } : State).randomHold = false ∧
    c.cp0.status.getLsbD 2 = false ∧ c.cp0.status.getLsbD 1 = false ∧ c.cp0.status.extractLsb' 3 2 = 0 ∧
    c.cp0.perfControl.getLsbD 1 = true ∧ State.reset.cp0.status.getLsbD 2 = true := by decide

theorem test_witness_units : State.reset.cu1 = true ∧ State.reset.noFdiv = false ∧ State.reset.noFsqr = false ∧
    (withStatus 0x21800000).noFdiv = true ∧ (withStatus 0x21800000).noFsqr = true ∧
      (withStatus 0x21800000).cu1 = true := by
  decide

theorem test_witness_normal_operands :
    (FpFmt.single.unpack 0x3F800000).cls = .normal ∧ (FpFmt.single.unpack 0xFF7FFFFF).cls = .normal ∧
    (FpFmt.single.unpack 0x00800000).neg = false ∧ (FpFmt.double.unpack 0x3FF0000000000000).cls = .normal ∧
    (FpFmt.double.unpack 0x0010000000000000).cls = .normal ∧ ((-1 : ℤ) ≠ 0) := by decide

theorem test_witness_rounded_values :
    (FpFmt.single.unpack 0x3F800000).toReal + (FpFmt.single.unpack 0x3F800000).toReal ≠ 0 ∧
    (FpFmt.single.unpack 0x3F800000).toReal - (FpFmt.single.unpack 0x3F800000).toReal = 0 := by
  have h : (FpFmt.single.unpack 0x3F800000) = ⟨false, .normal, 8388608, -23⟩ := by decide
  refine ⟨?_, sub_self _⟩
  rw [h]; norm_num [FpVal.toReal]

theorem test_witness_classes :
    (FpFmt.single.unpack 0x80000000).cls = .zero ∧ (FpFmt.double.unpack 0x7FEFFFFFFFFFFFFF).cls = .normal ∧
    (FpFmt.single.unpack 0x7F800000).cls = .inf ∧ (FpFmt.double.unpack 0x7FF0000000000001).cls = .qnan ∧
    (FpFmt.single.unpack 0x7FC00000).cls = .snan ∧ (FpFmt.double.unpack 0x000FFFFFFFFFFFFF).cls = .denormal := by
      decide

theorem test_witness_special_operands : let S := FpFmt.single
    (S.unpack 0xFF800000).neg = true ∧ (S.unpack 0xBF800000).cls = .normal ∧ (S.unpack 0xBF800000).neg = true ∧
    (S.unpack 0).cls = .zero ∧ (0 : Word).extractLsb' 0 2 ≠ 3 ∧ (3 : Word).extractLsb' 0 2 = 3 ∧
    S.div 0 0x3F800000 0 = ⟨{ divByZero := true }, 0x7F800000⟩ := by decide

theorem test_witness_exact_sums : let S := FpFmt.single
    (S.unpack 0x3F800000).toReal * (S.unpack 0x3F800000).toReal + (S.unpack 0).toReal ≠ 0 ∧
      (S.unpack 0).toReal * (S.unpack 0x3F800000).toReal + (S.unpack 0).toReal = 0 := by
  have h : FpFmt.single.unpack 0x3F800000 = ⟨false, .normal, 8388608, -23⟩ := by decide
  have z : (FpFmt.single.unpack 0).toReal = 0 := by
    have : (FpFmt.single.unpack 0).mag = 0 := by decide
    rw [FpVal.toReal, this]; norm_num
  constructor
  · rw [z, h]; norm_num [FpVal.toReal]
  · rw [z]; norm_num

theorem test_witness_fcsr_updates : let x : FpExc := { inexact := true }; let u : FpExc := { unimplemented := true }
    u.unimplemented = true ∧ x.inexact = true ∧ (0x80 : Word).getLsbD 7 = true ∧ (0 : Word).getLsbD 7 = false := by
  decide

theorem test_witness_fcsr_moves : (31 : RegNum) = 31 ∧ (30 : RegNum) ≠ 31 ∧
    (low32 0x00020000 &&& 0xFF83FFFF : Word).getLsbD 17 = true ∧
    (low32 0x00010800 &&& 0xFF83FFFF : Word).getLsbD (12 + 4) = true ∧
    (low32 0x00010800 &&& 0xFF83FFFF : Word).getLsbD (7 + 4) = true ∧ (low32 0 &&& 0xFF83FFFF : Word) = 0 := by decide

/-! ### Single steps, the expected values worked out by hand from the rules named -/

/-- The next state of an outcome, if there is one. -/
def nextOf (o : Out) : Option State := match o with | .next t => some t | _ => none

/-- General register `i` after one instruction. -/
def gprAfter (i : RegNum) (o : Out) : Option DWord := (nextOf o).map (·.r i)

/-- The 64-bit FPR operand `n` after one instruction. -/
def fprAfter (n : RegNum) (o : Out) : Option DWord := (nextOf o).map (·.f64 n)

/-- A state with 64-bit FPRs: FPR[1] and FPR[2] set, FCSR as given. -/
def withFprs (fcsr : Word) (x y : DWord) : State :=
  (((withStatus 0x34400004).setF64 1 x).setF64 2 y).setFcsr fcsr

-- 41_alu R295: the 32-bit sum wraps and is sign-extended
theorem test_addiu_wraps : gprAfter 2 (exec (.addiu 1 2 1) (withReg 1 0x7FFFFFFF)) = some 0xFFFFFFFF80000000 :=
  by decide

-- 41_alu R292, 60_exceptions R810, R812: the same sum in ADDI traps; the boot vector at 0xBFC00380, code 12
theorem test_addi_traps : (nextOf (exec (.addi 1 2 1) (withReg 1 0x7FFFFFFF))).map
    (fun t => (t.r 2, t.pc, t.cp0.cause.extractLsb' 2 5, t.exl)) = some (0, 0xFFFFFFFFBFC00380, 12, true) := by decide

-- 41_alu R334: the sign comes down
theorem test_dsra32_sign : gprAfter 2 (exec (.dsra32 1 2 31) (withReg 1 0x8000000000000000))
    = some 0xFFFFFFFFFFFFFFFF :=
  by decide

-- 42_muldiv R357: -1 * 2 = -2
theorem test_mult_negative : (nextOf (exec (.mult 1 2) ((withReg 1 0xFFFFFFFFFFFFFFFF).setR 2 2))).map
    (fun t => (t.hi, t.lo)) =
    some (0xFFFFFFFFFFFFFFFF, 0xFFFFFFFFFFFFFFFE) := by decide

-- 42_muldiv R361: -7 / 2 is -3, the remainder -1
theorem test_div_truncates : (nextOf (exec (.div 1 2) ((withReg 1 0xFFFFFFFFFFFFFFF9).setR 2 2))).map
    (fun t => (t.hi, t.lo)) =
    some (0xFFFFFFFFFFFFFFFF, 0xFFFFFFFFFFFFFFFD) := by decide

-- 43_branch_jump R390, R399: a branch back by one word, from the reset vector
theorem test_beq_back : (nextOf (exec (.beq 0 0 0xFFFF) State.reset)).map (fun t => (t.pc, t.delay)) =
    some (0xFFFFFFFFBFC00004, some 0xFFFFFFFFBFC00000) := by decide

-- 20_memory R120, 40_loads_stores R252: bytes 11 22 33 44 from address 8; LWL at 9 takes 22 11 to the top
theorem test_lwl_merges : gprAfter 2 (exec (.lwl 1 2 9)
    { (withReg 1 0xFFFFFFFFA0000000).setR 2 0xAABBCCDD with mem := [(8, 0x11), (9, 0x22), (10, 0x33), (11, 0x44)] }) =
      some 0x000000002211CCDD := by decide

-- 40_loads_stores R258: SW stores the low byte at the lowest address
theorem test_sw_little_endian :
    (nextOf (exec (.sw 1 2 8) ((withReg 1 0xFFFFFFFFA0000000).setR 2 0x44332211))).map (·.mem) =
    some [(8, 0x11), (9, 0x22), (10, 0x33), (11, 0x44)] := by decide

-- 40_loads_stores R270: SC without the link bit stores nothing and answers 0
theorem test_sc_fails : (nextOf (exec (.sc 1 2 8) ((withReg 1 0xFFFFFFFFA0000000).setR 2 5))).map 
    (fun t => (t.r 2, t.mem)) = some (0, []) := by decide

-- 45_cp0 R470: TLBP without a match sets P; the low bits are the free choice, here 5
theorem test_tlbp_misses : (nextOf (exec .tlbp { State.reset with draws := [5] })).map (·.cp0.index) =
    some 0x80000005 := by decide

-- 46_fpu R527: 1 / 3 to nearest is 0x3EAAAAAB, inexact in Cause (bit 12) and Flags (bit 2)
theorem test_div_single : (nextOf (exec (.divS 2 1 3) (withFprs 0 0x3F800000 0x40400000))).map
    (fun t => (t.f32 3, t.fcsr)) = some (0x3EAAAAAB, 0x00001004) := by decide

-- 46_fpu R548: the square root of 2
theorem test_sqrt_double : fprAfter 3 (exec (.sqrtD 1 3) (withFprs 0 0x4000000000000000 0))
    = some 0x3FF6A09E667F3BCD :=
  by decide

-- 46_fpu R530: the same inexact result with its Enable bit traps and writes nothing; code 15
theorem test_div_single_traps : (nextOf (exec (.divS 2 1 3) (withFprs 0x80 0x3F800000 0x40400000))).map
    (fun t => (t.f32 3, t.fcsr, t.cp0.cause.extractLsb' 2 5)) = some (0, 0x00001080, 15) := by decide

-- 46_fpu R561: -1.5 down is -2; R526: 2.5 to nearest is 2
theorem test_floor_negative : (nextOf (exec (.floorWS 1 3) (withFprs 0 0xBFC00000 0))).map (·.f32 3)
    = some 0xFFFFFFFE :=
  by decide

theorem test_round_ties_to_even : (nextOf (exec (.roundWS 1 3) (withFprs 0 0x40200000 0))).map (·.f32 3)
    = some 2 :=
  by decide

-- 46_fpu R604: 1 < 2 sets CC0
theorem test_compare_less : (nextOf (exec (.cLtS 2 1) (withFprs 0 0x3F800000 0x40000000))).map (·.fcsr)
    = some 0x00800000 :=
  by decide

-- 47_fpu_ps R656: 2 * 3 + 1 = 7, the addend in fd
theorem test_madd_single : (nextOf (exec (.maddS 2 1 3) ((withFprs 0 0x40000000 0x40400000).setF32 3 0x3F800000))).map
    (·.f32 3) = some 0x40E00000 := by decide

-- 48_multimedia R674, R684: 127 + 1 stays 127, -128 + -1 stays -128
theorem test_paddsb_saturates : fprAfter 3 (exec (.paddsb 2 1 3) (withFprs 0 0x807F 0xFF01)) = some 0x807F :=
  by decide

-- 48_multimedia R738: 1 * 3 + 2 * 4 = 11 in the low word
theorem test_pmaddhw_adds : fprAfter 3 (exec (.pmaddhw 2 1 3) (withFprs 0 0x00020001 0x00040003)) = some 11 :=
  by decide

-- 49_fpu_fixed R754, R766: a count of 32 leaves zero
theorem test_fixed_sll_by_width : fprAfter 3 (exec (.fxSll 2 1 3) (withFprs 0 0xFFFFFFFF 32)) = some 0 := by decide

-- 10_state R35, 45_cp0 R473: an event is no instruction; Random still stands at 63 for the first one after reset
theorem test_random_waits : (nextOf (step { State.reset with nmiPending := true })).map
    (fun t => (t.cp0.random, t.randomHold)) = some (63, true) := by decide

-- the interface of the host: the placed word runs as the first instruction after reset (addiu r1, r0, 7)
theorem test_first_instruction : (nextOf (step (State.reset.withFetchWord 32 0x24010007))).map (fun t => (t.r 1,
    t.pc)) =
    some (7, 0xFFFFFFFFBFC00004) := rfl

theorem test_table_word : decodeTableWord 32 0x24010007 = some (.addiu 0 1 7) := rfl

-- 46_fpu R608, R521: the check of CU1 comes before the refusal of a branch in a delay slot; 60_exceptions R810 for EPC
theorem test_bc1_in_slot_without_fpu : (nextOf (exec (.bc1t 1) { withStatus 0 with delay := some 8, pc := 0x104 })).map
    (fun t => (t.cp0.cause.extractLsb' 2 5, t.cp0.epc)) = some (11, 0x100) := by decide

-- 45_cp0 R492: of two dirty primary subsets the last one ends in memory (log 28)
theorem test_secondary_write_back : (nextOf (exec (.cache23 4 0)
    (withSecondary ⟨0, 1, 0xCD⟩ [(4, ⟨0, 3, 0, 0, 0xAB⟩), (516, ⟨0, 3, 0, 0, 0xEF⟩)]))).map
    (fun t => (memByte t.mem 0x20, t.dcache.map (·.2.state), (t.sLine 4).state)) = some (0xEF, [0, 0], 0) := by decide

-- 40_loads_stores R260, 65_platform R942: SWL puts the two top bytes of the word into intenset; bits 14:11 stand at 1
theorem test_swl_to_intenset : (nextOf (exec (.swl 4 2 0) ((device 0x1FE00131).setR 2 0x07FF1234))).map
    (fun t => t.io.regs[14]) = some 0x7FFF := by decide

end Sys2Proof.Tests
end

