-- ==== Sys2Proof/Proofs/Invariant.lean ====
section
/-! SUPPORT. Every instruction keeps the invariant of the machine, and so do every step and the cold reset. -/

namespace Sys2Proof.Machine
variable {s : State} {k : Out}

/-- An answer that, where it is a next state, meets the invariant. -/
def KeepsInv (o : Out) : Prop := ∀ t, o = .next t → Inv t

theorem keepsInv_next (h : Inv s) : KeepsInv (.next s) := fun _ e => Host.Outcome.next.inj e ▸ h

theorem keepsInv_fault (f : Fault) : KeepsInv (.fault f) := fun _ e => by cases e

/-- An operation that ends in the invariant, and what follows it. -/
theorem Result.Keeps.andThen_keepsInv {α : Type} {r : Result α} {f : α → State → Out} (h : r.Keeps)
    (hf : ∀ a t, Inv t → KeepsInv (f a t)) : KeepsInv (r.andThen f) :=
  fun _ => h.andThen fun a t _ ht => hf a t ht _

/-! ### The ends of an instruction, and the checks before it -/

theorem Inv.done (h : Inv s) : KeepsInv (done s) := keepsInv_next h.advance

theorem Inv.raise (h : Inv s) (e : Exc) : KeepsInv (raise e s) := keepsInv_next (h.takeException e)

theorem Inv.checkCp0 (h : Inv s) (hk : KeepsInv k) : KeepsInv (Machine.withCp0 s k) := by
  rcases withCp0_cases s k with e | e | e <;> rw [e]
  · exact hk
  · exact h.raise _
  · exact keepsInv_fault _

theorem Inv.withFpu (h : Inv s) (hk : KeepsInv k) : KeepsInv (withFpu s k) := by
  rcases withFpu_cases s k with e | e <;> rw [e]
  · exact hk
  · exact h.raise _

theorem Inv.withFpu64 (h : Inv s) {regs : List RegNum} (hk : KeepsInv k) : KeepsInv (withFpu64 s regs k) := by
  rcases withFpu64_cases s regs k with e | e | e <;> rw [e]
  · exact hk
  · exact h.raise _
  · exact keepsInv_fault _

/-- A page mask outside Table 21 stops; inside it the instruction goes on. -/
theorem keepsInv_withMask {m : BitVec 12} (hk : legalMask m = true → KeepsInv k) : KeepsInv (withMask m k) := by
  unfold withMask
  split
  · exact hk ‹_›
  · exact keepsInv_fault _

/-! ### The integer unit -/

theorem Inv.setGpr (h : Inv s) (rd : RegNum) (v : DWord) : KeepsInv (setGpr rd v s) := (h.setR rd v).done

theorem Inv.setGprOr (h : Inv s) (o : Bool) (rd : RegNum) (v : DWord) : KeepsInv (setGprOr o rd v s) := by
  unfold Machine.setGprOr
  split
  · exact h.raise _
  · exact h.setGpr rd v

/-- MOVZ and MOVN: a register move or nothing. -/
theorem Inv.moveIf (h : Inv s) (c : Prop) [Decidable c] (rd : RegNum) (v : DWord) :
    KeepsInv (if c then Machine.setGpr rd v s else Machine.done s) := by
  split
  · exact h.setGpr rd v
  · exact h.done

theorem Inv.setProduct (h : Inv s) (hi lo : DWord) : KeepsInv (setProduct hi lo s) := (h.setHiLo hi lo).done

theorem Inv.setQuotient (h : Inv s) (z : Bool) (q r : DWord) : KeepsInv (setQuotient z q r s) := by
  unfold Machine.setQuotient
  split
  · exact (h.free.free.setHiLo _ _).done
  · exact (h.setHiLo _ _).done

theorem Inv.setDivided (h : Inv s) (z : Bool) (rd : RegNum) (v : DWord) : KeepsInv (setDivided z rd v s) := by
  unfold Machine.setDivided
  split
  · exact (h.free.setR _ _).done
  · exact (h.setR _ _).done

/-! ### Jumps, branches and traps -/

theorem Inv.branch (h : Inv s) (likely taken : Bool) (t : DWord) : KeepsInv (branch likely taken t s) := by
  unfold Machine.branch
  split
  · exact keepsInv_fault _
  · refine keepsInv_next ?_
    split
    · exact h.branchTo _
    · split
      · exact h.skipSlot
      · exact h.branchTo _

theorem Inv.branchLink (h : Inv s) (likely taken : Bool) (rd : RegNum) (t : DWord) :
    KeepsInv (branchLink likely taken rd t s) := (h.setR _ _).branch _ _ _

theorem Inv.branchFp (h : Inv s) (likely taken : Bool) (t : DWord) : KeepsInv (branchFp likely taken t s) :=
  h.withFpu (h.branch _ _ _)

theorem Inv.trapIf (h : Inv s) (c : Bool) : KeepsInv (trapIf c s) := by
  unfold Machine.trapIf
  split
  · exact h.raise _
  · exact h.done

/-! ### Loads and stores -/

theorem Inv.loadGpr (h : Inv s) (n : Nat) (f : DWord → DWord) (base rt : RegNum) (o : Half) :
    KeepsInv (loadGpr n f base rt o s) := by
  unfold Machine.loadGpr
  split
  · exact (h.prefetch _ _).done
  · exact (h.load _ _).andThen_keepsInv fun _ _ ht => (ht.setR _ _).done

theorem Inv.loadLinked (h : Inv s) (n : Nat) (f : DWord → DWord) (base rt : RegNum) (o : Half) :
    KeepsInv (loadLinked n f base rt o s) := by
  unfold Machine.loadLinked
  split
  · exact (h.prefetch _ _).done
  · exact (h.load _ _).andThen_keepsInv fun _ _ ht => ((ht.setR _ _).setLlbit _).done

theorem Inv.loadPart (h : Inv s) (base rt : RegNum) (o : Half) (b : DWord → DWord) (c : DWord → Nat)
    (f : DWord → DWord → DWord → DWord) : KeepsInv (loadPart base rt o b c f s) := by
  unfold Machine.loadPart
  simp only []
  split
  · exact (h.prefetch _ _).done
  · exact (h.loadBytes _ _ _).andThen_keepsInv fun _ _ ht => (ht.setR _ _).done

theorem Inv.storeGpr (h : Inv s) (n : Nat) (base rt : RegNum) (o : Half) : KeepsInv (storeGpr n base rt o s) :=
  (h.store _ _ _).andThen_keepsInv fun _ _ ht => ht.done

theorem Inv.storePart (h : Inv s) (base rt : RegNum) (o : Half) (b : DWord → DWord) (c : DWord → Nat)
    (f : DWord → DWord → DWord) : KeepsInv (storePart base rt o b c f s) :=
  (h.storeBytes _ _ _ _).andThen_keepsInv fun _ _ ht => ht.done

theorem Inv.storeConditional (h : Inv s) (n : Nat) (base rt : RegNum) (o : Half) :
    KeepsInv (storeConditional n base rt o s) := by
  unfold Machine.storeConditional
  simp only []
  split
  · refine (h.access _ _ fun attr pa => ?_).andThen_keepsInv fun _ _ ht => ((ht.setR _ _).setLlbit _).done
    split
    · exact h.writeAttr _ _ _ _ _
    · exact h
  · exact h.raise _

/-! ### The moves to and from CP0, and the TLB -/

theorem Inv.moveFromCp0 (h : Inv s) (rt rd : RegNum) (f : DWord → DWord) : KeepsInv (moveFromCp0 rt rd f s) := by
  have hk := (h.setR rt (f (s.readCp0 rd))).done
  unfold Machine.moveFromCp0
  simp only []
  split
  · exact hk
  · exact h.checkCp0 hk

theorem Inv.moveToCp0 (h : Inv s) (rd : RegNum) (v : DWord) :
    KeepsInv (Machine.withCp0 s (Machine.done (s.writeCp0 rd v))) := h.checkCp0 (h.writeCp0 rd v).done

theorem Inv.execTlbr (h : Inv s) : KeepsInv (execTlbr s) := h.checkCp0 (keepsInv_withMask fun _ => h.readTlb.done)

theorem Inv.execTlbWrite (h : Inv s) (i : BitVec 6) :
    KeepsInv (Machine.withCp0 s (withMask s.pageMaskField (Machine.done (s.writeTlb i)))) :=
  h.checkCp0 (keepsInv_withMask fun hm => (h.writeTlb i hm).done)

/-- An index of the joint TLB has no reserved bit of Index. -/
theorem clear_index_ofNat (i : Fin 64) : BitVec.ofNat 32 i.val &&& 0x7FFFFFC0 = 0 := by revert i; decide

theorem Inv.probeTlb (h : Inv s) : s.probeTlb.Keeps := by
  unfold State.probeTlb
  split
  · exact h.free.setIndex (clear_index _)
  · exact h.setIndex (clear_index_ofNat _)
  · trivial

theorem Inv.execTlbp (h : Inv s) : KeepsInv (execTlbp s) :=
  h.checkCp0 (keepsInv_withMask fun _ => h.probeTlb.andThen_keepsInv fun _ _ ht => ht.done)

theorem Inv.execEret (h : Inv s) : KeepsInv (execEret s) := by
  refine h.checkCp0 ?_
  split
  · exact keepsInv_fault _
  · exact keepsInv_next h.returnFromException

/-! ### The CACHE operations -/

theorem Inv.cacheOp (h : Inv s) (base : RegNum) (o : Half) {op : DWord → PAddr → State → Result Unit}
    (ho : ∀ va pa, (op va pa s).Keeps) : KeepsInv (cacheOp base o op s) := by
  refine h.checkCp0 ?_
  simp only []
  split
  · exact h.raise _
  · exact keepsInv_fault _
  · split
    · exact (ho _ _).andThen_keepsInv fun _ _ ht => ht.done
    · exact h.done

theorem Inv.forKeys {f : Nat → State → Result Unit} (hf : ∀ j t, Inv t → (f j t).Keeps) :
    ∀ (ks : List Nat) {s : State}, Inv s → (forKeys f ks s).Keeps
  | [], _, h => h
  | j :: ks, _, h => (hf j _ h).bind fun _ _ ht => Inv.forKeys hf ks ht

theorem Inv.dropILines (p : ILine → Bool) : ∀ (ks : List Nat) {s : State}, Inv s → Inv (s.dropILines p ks)
  | [], _, h => h
  | j :: ks, _, h => Inv.dropILines p ks (by
    split
    · exact h.setILine _ _
    · exact h)

theorem Inv.dInvalidate (h : Inv s) (j : Nat) : Inv (s.dInvalidate j) := h.setDLine _ _

theorem Inv.sInvalidate (h : Inv s) (j : Nat) : Inv (s.sInvalidate j) := h.setSLine _ _

theorem Inv.dFlush (h : Inv s) (wb : Bool) (j : Nat) : (dFlush wb j s).Keeps := by
  unfold Machine.dFlush
  split
  · exact (h.dWriteBack j).bind fun _ _ ht => ht.dInvalidate j
  · exact h.dInvalidate j

theorem Inv.dFlushHits (h : Inv s) (wb : Bool) (pa : PAddr) (ks : List Nat) : (dFlushHits wb pa ks s).Keeps := by
  refine Inv.forKeys (fun j t ht => ?_) ks h
  split
  · exact ht.dFlush wb j
  · exact ht

theorem Inv.sAbsorb (h : Inv s) (w : Nat) (p : PAddr) (j : Nat) : (sAbsorb w p j s).Keeps := by
  unfold Machine.sAbsorb
  simp only []
  split
  · refine Inv.dInvalidate ?_ j
    split
    · exact h.setSLine _ _
    · exact h
  · exact h

/-- Over a name for the answer: Lean would else try to run the sixteen subset keys. -/
theorem Inv.sFlush (h : Inv s) {w : Nat} {r : Result Unit} (e : sFlush w s = r) : r.Keeps := by
  subst e
  unfold Machine.sFlush
  simp only []
  generalize subsetKeys _ = ks
  refine Result.Keeps.bind ?_ fun _ _ ht => (ht.sEvict w).bind fun _ _ hu => hu.sInvalidate w
  exact Inv.forKeys (fun j _ ht => ht.sAbsorb _ _ j) ks (Inv.dropILines _ ks h)

theorem Inv.execCache3 (h : Inv s) (base : RegNum) (o : Half) : KeepsInv (execCache3 base o s) :=
  h.cacheOp base o fun _ _ => by
    split
    · exact h
    · generalize e : Machine.sFlush _ s = r
      exact h.sFlush e

theorem Inv.execCache19 (h : Inv s) (base : RegNum) (o : Half) : KeepsInv (execCache19 base o s) :=
  h.cacheOp base o fun _ pa => by
    split
    · exact h
    · generalize subsetKeys pa = ks
      exact ((Inv.dropILines _ ks h).dFlushHits _ _ ks).bind fun _ _ ht => ht.sInvalidate _

theorem Inv.execCache23 (h : Inv s) (base : RegNum) (o : Half) : KeepsInv (execCache23 base o s) :=
  h.cacheOp base o fun _ _ => by
    split
    · exact h
    · generalize e : Machine.sFlush _ s = r
      exact h.sFlush e

/-! ### The floating-point unit -/

theorem Inv.fpFinish (h : Inv s) (x : FpExc) {w : State → State} (hw : ∀ t, Inv t → Inv (w t)) :
    KeepsInv (fpFinish x w s) := by
  have ht := h.withFcsr (clear_fcsrAfter x h.fcsr)
  unfold Machine.fpFinish
  simp only []
  split
  · exact ht.raise _
  · exact (hw _ ht).done

theorem Inv.finish32 (h : Inv s) (regs : List RegNum) (fd : RegNum) (o : FpOut) : KeepsInv (finish32 regs fd o s) :=
  h.withFpu64 (h.fpFinish _ fun _ ht => ht.setF32 _ _)

theorem Inv.finish64 (h : Inv s) (regs : List RegNum) (fd : RegNum) (o : FpOut) : KeepsInv (finish64 regs fd o s) :=
  h.withFpu64 (h.fpFinish _ fun _ ht => ht.setF64 _ _)

theorem Inv.withUnit (h : Inv s) (d : Bool) (hk : KeepsInv k) : KeepsInv (withUnit d s k) := by
  refine h.withFpu ?_
  split
  · exact h.fpFinish _ fun _ ht => ht
  · exact hk

/-- A condition bit set in FCSR. -/
theorem Inv.setCc (h : Inv s) {n : Nat} (hn : n < 2) (b : Bool) : Inv (s.setFcsr (fcsrSetCc s.fcsr n b)) :=
  h.withFcsr (clear_fcsrSetCc hn b h.fcsr)

theorem Inv.finishCompare (h : Inv s) (regs : List RegNum) (c : Bool × FpExc) : KeepsInv (finishCompare regs c s) :=
  h.withFpu64 (h.fpFinish _ fun _ ht => ht.setCc (by decide) _)

theorem Inv.pairedCompare (h : Inv s) (cond : BitVec 4) (fs ft : RegNum) : KeepsInv (pairedCompare cond fs ft s) :=
  h.withFpu64 (h.fpFinish _ fun _ ht => (ht.setCc (n := 0) (by decide) _).setCc (n := 1) (by decide) _)

theorem Inv.fixedOr (h : Inv s) (ov : DWord → DWord → Bool) (op : DWord → DWord → DWord) (ft fs fd : RegNum) :
    KeepsInv (fixedOr ov op ft fs fd s) := by
  refine h.withFpu64 ?_
  split
  · exact h.raise _
  · exact (h.setF64 _ _).done

theorem Inv.fixed2 (h : Inv s) (op : DWord → DWord → DWord) (ft fs fd : RegNum) : KeepsInv (fixed2 op ft fs fd s) :=
  h.withFpu64 (h.setF64 _ _).done

theorem Inv.fixedCompare (h : Inv s) (op : DWord → DWord → Bool) (ft fs : RegNum) :
    KeepsInv (fixedCompare op ft fs s) := h.withFpu64 (h.setCc (by decide) _).done

theorem Inv.packed2 (h : Inv s) (op : DWord → DWord → DWord) (ft fs fd : RegNum) :
    KeepsInv (packed2 op ft fs fd s) := h.withFpu64 (h.setF64 _ _).done

theorem Inv.packed1 (h : Inv s) (op : DWord → DWord) (fs fd : RegNum) : KeepsInv (packed1 op fs fd s) :=
  h.withFpu64 (h.setF64 _ _).done

theorem Inv.execCtc1 (h : Inv s) (rt fs : RegNum) : KeepsInv (execCtc1 rt fs s) := by
  have ht := h.withFcsr (clear_fcsrFromGpr (s.r rt))
  refine h.withFpu ?_
  simp only []
  split
  · split
    · exact ht.raise _
    · exact ht.done
  · exact h.done

/-! ### Every instruction, and a step -/

/-- Every instruction keeps the invariant: each by the lemma about the operation it is one of. -/
theorem Inv.exec (h : Inv s) (i : Instr) : KeepsInv (exec i s) := by
  unfold Machine.exec
  cases i with
  | lb | lbu | lh | lhu | lw | lwu | ld => exact h.loadGpr _ _ _ _ _
  | lwl | lwr | ldl | ldr => exact h.loadPart _ _ _ _ _ _
  | ll | lld => exact h.loadLinked _ _ _ _ _
  | sb | sh | sw | sd => exact h.storeGpr _ _ _ _
  | swl | swr | sdl | sdr => exact h.storePart _ _ _ _ _ _
  | sc | scd => exact h.storeConditional _ _ _ _
  | lwc1 => exact h.withFpu ((h.load _ _).andThen_keepsInv fun _ _ ht => (ht.setF32 _ _).done)
  | ldc1 => exact h.withFpu64 ((h.load _ _).andThen_keepsInv fun _ _ ht => (ht.setF64 _ _).done)
  | swc1 => exact h.withFpu ((h.store _ _ _).andThen_keepsInv fun _ _ ht => ht.done)
  | sdc1 => exact h.withFpu64 ((h.store _ _ _).andThen_keepsInv fun _ _ ht => ht.done)
  | addi | daddi | add | sub | dadd | dsub => exact h.setGprOr _ _ _
  | addiu | daddiu | slti | sltiu | andi | ori | xori | lui | addu | subu | daddu | dsubu | slt | sltu | and | or
  | xor | nor | sllv | srlv | srav | dsllv | dsrlv | dsrav | sll | srl | sra | dsll | dsrl | dsra | dsll32 | dsrl32
  | dsra32 => exact h.setGpr _ _
  | movz | movn => exact h.moveIf _ _ _
  | mult | multu | dmult | dmultu => exact h.setProduct _ _
  | div | divu | ddiv | ddivu => exact h.setQuotient _ _ _
  | mfhi | mflo | multG | multuG | dmultG | dmultuG => exact (h.setR _ _).done
  | mthi => exact (h.setHi _).done
  | mtlo => exact (h.setLo _).done
  | divG | divuG | ddivG | ddivuG | modG | moduG | dmodG | dmoduG => exact h.setDivided _ _ _
  | j | jr | beq | bne | beql | bnel | blez | bgtz | blezl | bgtzl | bltz | bgez | bltzl | bgezl =>
    exact h.branch _ _ _
  | jal | jalr | bltzal | bgezal | bltzall | bgezall => exact h.branchLink _ _ _ _
  | bc1f | bc1t | bc1fl | bc1tl => exact h.branchFp _ _ _
  | syscall | brk => exact h.raise _
  | sync => exact h.done
  | tge | tgeu | tlt | tltu | teq | tne | tgei | tgeiu | tlti | tltiu | teqi | tnei => exact h.trapIf _
  | mfc0 | dmfc0 => exact h.moveFromCp0 _ _ _
  | mtc0 | dmtc0 => exact h.moveToCp0 _ _
  | tlbr => exact h.execTlbr
  | tlbwi | tlbwr => exact h.execTlbWrite _
  | tlbp => exact h.execTlbp
  | eret => exact h.execEret
  | cache => exact h.cacheOp _ _ fun _ _ => h
  | cache0 => exact h.cacheOp _ _ fun _ _ => Inv.dropILines _ _ h
  | cache1 => exact h.cacheOp _ _ fun _ _ => h.dFlush _ _
  | cache5 | cache7 | cache25 | cache27 => exact h.cacheOp _ _ fun _ _ => h.setTags _ _
  | cache9 | cache29 => exact h.cacheOp _ _ fun _ _ => h.setDLine _ _
  | cache11 | cache31 => exact h.cacheOp _ _ fun _ _ => h.setSLine _ _
  | cache17 | cache21 => exact h.cacheOp _ _ fun _ _ => h.dFlushHits _ _ _
  | cache3 => exact h.execCache3 _ _
  | cache19 => exact h.execCache19 _ _
  | cache23 => exact h.execCache23 _ _
  | addS | subS | mulS | absS | negS | roundWS | roundWD | truncWS | truncWD | ceilWS | ceilWD | floorWS | floorWD
  | cvtWS | cvtWD | cvtSD | cvtSW | cvtSL | maddS | msubS | nmaddS | nmsubS => exact h.finish32 _ _ _
  | addD | subD | mulD | absD | negD | roundLS | roundLD | truncLS | truncLD | ceilLS | ceilLD | floorLS | floorLD
  | cvtLS | cvtLD | cvtDS | cvtDW | cvtDL | maddD | msubD | nmaddD | nmsubD | addPs | subPs | mulPs | absPs | negPs
  | maddPs | msubPs | nmaddPs | nmsubPs => exact h.finish64 _ _ _
  | divS | sqrtS => exact h.withUnit _ (h.finish32 _ _ _)
  | divD | sqrtD => exact h.withUnit _ (h.finish64 _ _ _)
  | movS | mtc1 => exact h.withFpu (h.setF32 _ _).done
  | movD | movPs | dmtc1 => exact h.withFpu64 (h.setF64 _ _).done
  | mfc1 | cfc1 => exact h.withFpu (h.setR _ _).done
  | dmfc1 => exact h.withFpu64 (h.setR _ _).done
  | ctc1 => exact h.execCtc1 _ _
  | cFS | cFD | cUnS | cUnD | cEqS | cEqD | cUeqS | cUeqD | cOltS | cOltD | cUltS | cUltD | cOleS | cOleD | cUleS
  | cUleD | cSfS | cSfD | cNgleS | cNgleD | cSeqS | cSeqD | cNglS | cNglD | cLtS | cLtD | cNgeS | cNgeD | cLeS | cLeD
  | cNgtS | cNgtD => exact h.finishCompare _ _
  | cFPs | cUnPs | cEqPs | cUeqPs | cOltPs | cUltPs | cOlePs | cUlePs | cSfPs | cNglePs | cSeqPs | cNglPs | cLtPs
  | cNgePs | cLePs | cNgtPs => exact h.pairedCompare _ _ _
  | paddb | paddh | paddw | paddd | paddsb | paddsh | paddusb | paddush | psubb | psubh | psubw | psubd | psubsb
  | psubsh | psubusb | psubush | pshufh | packsswh | packsshb | packushb | pandn | punpcklhw | punpckhhw | punpcklbh
  | punpckhbh | punpcklwd | punpckhwd | pinsrh0 | pinsrh1 | pinsrh2 | pinsrh3 | pavgh | pavgb | pmaxsh | pminsh
  | pmaxub | pminub | pcmpeqw | pcmpgtw | pcmpeqh | pcmpgth | pcmpeqb | pcmpgtb | psllw | psllh | pmullh | pmulhh
  | pmuluw | pmulhuh | psrlw | psrlh | psraw | psrah | pasubub | pextrh | pmaddhw => exact h.packed2 _ _ _ _
  | biadd | pmovmskb => exact h.packed1 _ _ _
  | fxAdd | fxDadd | fxSub | fxDsub => exact h.fixedOr _ _ _ _ _
  | fxAddu | fxSubu | fxOr | fxXor | fxNor | fxAnd | fxSll | fxSrl | fxSra | fxDsll | fxDsrl | fxDsra =>
    exact h.fixed2 _ _ _ _
  | fxSequ | fxSeq | fxSltu | fxSlt | fxSleu | fxSle => exact h.fixedCompare _ _ _

/-- A word runs as its instruction, or takes the exception of a word that is none. -/
theorem Inv.stepWord (h : Inv s) (w : Word) : KeepsInv (stepWord w s) := by
  unfold Machine.stepWord decodedOut
  split
  · exact h.exec _
  · unfold rejectOut
    split
    · exact h.raise _
    · exact h.checkCp0 (h.raise _)
    · exact h.withFpu (h.fpFinish _ fun _ ht => ht)
    · exact h.withFpu (h.raise _)

theorem legal_atReset (pc : DWord) : (Cp0.atReset pc).Legal := by
  constructor <;> simp [Cp0.atReset]

/-- The machine after a cold reset meets the invariant, whatever its parameters, where its memory is in canonical
form. -/
theorem inv_coldReset (cfg : Config.Params) {mem : List Host.Cell} (hm : Memory.wf mem) (pc : DWord)
    (pins : BitVec 15) (ins : List Input) (ds : List Nat) (n : Nat) :
    Inv (State.coldReset cfg mem pc pins ins ds n) where
  memory := hm
  icache := rfl
  dcache := rfl
  scache := rfl
  zero := rfl
  fcsr := by show (0 : Word) &&& 0x007C0000 = 0; decide
  cp0 := legal_atReset pc
  mask := rfl
  itlb := Nat.zero_le _
  devices := ⟨fun i => by
    show (Vector.replicate 64 (0 : Word))[i] &&& _ = 0
    simp, fun _ => rfl, fun _ _ => rfl⟩

/-- The events taken instead of an instruction. -/
theorem Inv.event (h : Inv s) {t : State} (he : s.event = some t) : Inv t := by
  unfold State.event at he
  split_ifs at he <;> cases he
  · exact inv_coldReset _ h.memory _ _ _ _ _
  · exact Inv.enterReset ((h.withLatch 0).congr rfl)
  · exact Inv.enterReset (h.congr rfl)
  · exact Inv.takeException (h.congr rfl) _
  · exact h.takeException _

theorem Inv.step (h : Inv s) : KeepsInv (step s) := by
  have hb := h.boundary
  unfold Machine.step
  split
  · exact keepsInv_next (hb.event ‹_›)
  · exact hb.fetch.andThen_keepsInv fun w _ ht => ht.stepWord w

/-- Settles O9: the boundary, an event, the fetch and every instruction keep the invariant. -/
theorem stepKeepsTheInvariant : Obligations.StepKeepsTheInvariant := fun _ _ h => h.step _

/-- Settles O8: the state after reset is a cold reset with no memory listed. -/
theorem resetMeetsTheInvariant : Obligations.ResetMeetsTheInvariant := inv_coldReset _ Memory.wf_reset _ _ _ _ _

end Sys2Proof.Machine
end

