-- ==== Sys2Proof/Proofs/Control.lean ====
section
/-! SUPPORT. The registers that say what the machine does next: the state after a cold reset, exception entry and
FCSR. -/

namespace Sys2Proof.Machine

/-! ### Cold reset -/

/-- The fixed fields of Config (10_state R57). -/
theorem config_fixed (s : State) : s.config.extractLsb' 4 8 = 0x93 := by
  apply BitVec.eq_of_getLsbD_eq
  intro i hi
  simp only [State.config, BitVec.getLsbD_extractLsb', BitVec.getLsbD_append]
  rw [if_neg (by omega), if_pos (by omega), show 4 + i - 4 = i by omega]
  simp [hi]

/-- While ERL is set the machine is in Kernel mode (10_state R51). -/
theorem mode_of_erl {s : State} (h : s.erl = true) : s.mode = some .kernel := by simp [State.mode, h]

/-- Settles O10, field by field. -/
theorem coldResetValues : Obligations.ColdResetValues := fun _ _ _ _ _ _ _ =>
  ⟨rfl, rfl, rfl, mode_of_erl (by simp [State.erl, State.coldReset, Cp0.atReset, bit]), rfl, rfl, rfl, rfl,
    config_fixed _, rfl, rfl, rfl, rfl, rfl, rfl, rfl, BitVec.extractLsb'_zero, BitVec.extractLsb'_zero, rfl, rfl⟩

/-! ### Exception entry -/

/-- The exceptions that record no address. -/
theorem record_none {e : Exc} (c : Cp0) (ha : ∀ store va, e ≠ .addressError store va)
    (ht : ∀ va, ¬(e = .tlbModified va ∨ ∃ store, e = .tlbRefill store va ∨ e = .tlbInvalid store va)) :
    c.record e = c := by
  cases e with
  | tlbModified va => exact absurd (.inl rfl) (ht va)
  | tlbRefill st va => exact absurd (.inr ⟨st, .inl rfl⟩) (ht va)
  | tlbInvalid st va => exact absurd (.inr ⟨st, .inr rfl⟩) (ht va)
  | addressError st va => exact absurd rfl (ha st va)
  | _ => rfl

/-- The three TLB exceptions record their address alike. -/
theorem record_tlb {e : Exc} {va : DWord} (c : Cp0)
    (h : e = .tlbModified va ∨ ∃ store, e = .tlbRefill store va ∨ e = .tlbInvalid store va) :
    c.record e = c.recordTlb va := by
  rcases h with rfl | ⟨_, rfl | rfl⟩ <;> rfl

/-- A field inside the mask of a write takes the written value. -/
theorem maskedWrite_field {w n i : Nat} {m x v : BitVec w} (h : ∀ j < n, m.getLsbD (i + j) = true) :
    (maskedWrite m x v).extractLsb' i n = v.extractLsb' i n := by
  apply BitVec.eq_of_getLsbD_eq
  intro j hj
  simp [maskedWrite, hj, -BitVec.getLsbD_eq_getElem, h j hj]

/-- A field outside the mask of a write stays. -/
theorem maskedWrite_rest {w n i : Nat} {m x v : BitVec w} (h : ∀ j < n, m.getLsbD (i + j) = false) :
    (maskedWrite m x v).extractLsb' i n = x.extractLsb' i n := by
  apply BitVec.eq_of_getLsbD_eq
  intro j hj
  have hx : x.getLsbD (i + j) = true → i + j < w := fun e => BitVec.lt_of_getLsbD e
  simp only [maskedWrite, BitVec.getLsbD_extractLsb', BitVec.getLsbD_or, BitVec.getLsbD_and, BitVec.getLsbD_not,
    h j hj, hj, decide_true, Bool.true_and, Bool.not_false, Bool.and_false, Bool.or_false, Bool.and_true]
  cases hb : x.getLsbD (i + j)
  · rfl
  · simp [hx hb]

/-- Context after a TLB exception: the page in BadVPN2, PTEBase kept (60_exceptions R827). -/
theorem recordTlb_context (c : Cp0) (va : DWord) :
    (c.recordTlb va).context.extractLsb' 4 19 = va.extractLsb' 13 19 ∧
      (c.recordTlb va).context.extractLsb' 23 41 = c.context.extractLsb' 23 41 := by
  refine ⟨(maskedWrite_field (by decide)).trans ?_, maskedWrite_rest (by decide)⟩
  apply BitVec.eq_of_getLsbD_eq
  intro j hj
  simp [hj, show 4 + j < 64 by omega]

/-- XContext after a TLB exception: the page and its region, PTEBase kept. -/
theorem recordTlb_xContext (c : Cp0) (va : DWord) :
    (c.recordTlb va).xContext.extractLsb' 4 27 = va.extractLsb' 13 27 ∧
      (c.recordTlb va).xContext.extractLsb' 31 2 = va.extractLsb' 62 2 ∧
      (c.recordTlb va).xContext.extractLsb' 33 31 = c.xContext.extractLsb' 33 31 := by
  refine ⟨(maskedWrite_field (by decide)).trans ?_, (maskedWrite_field (by decide)).trans ?_,
    maskedWrite_rest (by decide)⟩
  · apply BitVec.eq_of_getLsbD_eq
    intro j hj
    simp only [BitVec.getLsbD_extractLsb', BitVec.getLsbD_setWidth, BitVec.getLsbD_append]
    simp [hj, show 4 + j < 64 by omega]
  · apply BitVec.eq_of_getLsbD_eq
    intro j hj
    simp only [BitVec.getLsbD_extractLsb', BitVec.getLsbD_setWidth, BitVec.getLsbD_append]
    rw [if_neg (show ¬31 + j < 4 by omega), if_neg (show ¬31 + j - 4 < 27 by omega),
      show 31 + j - 4 - 27 = j by omega]
    simp [hj, show 31 + j < 64 by omega]

/-- EntryHi after a TLB exception: the page and its region, ASID kept. -/
theorem recordTlb_entryHi (c : Cp0) (va : DWord) :
    (c.recordTlb va).entryHi.extractLsb' 62 2 = va.extractLsb' 62 2 ∧
      (c.recordTlb va).entryHi.extractLsb' 13 27 = va.extractLsb' 13 27 ∧
      (c.recordTlb va).entryHi.extractLsb' 0 8 = c.entryHi.extractLsb' 0 8 :=
  ⟨maskedWrite_field (by decide), maskedWrite_field (by decide), maskedWrite_rest (by decide)⟩

/-- Settles O21: the entry itself by `entered_takeException` and `entered_refill`, and what each kind of exception
records. -/
theorem exceptionEntry : Obligations.ExceptionEntry := by
  intro s e
  refine ⟨fun h => ?_, ?_, ?_, fun ha ht => ?_, fun va ht => ?_⟩
  · have hr : e.isRefill = false ∨ s.exl = true := h.imp_left fun h => by
      cases e with
      | tlbRefill st va => exact absurd rfl (h st va)
      | _ => rfl
    have entered := entered_takeException e s hr
    cases e with
    | tlbRefill st va | tlbInvalid st va | addressError st va | busError st => cases st <;> exact entered
    | _ => exact entered
  · rintro store va hx rfl
    exact entered_refill store va s hx
  · rintro store va rfl
    exact ⟨rfl, rfl, rfl, rfl⟩
  · simp [takeException, record_none s.cp0 ha ht]
  · have hc := recordTlb_context s.cp0 va
    have hx := recordTlb_xContext s.cp0 va
    have he := recordTlb_entryHi s.cp0 va
    rw [← record_tlb s.cp0 ht] at hc hx he
    obtain ⟨badVpn2, pteBase⟩ := hc
    exact ⟨congrArg Cp0.badVAddr (record_tlb s.cp0 ht), badVpn2, pteBase, hx.imp_right fun ⟨region, pteBase⟩ =>
      ⟨region, pteBase, he⟩⟩

/-! ### FCSR -/

/-- The bits of FCSR with a new Cause field. -/
theorem fcsrWithCause_bit (f : Word) (c : BitVec 6) {k : Nat} (hk : k < 32) :
    (fcsrWithCause f c).getLsbD k = if 12 ≤ k ∧ k ≤ 17 then c.getLsbD (k - 12) else f.getLsbD k := by
  have mask : (0x0003F000 : Word).getLsbD k = decide (12 ≤ k ∧ k ≤ 17) := by revert k; decide
  simp only [fcsrWithCause, maskedWrite, BitVec.getLsbD_or, BitVec.getLsbD_and, BitVec.getLsbD_not, mask,
    BitVec.getLsbD_shiftLeft, BitVec.getLsbD_setWidth]
  split
  · next h => simp [h, hk, show ¬k < 12 by omega, show k - 12 < 32 by omega]
  · next h => simp [h, hk]

/-- The bits of FCSR with Flag bits added. -/
theorem fcsrAddFlags_bit (f : Word) (x : BitVec 5) {k : Nat} (hk : k < 32) :
    (fcsrAddFlags f x).getLsbD k = (f.getLsbD k || (decide (2 ≤ k) && x.getLsbD (k - 2))) := by
  by_cases h : k < 2
  · simp [fcsrAddFlags, hk, h, show ¬2 ≤ k by omega]
  · simp [fcsrAddFlags, hk, h, show 2 ≤ k by omega]

/-- A value is not zero where one of its bits is set. -/
theorem ne_zero_iff_bit {w : Nat} (v : BitVec w) : v ≠ 0 ↔ ∃ j < w, v.getLsbD j = true := by
  rw [← not_iff_not]
  simp only [ne_eq, not_not, not_exists, not_and, Bool.not_eq_true]
  exact ⟨fun h j _ => by simp [h], fun h => BitVec.eq_of_getLsbD_eq fun j hj => by simpa using h j hj⟩

/-- The trap condition looks at bits 17 to 7 alone. -/
theorem fcsrTraps_iff (g : Word) :
    fcsrTraps g = true ↔ g.getLsbD 17 = true ∨ ∃ j < 5, g.getLsbD (12 + j) = true ∧ g.getLsbD (7 + j) = true := by
  simp only [fcsrTraps, Bool.or_eq_true, decide_eq_true_eq, ne_zero_iff_bit]
  refine or_congr Iff.rfl (exists_congr fun j => and_congr_right fun hj => ?_)
  simp [fcsrCause, fcsrEnables, hj, show j < 6 by omega]

/-- Adding Flag bits does not change the trap condition. -/
theorem fcsrTraps_addFlags (f : Word) (x : BitVec 5) : fcsrTraps (fcsrAddFlags f x) = fcsrTraps f := by
  have keep (k : Nat) (h7 : 7 ≤ k) (hk : k < 32) : (fcsrAddFlags f x).getLsbD k = f.getLsbD k := by
    rw [fcsrAddFlags_bit f x hk, BitVec.getLsbD_of_ge x _ (by omega), Bool.and_false, Bool.or_false]
  rw [Bool.eq_iff_iff, fcsrTraps_iff, fcsrTraps_iff, keep 17 (by omega) (by omega)]
  refine or_congr Iff.rfl (exists_congr fun j => and_congr_right fun hj => ?_)
  rw [keep _ (by omega) (by omega), keep _ (by omega) (by omega)]

/-- The IEEE exceptions with their places in the Enable and Flag fields, and in Cause below E. -/
def FpExc.bits (x : FpExc) : List (Bool × Nat) :=
  [(x.invalid, 4), (x.divByZero, 3), (x.overflow, 2), (x.underflow, 1), (x.inexact, 0)]

theorem ieee_bit {x : FpExc} {b : Bool × Nat} (hb : b ∈ x.bits) : b.2 < 5 ∧ x.ieee.getLsbD b.2 = b.1 := by
  simp only [FpExc.bits, List.mem_cons, List.not_mem_nil, or_false] at hb
  have h : x.ieee.getLsbD 4 = x.invalid ∧ x.ieee.getLsbD 3 = x.divByZero ∧ x.ieee.getLsbD 2 = x.overflow ∧
      x.ieee.getLsbD 1 = x.underflow ∧ x.ieee.getLsbD 0 = x.inexact := by
    have one (b : Bool) : (ofBool b).getLsbD 0 = b := by cases b <;> rfl
    simp only [FpExc.ieee, BitVec.getLsbD_append]
    simp [-BitVec.getLsbD_eq_getElem, one]
  rcases hb with rfl | rfl | rfl | rfl | rfl <;> simp [h, -BitVec.getLsbD_eq_getElem]

/-- Every bit of the IEEE field is one of these. -/
theorem ieee_mem (x : FpExc) {j : Nat} (hj : j < 5) : (x.ieee.getLsbD j, j) ∈ x.bits := by
  have h : ∃ b ∈ x.bits, b.2 = j := by interval_cases j <;> simp [FpExc.bits]
  obtain ⟨b, hb, rfl⟩ := h
  rwa [(ieee_bit hb).2]

/-- The Cause field: E alone, or the IEEE bits. -/
theorem cause_bit (x : FpExc) :
    x.cause.getLsbD 5 = x.unimplemented ∧ ∀ j < 5, x.cause.getLsbD j = (x.ieee.getLsbD j && !x.unimplemented) := by
  unfold FpExc.cause
  cases x.unimplemented
  · have low (j : Nat) : ((0 : BitVec 1) ++ x.ieee).getLsbD j = (decide (j < 5) && x.ieee.getLsbD j) := by
      rw [BitVec.getLsbD_append]
      by_cases h : j < 5 <;> simp [h]
    exact ⟨low 5, fun j hj => (low j).trans (by simp [hj])⟩
  · simp only [if_true, Bool.not_true, Bool.and_false]
    decide

/-- The bits of FCSR after an operation outside the Flag field, whether or not it traps. -/
theorem fcsrAfter_bit (c : Word) (x : FpExc) {k : Nat} (hk : k < 32) (hf : ¬(2 ≤ k ∧ k ≤ 6)) :
    (fcsrAfter c x).getLsbD k = (fcsrWithCause c x.cause).getLsbD k := by
  unfold fcsrAfter
  simp only []
  split
  · rfl
  · rw [fcsrAddFlags_bit _ _ hk]
    by_cases h : 2 ≤ k
    · rw [BitVec.getLsbD_of_ge x.ieee _ (by omega), Bool.and_false, Bool.or_false]
    · simp [h]

/-- Whether the operation traps: E, or one of its exceptions with its Enable bit. -/
theorem fcsrTraps_after (c : Word) (x : FpExc) : fcsrTraps (fcsrAfter c x) = true ↔
    x.unimplemented = true ∨ ∃ b ∈ x.bits, b.1 = true ∧ c.getLsbD (7 + b.2) = true := by
  have same : fcsrTraps (fcsrAfter c x) = fcsrTraps (fcsrWithCause c x.cause) := by
    unfold fcsrAfter
    simp only []
    split
    · rfl
    · exact fcsrTraps_addFlags _ _
  obtain ⟨hE, hI⟩ := cause_bit x
  rw [same, fcsrTraps_iff, fcsrWithCause_bit c _ (by omega), if_pos (by omega), hE]
  have place {j : Nat} (hj : j < 5) : (fcsrWithCause c x.cause).getLsbD (12 + j) = (x.ieee.getLsbD j && !x.unimplemented)
      ∧ (fcsrWithCause c x.cause).getLsbD (7 + j) = c.getLsbD (7 + j) := by
    rw [fcsrWithCause_bit c _ (by omega), if_pos (by omega), fcsrWithCause_bit c _ (by omega), if_neg (by omega),
      show 12 + j - 12 = j by omega, hI j hj]
    exact ⟨rfl, rfl⟩
  constructor
  · rintro (h | ⟨j, hj, h1, h2⟩)
    · exact .inl h
    · rw [(place hj).1, Bool.and_eq_true] at h1
      rw [(place hj).2] at h2
      exact .inr ⟨_, ieee_mem x hj, h1.1, h2⟩
  · rintro (h | ⟨b, hb, h1, h2⟩)
    · exact .inl h
    · obtain ⟨hj, hv⟩ := ieee_bit hb
      cases hu : x.unimplemented
      · exact .inr ⟨b.2, hj, by rw [(place hj).1, hv, h1, hu]; rfl, by rw [(place hj).2, h2]⟩
      · exact .inl rfl

/-- The Flag bits after an operation: kept by a trap, else added to. -/
theorem fcsrAfter_flag (c : Word) (x : FpExc) {b : Bool × Nat} (hb : b ∈ x.bits) :
    (fcsrAfter c x).getLsbD (2 + b.2) =
      if fcsrTraps (fcsrAfter c x) then c.getLsbD (2 + b.2) else (c.getLsbD (2 + b.2) || b.1) := by
  obtain ⟨hj, hv⟩ := ieee_bit hb
  have keep : (fcsrWithCause c x.cause).getLsbD (2 + b.2) = c.getLsbD (2 + b.2) := by
    rw [fcsrWithCause_bit c _ (by omega), if_neg (by omega)]
  unfold fcsrAfter
  simp only []
  by_cases h : fcsrTraps (fcsrWithCause c x.cause) = true
  · simp only [h, if_true, keep]
  · simp only [h, if_false, fcsrTraps_addFlags, Bool.false_eq_true]
    rw [fcsrAddFlags_bit _ _ (by omega), keep, show 2 + b.2 - 2 = b.2 by omega, hv]
    simp

/-- Settles O52 from the bits of FCSR after an operation. -/
theorem fcsrUpdate : Obligations.FcsrUpdate := by
  intro c x y
  obtain ⟨hE, hI⟩ := cause_bit x
  have traps := fcsrTraps_after c x
  refine ⟨?_, fun b hb => ?_, traps, fun b hb => ⟨fun ht => ?_, fun ht => ?_⟩, fun k hk hc hf => ?_, rfl⟩
  · rw [fcsrAfter_bit c x (by omega) (by omega), fcsrWithCause_bit c _ (by omega), if_pos (by omega), hE]
  · obtain ⟨hj, hv⟩ := ieee_bit hb
    rw [fcsrAfter_bit c x (by omega) (by omega), fcsrWithCause_bit c _ (by omega), if_pos (by omega),
      show 12 + b.2 - 12 = b.2 by omega, hI _ hj, hv]
  · exact (fcsrAfter_flag c x hb).trans (if_pos (traps.2 ht))
  · exact (fcsrAfter_flag c x hb).trans (if_neg fun e => ht (traps.1 e))
  · rw [fcsrAfter_bit c x hk hf, fcsrWithCause_bit c _ hk, if_neg hc]

end Sys2Proof.Machine
end

