-- ==== Sys2Proof/Proofs/Boundary.lean ====
section
/-! SUPPORT. What a boundary brings: Count, the timer, Random and the performance counters, and the interrupt
requests. -/

namespace Sys2Proof.Machine

/-! ### Time -/

/-- One of the next `n` values of Count is Compare. -/
theorem reachesCompare_iff (count compare : Word) (n : Nat) :
    reachesCompare count compare n = true ↔ ∃ k, 1 ≤ k ∧ k ≤ n ∧ count + BitVec.ofNat 32 k = compare := by
  have meets (k : Nat) : count + BitVec.ofNat 32 k = compare ↔ k % 2 ^ 32 = (compare - count).toNat := by
    rw [← BitVec.toNat_inj, BitVec.toNat_add, BitVec.toNat_ofNat, BitVec.toNat_sub]
    have := count.isLt
    have := compare.isLt
    omega
  have hd := (compare - count).isLt
  simp only [meets, reachesCompare]
  generalize (compare - count).toNat = d at hd
  split
  · next h =>
    subst h
    rw [decide_eq_true_eq]
    exact ⟨fun hn => ⟨2 ^ 32, by omega, hn, by omega⟩, fun ⟨k, h1, h2, h3⟩ => by omega⟩
  · next h =>
    rw [decide_eq_true_eq]
    exact ⟨fun hn => ⟨d, by omega, hn, by omega⟩, fun ⟨k, h1, h2, h3⟩ => by omega⟩

/-- The enables of the performance counters cover the mode (10_state R62). -/
theorem perfCounts_iff (s : State) : s.perfCounts = true ↔
    s.cp0.status.getLsbD 2 = false ∧ (if s.cp0.status.getLsbD 1 then s.cp0.perfControl.getLsbD 0 = true else
      (s.cp0.status.extractLsb' 3 2 = 0 ∧ s.cp0.perfControl.getLsbD 1 = true) ∨
        (s.cp0.status.extractLsb' 3 2 = 1 ∧ s.cp0.perfControl.getLsbD 2 = true) ∨
        (s.cp0.status.extractLsb' 3 2 = 2 ∧ s.cp0.perfControl.getLsbD 3 = true)) := by
  unfold State.perfCounts
  simp only [Bool.and_eq_true, Bool.not_eq_true']
  refine and_congr Iff.rfl ?_
  show _ ↔ if s.exl = true then _ else _
  by_cases h : s.exl = true
  · rw [if_pos h, if_pos h, bit]
  · rw [if_neg h, if_neg h]
    unfold State.ksu bit
    generalize s.cp0.status.extractLsb' 3 2 = ksu
    split <;> simp_all

/-- The counters while they count: counter 0 in the low half, counter 1 in the high one. -/
theorem tickPerf_counts {s : State} (i : Input) (h : s.perfCounts = true) :
    (s.tickPerf i).cp0.perfCounter.extractLsb' 0 32 = s.cp0.perfCounter.extractLsb' 0 32 +
        BitVec.ofNat 32 (if s.cp0.perfControl.extractLsb' 5 4 = 0 then i.pclk else i.events0) ∧
      (s.tickPerf i).cp0.perfCounter.extractLsb' 32 32 = s.cp0.perfCounter.extractLsb' 32 32 +
        BitVec.ofNat 32 (if s.cp0.perfControl.extractLsb' 9 4 = 0 then 1 else i.events1) := by
  simp only [State.tickPerf, h, if_true]
  exact ⟨low_append _ _, upper_append _ _⟩

theorem tickPerf_stays {s : State} (i : Input) (h : ¬s.perfCounts = true) : s.tickPerf i = s := by
  rw [State.tickPerf, if_neg h]

/-- Random at a boundary. -/
theorem tickRandom_random (s : State) (c : Option (BitVec 6)) :
    (s.randomHold = true → (s.tickRandom c).cp0.random = s.cp0.random) ∧
      (s.randomHold = false → (s.tickRandom c).cp0.random =
        let down : BitVec 6 := if s.cp0.random ≤ s.cp0.wired then 63 else s.cp0.random - 1
        match c with | some x => if s.cp0.wired ≤ x then x else down | none => down) := by
  unfold State.tickRandom
  refine ⟨fun h => by rw [if_pos h], fun h => ?_⟩
  have stay : ¬s.randomHold = true := by simp [h]
  cases c <;> exact congrArg (fun t : State => t.cp0.random) (if_neg stay)

/-- What the stores of the PCI masters and the latching of the inputs leave alone. -/
theorem latched_frame (s : State) :
    let u := (s.nextInput.pciWrites.foldl State.pciStore { s with inputs := s.inputs.tail }).latchInput s.nextInput
    u.cp0 = s.cp0 ∧ u.timerPending = s.timerPending ∧ u.countPhase = s.countPhase ∧ u.randomHold = s.randomHold := by
  have h := pciStores_frame { s with inputs := s.inputs.tail } s.nextInput.pciWrites
  simp only [latchInput_cp0, latchInput_timerPending, latchInput_countPhase, latchInput_randomHold]
  rw [h]
  exact ⟨rfl, rfl, rfl, rfl⟩

/-- Settles O27: each clock of the boundary by its own lemma, on the state the inputs leave. -/
theorem countersAndRandom : Obligations.CountersAndRandom := by
  intro s
  obtain ⟨hc, ht, hp, hh⟩ := latched_frame s
  unfold State.boundary
  simp only [] at *
  generalize (s.nextInput.pciWrites.foldl State.pciStore { s with inputs := s.inputs.tail }).latchInput s.nextInput = u
    at *
  generalize s.nextInput = i
  rw [← hc, ← ht, ← hp, ← hh]
  have random := tickRandom_random (u.tickCount i.pclk) i.random
  have hw : ((u.tickCount i.pclk).tickRandom i.random).cp0 =
      { u.cp0 with
        count := (u.tickCount i.pclk).cp0.count
        random := ((u.tickCount i.pclk).tickRandom i.random).cp0.random } := by rw [tickRandom_frame]; rfl
  have timer : ((u.tickCount i.pclk).tickRandom i.random).timerPending = (u.tickCount i.pclk).timerPending := by simp
  have phase : ((u.tickCount i.pclk).tickRandom i.random).countPhase = (u.tickCount i.pclk).countPhase := by simp
  generalize (u.tickCount i.pclk).tickRandom i.random = w at *
  have frame := tickPerf_frame w i
  have enabled := perfCounts_iff w
  have counted := tickPerf_counts (s := w) i
  rw [hw] at enabled counted
  refine ⟨?_, ?_, ?_, ?_, ?_, fun h => counted (enabled.2 h), fun h => ?_⟩
  · rw [frame, hw]; rfl
  · rw [frame, timer, ← reachesCompare_iff, ← Bool.or_eq_true]; rfl
  · rw [frame, phase]
    show (u.countPhase ^^ decide (i.pclk % 2 = 1)) = true ↔ _
    cases u.countPhase
    · simp
    · simp; omega
  · rw [frame]; exact random.1
  · rw [frame]; exact random.2
  · rw [tickPerf_stays i (fun e => h (enabled.1 e)), hw]

/-! ### Interrupt requests -/

/-- A source is asserted: its pin is at the level intpol names. -/
theorem intLevel_bit (io : IoRegs) (pins : BitVec 15) {j : Nat} (hj : j < 15) :
    (intLevel io.intpol pins).getLsbD j = (pins.getLsbD j == (io.regs[11]).getLsbD j) := by
  simp only [intLevel, IoRegs.intpol, BitVec.getLsbD_not, BitVec.getLsbD_xor, BitVec.getLsbD_extractLsb', hj,
    decide_true, Bool.true_and, Nat.zero_add]
  cases pins.getLsbD j <;> cases (io.regs[11]).getLsbD j <;> rfl

/-- A source is pending: by its level, or in pulse mode by its latch. -/
theorem intPending_bit (s : State) {j : Nat} (hj : j < 15) : s.intPending.getLsbD j =
    if (s.io.regs[9]).getLsbD j then s.io.intLatch.getLsbD j
      else s.pins.getLsbD j == (s.io.regs[11]).getLsbD j := by
  have edge : s.io.intedge.getLsbD j = (s.io.regs[9]).getLsbD j := by simp [IoRegs.intedge, hj]
  simp only [State.intPending, BitVec.getLsbD_or, BitVec.getLsbD_and, BitVec.getLsbD_not, intLevel_bit _ _ hj, hj,
    edge, decide_true, Bool.true_and]
  cases (s.io.regs[9]).getLsbD j <;> simp

/-- intisr: the pending sources that are enabled. -/
theorem intisr_bit (s : State) {j : Nat} (hj : j < 15) :
    s.intisr.getLsbD j = (s.intPending.getLsbD j && (s.io.regs[14]).getLsbD j) := by
  simp [State.intisr, IoRegs.inten, hj]

/-- The bits of Cause.IP (60_exceptions R846). -/
theorem ip_bit (s : State) :
    (∀ k < 2, s.ip.getLsbD k = s.cp0.cause.getLsbD (8 + k)) ∧
      (∀ k < 4, s.ip.getLsbD (2 + k) = s.intPending.getLsbD (11 + k)) ∧
      (s.ip.getLsbD 6 = true ↔ ∃ j < 11, s.intisr.getLsbD j = true) ∧
      s.ip.getLsbD 7 = (s.timerPending || s.perfPending) := by
  have one (b : Bool) : (ofBool b).getLsbD 0 = b := by cases b <;> rfl
  have some_bit : s.intisr.extractLsb' 0 11 ≠ 0 ↔ ∃ j < 11, s.intisr.getLsbD j = true := by
    rw [ne_zero_iff_bit]
    exact exists_congr fun j => and_congr_right fun hj => by simp [hj]
  refine ⟨fun k hk => ?_, fun k hk => ?_, ?_, ?_⟩ <;>
    simp only [State.ip, State.extIrq, BitVec.getLsbD_append, BitVec.getLsbD_extractLsb']
  · rw [if_pos hk]
    simp [hk]
  · rw [if_neg (by omega), if_pos (by omega), if_pos (by omega), show 2 + k - 2 = k by omega]
    simp [hk]
  · rw [if_neg (by omega), if_pos (by omega), if_neg (by omega), one, decide_eq_true_eq, some_bit]
  · rw [if_neg (by omega), if_neg (by omega), one]

/-- The latches after a boundary: the pulse sources that become active are recorded. -/
theorem boundary_intLatch (s : State) {j : Nat} (hj : j < 15) :
    let u := s.nextInput.pciWrites.foldl State.pciStore { s with inputs := s.inputs.tail }
    s.boundary.io.intLatch.getLsbD j = (u.io.intLatch.getLsbD j || ((u.io.regs[9]).getLsbD j &&
      (intLevel u.io.intpol (s.nextInput.pins.getD s.pins)).getLsbD j && !(intLevel u.io.intpol s.pins).getLsbD j)) := by
  have hp : (s.nextInput.pciWrites.foldl State.pciStore { s with inputs := s.inputs.tail }).pins = s.pins := by
    rw [pciStores_frame]
  simp only [State.boundary, tickPerf_io, tickRandom_io, tickCount_io, State.latchInput]
  generalize s.nextInput.pciWrites.foldl State.pciStore { s with inputs := s.inputs.tail } = u at *
  rw [← hp]
  cases s.nextInput.pins with
  | none => simp
  | some p => simp [State.setPins, latchEdges, IoRegs.intedge, hj, Bool.and_comm, Bool.and_left_comm, Bool.and_assoc]

/-- Settles O28 from the bits of Cause.IP, of intisr and of the latches. -/
theorem interruptRequests : Obligations.InterruptRequests := by
  intro s
  obtain ⟨h01, h25, h6, h7⟩ := ip_bit s
  refine ⟨fun k hk => ?_, ?_, ?_, ⟨h01 0 (by omega), h01 1 (by omega)⟩, fun j hj => ?_, fun j hj => ?_⟩
  · rw [h25 k hk, intPending_bit s (by omega)]
  · rw [h6]
    refine exists_congr fun j => and_congr_right fun hj => ?_
    rw [intisr_bit s (by omega), Bool.and_eq_true, intPending_bit s (by omega)]
  · simp only [h7, State.perfPending, bit, Bool.or_eq_true, Bool.and_eq_true]
  · simp only [State.regRead, if_true, BitVec.getLsbD_setWidth, hj, decide_true, Bool.true_and]
    by_cases h : j < 15
    · rw [intisr_bit s h, intPending_bit s h]
      simp [h]
    · rw [BitVec.getLsbD_of_ge _ _ (by omega)]
      simp [h]
  · rw [boundary_intLatch s hj, intLevel_bit _ _ hj, intLevel_bit _ _ hj]

end Sys2Proof.Machine
end

