-- ==== Sys2Proof/Proofs/Accesses.lean ====
section
/-! SUPPORT. Loads from plain memory, the store-conditionals, and the accesses that miss the data cache. -/

namespace Sys2Proof.Machine
variable {s : State} {base rt : RegNum} {o : Half} {pa : PAddr} {a n : Nat} {i : Instr} {f : DWord → DWord} {v : DWord}

/-! ### Loads from plain memory -/

/-- A load of one width from plain memory. -/
theorem gprResult_loadPlain (hi : exec i s = loadGpr n f base rt o s) (hr : rt ≠ 0)
    (h : PlainAccess s .load (s.r base + o.signExtend 64) pa pa a) (ha : (s.r base + o.signExtend 64).toNat % n = 0)
    (hv : f (readLe s.mem a n) = v) :
    GprResult (exec i s) (s.afterWatch .load (s.r base + o.signExtend 64)) rt v := by
  have e : s.load (s.ea base o) n = _ := load_plain n ha h
  rw [hi, loadGpr, if_neg hr, e, andThen_val, hv]
  exact gprResult_done _ rt v

/-- A load-linked from plain memory. -/
theorem loadLinked_plain (hr : rt ≠ 0) (h : PlainAccess s .load (s.r base + o.signExtend 64) pa pa a)
    (ha : (s.r base + o.signExtend 64).toNat % n = 0) : loadLinked n f base rt o s =
      done (((s.afterWatch .load (s.r base + o.signExtend 64)).setR rt (f (readLe s.mem a n))).setLlbit true) := by
  have e : s.load (s.ea base o) n = _ := load_plain n ha h
  rw [loadLinked, if_neg hr, e, andThen_val]
  rfl

/-- Finishing with a general register and the link bit written. -/
theorem done_setR_setLlbit (u : State) (rt : RegNum) (v : DWord) (b : Bool) :
    ∃ t, done ((u.setR rt v).setLlbit b) = .next t ∧ GprIs u t rt v ∧ t.llbit = b ∧ t.pc = u.nextPc ∧ t.delay = none ∧
      t.mem = u.mem ∧ t = { u with gpr := t.gpr, llbit := t.llbit, pc := t.pc, delay := t.delay } := by
  refine ⟨_, rfl, fun i => r_setR u rt i v, rfl, ?_, rfl, setR_mem u rt v, ?_⟩
  · rw [advance_pc]
    exact nextPc_congr (setR_pc u rt v) (setR_delay u rt v)
  · unfold State.setR
    split <;> rfl

/-- Settles O38: each load by the shape it has, and the bytes it reads by those of memory. -/
theorem loads : Obligations.Loads := by
  intro s base rt o pa a hr va u h
  have one : va.toNat % 1 = 0 := Nat.mod_one _
  refine ⟨gprResult_loadPlain (n := 1) rfl hr h one ?_, gprResult_loadPlain (n := 1) rfl hr h one ?_,
    fun ha => ⟨gprResult_loadPlain rfl hr h ha ?_, gprResult_loadPlain rfl hr h ha ?_⟩,
    fun ha => ⟨gprResult_loadPlain rfl hr h ha ?_, gprResult_loadPlain rfl hr h ha ?_, ?_⟩,
    fun ha => ⟨gprResult_loadPlain rfl hr h ha (readLe_double _ _), ?_⟩⟩
  · exact congrArg sext64 (readLe_byte s.mem a)
  · exact congrArg zext64 (readLe_byte s.mem a)
  · exact congrArg sext64 (readLe_half s.mem a)
  · exact congrArg zext64 (readLe_half s.mem a)
  · exact congrArg sext64 (low32_readLe s.mem a)
  · exact congrArg zext64 (low32_readLe s.mem a)
  · obtain ⟨t, e, hg, hl, hp, hd, hm, hf⟩ := done_setR_setLlbit u rt ((wordAt s.mem a).signExtend 64) true
    refine ⟨t, ?_, hg, hl, hp, hd, fun b => congrArg (memByte · b) hm, hf⟩
    rw [← e, ← low32_readLe]
    exact loadLinked_plain hr h ha
  · obtain ⟨t, e, hg, hl, hp, hd, hm, hf⟩ := done_setR_setLlbit u rt (doubleAt s.mem a) true
    refine ⟨t, ?_, hg, hl, hp, hd, fun b => congrArg (memByte · b) hm, hf⟩
    rw [← e, ← readLe_double]
    exact loadLinked_plain hr h ha

/-! ### Store-conditionals -/

/-- A store-conditional to plain memory: the store is made exactly where the link bit is set. -/
theorem storeConditional_plain (h : PlainAccess s .store (s.r base + o.signExtend 64) pa pa a)
    (ha : (s.r base + o.signExtend 64).toNat % n = 0) :
    let u := s.afterWatch .store (s.r base + o.signExtend 64)
    storeConditional n base rt o s =
      done ((({ u with mem := if s.llbit then writeLe s.mem a (s.r rt) n else s.mem } : State).setR rt
        (if s.llbit then 1 else 0)).setLlbit false) := by
  intro u
  obtain ⟨attr, hattr, ht⟩ := h.uncached
  have hs : SameCore s s := rfl
  have hm : s.target pa = .dram a := h.memory.resolve_right fun e => by cases e.1
  rw [storeConditional_shape n rfl ha hs, access_ok _ ht h.unwatched]
  cases hl : s.llbit
  · simp only [Bool.false_eq_true, if_false, bind_val, andThen_val, postponeWatch_eq]
    rfl
  · simp only [if_true, State.writeAttr, if_neg hattr, State.busWrite, hm, State.targetWrite, bind_val, andThen_val]
    exact congrArg (fun u : State => done ((u.setR rt 1).setLlbit false))
      (postponeWatch_eq { s with mem := writeLe s.mem a (s.r rt) n } .store _)

/-! ### Accesses that miss the data cache -/

/-- An access whose line is not brought in because its block read gets an error. -/
theorem exec_miss_error {k : Access} {va : DWord} {back : Nat} (h : AccessForm s k base rt o i n back)
    (hv : s.r base + o.signExtend 64 = va) (ha : va.toNat % n = 0) (hl : Stores s base rt o i)
    (htr : s.translate k va = .ok pa 3) (hw : s.watchMatch k va = true → s.exl = true ∨ s.erl = true) {e : Exc}
    (he : s.dEnsure k va pa = .exc e s) : exec i s = .next (takeException e s) := by
  obtain ⟨α, va0, op, cont, h1, h2, h3, h4⟩ := h.exec hv ha
  obtain ⟨f, h5⟩ := h4 hl pa (translate_mod htr)
  rw [h3 s rfl, access_ok _ htr hw, h5 s rfl, dEnsure_sameDouble (translate_mod htr) h2 h1, he]
  rfl

/-- Settles O47: a miss that can be served by `exec_miss`, one that gets an error by `exec_miss_error`. -/
theorem cacheMisses : Obligations.CacheMisses := by
  intro s k base rt o pa hk hd hs hm va line htr hmiss
  refine ⟨fun hr => ?_, fun hb he i n back hi ha hl hw => ?_⟩
  · obtain ⟨v, t, e⟩ := dEnsure_ready hmiss hs hm hr
    have filled := dEnsure_spec hmiss hd hs hm e
    refine ⟨t, v, filled, filled.hit hmiss, fun i n back hi ha hl => ?_⟩
    exact exec_miss hi rfl ha hl htr e filled.2.2 (filled.hit hmiss)
  · refine exec_miss_error hi rfl ha hl htr hw ((dEnsure_error hmiss hb he).trans ?_)
    cases k with
    | fetch => exact absurd rfl hk
    | load | store => rfl

end Sys2Proof.Machine

namespace Sys2Proof.Proofs
open Sys2Proof.Machine

/-- Settles O42: SC and SCD are `Machine.storeConditional` at their widths. -/
theorem storeConditional : Obligations.StoreConditional := by
  intro s base rt o pa a hm va u h conditional
  have all (n : Nat) (ha : va.toNat % n = 0) : conditional (Machine.storeConditional n base rt o s) n := by
    obtain ⟨t, e, hg, hl, hp, hd, hmem, hf⟩ := done_setR_setLlbit
      { u with mem := if s.llbit then writeLe s.mem a (s.r rt) n else s.mem } rt (if s.llbit then 1 else 0) false
    refine ⟨t, (storeConditional_plain h ha).trans e, hg, hl, fun i hs hi => ?_, fun b hb => ?_, hp, hd, ?_⟩
    · rw [hmem, if_pos hs]
      exact memByte_writeLe_same a _ n hi hm
    · rw [hmem]
      split
      · next hs => exact memByte_writeLe_other _ _ _ _ (hb.resolve_left (by simp [hs]))
      · rfl
    · rw [hf]
  exact ⟨all 4, all 8⟩

end Sys2Proof.Proofs
end

