-- ==== Sys2Proof/Proofs/Tlb.lean ====
section
/-! SUPPORT. The joint TLB and the instruction TLB: writes and reads of entries, the match, and translation. -/

namespace Sys2Proof.Machine
variable {s : State}

/-! ### TLBWI, TLBWR and TLBR -/

/-- The masks of Table 21, as a list to be a member of. -/
theorem legalMask_iff (m : BitVec 12) : legalMask m = true ↔ m ∈ [0#12, 3, 0xF, 0x3F, 0xFF, 0x3FF, 0xFFF] :=
  List.contains_iff_mem

theorem withMask_legal {m : BitVec 12} {k : Out} (h : m ∈ [0#12, 3, 0xF, 0x3F, 0xFF, 0x3FF, 0xFFF]) :
    withMask m k = k := if_pos ((legalMask_iff m).2 h)

theorem withMask_illegal {m : BitVec 12} {k : Out} (h : m ∉ [0#12, 3, 0xF, 0x3F, 0xFF, 0x3FF, 0xFFF]) :
    withMask m k = .fault .illegalPageMask := if_neg fun e => h ((legalMask_iff m).1 e)

/-- The other entries stay. -/
theorem writeTlb_other (s : State) {i j : BitVec 6} (h : j ≠ i) : (s.writeTlb i).tlb[j.toNat] = s.tlb[j.toNat] :=
  Vector.getElem_set_ne i.isLt j.isLt fun e => h (BitVec.eq_of_toNat_eq e.symm)

/-- The fields of the EntryLo register of a page (10_state R36). -/
theorem loOf_fields (p : TlbHalf) (g : Bool) :
    (loOf p g).extractLsb' 62 2 = p.uc ∧ (loOf p g).getLsbD 61 = p.e ∧ (loOf p g).extractLsb' 34 27 = 0 ∧
      (loOf p g).extractLsb' 6 28 = p.pfn ∧ (loOf p g).extractLsb' 3 3 = p.c ∧ (loOf p g).getLsbD 2 = p.d ∧
      (loOf p g).getLsbD 1 = p.v ∧ (loOf p g).getLsbD 0 = g := by
  have one (b : Bool) : (ofBool b).getLsbD 0 = b := by cases b <;> rfl
  refine ⟨?_, ?_, ?_, ?_, ?_, ?_, ?_, ?_⟩
  any_goals simp only [loOf, BitVec.getLsbD_append, one, Nat.reduceLT, if_true, if_false, Nat.reduceSub]
  all_goals
    apply BitVec.eq_of_getLsbD_eq
    intro j hj
    simp only [BitVec.getLsbD_extractLsb', BitVec.getLsbD_append, hj, decide_true, Bool.true_and]
    grind

/-- The fields of EntryHi as TLBR writes it (45_cp0 R471). -/
theorem entryHi_fields (r : BitVec 2) (v : BitVec 27) (a : BitVec 8) :
    let hi : DWord := r ++ (0 : BitVec 22) ++ v ++ (0 : BitVec 5) ++ a
    hi.extractLsb' 62 2 = r ∧ hi.extractLsb' 40 22 = 0 ∧ hi.extractLsb' 13 27 = v ∧ hi.extractLsb' 8 5 = 0 ∧
      hi.extractLsb' 0 8 = a := by
  refine ⟨?_, ?_, ?_, ?_, ?_⟩
  all_goals
    apply BitVec.eq_of_getLsbD_eq
    intro j hj
    simp only [BitVec.getLsbD_extractLsb', BitVec.getLsbD_append, hj, decide_true, Bool.true_and]
    grind

/-- The field of PageMask as TLBR writes it. -/
theorem pageMask_field (m : BitVec 12) : ((m ++ (0 : BitVec 13)).setWidth 32).extractLsb' 13 12 = m := by
  apply BitVec.eq_of_getLsbD_eq
  intro j hj
  simp only [BitVec.getLsbD_extractLsb', BitVec.getLsbD_setWidth, BitVec.getLsbD_append]
  grind

/-- Settles O29: the write of an entry for TLBWI and TLBWR alike, and the fields TLBR makes of one. -/
theorem tlbWritesAndReads : Obligations.TlbWritesAndReads := by
  refine ⟨fun s hp => ?_, fun s hp hm => ?_, fun s hp hm => ?_⟩
  · intro hi m page writes
    have writes_done (i : BitVec 6) : writes (done (s.writeTlb i)) i :=
      ⟨_, rfl, rfl, Vector.getElem_set_self _, fun j hj => writeTlb_other s hj, advance_pc _, rfl, fun _ => rfl, rfl⟩
    refine ⟨fun hm => ?_, fun hm => ?_⟩
    · have run (i : BitVec 6) : writes (withCp0 s (withMask s.pageMaskField (done (s.writeTlb i)))) i := by
        have e : withCp0 s (withMask s.pageMaskField (done (s.writeTlb i))) = done (s.writeTlb i) :=
          (withCp0_allowed hp).trans (withMask_legal hm)
        rw [e]
        exact writes_done i
      exact ⟨run _, run _⟩
    · have stop (k : Out) : withCp0 s (withMask s.pageMaskField k) = .fault .illegalPageMask :=
        (withCp0_allowed hp).trans (withMask_illegal hm)
      exact ⟨stop _, stop _⟩
  · intro e lo
    have run : exec .tlbr s = done s.readTlb := (withCp0_allowed hp).trans (withMask_legal hm)
    obtain ⟨h1, h2, h3, h4, h5⟩ := entryHi_fields e.r (e.vpn2 &&& ~~~s.tlbMask.setWidth 27) e.asid
    exact ⟨_, run, pageMask_field _, clear_page _, h1, h2, h3, h4, h5, loOf_fields _ _, loOf_fields _ _, advance_pc _,
      rfl, fun _ => rfl, rfl⟩
  · exact (withCp0_allowed hp).trans (withMask_illegal hm)

/-! ### The match -/

/-- A page mask of `k` ones, bit by bit, at any width. -/
theorem mask_bit {m : BitVec 12} {k : Nat} (h : m.toNat = 2 ^ k - 1) (w i : Nat) :
    (m.setWidth w).getLsbD i = (decide (i < w) && decide (i < k)) := by
  rw [BitVec.getLsbD_setWidth, BitVec.getLsbD, h, Nat.testBit_two_pow_sub_one]

/-- Two page numbers agree outside a mask of `k` ones where they agree above their low `k` bits. -/
theorem masked_eq_iff {m : BitVec 12} {k w : Nat} (h : m.toNat = 2 ^ k - 1) (x y : BitVec w) :
    x &&& ~~~m.setWidth w = y &&& ~~~m.setWidth w ↔ x.toNat / 2 ^ k = y.toNat / 2 ^ k := by
  have above (z : BitVec w) (i : Nat) :
      (z &&& ~~~m.setWidth w).getLsbD i = (decide (k ≤ i) && z.getLsbD i) := by
    rw [BitVec.getLsbD_and, BitVec.getLsbD_not, mask_bit h]
    by_cases hi : i < w
    · by_cases hk : k ≤ i <;> simp [hi, hk]; omega
    · rw [BitVec.getLsbD_of_ge z i (by omega)]; simp
  constructor
  · intro e
    apply Nat.eq_of_testBit_eq
    intro i
    have := congrArg (fun z : BitVec w => z.getLsbD (i + k)) e
    simp only [above, Nat.le_add_left, decide_true, Bool.true_and] at this
    rw [Nat.testBit_div_two_pow, Nat.testBit_div_two_pow]
    exact this
  · intro e
    apply BitVec.eq_of_getLsbD_eq
    intro i _
    rw [above, above]
    by_cases hk : k ≤ i
    · have := congrArg (Nat.testBit · (i - k)) e
      simp only [Nat.testBit_div_two_pow, Nat.sub_add_cancel hk] at this
      exact congrArg (decide (k ≤ i) && ·) this
    · simp [hk]

/-- A list without duplicates whose only member is `i`. -/
theorem eq_singleton_of_nodup {α : Type} {l : List α} {i : α} (hl : l.Nodup) (h : ∀ x, x ∈ l ↔ x = i) : l = [i] :=
  List.perm_singleton.1 ((List.perm_ext_iff_of_nodup hl (List.nodup_singleton i)).2 fun x => by simp [h x])

theorem mem_tlbHits {r : BitVec 2} {v : BitVec 27} {i : Fin 64} :
    i ∈ s.tlbHits r v ↔ (s.tlb[i]).hits s.tlbMask r v s.asid = true := by simp [State.tlbHits]

theorem nodup_tlbHits (s : State) (r : BitVec 2) (v : BitVec 27) : (s.tlbHits r v).Nodup :=
  (List.nodup_finRange 64).filter _

/-- Entry `i` of the joint TLB maps `va`. -/
def State.tlbMaps (s : State) (va : DWord) (i : Fin 64) : Prop :=
  i ∈ s.tlbHits (va.extractLsb' 62 2) (va.extractLsb' 13 27)

theorem tlbMaps_iff {va : DWord} {i : Fin 64} : s.tlbMaps va i ↔
    (s.tlb[i]).r = va.extractLsb' 62 2 ∧ ((s.tlb[i]).g = true ∨ (s.tlb[i]).asid = s.cp0.entryHi.extractLsb' 0 8) ∧
      (s.tlb[i]).vpn2 &&& ~~~s.tlbMask.setWidth 27 = va.extractLsb' 13 27 &&& ~~~s.tlbMask.setWidth 27 := by
  rw [State.tlbMaps, mem_tlbHits]
  simp only [TlbEntry.hits, Bool.and_eq_true, Bool.or_eq_true, decide_eq_true_eq, and_assoc]
  exact and_congr_right fun _ => and_comm

/-! ### The search -/

theorem lookup_miss {va : DWord} (hm : legalMask s.tlbMask = true) (h : ∀ i, ¬s.tlbMaps va i) :
    s.lookup va = .miss := by
  unfold State.lookup
  rw [if_pos hm, List.eq_nil_iff_forall_not_mem.2 h]

theorem lookup_one {va : DWord} {i : Fin 64} (hm : legalMask s.tlbMask = true) (h : ∀ j, s.tlbMaps va j ↔ j = i) :
    s.lookup va = .page s.tlb[i] (if oddPage s.tlbMask va then (s.tlb[i]).lo1 else (s.tlb[i]).lo0) := by
  unfold State.lookup
  rw [if_pos hm, eq_singleton_of_nodup (nodup_tlbHits s _ _) h]

theorem lookup_several {va : DWord} {i j : Fin 64} (hm : legalMask s.tlbMask = true) (hij : i ≠ j)
    (hi : s.tlbMaps va i) (hj : s.tlbMaps va j) : s.lookup va = .undefined .multipleTlbMatch := by
  unfold State.tlbMaps at hi hj
  unfold State.lookup
  rw [if_pos hm]
  split
  · next e => rw [e] at hi; cases hi
  · next x e =>
    rw [e, List.mem_singleton] at hi hj
    exact absurd (hi.trans hj.symm) hij
  · rfl

/-- A page found is that of the one matching entry. -/
theorem lookup_page {va : DWord} {e : TlbEntry} {p : TlbHalf} (h : s.lookup va = .page e p) :
    ∃ i, (∀ j, s.tlbMaps va j ↔ j = i) ∧ e = s.tlb[i] ∧
      p = if oddPage s.tlbMask va then (s.tlb[i]).lo1 else (s.tlb[i]).lo0 := by
  unfold State.lookup at h
  split at h
  · split at h
    · cases h
    · next i hi =>
      cases h
      exact ⟨i, fun j => by rw [State.tlbMaps, hi, List.mem_singleton], rfl, rfl⟩
    · cases h
  · cases h

/-! ### The page -/

/-- The select bit: the address bit above the page offset. -/
theorem oddPage_iff {m : BitVec 12} {k : Nat} (h : m.toNat = 2 ^ k - 1) (hk : k ≤ 12) (va : DWord) :
    oddPage m va = true ↔ va.toNat / 2 ^ (12 + k) % 2 ≠ 0 := by
  have sel (i : Nat) (hi : i < 28) :
      ((m.setWidth 28 <<< 1 ||| 1) &&& ~~~m.setWidth 28).getLsbD i = decide (i = k) := by
    simp only [BitVec.getLsbD_and, BitVec.getLsbD_or, BitVec.getLsbD_shiftLeft, BitVec.getLsbD_not, mask_bit h]
    grind
  rw [oddPage, decide_eq_true_eq, ne_zero_iff_bit]
  have bit : va.toNat / 2 ^ (12 + k) % 2 ≠ 0 ↔ va.getLsbD (12 + k) = true := by
    rw [BitVec.getLsbD, Nat.testBit_eq_decide_div_mod_eq, decide_eq_true_eq]
    omega
  rw [bit]
  constructor
  · rintro ⟨i, hi, e⟩
    rw [BitVec.getLsbD_and, sel i hi, Bool.and_eq_true, decide_eq_true_eq] at e
    obtain ⟨e, rfl⟩ := e
    simpa [hi] using e
  · intro e
    refine ⟨k, by omega, ?_⟩
    rw [BitVec.getLsbD_and, sel k (by omega), BitVec.getLsbD_extractLsb', e]
    simp; omega

/-- The physical address: the frame over the offset (20_memory R150). -/
theorem physical_eq {m : BitVec 12} {k : Nat} (h : m.toNat = 2 ^ k - 1) (pfn : BitVec 28) (va : DWord) :
    physical m pfn va =
      BitVec.ofNat 40 (pfn.toNat * 2 ^ 12 / 2 ^ (12 + k) * 2 ^ (12 + k) + va.toNat % 2 ^ (12 + k)) := by
  have frame : pfn.toNat * 2 ^ 12 / 2 ^ (12 + k) = pfn.toNat / 2 ^ k := by
    rw [pow_add, Nat.mul_comm, Nat.mul_div_mul_left _ _ (by decide)]
  apply BitVec.eq_of_getLsbD_eq
  intro i hi
  rw [frame, Nat.mul_comm, BitVec.getLsbD_ofNat,
    Nat.testBit_two_pow_mul_add _ (Nat.mod_lt _ (Nat.two_pow_pos _)), Nat.testBit_div_two_pow,
    Nat.testBit_mod_two_pow]
  simp only [physical, BitVec.getLsbD_append, BitVec.getLsbD_or, BitVec.getLsbD_and, BitVec.getLsbD_not, mask_bit h,
    BitVec.getLsbD_extractLsb']
  change _ = (decide (i < 40) && if i < 12 + k then decide (i < 12 + k) && va.getLsbD i
    else pfn.getLsbD (i - (12 + k) + k))
  by_cases h12 : i < 12
  · simp [h12, hi, show i < 12 + k by omega]
  · by_cases hk : i < 12 + k
    · simp [h12, hi, hk, show i - 12 < k by omega, show i - 12 < 28 by omega, show 12 + (i - 12) = i by omega]
    · simp [h12, hi, hk, show ¬i - 12 < k by omega, show i - (12 + k) + k = i - 12 by omega,
        show i - 12 < 28 by omega]

/-- The seven masks of Table 21 are the runs of an even number of ones up to twelve. -/
theorem legalMask_of_ones {m : BitVec 12} {j : Fin 7} (h : m.toNat = 2 ^ (2 * j.val) - 1) : legalMask m = true := by
  have e : m = BitVec.ofNat 12 (2 ^ (2 * j.val) - 1) := by rw [← h, BitVec.ofNat_toNat, BitVec.setWidth_eq]
  have all : ∀ j : Fin 7, legalMask (BitVec.ofNat 12 (2 ^ (2 * j.val) - 1)) = true := by decide
  rw [e]
  exact all j

/-- An entry matches where its page number is that of the address, in pairs of pages of the mask's size. -/
theorem tlbMaps_iff_page {va : DWord} {i : Fin 64} {k : Nat} (h : s.tlbMask.toNat = 2 ^ k - 1) : s.tlbMaps va i ↔
    (s.tlb[i]).r = va.extractLsb' 62 2 ∧ ((s.tlb[i]).g = true ∨ (s.tlb[i]).asid = s.cp0.entryHi.extractLsb' 0 8) ∧
      (s.tlb[i]).vpn2.toNat / 2 ^ k = va.toNat % 2 ^ 40 / (2 * 2 ^ (12 + k)) := by
  have page : (va.extractLsb' 13 27).toNat / 2 ^ k = va.toNat % 2 ^ 40 / (2 * 2 ^ (12 + k)) := by
    rw [show 2 * 2 ^ (12 + k) = 2 ^ 13 * 2 ^ k by rw [pow_add]; ring, ← Nat.div_div_eq_div_mul,
      BitVec.extractLsb'_toNat, Nat.shiftRight_eq_div_pow]
    congr 1
    omega
  rw [tlbMaps_iff, masked_eq_iff h, page]

/-- What a page answers, case by case. -/
theorem pageTrans_invalid {nx : Bool} {k : Access} {m : BitVec 12} {p : TlbHalf} {va : DWord}
    (h : p.v = false ∨ (nx = true ∧ k = .fetch ∧ p.e = true)) :
    pageTrans nx k m p va = .exc (.tlbInvalid k.isStore va) := by
  rcases h with h | ⟨rfl, rfl, h⟩ <;> simp [pageTrans, h]

theorem pageTrans_valid {nx : Bool} {k : Access} {m : BitVec 12} {p : TlbHalf} {va : DWord} (hv : p.v = true)
    (he : ¬(nx = true ∧ k = .fetch ∧ p.e = true)) : pageTrans nx k m p va =
      if k = .store ∧ p.d = false then .exc (.tlbModified va) else withAttr (physical m p.pfn va) p.c := by
  have : (!p.v || (nx && k == .fetch && p.e)) = false := by
    simp only [hv, Bool.not_true, Bool.false_or, ← Bool.not_eq_true, Bool.and_eq_true, beq_iff_eq, and_assoc]
    exact he
  simp only [pageTrans, this, Bool.false_eq_true, if_false, Bool.and_eq_true, beq_iff_eq, Bool.not_eq_true']

theorem isStore_eq (k : Access) : k.isStore = (k == .store) := by cases k <;> rfl

/-- Settles O32: the match by `tlbMaps_iff_page`, the page by `pageTrans`. -/
theorem tlbTranslation : Obligations.TlbTranslation := by
  intro s k va j hmask size hits
  have hm := legalMask_of_ones hmask
  have maps (i : Fin 64) : s.tlbMaps va i ↔ hits i := tlbMaps_iff_page hmask
  refine ⟨fun h => ?_, fun i h => ?_, fun i i' hii hi hi' => ?_⟩
  · rw [State.translateMapped, lookup_miss hm fun i => (maps i).not.2 (h i)]
    simp only [isStore_eq]
  · intro p
    have hp : (if oddPage s.tlbMask va then (s.tlb[i]).lo1 else (s.tlb[i]).lo0) = p := by
      have odd := oddPage_iff hmask (by omega) va
      by_cases h0 : va.toNat / size % 2 = 0
      · exact (if_neg fun e => odd.1 e h0).trans (if_pos h0).symm
      · exact (if_pos (odd.2 h0)).trans (if_neg h0).symm
    have page : s.translateMapped k va = pageTrans s.cfg.nxEnforced k s.tlbMask p va := by
      rw [State.translateMapped, lookup_one hm fun i' => (maps i').trans (h i'), hp]
    rw [page, ← isStore_eq]
    refine ⟨fun hv => pageTrans_invalid (.inl hv), ?_, ?_, fun hv hd he => ?_⟩
    · rintro rfl hn he
      exact pageTrans_invalid (.inr ⟨hn, rfl, he⟩)
    · rintro hv rfl hd
      rw [pageTrans_valid hv (by simp), if_pos ⟨rfl, hd⟩]
    · have run : ¬(s.cfg.nxEnforced = true ∧ k = .fetch ∧ p.e = true) := fun ⟨hn, hk, e⟩ =>
        Bool.false_ne_true ((he hk hn).symm.trans e)
      have clean : ¬(k = .store ∧ p.d = false) := fun ⟨hk, e⟩ => Bool.false_ne_true (e.symm.trans (hd hk))
      rw [pageTrans_valid hv run, if_neg clean, physical_eq hmask]
      rfl
  · simp only [State.translateMapped, lookup_several hm hii ((maps i).2 hi) ((maps i').2 hi')]

/-! ### The instruction TLB -/

/-- A page that delivers an address is valid, and executable where E counts; its frame and C bits are what comes out. -/
theorem pageTrans_fetch_ok {nx : Bool} {m : BitVec 12} {p : TlbHalf} {va : DWord} {pa : PAddr} {attr : BitVec 3}
    (h : pageTrans nx .fetch m p va = .ok pa attr) :
    p.v = true ∧ (nx = true → p.e = false) ∧ pa = physical m p.pfn va ∧ p.c = attr := by
  by_cases hx : p.v = false ∨ (nx = true ∧ Access.fetch = .fetch ∧ p.e = true)
  · rw [pageTrans_invalid hx] at h
    cases h
  · rw [not_or] at hx
    have hv : p.v = true := by simpa using hx.1
    rw [pageTrans_valid hv hx.2, if_neg (by simp), withAttr] at h
    split at h
    · cases h
      exact ⟨hv, fun hn => by simpa [hn] using hx.2, rfl, rfl⟩
    · cases h

/-- The copy of page `p` of entry `e` for `va`. -/
def State.itlbCopy (s : State) (va : DWord) (e : TlbEntry) (p : TlbHalf) : ItlbEntry :=
  ⟨e.r, pageOf s.tlbMask va, s.tlbMask, e.g, e.asid, p⟩

/-- An added copy may be among the copies, at one more place at most. -/
theorem itlbAdd_spec (l : List ItlbEntry) (c : ItlbEntry) (n : Nat) :
    (∀ e ∈ itlbAdd l c n, e ∈ l ∨ e = c) ∧ (itlbAdd l c n).length ≤ l.length + 1 := by
  unfold itlbAdd
  split
  · exact ⟨fun e he => .inl he, Nat.le_succ _⟩
  · split
    · exact ⟨fun e he => List.mem_or_eq_of_mem_set he, by simp⟩
    · exact ⟨fun e he => by simpa using he, by simp⟩

/-- Filling the copies after a page was found. -/
theorem itlbFill_spec {va : DWord} {e : TlbEntry} {p : TlbHalf} (h : s.lookup va = .page e p) :
    s.itlbFill va = { s with
        itlb := (s.itlbFill va).itlb, draws := (s.itlbFill va).draws, freeCount := (s.itlbFill va).freeCount } ∧
      (∀ c ∈ (s.itlbFill va).itlb, c ∈ s.itlb ∨ c = s.itlbCopy va e p) ∧
      (s.itlbFill va).itlb.length ≤ s.itlb.length + 1 := by
  obtain ⟨d, n, hf⟩ := free_eq s
  unfold State.itlbFill
  rw [h]
  simp only []
  exact ⟨by rw [hf], itlbAdd_spec _ _ _⟩

/-- What a fetch in a mapped segment does where no copy matches and the joint TLB delivers an address. -/
theorem translateMapped_fetch_ok {va : DWord} {pa : PAddr} {attr : BitVec 3}
    (h : s.translateMapped .fetch va = .ok pa attr) : ∃ e p, s.lookup va = .page e p ∧
      pageTrans s.cfg.nxEnforced .fetch s.tlbMask p va = .ok pa attr := by
  unfold State.translateMapped at h
  split at h
  · next e p hl => exact ⟨e, p, hl, h⟩
  · cases h
  · cases h

/-- What a fetch does in each kind of segment. -/
theorem translateFetch_error {m : Mode} {va : DWord} (hm : s.mode = some m)
    (h : segmentOf m (s.cp0.configLow.extractLsb' 0 3) va = .error) :
    s.translateFetch va = (.exc (.addressError false va), s) := by
  simp only [State.translateFetch, hm, h]

theorem translateFetch_unmapped {m : Mode} {va : DWord} {pa : PAddr} {attr : BitVec 3} (hm : s.mode = some m)
    (h : segmentOf m (s.cp0.configLow.extractLsb' 0 3) va = .unmapped pa attr) :
    s.translateFetch va = (withAttr pa attr, s) := by
  simp only [State.translateFetch, hm, h]

theorem translateFetch_mapped {m : Mode} {va : DWord} (hm : s.mode = some m)
    (h : segmentOf m (s.cp0.configLow.extractLsb' 0 3) va = .mapped) :
    s.translateFetch va = s.translateFetchMapped va := by
  simp only [State.translateFetch, hm, h]

/-- Settles O33: other segments, a matching copy, and the joint TLB. -/
theorem instructionTlb : Obligations.InstructionTlb := by
  intro s m va hmode seg hits frame matches' mask odd
  refine ⟨translateFetch_error hmode, fun pa attr h => translateFetch_unmapped hmode h, fun e h he => ?_,
    fun h hno => ?_⟩
  · have copy : s.translateFetch va = (pageTrans s.cfg.nxEnforced .fetch e.mask e.page va, s) := by
      have he' : s.itlb.find? (·.hits va s.asid) = some e := he
      rw [translateFetch_mapped hmode h]
      simp only [State.translateFetchMapped, he']
    rw [copy]
    refine ⟨fun hx => ?_, fun hv hx => ?_⟩
    · rw [pageTrans_invalid (hx.imp_right fun ⟨hn, he⟩ => ⟨hn, rfl, he⟩)]
      rfl
    · rw [pageTrans_valid hv fun ⟨hn, _, he⟩ => by simp [hn, he] at hx, if_neg (by simp)]
      rfl
  · have none : s.itlb.find? (·.hits va s.asid) = none := List.find?_eq_none.2 fun e he => by
      rw [Bool.not_eq_true]
      exact hno e he
    refine ⟨fun e he => ?_, fun pa attr hok => ?_⟩
    · rw [translateFetch_mapped hmode h]
      simp only [State.translateFetchMapped, none, he]
    · obtain ⟨e, p, hl, hpage⟩ := translateMapped_fetch_ok hok
      obtain ⟨i, hi, rfl, hp⟩ := lookup_page hl
      obtain ⟨hv, hx, hpa, hc⟩ := pageTrans_fetch_ok hpage
      obtain ⟨hfr, hmem, hlen⟩ := itlbFill_spec hl
      obtain ⟨hr, hg, _⟩ := tlbMaps_iff.1 ((hi i).2 rfl)
      refine ⟨s.itlbFill va, s.itlbCopy va s.tlb[i] p, ?_, hfr, hmem, hlen, ?_, rfl, hpa, hc, hv, hx, i,
        fun i' => tlbMaps_iff.symm.trans (hi i'), rfl, rfl, rfl, ?_⟩
      · rw [translateFetch_mapped hmode h]
        simp only [State.translateFetchMapped, none, hok]
      · simp only [hits, State.itlbCopy, pageOf, hr, decide_true, Bool.true_and, Bool.or_eq_true, decide_eq_true_eq]
        exact hg
      · rw [hp]
        by_cases ho : odd
        · exact (if_pos (decide_eq_true ho)).trans (if_pos ho).symm
        · exact (if_neg fun e => ho (of_decide_eq_true e)).trans (if_neg ho).symm

end Sys2Proof.Machine
end

