-- ==== Sys2Proof/Proofs/Invalidation.lean ====
section
/-! SUPPORT. The CACHE operations that invalidate lines of the data cache and of the secondary cache. -/

namespace Sys2Proof.Machine
variable {s : State} {base : RegNum} {o : Half} {pa p : PAddr}

/-- A CACHE operation on a cached address, where it may run. -/
theorem cacheOp_cached (op : DWord → PAddr → State → Result Unit) (hp : Privileged s)
    (ht : s.translate .load (s.r base + o.signExtend 64) = .ok pa 3) :
    cacheOp base o op s = (op (s.r base + o.signExtend 64) pa s).andThen fun _ t => done t := by
  have ht' : s.translate .load (s.ea base o) = .ok pa 3 := ht
  refine (withCp0_allowed hp).trans ?_
  simp only [ht', if_true]
  rfl

theorem cacheOp_done {u : State} (op : DWord → PAddr → State → Result Unit) (hp : Privileged s)
    (ht : s.translate .load (s.r base + o.signExtend 64) = .ok pa 3)
    (e : op (s.r base + o.signExtend 64) pa s = .val () u) : cacheOp base o op s = done u := by
  rw [cacheOp_cached op hp ht, e]
  rfl

/-! ### Data lines dropped without a write-back -/

/-- The ways of a set, as the operations list them. -/
theorem mem_waysOf {set k : Nat} : k ∈ waysOf set ↔ k / 4 = set := mem_ways

theorem waysOf_sorted (set : Nat) : (waysOf set).Pairwise (· < ·) := by simp [waysOf]

theorem DLine.holds_iff {l : DLine} : l.holds pa = true ↔ l.state ≠ 0 ∧ l.tag = primaryTag pa := by
  simp [DLine.holds]

/-- A line that is clean, or is not to be written back, is only invalidated. -/
theorem dFlush_clean {wb : Bool} {k : Nat} (h : wb = true → (s.dLine k).state ≠ 3) :
    dFlush wb k s = .val () (s.dInvalidate k) := by
  cases wb with
  | false => rfl
  | true =>
    have hd : ¬(s.dLine k).state = dirtyState := h rfl
    simp only [dFlush, if_true, State.dWriteBack, hd, if_false, Result.bind]

/-- The lines that hold `pa` are dropped, where none of them has to be written back. -/
theorem dFlushHits_clean {wb : Bool} : ∀ (ks : List Nat) (s : State), sparseWf DLine.empty s.dcache →
    (∀ k ∈ ks, (s.dLine k).holds pa = true → wb = true → (s.dLine k).state ≠ 3) →
    ∃ t, dFlushHits wb pa ks s = .val () t ∧ sparseWf DLine.empty t.dcache ∧ t = { s with dcache := t.dcache } ∧
      ∀ j, t.dLine j = if j ∈ ks ∧ (s.dLine j).holds pa = true then { s.dLine j with state := 0 } else s.dLine j
  | [], s, hd, _ => ⟨s, rfl, hd, rfl, fun j => by simp⟩
  | k :: ks, s, hd, hc => by
    by_cases hk : (s.dLine k).holds pa = true
    · have lines (j : Nat) : (s.dInvalidate k).dLine j = if j = k then { s.dLine k with state := 0 } else s.dLine j :=
        dLine_set hd ..
      have gone : ((s.dInvalidate k).dLine k).holds pa = false := by rw [lines, if_pos rfl]; simp [DLine.holds]
      obtain ⟨t, e, ht, hf, hl⟩ := dFlushHits_clean ks (s.dInvalidate k) (sparseWf_write _ _ hd) fun j hj hh => by
        by_cases hjk : j = k
        · rw [hjk, gone] at hh
          cases hh
        · rw [lines, if_neg hjk] at hh ⊢
          exact hc j (List.mem_cons_of_mem _ hj) hh
      refine ⟨t, ?_, ht, hf, fun j => ?_⟩
      · show Result.bind _ _ = _
        simp only [hk, if_true, dFlush_clean (hc k List.mem_cons_self hk), Result.bind]
        exact e
      · rw [hl]
        by_cases hjk : j = k
        · rw [hjk, if_neg fun h => Bool.false_ne_true (gone.symm.trans h.2), lines, if_pos rfl,
            if_pos ⟨List.mem_cons_self, hk⟩]
        · simp [lines, hjk]
    · obtain ⟨t, e, ht, hf, hl⟩ := dFlushHits_clean ks s hd fun j hj => hc j (List.mem_cons_of_mem _ hj)
      refine ⟨t, ?_, ht, hf, fun j => ?_⟩
      · show Result.bind _ _ = _
        simp only [hk, Result.bind]
        exact e
      · rw [hl]
        by_cases hjk : j = k
        · simp [hjk, hk]
        · simp [hjk]

/-- Settles O35: the lines dropped by `dFlushHits_clean`, those written back by `dFlushHits_writeBack`. -/
theorem dataCacheInvalidation : Obligations.DataCacheInvalidation := by
  intro s base o pa hp va ht hd hs hm set di addr drops drop matches'
  have ways (k : Nat) : k ∈ waysOf set ∧ (s.dLine k).holds pa = true ↔ matches' k := and_congr_left' mem_waysOf
  have hits {wb : Bool} {u : State} (e : dFlushHits wb pa (waysOf set) s = .val () u) :
      cacheOp base o (fun va pa t => dFlushHits wb pa (waysOf (primarySet va)) t) s = done u :=
    cacheOp_done _ hp ht e
  have index {u : State} (e : dFlush true di s = .val () u) : exec (.cache1 base o) s = done u :=
    cacheOp_done (fun va _ t => dFlush true (dIndex va) t) hp ht e
  have dropped {p : Nat → Prop} [DecidablePred p] {u : State} (hu : DataStep s u)
      (hl : ∀ j, u.dLine j = if p j then { s.dLine j with state := 0 } else s.dLine j) : drops p u.advance := by
    refine ⟨(advance_pc u).trans (nextPc_congr (by rw [hu.frame]) (by rw [hu.frame])), rfl, hl, ?_⟩
    rw [hu.frame]
    rfl
  have dropped' {p : Nat → Prop} [DecidablePred p] {u : State} (hu : sparseWf DLine.empty u.dcache)
      (hf : u = { s with dcache := u.dcache })
      (hl : ∀ j, u.dLine j = if p j then { s.dLine j with state := 0 } else s.dLine j) : drop (done u) p :=
    ⟨_, rfl, dropped ⟨hu, by rw [hf]; exact hs, by rw [hf]; exact hm, by rw [hf]⟩ hl, by rw [hf]; rfl⟩
  have written {u : State} {q : PAddr} {d : BitVec 256} (h : WrittenBelow s u q d) : WrittenBelow s u.advance q d :=
    h.congr ⟨rfl, rfl, rfl, fun _ => rfl⟩ ⟨rfl, rfl, rfl, fun _ => rfl⟩
  have only {u : State} (hl : ∀ j, u.dLine j = if j = di then { s.dLine di with state := 0 } else s.dLine j) (j : Nat) :
      u.dLine j = if j = di then { s.dLine j with state := 0 } else s.dLine j := by
    rw [hl]
    by_cases e : j = di
    · rw [if_pos e, if_pos e, e]
    · rw [if_neg e, if_neg e]
  refine ⟨?_, fun hc => ?_, fun k hk hd3 hlast hw => ?_, fun hc => ?_, fun hd3 hw => ?_⟩
  · obtain ⟨u, e, hu, hf, hl⟩ := dFlushHits_clean (pa := pa) (wb := false) (waysOf set) s hd fun _ _ _ h => by cases h
    have e' : exec (.cache17 base o) s = done u := hits e
    rw [e']
    exact dropped' hu hf fun j => (hl j).trans (if_congr (ways j) rfl rfl)
  · obtain ⟨u, e, hu, hf, hl⟩ := dFlushHits_clean (pa := pa) (wb := true) (waysOf set) s hd
      fun j hj hh _ => hc j ((ways j).1 ⟨hj, hh⟩)
    have e' : exec (.cache21 base o) s = done u := hits e
    rw [e']
    exact dropped' hu hf fun j => (hl j).trans (if_congr (ways j) rfl rfl)
  · have same (j : Nat) (hj : j ∈ waysOf set) (hh : (s.dLine j).holds pa = true) :
        primaryAddr (s.dLine j).tag j = addr k := by
      rw [primaryAddr, (DLine.holds_iff.1 hh).2, ← (DLine.holds_iff.1 hk.2).2, mem_waysOf.1 hj, ← hk.1]
      rfl
    obtain ⟨hkm, hkh⟩ := (ways k).2 hk
    obtain ⟨u, e, hu, hl, _, hb⟩ := dFlushHits_writeBack (waysOf set) s (waysOf_sorted set) same hd hs hm hw
    refine ⟨_, hits e, dropped hu fun j => (hl j).trans (if_congr (ways j) rfl rfl), written ?_⟩
    exact hb k hkm hkh hd3 fun j hj hkj hh => hlast j hkj ((ways j).1 ⟨hj, hh⟩)
  · obtain ⟨u, e, hu, hl, hf, _⟩ := dFlush_writeBack (k := di) hd hs hm fun h => absurd h hc
    rw [index e]
    exact dropped' hu.dataLines (hf hc) (only hl)
  · obtain ⟨u, e, hu, hl, _, hb⟩ := dFlush_writeBack (k := di) hd hs hm fun _ => hw
    exact ⟨_, index e, dropped hu (only hl), written (hb hd3)⟩

end Sys2Proof.Machine
end

