-- ==== Sys2Proof/Proofs/Subsets.lean ====
section
/-! SUPPORT. The CACHE operations that invalidate a line of the secondary cache with its primary subsets. -/

namespace Sys2Proof.Machine
variable {s : State} {base : RegNum} {o : Half} {pa p : PAddr} {k : Nat} {d : BitVec 256}

/-! ### The keys of the primary lines that can hold an address -/

theorem mem_subsetKeys {j : Nat} :
    j ∈ subsetKeys p ↔ j < 2048 ∧ BitVec.ofNat 7 (j / 4) = p.extractLsb' 5 7 := by
  have low : (p.extractLsb' 5 7).toNat < 128 := (p.extractLsb' 5 7).isLt
  simp only [subsetKeys, List.mem_append, mem_waysOf, ← BitVec.toNat_inj, BitVec.toNat_ofNat, Nat.reducePow]
  omega

theorem subsetKeys_sorted (p : PAddr) : (subsetKeys p).Pairwise (· < ·) := by
  simp only [subsetKeys, List.pairwise_append, waysOf_sorted, List.mem_append, mem_waysOf, true_and]
  have low : (p.extractLsb' 5 7).toNat < 128 := (p.extractLsb' 5 7).isLt
  refine ⟨⟨fun a ha b hb => ?_, fun a ha b hb => ?_⟩, fun a ha b hb => ?_⟩ <;> omega

/-! ### Instruction lines -/

/-- The lines of a list of keys that a property holds of are invalidated. -/
theorem dropILines_spec {f : ILine → Bool} : ∀ (ks : List Nat) (s : State), sparseWf ILine.empty s.icache →
    s.dropILines f ks = { s with icache := (s.dropILines f ks).icache } ∧
      ∀ i, (s.dropILines f ks).iLine i =
        if i ∈ ks ∧ f (s.iLine i) = true then { s.iLine i with valid := false } else s.iLine i
  | [], s, _ => ⟨rfl, fun i => by simp [State.dropILines]⟩
  | k :: ks, s, hi => by
    unfold State.dropILines
    by_cases hk : f (s.iLine k) = true
    · obtain ⟨hf, hl⟩ := dropILines_spec (f := f) ks (s.setILine k { s.iLine k with valid := false })
        (sparseWf_write _ _ hi)
      rw [if_pos hk]
      refine ⟨hf, fun i => (hl i).trans ?_⟩
      rw [iLine_set hi]
      by_cases hik : i = k
      · subst hik
        have here : i ∈ i :: ks ∧ f (s.iLine i) = true := ⟨List.mem_cons_self, hk⟩
        rw [if_pos rfl, if_pos here]
        split <;> rfl
      · simp [hik]
    · obtain ⟨hf, hl⟩ := dropILines_spec (f := f) ks s hi
      rw [if_neg hk]
      refine ⟨hf, fun i => (hl i).trans ?_⟩
      by_cases hik : i = k
      · simp [hik, hk]
      · simp [hik]

/-! ### Data lines into a secondary line -/

/-- The data lines of `ks` that hold `p` have been dropped, and the last dirty one of them is in secondary line `k`. -/
structure Absorbed (s t : State) (k : Nat) (p : PAddr) (ks : List Nat) : Prop where
  dataLines : ∀ j, t.dLine j = if j ∈ ks ∧ (s.dLine j).holds p = true then { s.dLine j with state := 0 } else s.dLine j
  others : ∀ i, i ≠ k → t.sLine i = s.sLine i
  clean : (∀ j ∈ ks, (s.dLine j).holds p = true → (s.dLine j).state ≠ 3) → t.sLine k = s.sLine k
  dirty : ∀ j ∈ ks, (s.dLine j).holds p = true → (s.dLine j).state = 3 →
    (∀ j' ∈ ks, j < j' → (s.dLine j').holds p = true → (s.dLine j').state ≠ 3) →
    t.sLine k = { s.sLine k with state := 3, data := (s.dLine j).data }
  lines : sparseWf SLine.empty t.scache
  frame : t = { s with icache := t.icache, dcache := t.dcache, scache := t.scache }

/-- One line is absorbed. -/
theorem sAbsorb_spec {j : Nat} (hd : sparseWf DLine.empty s.dcache) (hs : sparseWf SLine.empty s.scache) :
    ∃ t, sAbsorb k p j s = .val () t ∧ t.icache = s.icache ∧ sparseWf DLine.empty t.dcache ∧ Absorbed s t k p [j] := by
  by_cases hh : (s.dLine j).holds p = true
  · have lines {u : State} (hu : u.dcache = s.dcache) (i : Nat) : (u.dInvalidate j).dLine i =
        if i ∈ [j] ∧ (s.dLine i).holds p = true then { s.dLine i with state := 0 } else s.dLine i := by
      have same (i : Nat) : u.dLine i = s.dLine i := by rw [State.dLine, hu]; rfl
      rw [State.dInvalidate, dLine_set (hu ▸ hd), same, same]
      by_cases hij : i = j
      · subst hij; simp [hh]
      · simp [hij]
    by_cases h3 : (s.dLine j).state = 3
    · have h3' : (s.dLine j).state = dirtyState := h3
      refine ⟨(s.setSLine k { s.sLine k with state := 3, data := (s.dLine j).data }).dInvalidate j,
        by simp only [sAbsorb, hh, h3', if_true]; rfl, rfl, sparseWf_write _ _ hd, lines rfl, fun i hi => ?_, fun hc => ?_,
        fun i hi _ _ _ => ?_, sparseWf_write _ _ hs, rfl⟩
      · exact (sLine_set hs ..).trans (if_neg hi)
      · exact absurd h3 (hc j List.mem_cons_self hh)
      · rw [List.mem_singleton.1 hi]
        exact (sLine_set hs ..).trans (if_pos rfl)
    · have h3' : ¬(s.dLine j).state = dirtyState := h3
      refine ⟨s.dInvalidate j, by simp only [sAbsorb, hh, h3', if_true, if_false], rfl, sparseWf_write _ _ hd, lines rfl, fun _ _ => rfl,
        fun _ => rfl, fun i hi _ h => ?_, hs, rfl⟩
      exact absurd (List.mem_singleton.1 hi ▸ h) h3
  · refine ⟨s, by simp [sAbsorb, hh], rfl, hd, fun i => ?_, fun _ _ => rfl, fun _ => rfl, fun i hi h _ => ?_, hs, rfl⟩
    · by_cases hij : i = j
      · simp [hij, hh]
      · simp [hij]
    · exact absurd (List.mem_singleton.1 hi ▸ h) hh

/-- Absorbing one line and then those above it. -/
theorem Absorbed.trans {u t : State} {j : Nat} {ks : List Nat} (h1 : Absorbed s u k p [j]) (h2 : Absorbed u t k p ks)
    (hj : ∀ i ∈ ks, j < i) : Absorbed s t k p (j :: ks) := by
  have above (i : Nat) (hi : i ∈ ks) : u.dLine i = s.dLine i := by
    rw [h1.dataLines, if_neg fun h => Nat.ne_of_gt (hj i hi) (List.mem_singleton.1 h.1)]
  have tag : (u.sLine k).tag = (s.sLine k).tag := by
    by_cases h : (s.dLine j).holds p = true ∧ (s.dLine j).state = 3
    · rw [h1.dirty j List.mem_cons_self h.1 h.2 fun i hi hlt => absurd (List.mem_singleton.1 hi) (Nat.ne_of_gt hlt)]
    · rw [h1.clean fun i hi hh h3 => h ⟨List.mem_singleton.1 hi ▸ hh, List.mem_singleton.1 hi ▸ h3⟩]
  refine ⟨fun i => ?_, fun i hi => (h2.others i hi).trans (h1.others i hi), fun hc => ?_, fun i hi hh h3 hlast => ?_,
    h2.lines, by rw [h2.frame, h1.frame]⟩
  · rw [h2.dataLines]
    by_cases hi : i ∈ ks
    · rw [above i hi]
      simp [hi]
    · rw [if_neg fun h => hi h.1, h1.dataLines]
      simp [hi]
  · rw [h2.clean fun i hi => above i hi ▸ hc i (List.mem_cons_of_mem _ hi),
      h1.clean fun i hi => hc i (List.mem_singleton.1 hi ▸ List.mem_cons_self)]
  · rcases List.mem_cons.1 hi with rfl | hi
    · rw [h2.clean fun m hm => above m hm ▸ hlast m (List.mem_cons_of_mem _ hm) (hj m hm)]
      exact h1.dirty i List.mem_cons_self hh h3 fun m hm hlt => absurd (List.mem_singleton.1 hm) (Nat.ne_of_gt hlt)
    · have := h2.dirty i hi (above i hi ▸ hh) (above i hi ▸ h3) fun m hm hlt =>
        above m hm ▸ hlast m (List.mem_cons_of_mem _ hm) hlt
      simp only [this, above i hi, tag]

theorem forKeys_sAbsorb : ∀ (ks : List Nat) (s : State), ks.Pairwise (· < ·) → sparseWf DLine.empty s.dcache →
    sparseWf SLine.empty s.scache →
    ∃ t, forKeys (sAbsorb k p) ks s = .val () t ∧ t.icache = s.icache ∧ Absorbed s t k p ks
  | [], s, _, _, hs => ⟨s, rfl, rfl, fun j => by simp, fun _ _ => rfl, fun _ => rfl, fun j hj => by simp at hj, hs, rfl⟩
  | j :: ks, s, hsort, hd, hs => by
    obtain ⟨hlt, hsort⟩ := List.pairwise_cons.1 hsort
    obtain ⟨u, e, hui, hud, h1⟩ := sAbsorb_spec (k := k) (p := p) (j := j) hd hs
    obtain ⟨t, e', hti, h2⟩ := forKeys_sAbsorb ks u hsort hud h1.lines
    exact ⟨t, by rw [forKeys, e, bind_val, e'], hti.trans hui, h1.trans h2 hlt⟩

/-! ### The flush of a secondary line -/

theorem bind_andThen {α β : Type} (r : Result α) (f : α → State → Result β) (g : β → State → Out) :
    (r.bind f).andThen g = r.andThen fun a t => (f a t).andThen g := by cases r <;> rfl

/-- A line address that has no place to be written to stops. -/
theorem lineWrite_stop (h : ¬LinePlace s p) (f : Unit → State → Out) :
    (s.lineWrite p d).andThen f = (s.target p).stop := by
  unfold State.lineWrite
  cases ht : s.target p with
  | dram a => exact absurd ⟨a, .inl ht⟩ h
  | rom a => exact absurd ⟨a, .inr ht⟩ h
  | window | ddr | header | regs | outside | hole => rfl

/-- The lines after the primary subsets of `p` and secondary line `k` are gone, the line's data being `d`. -/
structure Dropped (s t : State) (k : Nat) (p : PAddr) (d : BitVec 256) : Prop where
  secondary : ∀ i, t.sLine i = if i = k then { s.sLine k with state := 0, data := d } else s.sLine i
  dataLines : ∀ j, t.dLine j =
    if j ∈ subsetKeys p ∧ (s.dLine j).holds p = true then { s.dLine j with state := 0 } else s.dLine j
  instrLines : ∀ i, t.iLine i =
    if i ∈ subsetKeys p ∧ (s.iLine i).holds p = true then { s.iLine i with valid := false } else s.iLine i
  frame : t = { s with icache := t.icache, dcache := t.dcache, scache := t.scache, mem := t.mem }

/-- Other instruction lines make no difference to what is absorbed. -/
theorem Absorbed.of_icache {u t : State} {ks : List Nat} (h : Absorbed u t k p ks) (hu : u = { s with icache := u.icache }) :
    Absorbed s t k p ks := by
  rw [hu] at h
  exact ⟨h.dataLines, h.others, h.clean, h.dirty, h.lines, h.frame⟩

/-- What stands before the eviction: the primary subsets are gone, the last dirty one in the secondary line. -/
theorem sFlush_absorbed (hi : sparseWf ILine.empty s.icache) (hd : sparseWf DLine.empty s.dcache)
    (hs : sparseWf SLine.empty s.scache) : ∃ t,
      sFlush k s = (t.sEvict k).bind (fun _ v => .val () (v.sInvalidate k)) ∧
      (∀ i, t.iLine i = if i ∈ subsetKeys (s.sLineAddr k) ∧ (s.iLine i).holds (s.sLineAddr k) = true
        then { s.iLine i with valid := false } else s.iLine i) ∧
      Absorbed s t k (s.sLineAddr k) (subsetKeys (s.sLineAddr k)) := by
  have sorted := subsetKeys_sorted (s.sLineAddr k)
  unfold sFlush
  simp only []
  change ∃ t, (forKeys (sAbsorb k (s.sLineAddr k)) (subsetKeys (s.sLineAddr k))
    (s.dropILines (fun l => l.holds (s.sLineAddr k)) (subsetKeys (s.sLineAddr k)))).bind _ = _ ∧ _
  generalize subsetKeys (s.sLineAddr k) = ks at sorted ⊢
  obtain ⟨hf, hl⟩ := dropILines_spec (f := fun l => l.holds (s.sLineAddr k)) ks s hi
  generalize s.dropILines (fun l => l.holds (s.sLineAddr k)) ks = u at hf hl ⊢
  have hud : u.dcache = s.dcache := by rw [hf]
  have hus : u.scache = s.scache := by rw [hf]
  obtain ⟨t, e, hti, ht⟩ := forKeys_sAbsorb (k := k) (p := s.sLineAddr k) ks u sorted (hud ▸ hd) (hus ▸ hs)
  have same (i : Nat) : t.iLine i = u.iLine i := by rw [State.iLine, hti]; rfl
  exact ⟨t, by rw [e, bind_val], fun i => (same i).trans (hl i), ht.of_icache hf⟩

/-- The secondary line itself goes last, after its eviction. -/
theorem Absorbed.dropped {t v : State} {st : BitVec 2} (h : Absorbed s t k p (subsetKeys p))
    (hi : ∀ i, t.iLine i =
      if i ∈ subsetKeys p ∧ (s.iLine i).holds p = true then { s.iLine i with valid := false } else s.iLine i)
    (hk : t.sLine k = { s.sLine k with state := st, data := d }) (hv : v = { t with mem := v.mem }) :
    Dropped s (v.sInvalidate k) k p d := by
  have hvs : v.scache = t.scache := by rw [hv]
  have same (i : Nat) : v.sLine i = t.sLine i := by rw [State.sLine, hvs]; rfl
  refine ⟨fun i => ?_, fun j => ?_, fun i => ?_, ?_⟩
  · rw [State.sInvalidate, sLine_set (hvs ▸ h.lines), same, same, hk]
    by_cases hik : i = k
    · rw [if_pos hik, if_pos hik]
    · rw [if_neg hik, if_neg hik, h.others i hik]
  · rw [← h.dataLines j, hv]
    rfl
  · rw [← hi i, hv]
    rfl
  · rw [hv, h.frame]
    rfl

/-- The flush of a secondary line whose data are `d` once the primary subsets are in: a dirty line is written, or has
no place and stops, and a clean one is dropped. -/
theorem sFlush_spec (hi : sparseWf ILine.empty s.icache) (hd : sparseWf DLine.empty s.dcache)
    (hs : sparseWf SLine.empty s.scache) (hm : Memory.wf s.mem) : ∃ t,
      Absorbed s t k (s.sLineAddr k) (subsetKeys (s.sLineAddr k)) ∧
      ∀ (st : BitVec 2) (d : BitVec 256), t.sLine k = { s.sLine k with state := st, data := d } →
        (st = 3 → LinePlace s (s.sLineAddr k) → ∃ v, sFlush k s = .val () v ∧ Dropped s v k (s.sLineAddr k) d ∧
          LineWritten s v (s.sLineAddr k) d) ∧
        (st = 3 → ¬LinePlace s (s.sLineAddr k) →
          ((sFlush k s).andThen fun _ v => done v) = (s.target (s.sLineAddr k)).stop) ∧
        (st ≠ 3 → ∃ v, sFlush k s = .val () v ∧ Dropped s v k (s.sLineAddr k) d ∧ SameMemory s v) := by
  obtain ⟨t, e, hti, ht⟩ := sFlush_absorbed (k := k) hi hd hs
  refine ⟨t, ht, fun st d hk => ?_⟩
  have hmem : t.mem = s.mem := by rw [ht.frame]
  have htarget (q : PAddr) : t.target q = s.target q := by rw [ht.frame]; rfl
  have haddr : t.sLineAddr k = s.sLineAddr k := by rw [State.sLineAddr, hk]; rfl
  have hst : (t.sLine k).state = st := by rw [hk]
  have ready (h : LinePlace s (s.sLineAddr k) ∨ st ≠ 3) : ∃ v, sFlush k s = .val () (v.sInvalidate k) ∧
      Dropped s (v.sInvalidate k) k (s.sLineAddr k) d ∧ (st ≠ 3 → SameMemory t v) ∧
      (st = 3 → LineWritten t v (s.sLineAddr k) d) := by
    obtain ⟨v, hv⟩ := sEvict_ready (s := t) (w := k) fun h3 => by
      obtain ⟨a, ha⟩ := h.resolve_right fun hn => hn (hst.symm.trans h3)
      exact ⟨a, by rw [haddr, htarget]; exact ha⟩
    obtain ⟨hclean, hdirty, _, hframe⟩ := sEvict_spec (hmem ▸ hm) hv
    rw [haddr, hst, hk] at hdirty
    rw [hst] at hclean
    exact ⟨v, by rw [e, hv, bind_val], ht.dropped hti hk hframe, hclean, hdirty⟩
  refine ⟨fun h3 hp => ?_, fun h3 hp => ?_, fun h3 => ?_⟩
  · obtain ⟨v, hv, hdrop, _, hw⟩ := ready (.inl hp)
    rcases hw h3 with ⟨a, ha, hb⟩ | ⟨⟨a, ha⟩, hb⟩
    · exact ⟨_, hv, hdrop, .inl ⟨a, htarget _ ▸ ha, fun b => hmem ▸ hb b⟩⟩
    · exact ⟨_, hv, hdrop, .inr ⟨⟨a, htarget _ ▸ ha⟩, hb.congr hmem.symm rfl⟩⟩
  · have write : t.sEvict k = t.lineWrite (s.sLineAddr k) d := by
      rw [State.sEvict, hk]
      exact if_pos h3
    rw [e, write, bind_andThen, ← htarget]
    exact lineWrite_stop (fun ⟨a, ha⟩ => hp ⟨a, by rw [← htarget]; exact ha⟩) _
  · obtain ⟨v, hv, hdrop, hsame, _⟩ := ready (.inr h3)
    exact ⟨_, hv, hdrop, (hsame h3).congr hmem.symm rfl⟩

/-- A flush followed by the end of the instruction, where the flush is that of a hit invalidation. -/
theorem hitInvalidate_spec (hi : sparseWf ILine.empty s.icache) (hd : sparseWf DLine.empty s.dcache)
    (hs : sparseWf SLine.empty s.scache) (p : PAddr) (k : Nat) : ∃ v,
      ((dFlushHits false p (subsetKeys p) (s.dropILines (fun l => l.holds p) (subsetKeys p))).bind fun _ u =>
        .val () (u.sInvalidate k)) = .val () v ∧ Dropped s v k p (s.sLine k).data ∧ SameMemory s v := by
  suffices ∀ ks, ks = subsetKeys p → ∃ v,
      ((dFlushHits false p ks (s.dropILines (fun l => l.holds p) ks)).bind fun _ u =>
        .val () (u.sInvalidate k)) = .val () v ∧ Dropped s v k p (s.sLine k).data ∧ SameMemory s v from this _ rfl
  intro ks hks
  obtain ⟨hf, hl⟩ := dropILines_spec (f := fun l => l.holds p) ks s hi
  generalize s.dropILines (fun l => l.holds p) ks = u at hf hl ⊢
  have hud : u.dcache = s.dcache := by rw [hf]
  obtain ⟨v, e, _, hvf, hvl⟩ := dFlushHits_clean (pa := p) (wb := false) ks u (hud ▸ hd) fun _ _ _ h => by cases h
  have hus : v.scache = s.scache := by rw [hvf, hf]
  have same (i : Nat) : v.sLine i = s.sLine i := by rw [State.sLine, hus]; rfl
  subst hks
  refine ⟨v.sInvalidate k, by rw [e, bind_val], ⟨fun i => ?_, fun j => ?_, fun i => ?_, ?_⟩, ?_⟩
  · rw [State.sInvalidate, sLine_set (hus ▸ hs), same, same]
  · refine (hvl j).trans ?_
    rw [hf]
    rfl
  · rw [← hl i, hvf]
    rfl
  · rw [hvf, hf]
    rfl
  · rw [hvf, hf]
    exact fun _ => rfl

/-- Settles O36: the write-backs by `sFlush_spec`, Hit Invalidate by `hitInvalidate_spec`. -/
theorem secondaryCacheInvalidation : Obligations.SecondaryCacheInvalidation := by
  intro s base o pa hp va ht hi hd hs hm si subset dirty invalidates writesBack
  have keys (q : PAddr) (j : Nat) : j ∈ subsetKeys q ∧ (s.dLine j).holds q = true ↔ subset q j :=
    (and_congr_left' mem_subsetKeys).trans and_assoc
  have gone {v : State} {k : Nat} {q : PAddr} {d : BitVec 256} {memory : State → Prop} (h : Dropped s v k q d)
      (hmem : memory v.advance) : invalidates (done v) k q d memory := by
    refine ⟨v.advance, rfl, (advance_pc v).trans (nextPc_congr (by rw [h.frame]) (by rw [h.frame])), rfl, hmem,
      h.secondary, fun j => (h.dataLines j).trans (if_congr (keys q j) rfl rfl), fun i => (h.instrLines i).trans
      (if_congr ((and_congr_left' mem_subsetKeys).trans and_assoc) rfl rfl), ?_⟩
    rw [h.frame]
    rfl
  have flush (k : Nat) : writesBack ((sFlush k s).andThen fun _ t => done t) k := by
    obtain ⟨t, hab, run⟩ := sFlush_spec (k := k) hi hd hs hm
    have dirtyEnd {d : BitVec 256} (hk : t.sLine k = { s.sLine k with state := 3, data := d }) :
        (LinePlace s (s.sLineAddr k) → invalidates ((sFlush k s).andThen fun _ t => done t) k (s.sLineAddr k) d
          fun t => LineWritten s t (s.sLineAddr k) d) ∧
        (¬LinePlace s (s.sLineAddr k) →
          ((sFlush k s).andThen fun _ t => done t) = (s.target (s.sLineAddr k)).stop) := by
      refine ⟨fun hpl => ?_, (run 3 d hk).2.1 rfl⟩
      obtain ⟨v, hv, hdrop, hw⟩ := (run 3 d hk).1 rfl hpl
      rw [hv, andThen_val]
      exact gone hdrop hw
    have clean (hn : ∀ j, ¬dirty (s.sLineAddr k) j) : t.sLine k = s.sLine k :=
      hab.clean fun j hj hh h3 => hn j ⟨(keys _ j).1 ⟨hj, hh⟩, h3⟩
    refine ⟨fun j hj hlast => ?_, fun hn h3 => ?_, fun hn h3 => ?_⟩
    · obtain ⟨hsub, h3⟩ := hj
      obtain ⟨hmem, hh⟩ := (keys _ j).2 hsub
      exact dirtyEnd (hab.dirty j hmem hh h3 fun j' hj' hlt hh' h3' => hlast j' hlt ⟨(keys _ j').1 ⟨hj', hh'⟩, h3'⟩)
    · refine dirtyEnd ((clean hn).trans ?_)
      rw [← h3]
    · obtain ⟨v, hv, hdrop, hw⟩ := (run (s.sLine k).state (s.sLine k).data (clean hn)).2.2 h3
      rw [hv, andThen_val]
      exact gone hdrop hw
  have nothing : OnlyAdvances (done s) s := ⟨_, rfl, advance_pc s, rfl, fun _ => rfl, rfl⟩
  have run3 : exec (.cache3 base o) s =
      (if (s.sLine si).state = 0 then .val () s else sFlush si s : Result Unit).andThen fun _ t => done t :=
    cacheOp_cached (fun _ pa t => if (t.sLine (sIndex pa)).state = 0 then .val () t else sFlush (sIndex pa) t) hp ht
  refine ⟨fun h0 => ?_, fun h0 => ?_, fun hn => ⟨?_, ?_⟩, fun k hk => ⟨?_, ?_⟩⟩
  · rw [run3, if_pos h0]
    exact nothing
  · rw [run3, if_neg h0]
    exact flush si
  · rw [show exec (.cache19 base o) s = execCache19 base o s from rfl, execCache19, cacheOp_cached _ hp ht]
    simp only [hn]
    exact nothing
  · rw [show exec (.cache23 base o) s = execCache23 base o s from rfl, execCache23, cacheOp_cached _ hp ht]
    simp only [hn]
    exact nothing
  · rw [show exec (.cache23 base o) s = execCache23 base o s from rfl, execCache23, cacheOp_cached _ hp ht]
    simp only [hk]
    exact flush k
  · obtain ⟨v, hv, hdrop, hsame⟩ := hitInvalidate_spec hi hd hs pa k
    rw [show exec (.cache19 base o) s = execCache19 base o s from rfl, execCache19, cacheOp_cached _ hp ht]
    simp only [hk]
    rw [hv, andThen_val]
    exact gone hdrop hsame

end Sys2Proof.Machine
end

