-- ==== Sys2Proof/Proofs/Fetch.lean ====
section
/-! SUPPORT. The fetch: what its translation changes, the word of a line, and the instruction cache on a miss. -/

namespace Sys2Proof.Machine
variable {s t : State} {va : DWord} {pa p : PAddr} {attr : BitVec 3} {a : Nat}

/-! ### The translation of a fetch -/

/-- `t` is `s` with other copies in the instruction TLB and other free values. -/
structure SameButItlb (s t : State) : Prop where
  frame : t = { s with itlb := t.itlb, draws := t.draws, freeCount := t.freeCount }

theorem itlbFill_frame (s : State) (va : DWord) : SameButItlb s (s.itlbFill va) := by
  cases h : s.lookup va with
  | page e p => exact ⟨(itlbFill_spec h).1⟩
  | miss | undefined => exact ⟨by simp only [State.itlbFill, h]⟩

/-- A fetch translation changes the copies and the free values alone. -/
theorem translateFetch_frame (s : State) (va : DWord) : SameButItlb s (s.translateFetch va).2 := by
  have same : SameButItlb s s := ⟨rfl⟩
  have mapped : SameButItlb s (s.translateFetchMapped va).2 := by
    unfold State.translateFetchMapped
    split
    · exact same
    · split
      · exact itlbFill_frame s va
      · exact same
  unfold State.translateFetch
  split
  · exact same
  · split
    · exact same
    · exact same
    · exact mapped

namespace SameButItlb
variable (h : SameButItlb s t)
include h

theorem below : SameBelow t s := ⟨by rw [h.frame], by rw [h.frame], by rw [h.frame], fun q => by rw [h.frame]; rfl⟩

theorem mem : t.mem = s.mem := by rw [h.frame]

theorem icache : t.icache = s.icache := by rw [h.frame]

theorem iLine (k : Nat) : t.iLine k = s.iLine k := by rw [h.frame]; rfl

theorem iHit (va : DWord) (pa : PAddr) : t.iHit va pa = s.iHit va pa := by rw [h.frame]; rfl

theorem busErrorAt (k : Access) (q : PAddr) : t.busErrorAt k q = s.busErrorAt k q := by rw [h.frame]; rfl

theorem blockAt {k : Access} {q : PAddr} (hb : BlockAt s k q a) : BlockAt t k q a := by
  obtain ⟨he, hb⟩ := hb
  refine ⟨(h.busErrorAt k q).trans he, ?_⟩
  rw [← h.below.target, ← h.below.io]
  exact hb

end SameButItlb

/-- The place a block read comes from is fixed. -/
theorem BlockAt.unique {k : Access} {b : Nat} (h1 : BlockAt s k p a) (h2 : BlockAt s k p b) : a = b := by
  rcases h1.2 with h | ⟨h, _⟩ <;> rcases h2.2 with h' | ⟨h', _⟩ <;> rw [h] at h' <;> cases h' <;> rfl

/-! ### The word of a line -/

/-- The four bytes from place `n` of a line, the lowest in bits 7:0. -/
def lineWord (d : BitVec 256) (n : Nat) : Word := byteOf d (n + 3) ++ byteOf d (n + 2) ++ byteOf d (n + 1) ++ byteOf d n

theorem low32_readLanes (d : BitVec 256) (n : Nat) : low32 (readLanes d n 4) = lineWord d n := by
  apply BitVec.eq_of_getLsbD_eq
  intro i hi
  have ones : (BitVec.ofNat 64 (2 ^ (8 * 4) - 1)).getLsbD i = true := by
    rw [BitVec.getLsbD_ofNat, Nat.testBit_two_pow_sub_one]
    simp; omega
  simp only [low32, readLanes, lowBytes, lineWord, byteOf, BitVec.getLsbD_extractLsb', BitVec.getLsbD_append,
    BitVec.getLsbD_and, BitVec.getLsbD_setWidth, BitVec.getLsbD_ushiftRight, Nat.zero_add, ones]
  grind

/-! ### The instruction cache -/

theorem cachedFetch_hit {k : Nat} (h : t.iHit va pa = some k) :
    t.cachedFetch va pa = .val (lineWord (t.iLine k).data (pa.toNat % 32)) t := by
  simp only [State.cachedFetch, h, low32_readLanes]

/-- Where a line has come up depends on the state beneath the primary caches alone. -/
theorem LineFetched.congr {u : State} {k : Access} {d : BitVec 256} {way : BitVec 2} (h : LineFetched s t k p d way)
    (hu : SameBelow t u) : LineFetched s u k p d way := by
  rcases h with ⟨j, h1, h2, h3, h4, h5, h6⟩ | ⟨a, h1, h2, ⟨h3, h4, h5, h6⟩ | ⟨h3, h4, w, h5, h6⟩⟩
  · exact .inl ⟨j, h1, h2, h3, h4, hu.scache.trans h5, hu.mem.trans h6⟩
  · exact .inr ⟨a, h1, h2, .inl ⟨h3, h4, hu.scache.trans h5, hu.mem.trans h6⟩⟩
  · exact .inr ⟨a, h1, h2, .inr ⟨h3, h4, w, h5, h6.congr ⟨rfl, rfl, rfl, fun _ => rfl⟩ hu⟩⟩

/-- A miss whose line comes up: the word of that line, which is then in the instruction cache. -/
theorem cachedFetch_miss (hi : sparseWf ILine.empty t.icache) (hs : sparseWf SLine.empty t.scache)
    (hm : Memory.wf t.mem) (h : t.iHit va pa = none)
    (hr : (t.io.disableScache = false ∧ t.sHit (lineBase pa) ≠ none) ∨
      ((∃ a, BlockAt t .fetch (lineBase pa) a) ∧ (t.io.disableScache = false → SecondaryVictimsReady t (lineBase pa)))) :
    ∃ d way u, t.cachedFetch va pa = .val (lineWord d (pa.toNat % 32)) u ∧
      LineFetched t u .fetch (lineBase pa) d way ∧
      (∃ v, v / 4 = primarySet va ∧ ∀ k, u.iLine k = if k = v then ⟨primaryTag pa, true, d⟩ else t.iLine k) ∧
      u = { t with
        icache := u.icache, scache := u.scache, mem := u.mem, draws := u.draws, freeCount := u.freeCount } := by
  obtain ⟨r, x, e⟩ := sFetch_ready hr
  obtain ⟨hf, hx⟩ := sFetch_spec hs hm e
  obtain ⟨dr, n, hp⟩ := pickWay_frame x (primarySet va)
  have hv := pickWay_set x (primarySet va)
  have run : t.cachedFetch va pa = .val (lineWord r.1 (pa.toNat % 32))
      ((x.pickWay (primarySet va)).2.setILine (x.pickWay (primarySet va)).1 ⟨primaryTag pa, true, r.1⟩) := by
    simp only [State.cachedFetch, h, e, bind_val, low32_readLanes]
  rw [hp] at run
  have hxi : x.icache = t.icache := by rw [hx.frame]
  refine ⟨r.1, r.2, _, run, hf.congr ⟨rfl, rfl, rfl, fun _ => rfl⟩, ⟨_, hv, fun k => ?_⟩, ?_⟩
  · rw [iLine_set (s := { x with draws := dr, freeCount := n }) (hxi ▸ hi)]
    congr 1
    rw [State.iLine, hxi]
    rfl
  · rw [hx.frame]
    rfl

/-- A line whose block read gets an error is not brought in. -/
theorem cachedFetch_error (h : t.iHit va pa = none)
    (hs : t.io.disableScache = true ∨ t.sHit (lineBase pa) = none) (he : t.busErrorAt .fetch (lineBase pa) = true) :
    t.cachedFetch va pa = .exc (.busError true) t := by
  simp only [State.cachedFetch, h, sFetch_error hs he]
  rfl

/-! ### The fetch -/

/-- A fetch whose translation delivers an address. -/
theorem fetch_translated (ha : s.pc.toNat % 4 = 0) (ht : s.translateFetch s.pc = (.ok pa attr, t)) : s.fetch =
    if attr = 3 then t.cachedFetch s.pc pa else (t.busRead .fetch pa 4).bind fun v u => .val (low32 v) u := by
  rw [State.fetch, if_pos (show aligned 4 s.pc = true from decide_eq_true ha), ht]

/-- Settles O5: the uncached forms by the bus read, the cached ones by the instruction cache's hit, miss and error. -/
theorem fetchReadsTheWordAtThePc : Obligations.FetchReadsTheWordAtThePc := by
  intro s t pa attr hi hs hm line at' word fills
  refine ⟨fun ha => ?_, fun ha ht => ?_⟩
  · rw [State.fetch, if_neg (show ¬aligned 4 s.pc = true by simpa [aligned] using ha)]
  have same : SameButItlb s t := by
    have := translateFetch_frame s s.pc
    rwa [ht] at this
  have uncached (h3 : attr ≠ 3) : s.fetch = (t.busRead .fetch pa 4).bind fun v u => .val (low32 v) u := by
    rw [fetch_translated ha ht, if_neg h3]
  have cached (h3 : attr = 3) : s.fetch = t.cachedFetch s.pc pa := by rw [fetch_translated ha ht, if_pos h3]
  have miss (h3 : attr = 3) (hmiss : s.iHit s.pc pa = none)
      (hr : (s.io.disableScache = false ∧ s.sHit line ≠ none) ∨
        ((∃ a, BlockAt s .fetch line a) ∧ (s.io.disableScache = false → SecondaryVictimsReady s line))) :
      ∃ d way u, s.fetch = .val (word d) u ∧ LineFetched t u .fetch line d way ∧ fills u d ∧ u = { t with
        icache := u.icache, scache := u.scache, mem := u.mem, draws := u.draws, freeCount := u.freeCount } := by
    obtain ⟨d, way, u, e, hf, ⟨v, hv, hl⟩, hu⟩ := cachedFetch_miss (t := t) (by rw [same.icache]; exact hi)
      (by rw [← same.below.scache]; exact hs) (by rw [same.mem]; exact hm) ((same.iHit _ _).trans hmiss) (by
        rw [← same.below.io, ← same.below.sHit]
        refine hr.imp_right fun ⟨⟨a, hb⟩, hv⟩ => ⟨⟨a, same.blockAt hb⟩, fun h => (hv h).congr ?_⟩
        exact ⟨same.below.scache.symm, same.below.mem.symm, same.below.io.symm, fun q => (same.below.target q).symm⟩)
    exact ⟨d, way, u, (cached h3).trans e, hf, ⟨v, hv, fun k => (hl k).trans (by rw [same.iLine]; rfl)⟩, hu⟩
  refine ⟨fun a h3 he hta => ?_, fun h3 he => ?_, fun k h3 hhit => ?_, fun j h3 hmiss hd hj => ?_,
    fun a h3 hmiss hd hb => ?_, fun a h3 hmiss hd hn hb hv => ?_, fun h3 hmiss hn he => ?_⟩
  · have read : t.busRead .fetch pa 4 = .val (readLe s.mem a 4) t := by
      rw [State.busRead, same.busErrorAt, he, ← same.below.target, ← same.mem]
      rcases hta with h | h <;> rw [h] <;> rfl
    rw [uncached h3, read, bind_val, low32_readLe]
  · have read : t.busRead .fetch pa 4 = .exc (.busError true) t := by
      rw [State.busRead, same.busErrorAt, if_pos he]
      rfl
    rw [uncached h3, read, bind_exc]
  · rw [cached h3, cachedFetch_hit ((same.iHit _ _).trans hhit), same.iLine]
    rfl
  · obtain ⟨d, way, u, e, hf, hfill, hu⟩ := miss h3 hmiss (.inl ⟨hd, by rw [hj]; exact Option.some_ne_none j⟩)
    rcases hf with ⟨j', _, hj', rfl, _, hsc, hmem⟩ | ⟨_, _, _, ⟨hd', _⟩ | ⟨_, hn, _⟩⟩
    · rw [← same.below.sHit, hj] at hj'
      cases hj'
      rw [← same.below.sLine] at e hfill
      refine ⟨u, e, hfill, hu.trans ?_⟩
      rw [hsc, hmem]
    · rw [← same.below.io, hd] at hd'
      cases hd'
    · rw [← same.below.sHit, hj] at hn
      cases hn
  · obtain ⟨d, way, u, e, hf, hfill, hu⟩ := miss h3 hmiss (.inr ⟨⟨a, hb⟩, fun h => by rw [hd] at h; cases h⟩)
    rcases hf with ⟨_, hd', _⟩ | ⟨a', hb', hbytes, ⟨_, _, hsc, hmem⟩ | ⟨hd', _⟩⟩
    · rw [← same.below.io, hd] at hd'
      cases hd'
    · cases (same.blockAt hb).unique hb'
      refine ⟨d, u, fun i hi => (hbytes i hi).trans (by rw [same.mem]), e, hfill, hu.trans ?_⟩
      rw [hsc, hmem]
    · rw [← same.below.io, hd] at hd'
      cases hd'
  · obtain ⟨d, way, u, e, hf, hfill, hu⟩ := miss h3 hmiss (.inr ⟨⟨a, hb⟩, fun _ => hv⟩)
    rcases hf with ⟨_, _, hj, _⟩ | ⟨a', hb', hbytes, ⟨hd', _⟩ | ⟨_, _, w, _, hsf⟩⟩
    · rw [← same.below.sHit, hn] at hj
      cases hj
    · rw [← same.below.io, hd] at hd'
      cases hd'
    · cases (same.blockAt hb).unique hb'
      exact ⟨d, w, u, fun i hi => (hbytes i hi).trans (by rw [same.mem]), e, hfill,
        hsf.congr same.below ⟨rfl, rfl, rfl, fun _ => rfl⟩, hu⟩
  · rw [cached h3]
    refine cachedFetch_error ((same.iHit _ _).trans hmiss) ?_ ((same.busErrorAt _ _).trans he)
    rw [← same.below.io, ← same.below.sHit]
    exact hn

end Sys2Proof.Machine
end

