-- ==== Sys2Proof/Proofs/Segments.lean ====
section
/-! SUPPORT. The segment table by ranges of addresses, and the TLB probe. -/

namespace Sys2Proof.Machine
variable {s : State}

/-! ### The segment table -/

/-- A field of an address holds a constant where the address, as a number, has it there. -/
theorem extract_eq_iff (va : DWord) (i n k : Nat) (hk : k < 2 ^ n) :
    va.extractLsb' i n = BitVec.ofNat n k ↔ va.toNat / 2 ^ i % 2 ^ n = k := by
  rw [← BitVec.toNat_inj, BitVec.extractLsb'_toNat, Nat.shiftRight_eq_div_pow, BitVec.toNat_ofNat, Nat.mod_eq_of_lt hk]

/-- The low bits of an address as a physical address. -/
theorem low_setWidth (va : DWord) (n : Nat) :
    (va.extractLsb' 0 n).setWidth 40 = BitVec.ofNat 40 (va.toNat % 2 ^ n) := by
  apply BitVec.eq_of_toNat_eq
  rw [BitVec.toNat_setWidth, BitVec.extractLsb'_toNat, BitVec.toNat_ofNat, Nat.shiftRight_zero]

section
variable (va : DWord)

theorem inXuseg_iff : va.extractLsb' 40 24 = 0x000000 ↔ va.toNat < 2 ^ 40 := by
  have := va.isLt
  rw [show (0x000000 : BitVec 24) = BitVec.ofNat 24 0 from rfl, extract_eq_iff va _ _ _ (by decide)]
  omega

theorem inXsseg_iff : va.extractLsb' 40 24 = 0x400000 ↔ 2 ^ 62 ≤ va.toNat ∧ va.toNat < 2 ^ 62 + 2 ^ 40 := by
  have := va.isLt
  rw [show (0x400000 : BitVec 24) = BitVec.ofNat 24 0x400000 from rfl, extract_eq_iff va _ _ _ (by decide)]
  omega

theorem inXkphys_iff : va.extractLsb' 62 2 = 0b10 ↔ 2 ^ 63 ≤ va.toNat ∧ va.toNat < 0xC000000000000000 := by
  have := va.isLt
  rw [show (0b10 : BitVec 2) = BitVec.ofNat 2 2 from rfl, extract_eq_iff va _ _ _ (by decide)]
  omega

theorem inXkseg_iff : va.extractLsb' 40 24 = 0xC00000 ∧ va.extractLsb' 31 9 ≠ 0x1FF ↔
    0xC000000000000000 ≤ va.toNat ∧ va.toNat < 0xC00000FF80000000 := by
  have := va.isLt
  rw [show (0xC00000 : BitVec 24) = BitVec.ofNat 24 0xC00000 from rfl, ne_eq,
    show (0x1FF : BitVec 9) = BitVec.ofNat 9 0x1FF from rfl, extract_eq_iff va _ _ _ (by decide),
    extract_eq_iff va _ _ _ (by decide)]
  omega

theorem inCompat_iff : va.extractLsb' 31 33 = BitVec.allOnes 33 ↔ 0xFFFFFFFF80000000 ≤ va.toNat := by
  have := va.isLt
  rw [show BitVec.allOnes 33 = BitVec.ofNat 33 (2 ^ 33 - 1) from rfl, extract_eq_iff va _ _ _ (by decide)]
  omega

/-- Which of the four 512 MB pieces of the compatibility space an address is in. -/
theorem compatPiece {k : Nat} (hk : k < 4) (h : 0xFFFFFFFF80000000 + k * 0x20000000 ≤ va.toNat)
    (h' : va.toNat < 0xFFFFFFFF80000000 + (k + 1) * 0x20000000) : va.extractLsb' 29 2 = BitVec.ofNat 2 k := by
  rw [extract_eq_iff va _ _ _ (by omega)]
  omega

end

/-- Settles O31: the conditions of the rows as ranges, then row by row. -/
theorem segmentTable : Obligations.SegmentTable := by
  intro m k0 va a seg
  have rows : segmentOf m k0 va = seg := rfl
  have window : va.extractLsb' 36 23 = 0 ↔ a / 2 ^ 36 % 2 ^ 23 = 0 := extract_eq_iff va 36 23 0 (by decide)
  have attr : va.extractLsb' 59 3 = BitVec.ofNat 3 (a / 2 ^ 59) := by
    rw [BitVec.extractLsb', Nat.shiftRight_eq_div_pow]
  have offset (n : Nat) (hn : n % 2 ^ 29 = 0) (h : n ≤ a) (h' : a < n + 2 ^ 29) :
      (va.extractLsb' 0 29).setWidth 40 = BitVec.ofNat 40 (a - n) := by
    rw [low_setWidth, show va.toNat % 2 ^ 29 = a - n by omega]
  simp only [segmentOf, inXuseg_iff, inXsseg_iff, inXkphys_iff, inXkseg_iff, inCompat_iff, window, attr,
    low_setWidth va 36, show va.toNat = a from rfl] at rows
  have hlt : a < 2 ^ 64 := va.isLt
  rw [← rows]
  refine ⟨fun h => ?_, fun h h' => ?_, fun h h' => ?_, fun h h' => ?_, fun h h' => ?_, fun h h' => ?_, fun h h' => ?_,
    fun h h' => ?_, fun h h' => ?_, fun h h' => ?_, fun h => ?_⟩
  · rw [if_pos h]
  · rw [if_neg (by omega), if_neg (by omega), if_neg (by omega), if_neg (by omega), if_neg (by omega)]
  · rw [if_neg (by omega), if_pos ⟨h, h'⟩]
  · rw [if_neg (by omega), if_neg (by omega), if_neg (by omega), if_neg (by omega), if_neg (by omega)]
  · rw [if_neg (by omega), if_neg (by omega), if_pos ⟨h, h'⟩]
  · rw [if_neg (by omega), if_neg (by omega), if_neg (by omega), if_pos ⟨h, h'⟩]
  · rw [if_neg (by omega), if_neg (by omega), if_neg (by omega), if_neg (by omega), if_neg (by omega)]
  all_goals rw [if_neg (by omega), if_neg (by omega), if_neg (by omega), if_neg (by omega), if_pos (by omega)]
  · rw [compatPiece va (k := 0) (by decide) (by omega) (by omega), offset 0xFFFFFFFF80000000 (by decide) h h']
    rfl
  · rw [compatPiece va (k := 1) (by decide) (by omega) (by omega), offset 0xFFFFFFFFA0000000 (by decide) h h']
    rfl
  · rw [compatPiece va (k := 2) (by decide) (by omega) (by omega)]
    rfl
  · rw [compatPiece va (k := 3) (by decide) (by omega) (by omega)]
    rfl

/-! ### The probe -/

/-- TLBP where it may run: the search for the page EntryHi names. -/
theorem exec_tlbp (hp : Privileged s) (hm : s.tlbMask ∈ [0#12, 3, 0xF, 0x3F, 0xFF, 0x3FF, 0xFFF]) :
    exec .tlbp s = s.probeTlb.andThen fun _ t => done t := (withCp0_allowed hp).trans (withMask_legal hm)

theorem probeTlb_one {i : Fin 64} (h : ∀ j, s.tlbMaps s.cp0.entryHi j ↔ j = i) :
    s.probeTlb = .val () (s.setIndex (BitVec.ofNat 32 i.val)) := by
  rw [State.probeTlb, eq_singleton_of_nodup (nodup_tlbHits s _ _) h]

theorem probeTlb_miss (h : ∀ i, ¬s.tlbMaps s.cp0.entryHi i) :
    s.probeTlb = .val () (s.free.2.setIndex (1#1 ++ 0#25 ++ BitVec.ofNat 6 s.free.1)) := by
  have index (x : BitVec 6) : 0x80000000 ||| x.setWidth 32 = 1#1 ++ 0#25 ++ x := by revert x; decide
  rw [State.probeTlb, List.eq_nil_iff_forall_not_mem.2 h, index]

theorem probeTlb_several {i j : Fin 64} (hij : i ≠ j) (hi : s.tlbMaps s.cp0.entryHi i)
    (hj : s.tlbMaps s.cp0.entryHi j) : s.probeTlb = .fault .multipleTlbMatch := by
  unfold State.tlbMaps at hi hj
  unfold State.probeTlb
  split
  · next e => rw [e] at hi; cases hi
  · next x e =>
    rw [e, List.mem_singleton] at hi hj
    exact absurd (hi.trans hj.symm) hij
  · rfl

/-- Settles O30: one entry, none, or several by what the search finds. -/
theorem tlbProbe : Obligations.TlbProbe := by
  intro s hp hm hits
  have maps (i : Fin 64) : s.tlbMaps s.cp0.entryHi i ↔ hits i := tlbMaps_iff
  refine ⟨fun i h => ?_, fun h => ?_, fun i j hij hi hj => ?_⟩
  · rw [exec_tlbp hp hm, probeTlb_one fun j => (maps j).trans (h j)]
    exact ⟨_, rfl, rfl, advance_pc _, rfl, fun _ => rfl, rfl⟩
  · obtain ⟨d, n, hf⟩ := free_eq s
    refine ⟨BitVec.ofNat 6 s.free.1, _, by rw [exec_tlbp hp hm, probeTlb_miss fun i => (maps i).not.2 (h i)]; rfl, ?_⟩
    rw [hf]
    exact ⟨rfl, advance_pc _, rfl, fun _ => rfl, rfl⟩
  · rw [exec_tlbp hp hm, probeTlb_several hij ((maps i).2 hi) ((maps j).2 hj)]
    rfl

end Sys2Proof.Machine
end

