-- ==== Sys2Proof/Proofs/AddressMap.lean ====
section
/-! SUPPORT. Where an address of the crossbar leads, and the accesses of the PCI masters. -/

namespace Sys2Proof.Machine
variable {s : State} {b : Nat} {m : Fin 4} {w : Fin 4} {y : DWord}

/-! ### The default rows -/

/-- The registers of the DDR2 controller over the top of the first 256 MB. -/
theorem lowTarget_registers (hlo : 0x0FFFFE00 ≤ b) (hhi : b < 0x10000000) (hd : (s.io.regs[32]).getLsbD 8 = false) :
    s.lowTarget b = if h : (b - 0x0FFFFE00) / 16 < 29 then
      (if b % 16 < 8 then .ddr ⟨(b - 0x0FFFFE00) / 16, h⟩ else .hole) else .hole := by
  have on : s.io.disableDdrConf = false := hd
  rw [State.lowTarget, if_pos ⟨hlo, hhi, by rw [on]; rfl⟩]
  have place : (b - 0x0FFFFE00) % 16 = b % 16 := by omega
  simp only [place]
  by_cases h1 : (b - 0x0FFFFE00) / 16 < 29
  · by_cases h2 : b % 16 < 8
    · rw [dif_pos ⟨h1, h2⟩, dif_pos h1, if_pos h2]
    · rw [dif_neg fun h => h2 h.2, dif_pos h1, if_neg h2]
  · rw [dif_neg fun h => h1 h.1, dif_neg h1]

/-- DRAM everywhere else, as far as it is installed. -/
theorem lowTarget_memory (h : b < 0x0FFFFE00 ∨ 0x10000000 ≤ b ∨ (s.io.regs[32]).getLsbD 8 = true) :
    s.lowTarget b = if b < s.cfg.dramBytes then .dram (dramCell b) else .hole := by
  rw [State.lowTarget, if_neg]
  rintro ⟨hlo, hhi, hd⟩
  have off : s.io.disableDdrConf = true := h.resolve_left (by omega) |>.resolve_left (by omega)
  rw [off] at hd
  cases hd

/-- The spaces of the IO controller that are no registers and no ROM: first and last address, and what is there. -/
def ioRows : List (Nat × Nat × Target) :=
  [(0, 0x0FFFFFFF, .hole), (0x10000000, 0x1BFFFFFF, .outside .pciMemory), (0x1E000000, 0x1FBFFFFF, .outside .localIo),
    (0x1FD00000, 0x1FDFFFFF, .outside .pciIo), (0x1FE00200, 0x1FE7FFFF, .hole),
    (0x1FE80000, 0x1FE807FF, .outside .pciConfiguration), (0x1FE80800, 0x1FEFFFFF, .hole),
    (0x1FF00000, 0x1FFFFFFF, .outside .localIo), (0x20000000, 0xFFFFFFFFFF, .outside .pciMemory),
    (0x10000000000, 0xFFFFFFFFFFFFFFFF, .hole)]

theorem ioSide_row {r : Nat × Nat × Target} (hr : r ∈ ioRows) (hlo : r.1 ≤ b) (hhi : b ≤ r.2.1) :
    ioSide b = r.2.2 := by
  simp only [ioRows, List.mem_cons, List.not_mem_nil, or_false] at hr
  unfold ioSide ioTarget
  rcases hr with rfl | rfl | rfl | rfl | rfl | rfl | rfl | rfl | rfl | rfl
  all_goals
    simp only at hlo hhi
    repeat first | rw [if_neg (by omega)] | rw [if_pos (by omega)]

theorem ioSide_rom (h : (0x1C000000 ≤ b ∧ b ≤ 0x1DFFFFFF) ∨ (0x1FC00000 ≤ b ∧ b ≤ 0x1FCFFFFF)) :
    ioSide b = .rom b := by
  unfold ioSide ioTarget
  rcases h with h | h
  all_goals repeat first | rw [if_neg (by omega)] | rw [if_pos (by omega)]

theorem ioSide_header (hlo : 0x1FE00000 ≤ b) (hhi : b ≤ 0x1FE000FF) :
    ioSide b = .header (Fin.ofNat 64 ((b - 0x1FE00000) / 4)) := by
  unfold ioSide ioTarget
  repeat first | rw [if_neg (by omega)] | rw [if_pos (by omega)]

theorem ioSide_regs (hlo : 0x1FE00100 ≤ b) (hhi : b ≤ 0x1FE001FF) :
    ioSide b = .regs (Fin.ofNat 64 ((b - 0x1FE00100) / 4)) := by
  unfold ioSide ioTarget
  repeat first | rw [if_neg (by omega)] | rw [if_pos (by omega)]

/-! ### The windows -/

/-- Window `w` of master `m` claims an address. -/
def State.windowClaims (s : State) (m w : Fin 4) (y : DWord) : Prop := y &&& s.windowPart m w 1 = s.windowPart m w 0

theorem windowHit_none (h : ∀ w, ¬s.windowClaims m w y) : s.windowHit m y = none := by
  rw [State.windowHit, Option.map_eq_none_iff, List.find?_eq_none]
  exact fun w _ => mt of_decide_eq_true (h w)

/-- The lowest-numbered window that claims an address forwards it. -/
theorem windowHit_first (hw : s.windowClaims m w y) (hlow : ∀ w', w' < w → ¬s.windowClaims m w' y) :
    s.windowHit m y = some ((s.windowPart m w 2).extractLsb' 0 2,
      (y &&& ~~~s.windowPart m w 1) ||| (s.windowPart m w 2 &&& 0xFFFFFFFFFFF00000)) := by
  have first : (List.finRange 4).find? (fun w => y &&& s.windowPart m w 1 = s.windowPart m w 0) = some w := by
    rw [List.find?_eq_some_iff_getElem]
    refine ⟨decide_eq_true hw, w.val, by simp, by simp, fun j hj => ?_⟩
    rw [List.getElem_finRange, Bool.not_eq_true', decide_eq_false_iff_not]
    exact hlow _ hj
  rw [State.windowHit, first]
  rfl

/-! ### Routing -/

/-- The window registers come before everything. -/
theorem route_window (master : Option (Fin 4)) (h : 0x3FF00000 ≤ y.toNat ∧ y.toNat < 0x3FF00180) :
    s.route master y = .window (Fin.ofNat 48 ((y.toNat - 0x3FF00000) / 8)) := if_pos h

/-- An address no window claims goes by the default rows. -/
theorem route_default {master : Option (Fin 4)} (h : ¬(0x3FF00000 ≤ y.toNat ∧ y.toNat < 0x3FF00180))
    (hc : ∀ m w, master = some m → ¬s.windowClaims m w y) :
    s.route master y = if y.toNat < 0x10000000 then s.lowTarget y.toNat else ioSide y.toNat := by
  have none : (master.bind fun m => s.windowHit m y) = none := by
    cases master with
    | none => rfl
    | some m => exact windowHit_none fun w => hc m w rfl
  simp only [State.route, if_neg h, none]

/-- An address a window claims goes to the port it names. -/
theorem route_forwarded (h : ¬(0x3FF00000 ≤ y.toNat ∧ y.toNat < 0x3FF00180)) {port : BitVec 2} {out : DWord}
    (hh : s.windowHit m y = some (port, out)) : s.route (some m) y = s.portTarget port out.toNat := by
  simp only [State.route, if_neg h, Option.bind_some, hh]

/-! ### The PCI masters -/

/-- A read or a store that its target does not take delivers no value. -/
theorem targetRead_not_val {T : Target} {off n : Nat} (h : ¬T.Takes n) (x : DWord) (t : State) :
    s.targetRead T off n ≠ .val x t := fun e => by
  have stop := targetRead_stop (s := s) (off := off) h fun _ t => .next t
  rw [e] at stop
  cases T <;> cases stop

theorem targetWrite_not_val {T : Target} {off n : Nat} {v : DWord} (h : ¬T.Takes n) (x : Unit) (t : State) :
    s.targetWrite T off n v ≠ .val x t := fun e => by
  have stop := targetWrite_stop (s := s) (off := off) (v := v) h fun _ t => .next t
  rw [e] at stop
  cases T <;> cases stop

/-- What a PCI master reads of a target that takes the access. -/
theorem pciRead_taken {n : Nat} (hn : n ∈ [1, 2, 4, 8] ∧ y.toNat % n = 0) (ht : (s.pciTarget y).Takes n) :
    ∃ v, s.pciRead y n = some v ∧ Answers s (s.pciTarget y) (y.toNat % 4) n v := by
  have small : n ≤ 8 := by
    have := hn.1
    simp only [List.mem_cons, List.not_mem_nil, or_false] at this
    omega
  obtain ⟨v, e, ha⟩ := targetRead_spec (s := s) (off := y.toNat % 4) ht small
  exact ⟨v, by rw [State.pciRead, if_pos (naturalAccess_iff.2 hn), e], ha⟩

theorem pciRead_refused {n : Nat} (h : ¬(n ∈ [1, 2, 4, 8] ∧ y.toNat % n = 0) ∨ ¬(s.pciTarget y).Takes n) :
    s.pciRead y n = none := by
  unfold State.pciRead
  split
  · next hn =>
    split
    · next v t e => exact absurd e (targetRead_not_val (h.resolve_left fun h => h (naturalAccess_iff.1 hn)) v t)
    · rfl
  · rfl

/-- What a store of a PCI master leaves of a target that takes the access. -/
theorem pciStore_taken {p : PciStore} (hm : Memory.wf s.mem) (hn : p.size ∈ [1, 2, 4, 8] ∧ p.addr.toNat % p.size = 0)
    (ht : (s.pciTarget p.addr).Takes p.size) :
    Stored s (s.pciStore p) (s.pciTarget p.addr) (p.addr.toNat % 4) p.size p.data := by
  obtain ⟨t, e, hs⟩ := targetWrite_spec (off := p.addr.toNat % 4) (v := p.data) hm ht
  rw [State.pciStore, if_pos (naturalAccess_iff.2 hn), e]
  exact hs

theorem pciStore_refused {p : PciStore}
    (h : ¬(p.size ∈ [1, 2, 4, 8] ∧ p.addr.toNat % p.size = 0) ∨ ¬(s.pciTarget p.addr).Takes p.size) :
    s.pciStore p = s := by
  unfold State.pciStore
  split
  · next hn =>
    split
    · next x t e => exact absurd e (targetWrite_not_val (h.resolve_left fun h => h (naturalAccess_iff.1 hn)) x t)
    · rfl
  · rfl

/-- Settles O48: the rows of `lowTarget` and `ioSide`, the windows over them, and the accesses of the masters. -/
theorem physicalAddressMap : Obligations.PhysicalAddressMap := by
  intro s pa x cell part claims forwards dram rows io default routes natural
  have low (b : Nat) : dram b (s.lowTarget b) := ⟨lowTarget_registers, lowTarget_memory⟩
  have side (b : Nat) : io b (ioSide b) := by
    refine ⟨fun r hr => ioSide_row hr, ioSide_rom, fun hlo hhi => ⟨_, ?_, ioSide_header hlo hhi⟩,
      fun hlo hhi => ⟨_, ?_, ioSide_regs hlo hhi⟩⟩
    · exact Nat.mod_eq_of_lt (by omega)
    · exact Nat.mod_eq_of_lt (by omega)
  have route (master : Option (Fin 4)) (y : DWord) : routes master y (s.route master y) := by
    refine ⟨fun h => ⟨_, Nat.mod_eq_of_lt (by omega), route_window master (by omega)⟩, fun h hc => ?_,
      fun m port out h hmaster hf => ?_⟩
    · rw [route_default (by omega) hc]
      by_cases hb : y.toNat < 0x10000000
      · simp only [default, if_pos hb]
        exact low _
      · simp only [default, if_neg hb]
        exact side _
    · obtain ⟨w, hw, hlow, hport, hout⟩ := hf
      have hit : s.windowHit m y = some (port, out) := by
        rw [hport, hout]
        exact windowHit_first hw hlow
      rw [hmaster, route_forwarded (by omega) hit, State.portTarget]
      refine ⟨fun hp => ?_, fun hp hd => ?_, fun hd hp => ?_⟩
      · rw [if_pos hp]
        exact low _
      · rw [if_neg hd, if_pos hp]
        exact side _
      · rw [if_neg hd, if_neg hp]
  exact ⟨route _ _, fun y => route _ _, fun y n => ⟨pciRead_taken, pciRead_refused⟩,
    fun hm p => ⟨pciStore_taken hm, pciStore_refused⟩⟩

end Sys2Proof.Machine
end

