-- ==== Sys2Proof/Proofs/Stores.lean ====
section
/-! SUPPORT. What every form of load and store does with the bytes of its access, and the stores to plain memory. -/

namespace Sys2Proof.Machine
variable {s l : State} {base rt : RegNum} {o : Half} {i : Instr} {n back m : Nat} {v va x : DWord}
  {pa first : PAddr} {a : Nat}

/-! ### Bytes of shifted, masked and narrowed values -/

/-- A byte, bit by bit. -/
theorem byteOf_getLsbD {w : Nat} (y : BitVec w) (i j : Nat) :
    (byteOf y i).getLsbD j = (decide (j < 8) && y.getLsbD (8 * i + j)) := BitVec.getLsbD_extractLsb' ..

theorem byteOf_ushiftRight {w : Nat} (y : BitVec w) (c i : Nat) : byteOf (y >>> (8 * c)) i = byteOf y (c + i) := by
  apply BitVec.eq_of_getLsbD_eq
  intro j hj
  simp only [byteOf_getLsbD, BitVec.getLsbD_ushiftRight, show 8 * c + (8 * i + j) = 8 * (c + i) + j by omega]

theorem byteOf_shiftLeft {w : Nat} (y : BitVec w) (c i : Nat) (hw : 8 * i + 8 ≤ w) :
    byteOf (y <<< (8 * c)) i = if i < c then 0#8 else byteOf y (i - c) := by
  apply BitVec.eq_of_getLsbD_eq
  intro j hj
  simp only [byteOf_getLsbD, BitVec.getLsbD_shiftLeft, hj, show 8 * i + j < w by omega, decide_true, Bool.true_and]
  split
  · simp [show 8 * i + j < 8 * c by omega]
  · rw [byteOf_getLsbD]
    simp [hj, show ¬8 * i + j < 8 * c by omega, show 8 * i + j - 8 * c = 8 * (i - c) + j by omega]

theorem byteOf_and_low {w : Nat} (y : BitVec w) (c i : Nat) :
    byteOf (y &&& BitVec.ofNat w (2 ^ (8 * c) - 1)) i = if i < c then byteOf y i else 0#8 := by
  apply BitVec.eq_of_getLsbD_eq
  intro j hj
  simp only [byteOf_getLsbD, BitVec.getLsbD_and, BitVec.getLsbD_ofNat, Nat.testBit_two_pow_sub_one]
  split
  · by_cases hw : 8 * i + j < w
    · simp [byteOf_getLsbD, hw, show 8 * i + j < 8 * c by omega]
    · simp [byteOf_getLsbD, BitVec.getLsbD_of_ge y _ (Nat.le_of_not_lt hw)]
  · simp [show ¬8 * i + j < 8 * c by omega]

theorem byteOf_and_high {w : Nat} (y : BitVec w) (c i : Nat) :
    byteOf (y &&& ~~~BitVec.ofNat w (2 ^ (8 * c) - 1)) i = if i < c then 0#8 else byteOf y i := by
  apply BitVec.eq_of_getLsbD_eq
  intro j hj
  simp only [byteOf_getLsbD, BitVec.getLsbD_and, BitVec.getLsbD_not, BitVec.getLsbD_ofNat,
    Nat.testBit_two_pow_sub_one]
  by_cases hw : 8 * i + j < w
  · split
    · simp [hw, show 8 * i + j < 8 * c by omega]
    · simp [byteOf_getLsbD, hw, show ¬8 * i + j < 8 * c by omega]
  · split <;> simp [byteOf_getLsbD, BitVec.getLsbD_of_ge y _ (Nat.le_of_not_lt hw)]

theorem byteOf_or {w : Nat} (y z : BitVec w) (i : Nat) : byteOf (y ||| z) i = byteOf y i ||| byteOf z i := by
  apply BitVec.eq_of_getLsbD_eq
  intro j hj
  simp only [byteOf_getLsbD, BitVec.getLsbD_or, hj, decide_true, Bool.true_and]

theorem byteOf_setWidth {w k : Nat} (y : BitVec w) (i : Nat) (h : 8 * i + 8 ≤ k) :
    byteOf (y.setWidth k) i = byteOf y i := by
  apply BitVec.eq_of_getLsbD_eq
  intro j hj
  simp only [byteOf_getLsbD, BitVec.getLsbD_setWidth, show 8 * i + j < k by omega, decide_true, Bool.true_and]

/-- The low word, narrowed by either of the two ways it is written. -/
theorem setWidth_eq_low32 (x : DWord) : x.setWidth 32 = low32 x := by
  apply BitVec.eq_of_getLsbD_eq
  intro j hj
  simp [low32, hj]

/-! ### The stores -/

theorem SameCore.refl (s : State) : SameCore s s := rfl

/-- Whether an instruction is a store-conditional. -/
def isConditional : Instr → Bool
  | .sc _ _ _ => true
  | .scd _ _ _ => true
  | _ => false

/-- A store makes at most eight bytes, its first one in the doubleword of its address. -/
theorem StoreForm.small (h : StoreForm s base rt o i n back m v) (hv : s.r base + o.signExtend 64 = va) :
    m ≤ 8 ∧ back ≤ va.toNat % 8 := by
  subst hv
  cases h <;> omega

/-- A store that is no store-conditional stores its bytes and is done. -/
theorem StoreForm.exec_plain (h : StoreForm s base rt o i n back m v) (hv : s.r base + o.signExtend 64 = va)
    (ha : va.toNat % n = 0) (hc : isConditional i = false) :
    ∃ va0 : DWord, va0.toNat = va.toNat - back ∧
      Machine.exec i s = (s.storeBytes va va0 m v).andThen fun _ t => done t := by
  have same := SameCore.refl s
  cases h with
  | sb | sh | sw | sd => exact ⟨va, rfl, storeGpr_shape _ hv ha same⟩
  | swl =>
    subst hv
    refine ⟨wordBase _, wordBase_toNat _, ?_⟩
    simp only [← inWord_eq]
    exact storePart_shape wordBase (fun va => inWord va + 1) (fun va v => zext64 (low32 v) >>> (24 - 8 * inWord va)) rfl
      same
  | swr =>
    subst hv
    refine ⟨_, rfl, ?_⟩
    simp only [← inWord_eq]
    exact storePart_shape (fun va => va) (fun va => 4 - inWord va) (fun _ v => v) rfl same
  | sdl =>
    subst hv
    refine ⟨doubleBase _, doubleBase_toNat _, ?_⟩
    simp only [← inDouble_eq]
    exact storePart_shape doubleBase (fun va => inDouble va + 1) (fun va v => v >>> (56 - 8 * inDouble va)) rfl same
  | sdr =>
    subst hv
    refine ⟨_, rfl, ?_⟩
    simp only [← inDouble_eq]
    exact storePart_shape (fun va => va) (fun va => 8 - inDouble va) (fun _ v => v) rfl same
  | sc => cases hc
  | scd => cases hc
  | swc1 hc1 =>
    refine ⟨va, rfl, ?_⟩
    show withFpu s ((s.store (s.ea base o) 4 (zext64 (s.f32 rt))).andThen _) = _
    rw [withFpu_enabled hc1, same.ea, hv, State.store, aligned, if_pos (decide_eq_true ha)]
    rfl
  | sdc1 hr =>
    refine ⟨va, rfl, ?_⟩
    show withFpu64 s [rt] ((s.store (s.ea base o) 8 (s.f64 rt)).andThen _) = _
    rw [withFpu64_ready hr.1 (List.all_eq_true.2 hr.2), same.ea, hv, State.store, aligned, if_pos (decide_eq_true ha)]

/-- An access is the same for two operations that agree where its translation delivers an address. -/
theorem access_congr {k : Access} {op op' : State → BitVec 3 → PAddr → Result Unit}
    (h : ∀ pa attr, s.translate k va = .ok pa attr → op s attr pa = op' s attr pa) :
    s.access k va op = s.access k va op' := by
  unfold State.access
  cases ht : s.translate k va with
  | ok pa attr => simp only [h pa attr ht]
  | exc e | fault f => rfl

/-- A store-conditional with the link bit set stores its bytes, writes 1 and clears the link bit. -/
theorem storeConditional_linked (hl : s.llbit = true) (hv : s.r base + o.signExtend 64 = va) (ha : va.toNat % m = 0) :
    storeConditional m base rt o s =
      (s.storeBytes va va m (s.r rt)).andThen fun _ t => done ((t.setR rt 1).setLlbit false) := by
  have stores : (s.access .store va fun u attr pa => if u.llbit then u.writeAttr attr va pa m (u.r rt) else .val () u) =
      s.storeBytes va va m (s.r rt) := access_congr fun pa attr ht => by rw [if_pos hl, sameDouble_self ht]
  rw [storeConditional_shape m hv ha (SameCore.refl s), stores, hl]
  rfl

/-- One with the link bit clear stores nothing and writes 0. -/
theorem storeConditional_unlinked {attr : BitVec 3} (hl : s.llbit = false) (hv : s.r base + o.signExtend 64 = va)
    (ha : va.toNat % m = 0) (ht : s.translate .store va = .ok pa attr)
    (hw : s.watchMatch .store va = true → s.exl = true ∨ s.erl = true) :
    storeConditional m base rt o s = done (((s.afterWatch .store va).setR rt 0).setLlbit false) := by
  rw [storeConditional_shape m hv ha (SameCore.refl s), access_ok _ ht hw, hl]
  simp only [Bool.false_eq_true, if_false, bind_val, andThen_val, postponeWatch_eq]

/-- Every store form but the store-conditionals, from `StoreResult`'s point of view: its bytes are in memory. -/
theorem StoreForm.storeResult (h : StoreForm s base rt o i n back m v) (ha : (s.r base + o.signExtend 64).toNat % n = 0)
    (hc : isConditional i = false) (hm : Memory.wf s.mem)
    (hp : PlainAccess s .store (s.r base + o.signExtend 64) pa first a) (hb : pa - BitVec.ofNat 40 back = first)
    {f : Nat → Byte} (hf : ∀ j, j < m → byteOf v j = f j) :
    StoreResult (Machine.exec i s) (s.afterWatch .store (s.r base + o.signExtend 64)) a m f := by
  obtain ⟨va0, h1, h3⟩ := h.exec_plain rfl ha hc
  obtain ⟨attr, -, ht⟩ := hp.uncached
  rw [h3, storeBytes_plain m v hp ((sameDouble_base ht (h.small rfl).2 h1).trans hb), andThen_val]
  obtain ⟨t, e, hin, hout, hpc, hd, hfr⟩ :=
    storeResult_done (s := s.afterWatch .store (s.r base + o.signExtend 64)) a v m hm
  exact ⟨t, e, fun j hj => (hin j hj).trans (hf j hj), hout, hpc, hd, hfr⟩

/-- The bytes SWL stores: the top bytes of the low word, down to its highest. -/
theorem byteOf_topOfWord (y : DWord) {w j : Nat} (hw : w < 4) (hj : j < w + 1) :
    byteOf (((y.setWidth 32).setWidth 64) >>> (24 - 8 * w)) j = byteOf y (3 - w + j) := by
  rw [show 24 - 8 * w = 8 * (3 - w) by omega, byteOf_ushiftRight, byteOf_setWidth _ _ (by omega),
    byteOf_setWidth _ _ (by omega)]

/-- The bytes SDL stores. -/
theorem byteOf_topOfDouble (y : DWord) {d : Nat} (hd : d < 8) (j : Nat) :
    byteOf (y >>> (56 - 8 * d)) j = byteOf y (7 - d + j) := by
  rw [show 56 - 8 * d = 8 * (7 - d) by omega, byteOf_ushiftRight]

/-- Settles O41: each store by its form. -/
theorem stores : Obligations.Stores := by
  intro s base rt o pa a hm va u w d f
  have hw : w < 4 := Nat.mod_lt _ (by decide)
  have hd : d < 8 := Nat.mod_lt _ (by decide)
  have one : va.toNat % 1 = 0 := Nat.mod_one _
  have zero : pa - BitVec.ofNat 40 0 = pa := BitVec.sub_zero pa
  refine ⟨fun hp => ?_, fun hp => ?_, fun hp => ?_⟩
  · have whole {i : Instr} {n m : Nat} (h : StoreForm s base rt o i n 0 m (s.r rt)) (ha : va.toNat % n = 0)
        (hc : isConditional i = false) : StoreResult (exec i s) u a m f :=
      h.storeResult ha hc hm hp zero fun _ _ => rfl
    exact ⟨whole .sb one rfl, fun ha => whole .sh ha rfl, fun ha => whole .sw ha rfl,
      fun ha => whole .sd ha rfl, whole .swr one rfl, whole .sdr one rfl⟩
  · exact StoreForm.swl.storeResult one rfl hm hp rfl fun j hj => byteOf_topOfWord _ hw hj
  · exact StoreForm.sdl.storeResult one rfl hm hp rfl fun j _ => byteOf_topOfDouble _ hd j

end Sys2Proof.Machine
end

