-- ==== Sys2Proof/Proofs/LoadForms.lean ====
section
/-! SUPPORT. What every form of load delivers, said once in the bytes its access reads. -/

namespace Sys2Proof.Machine
variable {s l : State} {base rt : RegNum} {o : Half} {i : Instr} {n back m : Nat} {va x : DWord}

/-! ### Values as their bytes -/

/-- The low halfword. -/
theorem low16_eq_bytes (x : DWord) : x.extractLsb' 0 16 = byteOf x 1 ++ byteOf x 0 := by
  apply byteOf_inj (w := 2)
  intro j hj
  rw [byteOf_low _ _ (by omega)]
  match j, hj with
  | 0, _ => exact (byteOf_append_zero _ _).symm
  | 1, _ => exact ((byteOf_append _ _ 0).trans (byteOf_byte _)).symm

/-- LWL: the bytes read enter at the top of the low word. -/
theorem mergeWordLeft_bytes {va x old : DWord} {w : Nat} (hw : inWord va = w) (hlt : w < 4) :
    ∃ v : Word, (∀ k, k < 4 → byteOf v k = if k + w < 3 then byteOf old k else byteOf x (k + w - 3)) ∧
      mergeWordLeft va x old = v.signExtend 64 := by
  refine ⟨_, fun k hk => ?_, rfl⟩
  have place : 24 - 8 * inWord va = 8 * (3 - w) := by omega
  rw [byteOf_or, place, byteOf_shiftLeft _ _ _ (by omega), byteOf_and_low]
  by_cases h : k + w < 3
  · rw [if_pos (by omega), if_pos (by omega), if_pos h, BitVec.zero_or]
    exact byteOf_low _ _ (by omega)
  · rw [if_neg (by omega), if_neg (by omega), if_neg h, BitVec.or_zero, show k - (3 - w) = k + w - 3 by omega]
    exact byteOf_low _ _ (by omega)

/-- LWR: the bytes read enter at the bottom of the low word. -/
theorem mergeWordRight_bytes {va x old : DWord} {w : Nat} (hw : inWord va = w) (hlt : w < 4)
    (hx : ∀ j, 4 - w ≤ j → byteOf x j = 0#8) :
    ∃ v : Word, (∀ k, k < 4 → byteOf v k = if k + w < 4 then byteOf x k else byteOf old k) ∧
      mergeWordRight va x old = v.signExtend 64 := by
  refine ⟨_, fun k hk => ?_, rfl⟩
  have place : 32 - 8 * inWord va = 8 * (4 - w) := by omega
  rw [byteOf_or, place, byteOf_and_high, low32, low32, byteOf_low _ _ (by omega), byteOf_low _ _ (by omega)]
  by_cases h : k + w < 4
  · rw [if_pos (by omega), if_pos h, BitVec.zero_or]
  · rw [if_neg (by omega), if_neg h, hx k (by omega), BitVec.or_zero]

/-- LDL: the bytes read enter at the top of the doubleword. -/
theorem mergeDoubleLeft_bytes {va x old : DWord} {d : Nat} (hd : inDouble va = d) (hlt : d < 8) {k : Nat} (hk : k < 8) :
    byteOf (mergeDoubleLeft va x old) k = if k + d < 7 then byteOf old k else byteOf x (k + d - 7) := by
  have place : 56 - 8 * inDouble va = 8 * (7 - d) := by omega
  rw [mergeDoubleLeft, byteOf_or, place, byteOf_shiftLeft _ _ _ (by omega), byteOf_and_low]
  by_cases h : k + d < 7
  · rw [if_pos (by omega), if_pos (by omega), if_pos h, BitVec.zero_or]
  · rw [if_neg (by omega), if_neg (by omega), if_neg h, BitVec.or_zero, show k - (7 - d) = k + d - 7 by omega]

/-- LDR: the bytes read enter at the bottom of the doubleword. -/
theorem mergeDoubleRight_bytes {va x old : DWord} {d : Nat} (hd : inDouble va = d) (hlt : d < 8)
    (hx : ∀ j, 8 - d ≤ j → byteOf x j = 0#8) (k : Nat) :
    byteOf (mergeDoubleRight va x old) k = if k + d < 8 then byteOf x k else byteOf old k := by
  have place : 64 - 8 * inDouble va = 8 * (8 - d) := by omega
  rw [mergeDoubleRight, byteOf_or, place, byteOf_and_high]
  by_cases h : k + d < 8
  · rw [if_pos (by omega), if_pos h, BitVec.zero_or]
  · rw [if_neg (by omega), if_neg h, hx k (by omega), BitVec.or_zero]

/-! ### What a load delivers -/

/-- The answer writes a sign-extended word with these bytes to `rt`. -/
def GivesWord (out : Out) (l : State) (rt : RegNum) (g : Nat → Byte) : Prop :=
  ∃ v : Word, (∀ k, k < 4 → byteOf v k = g k) ∧ GprResult out l rt (v.signExtend 64)

/-- The answer writes the doubleword with these bytes to `rt`. -/
def GivesDouble (out : Out) (l : State) (rt : RegNum) (g : Nat → Byte) : Prop :=
  ∃ v : DWord, (∀ k, k < 8 → byteOf v k = g k) ∧ GprResult out l rt v

/-- The answer writes `v` to `rt` and sets the link bit. -/
def Links (out : Out) (s l : State) (rt : RegNum) (v : DWord) : Prop :=
  ∃ t, out = .next t ∧ GprIs s t rt v ∧ t.llbit = true ∧ t.pc = s.nextPc ∧ t.delay = none ∧ SameMemory s t ∧
    t = { l with gpr := t.gpr, llbit := t.llbit, pc := t.pc, delay := t.delay }

theorem GivesWord.congr {out : Out} {g g' : Nat → Byte} (h : GivesWord out l rt g) (e : ∀ k, k < 4 → g k = g' k) :
    GivesWord out l rt g' :=
  h.imp fun _ ⟨hb, hr⟩ => ⟨fun k hk => (hb k hk).trans (e k hk), hr⟩

theorem GivesDouble.congr {out : Out} {g g' : Nat → Byte} (h : GivesDouble out l rt g) (e : ∀ k, k < 8 → g k = g' k) :
    GivesDouble out l rt g' :=
  h.imp fun _ ⟨hb, hr⟩ => ⟨fun k hk => (hb k hk).trans (e k hk), hr⟩

/-- What the load `i` makes of the bytes `x` of its access, form by form (40_loads_stores R243 to R255, R264, R265,
R268, R269). -/
structure LoadGives (s : State) (base rt : RegNum) (o : Half) (i : Instr) (l : State) (x : DWord) : Prop where
  lb : i = .lb base rt o → GprResult (exec i s) l rt ((byteOf x 0).signExtend 64)
  lbu : i = .lbu base rt o → GprResult (exec i s) l rt ((byteOf x 0).setWidth 64)
  lh : i = .lh base rt o → GprResult (exec i s) l rt ((byteOf x 1 ++ byteOf x 0).signExtend 64)
  lhu : i = .lhu base rt o → GprResult (exec i s) l rt ((byteOf x 1 ++ byteOf x 0).setWidth 64)
  lw : i = .lw base rt o → GprResult (exec i s) l rt ((x.setWidth 32).signExtend 64)
  lwu : i = .lwu base rt o → GprResult (exec i s) l rt ((x.setWidth 32).setWidth 64)
  ld : i = .ld base rt o → GprResult (exec i s) l rt x
  lwl : i = .lwl base rt o → GivesWord (exec i s) l rt fun k =>
    if k + (s.r base + o.signExtend 64).toNat % 4 < 3 then byteOf (s.r rt) k
    else byteOf x (k + (s.r base + o.signExtend 64).toNat % 4 - 3)
  lwr : i = .lwr base rt o → GivesWord (exec i s) l rt fun k =>
    if k + (s.r base + o.signExtend 64).toNat % 4 < 4 then byteOf x k else byteOf (s.r rt) k
  ldl : i = .ldl base rt o → GivesDouble (exec i s) l rt fun k =>
    if k + (s.r base + o.signExtend 64).toNat % 8 < 7 then byteOf (s.r rt) k
    else byteOf x (k + (s.r base + o.signExtend 64).toNat % 8 - 7)
  ldr : i = .ldr base rt o → GivesDouble (exec i s) l rt fun k =>
    if k + (s.r base + o.signExtend 64).toNat % 8 < 8 then byteOf x k else byteOf (s.r rt) k
  ll : i = .ll base rt o → Links (exec i s) s l rt ((x.setWidth 32).signExtend 64)
  lld : i = .lld base rt o → Links (exec i s) s l rt x
  lwc1 : i = .lwc1 base rt o → Fpr32Result (exec i s) l rt s.fcsr (x.setWidth 32)
  ldc1 : i = .ldc1 base rt o → FprResult (exec i s) l rt s.fcsr (· = x)

/-- A load reads at most eight bytes, its first one in the doubleword of its address. -/
theorem LoadForm.small (h : LoadForm s base rt o i n back m) (hv : s.r base + o.signExtend 64 = va) :
    m ≤ 8 ∧ back ≤ va.toNat % 8 := by
  subst hv
  cases h <;> omega

/-- A load of one width, its bytes given. -/
theorem loadGpr_gives (f : DWord → DWord) (hr : rt ≠ 0) (ha : (s.r base + o.signExtend 64).toNat % n = 0)
    (hx : s.loadBytes (s.r base + o.signExtend 64) (s.r base + o.signExtend 64) n = .val x l) :
    GprResult (loadGpr n f base rt o s) l rt (f x) := by
  rw [loadGpr_shape n f hr rfl ha (SameCore.refl s), hx]
  exact gprResult_done l rt (f x)

/-- A load-linked, its bytes given. -/
theorem loadLinked_gives (f : DWord → DWord) (hr : rt ≠ 0) (ha : (s.r base + o.signExtend 64).toNat % n = 0)
    (hx : s.loadBytes (s.r base + o.signExtend 64) (s.r base + o.signExtend 64) n =
      .val x (s.afterWatch .load (s.r base + o.signExtend 64))) :
    Links (loadLinked n f base rt o s) s (s.afterWatch .load (s.r base + o.signExtend 64)) rt (f x) := by
  rw [loadLinked_shape n f hr rfl ha (SameCore.refl s), hx]
  obtain ⟨t, e, hg, hl, hp, hd, hm, hf⟩ :=
    done_setR_setLlbit (s.afterWatch .load (s.r base + o.signExtend 64)) rt (f x) true
  exact ⟨t, e, hg, hl, hp, hd, fun b => congrArg (memByte · b) hm, hf⟩

/-- A left or right load, its bytes given. -/
theorem loadPart_gives (b : DWord → DWord) (c : DWord → Nat) (f : DWord → DWord → DWord → DWord) (hr : rt ≠ 0)
    (hx : s.loadBytes (s.r base + o.signExtend 64) (b (s.r base + o.signExtend 64)) (c (s.r base + o.signExtend 64)) =
      .val x l) : GprResult (loadPart base rt o b c f s) l rt (f (s.r base + o.signExtend 64) x (l.r rt)) := by
  rw [loadPart_shape b c f hr rfl (SameCore.refl s), hx]
  exact gprResult_done l rt _

/-- Every load form that may run makes of the bytes of its access what its rule says. -/
theorem LoadForm.gives (h : LoadForm s base rt o i n back m) (hv : s.r base + o.signExtend 64 = va)
    (ha : va.toNat % n = 0) (hl : s.afterWatch .load va = l)
    (hx : ∀ va0 : DWord, va0.toNat = va.toNat - back → s.loadBytes va va0 m = .val x l)
    (high : ∀ j, m ≤ j → byteOf x j = 0#8) : LoadGives s base rt o i l x := by
  subst hv hl
  have hw := inWord_eq (s.r base + o.signExtend 64)
  have hd := inDouble_eq (s.r base + o.signExtend 64)
  constructor
  case lb =>
    rintro rfl
    cases h with | lb hr => exact loadGpr_gives (n := 1) _ hr ha (hx _ rfl)
  case lbu =>
    rintro rfl
    cases h with | lbu hr => exact loadGpr_gives (n := 1) _ hr ha (hx _ rfl)
  case lh =>
    rintro rfl
    rw [← low16_eq_bytes]
    cases h with | lh hr => exact loadGpr_gives _ hr ha (hx _ rfl)
  case lhu =>
    rintro rfl
    rw [← low16_eq_bytes]
    cases h with | lhu hr => exact loadGpr_gives _ hr ha (hx _ rfl)
  case lw =>
    rintro rfl
    rw [setWidth_eq_low32]
    cases h with | lw hr => exact loadGpr_gives _ hr ha (hx _ rfl)
  case lwu =>
    rintro rfl
    rw [setWidth_eq_low32]
    cases h with | lwu hr => exact loadGpr_gives _ hr ha (hx _ rfl)
  case ld =>
    rintro rfl
    cases h with | ld hr => exact loadGpr_gives _ hr ha (hx _ rfl)
  case ll =>
    rintro rfl
    rw [setWidth_eq_low32]
    cases h with | ll hr => exact loadLinked_gives _ hr ha (hx _ rfl)
  case lld =>
    rintro rfl
    cases h with | lld hr => exact loadLinked_gives _ hr ha (hx _ rfl)
  case lwl =>
    rintro rfl
    cases h with | lwl hr =>
    obtain ⟨v, hb, e⟩ := mergeWordLeft_bytes (x := x) (old := s.r rt) hw (by omega)
    refine ⟨v, hb, e ▸ loadPart_gives wordBase (fun va => inWord va + 1) mergeWordLeft hr ?_⟩
    rw [inWord_eq]
    exact hx _ (wordBase_toNat _)
  case lwr =>
    rintro rfl
    cases h with | lwr hr =>
    obtain ⟨v, hb, e⟩ := mergeWordRight_bytes (old := s.r rt) hw (by omega) high
    refine ⟨v, hb, e ▸ loadPart_gives (fun va => va) (fun va => 4 - inWord va) mergeWordRight hr ?_⟩
    rw [inWord_eq]
    exact hx _ rfl
  case ldl =>
    rintro rfl
    cases h with | ldl hr =>
    refine ⟨_, fun k hk => mergeDoubleLeft_bytes hd (by omega) hk,
      loadPart_gives doubleBase (fun va => inDouble va + 1) mergeDoubleLeft hr ?_⟩
    rw [inDouble_eq]
    exact hx _ (doubleBase_toNat _)
  case ldr =>
    rintro rfl
    cases h with | ldr hr =>
    refine ⟨_, fun k _ => mergeDoubleRight_bytes hd (by omega) high k,
      loadPart_gives (fun va => va) (fun va => 8 - inDouble va) mergeDoubleRight hr ?_⟩
    rw [inDouble_eq]
    exact hx _ rfl
  case lwc1 =>
    rintro rfl
    rw [setWidth_eq_low32]
    cases h with | lwc1 hc =>
    show Fpr32Result (withFpu s ((s.load (s.ea base o) 4).andThen _)) _ _ _ _
    rw [withFpu_enabled hc, (SameCore.refl s).ea, State.load, aligned, if_pos (decide_eq_true ha), hx _ rfl]
    exact fpr32Result_done (s.afterWatch .load _) rt s.fcsr (low32 x)
  case ldc1 =>
    rintro rfl
    cases h with | ldc1 hc =>
    show FprResult (withFpu64 s [rt] ((s.load (s.ea base o) 8).andThen _)) _ _ _ _
    rw [withFpu64_ready hc.1 (List.all_eq_true.2 hc.2), (SameCore.refl s).ea, State.load, aligned,
      if_pos (decide_eq_true ha), hx _ rfl]
    exact fprResult_done' (s.afterWatch .load _) x _ (hc.2 rt (List.mem_singleton_self rt)) rfl

end Sys2Proof.Machine
end

