-- ==== Sys2Proof/Proofs/CachedAccesses.lean ====
section
/-! SUPPORT. The loads and stores that hit the data cache. -/

namespace Sys2Proof.Machine
variable {s t : State} {base rt : RegNum} {o : Half} {i : Instr} {n back m key : Nat} {v va va0 : DWord} {pa : PAddr}

/-! ### Bytes of a line -/

/-- The bytes read from some places of a line; above them the value is zero. -/
theorem byteOf_readLanes {w : Nat} (d : BitVec w) (off : Nat) {n : Nat} (hn : n ≤ 8) (j : Nat) :
    byteOf (readLanes d off n) j = if j < n then byteOf d (off + j) else 0#8 := by
  rw [readLanes, lowBytes, byteOf_and_low]
  split
  · rw [byteOf_setWidth _ _ (by omega), byteOf_ushiftRight]
  · rfl

/-- The bytes of a line some of which are replaced. -/
theorem byteOf_writeLanes {w : Nat} (d : BitVec w) (off : Nat) {n : Nat} (v : DWord) (hn : n ≤ 8) {j : Nat}
    (hj : 8 * j + 8 ≤ w) : byteOf (writeLanes d off n v) j =
      if off ≤ j ∧ j < off + n then byteOf v (j - off) else byteOf d j := by
  apply BitVec.eq_of_getLsbD_eq
  intro k hk
  have ones (w k : Nat) : (BitVec.ofNat w (2 ^ (8 * n) - 1)).getLsbD k = (decide (k < w) && decide (k < 8 * n)) := by
    rw [BitVec.getLsbD_ofNat, Nat.testBit_two_pow_sub_one]
  simp only [byteOf_getLsbD, writeLanes, maskedWrite, lowBytes, BitVec.getLsbD_or, BitVec.getLsbD_and,
    BitVec.getLsbD_not, BitVec.getLsbD_shiftLeft, BitVec.getLsbD_setWidth, ones, hk, show 8 * j + k < w by omega,
    decide_true, Bool.true_and]
  by_cases h1 : off ≤ j
  · by_cases h2 : j < off + n
    · rw [if_pos ⟨h1, h2⟩, byteOf_getLsbD]
      simp [hk, show ¬8 * j + k < 8 * off by omega, show 8 * j + k - 8 * off = 8 * (j - off) + k by omega,
        show 8 * (j - off) + k < 8 * n by omega, show 8 * (j - off) + k < w by omega,
        show 8 * (j - off) + k < 64 by omega]
    · rw [if_neg (by omega), byteOf_getLsbD]
      simp [hk, show ¬8 * j + k - 8 * off < 8 * n by omega]
  · rw [if_neg (by omega), byteOf_getLsbD]
    simp [hk, show 8 * j + k < 8 * off by omega]

/-- The eight bytes from place `n` of a line, as a doubleword. -/
theorem readLanes_double (d : BitVec 256) (n : Nat) : readLanes d n 8 =
    byteOf d (n + 7) ++ byteOf d (n + 6) ++ byteOf d (n + 5) ++ byteOf d (n + 4) ++ lineWord d n := by
  apply BitVec.eq_of_getLsbD_eq
  intro i hi
  have ones : (BitVec.ofNat 64 (2 ^ (8 * 8) - 1)).getLsbD i = true := by
    rw [BitVec.getLsbD_ofNat, Nat.testBit_two_pow_sub_one]
    simp; omega
  simp only [readLanes, lowBytes, lineWord, byteOf, BitVec.getLsbD_extractLsb', BitVec.getLsbD_append,
    BitVec.getLsbD_and, BitVec.getLsbD_setWidth, BitVec.getLsbD_ushiftRight, ones]
  grind

/-! ### Hits -/

/-- The place of the first byte of an access in its line. -/
theorem sameDouble_place {k : Access} {attr : BitVec 3} (ht : s.translate k va = .ok pa attr) (hb : back ≤ va.toNat % 8)
    (hv : va0.toNat = va.toNat - back) : (sameDouble pa va0).toNat % 32 = pa.toNat % 32 - back := by
  have := translate_mod ht
  rw [toNat_sameDouble, hv]
  omega

/-- The bytes a load reads of the line it hits. -/
theorem loadBytes_hit (h : CacheHit s .load va pa key) (hb : back ≤ va.toNat % 8) (hv : va0.toNat = va.toNat - back) :
    s.loadBytes va va0 n = .val (readLanes (s.dLine key).data (pa.toNat % 32 - back) n) (s.afterWatch .load va) := by
  have hit : s.dHit va0 (sameDouble pa va0) = some key := by
    rw [dHit_sameDouble (translate_mod h.translated) hb hv, h.hit]
  rw [State.loadBytes, access_ok _ h.translated h.unwatched]
  simp only [State.readAttr, if_true, State.cachedRead, dEnsure_hit _ hit, bind_val,
    sameDouble_place h.translated hb hv, postponeWatch_eq]

/-- The line with `n` bytes from place `off` on replaced, dirty. -/
def DLine.put (l : DLine) (off n : Nat) (v : DWord) : DLine := { l with state := 3, data := writeLanes l.data off n v }

/-- The line a store hits, with its bytes replaced. -/
theorem storeBytes_hit (h : CacheHit s .store va pa key) (hb : back ≤ va.toNat % 8)
    (hv : va0.toNat = va.toNat - back) : s.storeBytes va va0 n v =
      .val () ((s.afterWatch .store va).setDLine key ((s.dLine key).put (pa.toNat % 32 - back) n v)) := by
  have hm := translate_mod h.translated
  have hit : s.dHit va0 (sameDouble pa va0) = some key := by rw [dHit_sameDouble hm hb hv, h.hit]
  have granted : (s.dLine key).state = 3 ∨ s.busErrorAt .store (lineBase (sameDouble pa va0)) = false := by
    rw [(sameDouble_line hm hb hv).2.2]
    exact h.granted rfl
  rw [State.storeBytes, access_ok _ h.translated h.unwatched]
  simp only [State.writeAttr, if_true, cachedWrite_hit v hit granted, bind_val, sameDouble_place h.translated hb hv]
  exact congrArg (Result.val ()) (postponeWatch_eq (s.setDLine key _) .store va)

/-- Every load form that hits makes of the bytes of the line what its rule says. -/
theorem LoadForm.gives_hit (h : LoadForm s base rt o i n back m)
    (hh : CacheHit s .load (s.r base + o.signExtend 64) pa key) (ha : (s.r base + o.signExtend 64).toNat % n = 0) :
    LoadGives s base rt o i (s.afterWatch .load (s.r base + o.signExtend 64))
      (readLanes (s.dLine key).data (pa.toNat % 32 - back) m) := by
  obtain ⟨hm, hb⟩ := h.small rfl
  refine h.gives rfl ha rfl (fun va0 hv => loadBytes_hit hh hb hv) fun j hj => ?_
  rw [byteOf_readLanes _ _ hm, if_neg (by omega)]

/-- The data line `key` alone is changed, dirty now: its bytes from `start` on are `g 0` to `g (n - 1)`; the
instruction is done. -/
def LineStored (s t : State) (key start n : Nat) (g : Nat → Byte) : Prop :=
  t.pc = s.nextPc ∧ t.delay = none ∧ SameMemory s t ∧
    t.dLine key = { s.dLine key with state := 3, data := (t.dLine key).data } ∧
    (∀ i, i < 32 → byteOf (t.dLine key).data i =
      if start ≤ i ∧ i < start + n then g (i - start) else byteOf (s.dLine key).data i) ∧
    ∀ k, k ≠ key → t.dLine k = s.dLine k

theorem lineStored_put {start : Nat} {g : Nat → Byte} (hd : sparseWf DLine.empty s.dcache) (hn : n ≤ 8)
    (hg : ∀ j, j < n → byteOf v j = g j) (hc : t.dcache = (s.setDLine key ((s.dLine key).put start n v)).dcache)
    (hm : t.mem = s.mem) (hpc : t.pc = s.nextPc) (hdl : t.delay = none) : LineStored s t key start n g := by
  have lines (k : Nat) : t.dLine k = if k = key then (s.dLine key).put start n v else s.dLine k := by
    rw [← dLine_set hd, State.dLine, hc]
    rfl
  refine ⟨hpc, hdl, fun b => congrArg (memByte · b) hm, ?_, fun i hi => ?_, fun k hk => ?_⟩
  · rw [lines, if_pos rfl]
    rfl
  · rw [lines, if_pos rfl]
    refine (byteOf_writeLanes _ _ _ hn (by omega)).trans ?_
    by_cases h : start ≤ i ∧ i < start + n
    · rw [if_pos h, if_pos h, hg _ (by omega)]
    · rw [if_neg h, if_neg h]
  · rw [lines, if_neg hk]

/-- A store form that hits, but for the store-conditionals: the line alone is changed. -/
theorem StoreForm.exec_hit (h : StoreForm s base rt o i n back m v) {g : Nat → Byte}
    (hh : CacheHit s .store (s.r base + o.signExtend 64) pa key) (hd : sparseWf DLine.empty s.dcache)
    (ha : (s.r base + o.signExtend 64).toNat % n = 0) (hc : isConditional i = false)
    (hg : ∀ j, j < m → byteOf v j = g j) :
    ∃ t, Machine.exec i s = .next t ∧ LineStored s t key (pa.toNat % 32 - back) m g ∧
      t = { s.afterWatch .store (s.r base + o.signExtend 64) with
        dcache := t.dcache, pc := t.pc, delay := t.delay } := by
  obtain ⟨hm, hb⟩ := h.small rfl
  obtain ⟨va0, hv, e⟩ := h.exec_plain rfl ha hc
  refine ⟨((s.afterWatch .store (s.r base + o.signExtend 64)).setDLine key
    ((s.dLine key).put (pa.toNat % 32 - back) m v)).advance, ?_, ?_, rfl⟩
  · rw [e, storeBytes_hit hh hb hv]
    rfl
  · exact lineStored_put hd hm hg rfl rfl (advance_pc _) rfl

/-- A store-conditional that hits: the line is changed exactly where the link bit is set. -/
theorem storeConditional_hit (hh : CacheHit s .store (s.r base + o.signExtend 64) pa key)
    (hd : sparseWf DLine.empty s.dcache) (hn : n ≤ 8) (ha : (s.r base + o.signExtend 64).toNat % n = 0) :
    ∃ t, storeConditional n base rt o s = .next t ∧ GprIs s t rt (if s.llbit then 1 else 0) ∧
      (s.llbit = true → LineStored s t key (pa.toNat % 32) n fun j => byteOf (s.r rt) j) ∧
      (s.llbit = false → t.dcache = s.dcache ∧ t.pc = s.nextPc ∧ t.delay = none ∧ SameMemory s t) ∧ t.llbit = false ∧
      t = { s.afterWatch .store (s.r base + o.signExtend 64) with
        dcache := t.dcache, gpr := t.gpr, llbit := t.llbit, pc := t.pc, delay := t.delay } := by
  cases hl : s.llbit with
  | true =>
    obtain ⟨t, e, hg, hll, hpc, hdl, hmem, hf⟩ := done_setR_setLlbit ((s.afterWatch .store
      (s.r base + o.signExtend 64)).setDLine key ((s.dLine key).put (pa.toNat % 32) n (s.r rt))) rt 1 false
    refine ⟨t, ?_, hg, fun _ => lineStored_put hd hn (fun _ _ => rfl) ?_ hmem hpc hdl, nofun, hll, ?_⟩
    · rw [← e, storeConditional_linked hl rfl ha, storeBytes_hit hh (Nat.zero_le _) (Nat.sub_zero _).symm]
      rfl
    · rw [hf]
      rfl
    · rw [hf]
      rfl
  | false =>
    obtain ⟨t, e, hg, hll, hpc, hdl, hmem, hf⟩ :=
      done_setR_setLlbit (s.afterWatch .store (s.r base + o.signExtend 64)) rt 0 false
    refine ⟨t, (storeConditional_unlinked hl rfl ha hh.translated hh.unwatched).trans e, hg, nofun,
      fun _ => ⟨?_, hpc, hdl, fun b => congrArg (memByte · b) hmem⟩, hll, ?_⟩
    · rw [hf]
      rfl
    · rw [hf]

/-- A store form that finds its line clean and whose upgrade gets an error takes Bus Error. -/
theorem StoreForm.exec_upgradeError (h : StoreForm s base rt o i n back m v)
    (hv : s.r base + o.signExtend 64 = va) (ha : va.toNat % n = 0) (hl : Stores s base rt o i)
    (ht : s.translate .store va = .ok pa 3) (hw : s.watchMatch .store va = true → s.exl = true ∨ s.erl = true)
    (hh : s.dHit va pa = some key) (hd : (s.dLine key).state ≠ 3) (he : s.busErrorAt .store (lineBase pa) = true) :
    Machine.exec i s = .next (takeException (.busError false) s) := by
  obtain ⟨va0, op, cont, h1, h2, h3, h4⟩ := h.exec hv ha
  have hm := translate_mod ht
  have hit : s.dHit va0 (sameDouble pa va0) = some key := (dHit_sameDouble hm h2 h1 s).trans hh
  have error : s.busErrorAt .store (lineBase (sameDouble pa va0)) = true := by rwa [(sameDouble_line hm h2 h1).2.2]
  rw [h3 s rfl, access_ok _ ht hw, h4 hl s 3 pa rfl hm, State.writeAttr, if_pos rfl, cachedWrite_error v hit hd error]
  rfl

/-- Settles O46: loads by `LoadForm.gives_hit`, stores by `storeBytes_hit`, the refused upgrade by
`StoreForm.exec_upgradeError`. -/
theorem cachedAccesses : Obligations.CachedAccesses := by
  intro s base rt o pa key hd va w d at' line b w1 d1 f l u links word double stored puts conditional
  have one : va.toNat % 1 = 0 := Nat.mod_one _
  have hw : w < 4 := Nat.mod_lt _ (by decide)
  have hd8 : d < 8 := Nat.mod_lt _ (by decide)
  have word4 : (readLanes line.data at' 4).setWidth 32 = w1 := (setWidth_eq_low32 _).trans (low32_readLanes _ _)
  have double8 : readLanes line.data at' 8 = d1 := readLanes_double _ _
  have whole (hh : CacheHit s .load va pa key) {i : Instr} {n m : Nat} (h : LoadForm s base rt o i n 0 m)
      (ha : va.toNat % n = 0) : LoadGives s base rt o i l (readLanes line.data at' m) := h.gives_hit hh ha
  refine ⟨fun hh hr => ?_, fun hh => ?_, fun hh => ?_, fun ht hwatch hhit hclean he i n back hf ha hl => ?_⟩
  · have lane {n : Nat} (hn : n ≤ 8) {j : Nat} (hj : j < n) : byteOf (readLanes line.data at' n) j = b j := by
      rw [byteOf_readLanes _ _ hn, if_pos hj]
    have byte : byteOf (readLanes line.data at' 1) 0 = b 0 := lane (by decide) (by decide)
    have half : byteOf (readLanes line.data at' 2) 1 ++ byteOf (readLanes line.data at' 2) 0 = b 1 ++ b 0 := by
      rw [lane (by decide) (by decide), lane (by decide) (by decide)]
    refine ⟨?_, ?_, fun ha => ⟨?_, ?_⟩, fun ha => ⟨?_, ?_, ?_⟩, fun ha => ⟨?_, ?_⟩, ?_, ?_, ?_, ?_⟩
    · rw [← byte]
      exact (whole hh (.lb hr) one).lb rfl
    · rw [← byte]
      exact (whole hh (.lbu hr) one).lbu rfl
    · rw [← half]
      exact (whole hh (.lh hr) ha).lh rfl
    · rw [← half]
      exact (whole hh (.lhu hr) ha).lhu rfl
    · rw [← word4]
      exact (whole hh (.lw hr) ha).lw rfl
    · rw [← word4]
      exact (whole hh (.lwu hr) ha).lwu rfl
    · rw [← word4]
      exact (whole hh (.ll hr) ha).ll rfl
    · rw [← double8]
      exact (whole hh (.ld hr) ha).ld rfl
    · rw [← double8]
      exact (whole hh (.lld hr) ha).lld rfl
    · refine (((LoadForm.lwl hr).gives_hit hh one).lwl rfl).congr fun k hk => ?_
      refine if_congr Iff.rfl rfl ?_
      rw [byteOf_readLanes _ _ (by omega), if_pos (by omega)]
    · refine ((whole hh (.lwr hr) one).lwr rfl).congr fun k hk => ?_
      refine ite_congr rfl (fun (hlt : k + w < 4) => ?_) fun _ => rfl
      exact lane (n := 4 - w) (by omega) (by omega)
    · refine (((LoadForm.ldl hr).gives_hit hh one).ldl rfl).congr fun k hk => ?_
      refine if_congr Iff.rfl rfl ?_
      rw [byteOf_readLanes _ _ (by omega), if_pos (by omega)]
    · refine ((whole hh (.ldr hr) one).ldr rfl).congr fun k hk => ?_
      refine ite_congr rfl (fun (hlt : k + d < 8) => ?_) fun _ => rfl
      exact lane (n := 8 - d) (by omega) (by omega)
  · refine ⟨fun hc ha => ?_, fun hc ha => ?_⟩
    · rw [← word4]
      exact (whole hh (.lwc1 hc) ha).lwc1 rfl
    · rw [← double8]
      exact (whole hh (.ldc1 hc) ha).ldc1 rfl
  · have stores {i : Instr} {n m : Nat} (h : StoreForm s base rt o i n 0 m (s.r rt)) (ha : va.toNat % n = 0)
        (hc : isConditional i = false) : puts (exec i s) at' m f := h.exec_hit hh hd ha hc fun _ _ => rfl
    exact ⟨stores .sb one rfl, fun ha => stores .sh ha rfl,
      fun ha => ⟨stores .sw ha rfl, storeConditional_hit hh hd (by decide) ha⟩,
      fun ha => ⟨stores .sd ha rfl, storeConditional_hit hh hd (by decide) ha⟩,
      StoreForm.swl.exec_hit hh hd one rfl fun j hj => byteOf_topOfWord _ hw hj, stores .swr one rfl,
      StoreForm.sdl.exec_hit hh hd one rfl fun j _ => byteOf_topOfDouble _ hd8 j, stores .sdr one rfl,
      fun hc ha => (StoreForm.swc1 hc).exec_hit hh hd ha rfl fun j hj => byteOf_setWidth _ _ (by omega),
      fun hc ha => (StoreForm.sdc1 hc).exec_hit hh hd ha rfl fun _ _ => rfl⟩
  · obtain ⟨hk, -⟩ | ⟨-, m, v, h⟩ := hf
    · cases hk
    · exact h.exec_upgradeError rfl ha hl ht hwatch hhit hclean he

end Sys2Proof.Machine
end

