-- ==== Sys2Proof/Proofs/DeviceAccesses.lean ====
section
/-! SUPPORT. Uncached loads and stores on whatever their address leads to, and the fills that stop. -/

namespace Sys2Proof.Machine
variable {s t : State} {base rt : RegNum} {o : Half} {i : Instr} {n back m off : Nat} {v va va0 x : DWord} {pa : PAddr}
  {attr : BitVec 3} {T : Target} {k : Access}

/-! ### What a target leaves unchanged -/

/-- A read delivers nothing above its bytes. -/
theorem targetRead_high (h : s.targetRead T off n = .val x t) (hn : n ≤ 8) {j : Nat} (hj : n ≤ j) :
    byteOf x j = 0#8 := by
  have mem (a : Nat) : byteOf (readLe s.mem a n : DWord) j = 0#8 := by
    rw [byteOf_readLe _ _ _ _ (by omega), if_neg (by omega)]
    rfl
  have lanes (y : Word) : byteOf (readLanes y off n) j = 0#8 := by rw [byteOf_readLanes _ _ hn, if_neg (by omega)]
  have above (y : DWord) (h8 : n = 8) : byteOf y j = 0#8 := by
    apply BitVec.eq_of_getLsbD_eq
    intro i hi
    rw [byteOf_getLsbD, BitVec.getLsbD_of_ge _ _ (by omega)]
    simp
  unfold State.targetRead at h
  split at h <;> (try split at h) <;> cases h
  · exact mem _
  · exact mem _
  · exact above _ ‹_›
  · exact above _ ‹_›
  · exact lanes _
  · exact lanes _

/-- Remembering a Watch match and a store to the register block do not touch each other. -/
theorem regWrite_postponeWatch (s : State) (i : Fin 64) (off n : Nat) (v : DWord) (b : Bool) :
    (s.regWrite i off n v).postponeWatch b = (s.postponeWatch b).regWrite i off n v := by
  cases b with
  | false => rfl
  | true =>
    by_cases h12 : i = 12
    · simp only [State.regWrite, if_pos h12]
      rfl
    · by_cases h13 : i = 13
      · simp only [State.regWrite, if_neg h12, if_pos h13]
        rfl
      · simp only [State.regWrite, if_neg h12, if_neg h13]
        rfl

/-- Nor do remembering a match and an access to any target. -/
theorem targetRead_postponeWatch (s : State) (T : Target) (off n : Nat) (b : Bool) :
    ((s.targetRead T off n).bind fun a t => .val a (t.postponeWatch b)) = (s.postponeWatch b).targetRead T off n := by
  cases T with
  | dram | rom | outside | hole => cases b <;> rfl
  | window | ddr | header | regs =>
    simp only [State.targetRead]
    split <;> cases b <;> rfl

theorem targetWrite_postponeWatch (s : State) (T : Target) (off n : Nat) (v : DWord) (b : Bool) :
    ((s.targetWrite T off n v).bind fun a t => .val a (t.postponeWatch b)) =
      (s.postponeWatch b).targetWrite T off n v := by
  cases T with
  | dram | rom | outside | hole => cases b <;> rfl
  | window | ddr | header =>
    simp only [State.targetWrite]
    split <;> cases b <;> rfl
  | regs =>
    simp only [State.targetWrite, ← regWrite_postponeWatch]
    split <;> rfl

/-! ### Uncached accesses -/

theorem loadBytes_uncached (ha : attr ≠ 3) (ht : s.translate .load va = .ok pa attr)
    (hw : s.watchMatch .load va = true → s.exl = true ∨ s.erl = true) (hb : back ≤ va.toNat % 8)
    (hv : va0.toNat = va.toNat - back) (he : s.busErrorAt .load (pa - BitVec.ofNat 40 back) = false) :
    s.loadBytes va va0 n = (s.afterWatch .load va).targetRead (s.target (pa - BitVec.ofNat 40 back))
      ((pa - BitVec.ofNat 40 back).toNat % 4) n := by
  rw [State.loadBytes, access_ok _ ht hw, ← postponeWatch_eq, ← targetRead_postponeWatch]
  simp only [State.readAttr, if_neg ha, State.busRead, sameDouble_base ht hb hv, he, Bool.false_eq_true, if_false]

theorem storeBytes_uncached (ha : attr ≠ 3) (ht : s.translate .store va = .ok pa attr)
    (hw : s.watchMatch .store va = true → s.exl = true ∨ s.erl = true) (hb : back ≤ va.toNat % 8)
    (hv : va0.toNat = va.toNat - back) :
    s.storeBytes va va0 n v = (s.afterWatch .store va).targetWrite (s.target (pa - BitVec.ofNat 40 back))
      ((pa - BitVec.ofNat 40 back).toNat % 4) n v := by
  rw [State.storeBytes, access_ok _ ht hw, ← postponeWatch_eq, ← targetWrite_postponeWatch]
  simp only [State.writeAttr, if_neg ha, State.busWrite, sameDouble_base ht hb hv]

/-! ### Fills that stop -/

/-- A block read of what is no memory stops. -/
theorem lineRead_stop {p : PAddr} (he : s.busErrorAt k p = false) (h : ∀ a, s.target p ≠ .dram a ∧ s.target p ≠ .rom a)
    (g : BitVec 256 → State → Out) : (s.lineRead k p).andThen g = (s.target p).stop := by
  simp only [State.lineRead, he, Bool.false_eq_true, if_false]
  cases hT : s.target p with
  | dram a => exact absurd hT (h a).1
  | rom a => exact absurd hT (h a).2
  | window | ddr | header | regs | outside | hole => rfl

/-- So does one of ROM that liocfg does not open to block reads. -/
theorem lineRead_blocked {p : PAddr} {a : Nat} (he : s.busErrorAt k p = false) (h : s.target p = .rom a)
    (hb : (s.io.regs[2]).getLsbD 14 = false) : s.lineRead k p = .fault .blockRead := by
  have closed : s.io.blockReadable = false := hb
  simp only [State.lineRead, he, h, closed, Bool.false_eq_true, if_false]

/-- A line no secondary line holds comes from a block read. -/
theorem sFetch_reads {p : PAddr} (h : s.io.disableScache = true ∨ s.sHit p = none) :
    ∃ g, s.sFetch k p = (s.lineRead k p).bind g := by
  unfold State.sFetch
  split
  · exact ⟨_, rfl⟩
  · next hd =>
    rw [h.resolve_left hd]
    exact ⟨_, rfl⟩

theorem bind_bind {α β γ : Type} (r : Result α) (f : α → State → Result β) (g : β → State → Result γ) :
    (r.bind f).bind g = r.bind fun a t => (f a t).bind g := by cases r <;> rfl

/-- An access that misses both caches begins with the block read of its line. -/
theorem AccessForm.exec_reads (h : AccessForm s k base rt o i n back) (hv : s.r base + o.signExtend 64 = va)
    (ha : va.toNat % n = 0) (hl : Stores s base rt o i) (ht : s.translate k va = .ok pa 3)
    (hw : s.watchMatch k va = true → s.exl = true ∨ s.erl = true) (hd : s.dHit va pa = none)
    (hs : s.io.disableScache = true ∨ s.sHit (lineBase pa) = none) :
    ∃ g, Machine.exec i s = (s.lineRead k (lineBase pa)).andThen g := by
  obtain ⟨α, va0, op, cont, h1, h2, h3, h4⟩ := h.exec hv ha
  have hm := translate_mod ht
  obtain ⟨f, h5⟩ := h4 hl pa hm
  obtain ⟨g, h6⟩ := sFetch_reads (k := k) hs
  obtain ⟨fill, hfill⟩ : ∃ f, s.dEnsure k va pa = (s.sFetch k (lineBase pa)).bind f := by
    simp only [State.dEnsure, hd]
    exact ⟨_, rfl⟩
  rw [h3 s rfl, access_ok _ ht hw, h5 s rfl, dEnsure_sameDouble hm h2 h1, hfill, h6, bind_bind, bind_bind, bind_bind,
    bind_andThen]
  exact ⟨_, rfl⟩

/-! ### The forms -/

/-- Every load form gets what its target answers. -/
theorem LoadForm.gives_uncached (h : LoadForm s base rt o i n back m) (hv : s.r base + o.signExtend 64 = va)
    (ha : va.toNat % n = 0) (h3 : attr ≠ 3) (ht : s.translate .load va = .ok pa attr)
    (hw : s.watchMatch .load va = true → s.exl = true ∨ s.erl = true)
    (he : s.busErrorAt .load (pa - BitVec.ofNat 40 back) = false)
    (hT : (s.target (pa - BitVec.ofNat 40 back)).Takes m) :
    ∃ x, Answers s (s.target (pa - BitVec.ofNat 40 back)) ((pa - BitVec.ofNat 40 back).toNat % 4) m x ∧
      LoadGives s base rt o i (s.afterWatch .load va) x := by
  obtain ⟨hm, hb⟩ := h.small hv
  obtain ⟨x, e, hx⟩ := targetRead_spec (s := s.afterWatch .load va)
    (off := (pa - BitVec.ofNat 40 back).toNat % 4) hT hm
  refine ⟨x, hx, h.gives hv ha rfl (fun va0 h0 => ?_) fun j hj => targetRead_high e hm hj⟩
  rw [loadBytes_uncached h3 ht hw hb h0 he, e]

/-- A load its target does not take stops. -/
theorem LoadForm.exec_stop (h : LoadForm s base rt o i n back m) (hv : s.r base + o.signExtend 64 = va)
    (ha : va.toNat % n = 0) (h3 : attr ≠ 3) (ht : s.translate .load va = .ok pa attr)
    (hw : s.watchMatch .load va = true → s.exl = true ∨ s.erl = true)
    (he : s.busErrorAt .load (pa - BitVec.ofNat 40 back) = false)
    (hT : ¬(s.target (pa - BitVec.ofNat 40 back)).Takes m) :
    Machine.exec i s = (s.target (pa - BitVec.ofNat 40 back)).stop := by
  obtain ⟨va0, cont, h1, h2, h4⟩ := h.exec hv ha
  rw [h4 s rfl, loadBytes_uncached h3 ht hw h2 h1 he]
  exact targetRead_stop hT cont

/-- A target's registers and memory are none of the core's own. -/
theorem targetWrite_keeps {c : Unit} (h : s.targetWrite T off n v = .val c t) :
    t.gpr = s.gpr ∧ t.llbit = s.llbit ∧ t.pc = s.pc ∧ t.delay = s.delay := by
  rw [targetWrite_frame h]
  exact ⟨rfl, rfl, rfl, rfl⟩

/-- A state in which only the named registers differ from what a target left is, with them put back, that state. -/
theorem targetWrite_putBack {r t0 : State} {c : Unit} (h : s.targetWrite T off n v = .val c t0)
    (hr : r = { t0 with gpr := r.gpr, llbit := r.llbit, pc := r.pc, delay := r.delay }) :
    { r with gpr := s.gpr, llbit := s.llbit, pc := s.pc, delay := s.delay } = t0 := by
  obtain ⟨hg, hl, hp, hd⟩ := targetWrite_keeps h
  rw [hr, ← hg, ← hl, ← hp, ← hd]

/-- The store-conditionals among the store forms. -/
theorem StoreForm.isConditional_iff (h : StoreForm s base rt o i n back m v) :
    isConditional i = true ↔ i = .sc base rt o ∨ i = .scd base rt o := by
  cases h <;> simp [isConditional]

/-- Both store-conditionals are one operation, on their width. -/
theorem StoreForm.exec_conditional (h : StoreForm s base rt o i n back m v) (hc : isConditional i = true) :
    n = m ∧ back = 0 ∧ v = s.r rt ∧ Machine.exec i s = storeConditional m base rt o s := by
  cases h with
  | sc => exact ⟨rfl, rfl, rfl, rfl⟩
  | scd => exact ⟨rfl, rfl, rfl, rfl⟩
  | _ => cases hc

/-- A store that is no store-conditional does to its target what `Stored` says, and is done. -/
theorem StoreForm.stored_uncached (h : StoreForm s base rt o i n back m v) (hm : Memory.wf s.mem)
    (hv : s.r base + o.signExtend 64 = va) (ha : va.toNat % n = 0) (h3 : attr ≠ 3)
    (ht : s.translate .store va = .ok pa attr) (hw : s.watchMatch .store va = true → s.exl = true ∨ s.erl = true)
    (hc : isConditional i = false) (hT : (s.target (pa - BitVec.ofNat 40 back)).Takes m) :
    ∃ t, Machine.exec i s = .next t ∧ t.pc = s.nextPc ∧ t.delay = none ∧ t.gpr = s.gpr ∧ t.llbit = s.llbit ∧
      Stored (s.afterWatch .store va) { t with gpr := s.gpr, llbit := s.llbit, pc := s.pc, delay := s.delay }
        (s.target (pa - BitVec.ofNat 40 back)) ((pa - BitVec.ofNat 40 back).toNat % 4) m v := by
  obtain ⟨va0, h0, e⟩ := h.exec_plain hv ha hc
  obtain ⟨t0, hwrite, hst⟩ := targetWrite_spec (s := s.afterWatch .store va) (v := v)
    (off := (pa - BitVec.ofNat 40 back).toNat % 4) hm hT
  rw [storeBytes_uncached h3 ht hw (h.small hv).2 h0, hwrite] at e
  obtain ⟨hg, hl, hp, hd⟩ := targetWrite_keeps hwrite
  have restored := targetWrite_putBack (r := t0.advance) hwrite rfl
  exact ⟨t0.advance, e, (advance_pc t0).trans (nextPc_congr hp hd), rfl, hg, hl, restored.symm ▸ hst⟩

/-- A store-conditional with the link bit set does so too, writes 1 and clears the link bit. -/
theorem storeConditional_stored (hl : s.llbit = true) (hm : Memory.wf s.mem) (hv : s.r base + o.signExtend 64 = va)
    (ha : va.toNat % m = 0) (h3 : attr ≠ 3) (ht : s.translate .store va = .ok pa attr)
    (hw : s.watchMatch .store va = true → s.exl = true ∨ s.erl = true) (hT : (s.target pa).Takes m) :
    ∃ t, storeConditional m base rt o s = .next t ∧ t.pc = s.nextPc ∧ t.delay = none ∧ GprIs s t rt 1 ∧
      t.llbit = false ∧ Stored (s.afterWatch .store va)
        { t with gpr := s.gpr, llbit := s.llbit, pc := s.pc, delay := s.delay } (s.target pa) (pa.toNat % 4) m
        (s.r rt) := by
  have e := storeConditional_linked (rt := rt) hl hv ha
  obtain ⟨t0, hwrite, hst⟩ := targetWrite_spec (s := s.afterWatch .store va) (v := s.r rt) (off := pa.toNat % 4) hm hT
  rw [storeBytes_uncached h3 ht hw (Nat.zero_le _) rfl, BitVec.sub_zero, hwrite] at e
  obtain ⟨t, e', hg, hll, hpc, hdl, -, hf⟩ := done_setR_setLlbit t0 rt 1 false
  obtain ⟨gpr, -, hp, hd⟩ := targetWrite_keeps hwrite
  have regs (j : RegNum) : t0.r j = s.r j := by
    simp only [State.r, gpr]
    rfl
  have restored := targetWrite_putBack hwrite hf
  exact ⟨t, e.trans e', hpc.trans (nextPc_congr hp hd), hdl, fun j => by rw [hg j, regs], hll, restored.symm ▸ hst⟩

/-- A store its target does not take stops. -/
theorem StoreForm.exec_stop (h : StoreForm s base rt o i n back m v) (hv : s.r base + o.signExtend 64 = va)
    (ha : va.toNat % n = 0) (h3 : attr ≠ 3) (ht : s.translate .store va = .ok pa attr)
    (hw : s.watchMatch .store va = true → s.exl = true ∨ s.erl = true) (hl : Stores s base rt o i)
    (hT : ¬(s.target (pa - BitVec.ofNat 40 back)).Takes m) :
    Machine.exec i s = (s.target (pa - BitVec.ofNat 40 back)).stop := by
  obtain ⟨va0, op, cont, h1, h2, h5, h6⟩ := h.exec hv ha
  rw [h5 s rfl, access_ok _ ht hw, h6 hl s attr pa rfl (translate_mod ht), State.writeAttr, if_neg h3, State.busWrite,
    sameDouble_base ht h2 h1, bind_andThen]
  exact targetWrite_stop hT _

/-- Settles O49: loads by `LoadForm.gives_uncached`, stores by `StoreForm.stored_uncached` and
`storeConditional_stored`, fills by `AccessForm.exec_reads`. -/
theorem deviceAccesses : Obligations.DeviceAccesses := by
  intro s base rt o pa attr hm va w d f l u unwatched conditional word double links loads stores
  have uncached (ha : attr = 2 ∨ attr = 7) : attr ≠ 3 := by rcases ha with rfl | rfl <;> decide
  have stored {i : Instr} (hl : s.llbit = true ∨ ¬conditional i) : Stores s base rt o i :=
    hl.imp_right not_or.1
  refine ⟨?_, ?_, ?_, ?_⟩
  · intro i n back m hattr ht hw h ha first T he
    refine ⟨fun hT => ?_, fun hT => h.exec_stop rfl ha (uncached hattr) ht hw he hT⟩
    obtain ⟨x, hx, g⟩ := h.gives_uncached rfl ha (uncached hattr) ht hw he hT
    exact ⟨x, hx, g.lb, g.lbu, g.lh, g.lhu, g.lw, g.lwu, g.ld, g.lwl, g.lwr, g.ldl, g.ldr, g.ll, g.lld, g.lwc1, g.ldc1⟩
  · intro i n back m v hattr ht hw h ha hl first T
    refine ⟨fun hT => ?_, fun hT => h.exec_stop rfl ha (uncached hattr) ht hw (stored hl) hT⟩
    cases hc : isConditional i with
    | true =>
      have cond : conditional i := h.isConditional_iff.1 hc
      obtain ⟨rfl, rfl, rfl, e⟩ := h.exec_conditional hc
      have zero : first = pa := BitVec.sub_zero pa
      rw [show T = s.target pa from congrArg s.target zero] at hT ⊢
      rw [zero]
      obtain ⟨t, e', hpc, hdl, hg, hll, hst⟩ := storeConditional_stored (rt := rt)
        (hl.resolve_right fun hn => hn cond) hm rfl ha (uncached hattr) ht hw hT
      exact ⟨t, e.trans e', hpc, hdl, fun _ => ⟨hg, hll⟩, fun hn => absurd cond hn, hst⟩
    | false =>
      have plain : ¬conditional i := fun cond => Bool.false_ne_true (hc.symm.trans (h.isConditional_iff.2 cond))
      obtain ⟨t, e, hpc, hdl, hg, hll, hst⟩ := h.stored_uncached hm rfl ha (uncached hattr) ht hw hc hT
      exact ⟨t, e, hpc, hdl, fun cond => absurd cond plain, fun _ => ⟨hg, hll⟩, hst⟩
  · intro i n back m v ht hw h ha hl hc
    obtain ⟨rfl, rfl, rfl, e⟩ := h.exec_conditional (h.isConditional_iff.2 hc)
    obtain ⟨t, e', hg, hll, hpc, hdl, hmem, hf⟩ := done_setR_setLlbit u rt 0 false
    refine ⟨t, (e.trans (storeConditional_unlinked hl rfl ha ht hw)).trans e', hg, hpc, hdl,
      fun b => congrArg (memByte · b) hmem, ?_⟩
    rw [hf, hll, ← hl]
    rfl
  · intro k i n back line T ht hw he h ha hl hd hs
    obtain ⟨g, e⟩ := h.exec_reads rfl ha (stored hl) ht hw hd hs
    rw [e]
    exact ⟨fun a hT hb => congrArg (Result.andThen · g) (lineRead_blocked he hT hb), fun hT => lineRead_stop he hT g⟩

end Sys2Proof.Machine
end

