-- ==== Sys2Proof/Proofs/AccessExceptions.lean ====
section
/-! SUPPORT. Which exception an access takes. -/

namespace Sys2Proof.Machine
variable {s t : State} {base rt : RegNum} {o : Half} {i : Instr} {n back m : Nat} {v va : DWord} {pa : PAddr}
  {attr : BitVec 3} {k : Access} {e : Exc}

/-! ### Misaligned accesses -/

theorem loadGpr_misaligned (f : DWord → DWord) (hr : rt ≠ 0) (ha : (s.r base + o.signExtend 64).toNat % n ≠ 0) :
    AddressTraps (loadGpr n f base rt o s) s false (s.r base + o.signExtend 64) := by
  rw [loadGpr, if_neg hr, (SameCore.refl s).ea, load_misaligned s ha]
  exact addressTraps_raise _ _ s

theorem loadLinked_misaligned (f : DWord → DWord) (hr : rt ≠ 0) (ha : (s.r base + o.signExtend 64).toNat % n ≠ 0) :
    AddressTraps (loadLinked n f base rt o s) s false (s.r base + o.signExtend 64) := by
  rw [loadLinked, if_neg hr, (SameCore.refl s).ea, load_misaligned s ha]
  exact addressTraps_raise _ _ s

theorem storeGpr_misaligned (rt : RegNum) (ha : (s.r base + o.signExtend 64).toNat % n ≠ 0) :
    AddressTraps (storeGpr n base rt o s) s true (s.r base + o.signExtend 64) := by
  rw [storeGpr, (SameCore.refl s).ea, store_misaligned s _ ha]
  exact addressTraps_raise _ _ s

theorem storeConditional_misaligned (rt : RegNum) (ha : (s.r base + o.signExtend 64).toNat % n ≠ 0) :
    AddressTraps (storeConditional n base rt o s) s true (s.r base + o.signExtend 64) := by
  rw [storeConditional, (SameCore.refl s).ea, aligned, if_neg (by simpa using ha)]
  exact addressTraps_raise _ _ s

/-- A misaligned load of an FPR, past the checks of the unit. -/
theorem fpLoad_misaligned (ha : (s.r base + o.signExtend 64).toNat % n ≠ 0) (f : DWord → State → Out) :
    AddressTraps ((s.load (s.ea base o) n).andThen f) s false (s.r base + o.signExtend 64) := by
  rw [(SameCore.refl s).ea, load_misaligned s ha]
  exact addressTraps_raise _ _ s

/-- A misaligned store of an FPR, past the checks of the unit. -/
theorem fpStore_misaligned (ha : (s.r base + o.signExtend 64).toNat % n ≠ 0) (x : DWord) (f : Unit → State → Out) :
    AddressTraps ((s.store (s.ea base o) n x).andThen f) s true (s.r base + o.signExtend 64) := by
  rw [(SameCore.refl s).ea, store_misaligned s _ ha]
  exact addressTraps_raise _ _ s

theorem fetch_misaligned (ha : s.pc.toNat % 4 ≠ 0) : s.fetch = .exc (.addressError false s.pc) s := by
  rw [State.fetch, aligned, if_neg (by simpa using ha)]

/-- Settles O44: each access by the shape of its instruction. -/
theorem misalignedAccesses : Obligations.MisalignedAccesses := by
  intro s base rt o va
  refine ⟨fetch_misaligned, fun ha => ⟨fun hr => ⟨?_, ?_⟩, ?_⟩,
    fun ha => ⟨fun hr => ⟨?_, ?_, ?_⟩, ?_, ?_, fun hc => ⟨?_, ?_⟩⟩,
    fun ha => ⟨fun hr => ⟨?_, ?_⟩, ?_, ?_, fun hc => ⟨?_, ?_⟩⟩⟩
  · exact loadGpr_misaligned _ hr ha
  · exact loadGpr_misaligned _ hr ha
  · exact storeGpr_misaligned rt ha
  · exact loadGpr_misaligned _ hr ha
  · exact loadGpr_misaligned _ hr ha
  · exact loadLinked_misaligned _ hr ha
  · exact storeGpr_misaligned rt ha
  · exact storeConditional_misaligned rt ha
  · show AddressTraps (withFpu s _) _ _ _
    rw [withFpu_enabled hc]
    exact fpLoad_misaligned ha _
  · show AddressTraps (withFpu s _) _ _ _
    rw [withFpu_enabled hc]
    exact fpStore_misaligned ha _ _
  · exact loadGpr_misaligned _ hr ha
  · exact loadLinked_misaligned _ hr ha
  · exact storeGpr_misaligned rt ha
  · exact storeConditional_misaligned rt ha
  · show AddressTraps (withFpu64 s [rt] _) _ _ _
    rw [withFpu64_ready hc.1 (List.all_eq_true.2 hc.2)]
    exact fpLoad_misaligned ha _
  · show AddressTraps (withFpu64 s [rt] _) _ _ _
    rw [withFpu64_ready hc.1 (List.all_eq_true.2 hc.2)]
    exact fpStore_misaligned ha _ _

/-! ### Translation -/

theorem translate_error {md : Mode} (hm : s.mode = some md)
    (h : segmentOf md (s.cp0.configLow.extractLsb' 0 3) va = .error) :
    s.translate k va = .exc (.addressError (k == .store) va) := by
  simp only [State.translate, hm, h, isStore_eq]

theorem translate_unmapped {md : Mode} (hm : s.mode = some md)
    (h : segmentOf md (s.cp0.configLow.extractLsb' 0 3) va = .unmapped pa attr) :
    s.translate k va = if attr = 2 ∨ attr = 3 ∨ attr = 7 then .ok pa attr else .fault .reservedAttribute := by
  simp only [State.translate, hm, h, withAttr]

theorem translate_mapped {md : Mode} (hm : s.mode = some md)
    (h : segmentOf md (s.cp0.configLow.extractLsb' 0 3) va = .mapped) :
    s.translate k va = s.translateMapped k va := by
  simp only [State.translate, hm, h]

/-- A load or store whose translation raises an exception enters it from the unchanged state. -/
theorem AccessForm.exec_exc (h : AccessForm s k base rt o i n back) (hv : s.r base + o.signExtend 64 = va)
    (ha : va.toNat % n = 0) (ht : s.translate k va = .exc e) : Machine.exec i s = .next (takeException e s) := by
  obtain ⟨α, va0, op, cont, -, -, hexec, -⟩ := h.exec hv ha
  rw [hexec s rfl, access_exc op ht, andThen_exc]

/-- So does a CACHE operation. -/
theorem cacheOp_exc (hp : Privileged s) (ht : s.translate .load (s.r base + o.signExtend 64) = .exc e)
    (op : DWord → PAddr → State → Result Unit) : cacheOp base o op s = .next (takeException e s) := by
  rw [cacheOp, withCp0_allowed hp]
  simp only [(SameCore.refl s).ea, ht]
  rfl

/-- And a step whose fetch raises one, from the state the fetch leaves. -/
theorem step_fetchExc (hn : s.boundary.event = none) (hf : s.boundary.fetch = .exc e t) :
    step s = .next (takeException e t) := by
  simp only [step, hn, hf, andThen_exc]

theorem fetch_exc (ha : s.pc.toNat % 4 = 0) (ht : s.translateFetch s.pc = (.exc e, t)) : s.fetch = .exc e t := by
  rw [State.fetch, aligned, if_pos (decide_eq_true ha), ht]

/-! ### Watch -/

/-- Two addresses of one doubleword. -/
theorem sameDoubleword_iff (a b : DWord) : a.extractLsb' 3 61 = b.extractLsb' 3 61 ↔ a.toNat / 8 = b.toNat / 8 := by
  have ha := a.isLt
  have hb := b.isLt
  rw [← BitVec.toNat_inj]
  simp only [BitVec.extractLsb'_toNat, Nat.shiftRight_eq_div_pow]
  omega

theorem watchMatch_iff (k : Access) : s.watchMatch k va = true ↔ va.toNat / 8 = s.cp0.watch.toNat / 8 ∧
    ((k = .load ∧ s.cp0.watch.getLsbD 1 = true) ∨ (k = .store ∧ s.cp0.watch.getLsbD 0 = true)) := by
  unfold State.watchMatch
  rw [Bool.and_eq_true, decide_eq_true_iff, sameDoubleword_iff]
  cases k <;> simp [bit]

/-- A watched access enters Watch, from the state the fill of its line leaves. -/
theorem AccessForm.exec_watch (h : AccessForm s k base rt o i n back) (hv : s.r base + o.signExtend 64 = va)
    (ha : va.toNat % n = 0) (ht : s.translate k va = .ok pa attr) (hw : s.watchMatch k va = true)
    (hx : s.exl = false) (he : s.erl = false) :
    Machine.exec i s = .next (takeException .watch (s.watchFill k attr va pa)) := by
  obtain ⟨α, va0, op, cont, -, -, hexec, -⟩ := h.exec hv ha
  rw [hexec s rfl, access_watch op ht hw hx he, andThen_exc]

/-- Nothing is filled for an uncached access, nor for one that hits. -/
theorem watchFill_same (h : attr ≠ 3 ∨ s.dHit va pa ≠ none) : s.watchFill k attr va pa = s := by
  unfold State.watchFill
  split
  · next h3 =>
    obtain ⟨key, hk⟩ := Option.ne_none_iff_exists'.1 (h.resolve_left (not_not.2 h3))
    rw [dEnsure_hit k hk]
  · rfl

/-- A miss leaves the state as it was, or the state its fill leaves. -/
theorem watchFill_miss : s.watchFill k 3 va pa = s ∨ ∃ v, s.dEnsure k va pa = .val v (s.watchFill k 3 va pa) := by
  simp only [State.watchFill, if_true]
  cases hd : s.dEnsure k va pa with
  | val v t => exact .inr ⟨v, rfl⟩
  | exc _ _ | fault _ | refused _ => exact .inl rfl

/-! ### Bus Error -/

/-- An uncached load whose first byte the parameter BUS_ERROR names. -/
theorem LoadForm.exec_busError (h : LoadForm s base rt o i n back m) (hv : s.r base + o.signExtend 64 = va)
    (ha : va.toNat % n = 0) (ht : s.translate .load va = .ok pa attr) (h3 : attr ≠ 3)
    (hw : s.watchMatch .load va = true → s.exl = true ∨ s.erl = true)
    (he : s.busErrorAt .load (pa - BitVec.ofNat 40 back) = true) :
    Machine.exec i s = .next (takeException (.busError false) s) := by
  obtain ⟨va0, cont, h1, h2, hexec⟩ := h.exec hv ha
  rw [hexec s rfl, State.loadBytes, access_ok _ ht hw, State.readAttr, if_neg h3, sameDouble_base ht h2 h1,
    State.busRead, if_pos he]
  rfl

/-- The address of the first byte, as a number. -/
theorem toNat_first (ht : s.translate k va = .ok pa attr) (hb : back ≤ va.toNat % 8) :
    (pa - BitVec.ofNat 40 back).toNat = pa.toNat - back := by
  have := translate_mod ht
  have small : (BitVec.ofNat 40 back).toNat = back := by
    rw [BitVec.toNat_ofNat]
    exact Nat.mod_eq_of_lt (by omega)
  rw [BitVec.toNat_sub_of_le (by rw [BitVec.le_def, small]; omega), small]

theorem busErrorAt_load {p : PAddr} (b : BusErrorRange) (hb : b ∈ s.cfg.busErrors) (hk : b.access = .load)
    (h1 : b.first ≤ p.toNat) (h2 : p.toNat ≤ b.last) : s.busErrorAt .load p = true :=
  List.any_eq_true.2 ⟨b, hb, by simp [Access.request, hk, h1, h2]⟩

/-- Settles O45: translation, CACHE, fetch, Watch and Bus Error in turn. -/
theorem accessExceptions : Obligations.AccessExceptions := by
  intro s base rt o va watched
  refine ⟨?_, fun k i n back e h ha ht => h.exec_exc rfl ha ht, ?_, fun e t hn hf => step_fetchExc hn hf,
    fun e t ha ht => fetch_exc ha ht, watchMatch_iff, ?_, ?_⟩
  · intro k md hm seg
    exact ⟨translate_error hm, fun _ _ => translate_unmapped hm, translate_mapped hm⟩
  · intro op e hp ht i hi
    have entered (f : DWord → PAddr → State → Result Unit) : cacheOp base o f s = .next (takeException e s) :=
      cacheOp_exc hp ht f
    simp only [List.mem_cons, List.not_mem_nil, or_false] at hi
    rcases hi with rfl | rfl | rfl | rfl | rfl | rfl | rfl | rfl | rfl | rfl | rfl | rfl | rfl | rfl | rfl | rfl <;>
      (unfold exec; exact entered _)
  · intro k i n back pa attr h ha ht ⟨hw, hx, he⟩
    have enters := h.exec_watch rfl ha ht hw hx he
    refine ⟨fun hs => by rw [enters, watchFill_same hs], ?_⟩
    rintro rfl hmiss hd hs hm
    refine ⟨_, enters, watchFill_miss.imp_right fun ⟨v, e⟩ => ⟨v, dEnsure_spec hmiss hd hs hm e⟩, fun hr => ?_⟩
    obtain ⟨v, t, e⟩ := dEnsure_ready hmiss hs hm hr
    have filled : s.watchFill k 3 va pa = t := by simp only [State.watchFill, if_true, e]
    exact ⟨v, filled ▸ dEnsure_spec hmiss hd hs hm e⟩
  · rintro i n back m pa attr h ha ht h3 hnot ⟨b, hb, hk, h1, h2⟩
    have first := toNat_first ht (h.small rfl).2
    refine h.exec_busError rfl ha ht h3 (fun hw => ?_) (busErrorAt_load b hb hk (first ▸ h1) (first ▸ h2))
    by_contra hn
    obtain ⟨hx, he⟩ := not_or.1 hn
    exact hnot ⟨hw, Bool.eq_false_iff.2 hx, Bool.eq_false_iff.2 he⟩

end Sys2Proof.Machine
end

