-- ==== Sys2Proof/Proofs/Encoding.lean ====
section
/-! SUPPORT. The decoder and the encoder agree, the decoder answers well-formed instructions only, and a word that is
no instruction takes its exception. -/

namespace Sys2Proof

/-! ### Decoding what was encoded -/

open Laws.Tables in
/-- The two tables agree on every instruction: the family `Laws.Tables`, in the order of the constructors. -/
theorem tables_agree (i : Instr) : Statement i :=
  @Instr.casesOn Statement i
    lb lbu lh lhu lw lwu ld lwl lwr ldl ldr sb sh sw sd swl swr sdl sdr ll lld sc scd lwc1 ldc1 swc1 sdc1 addi
    addiu daddi daddiu slti sltiu andi ori xori lui add addu sub subu dadd daddu dsub dsubu slt sltu and or xor
    nor movz movn sllv srlv srav dsllv dsrlv dsrav sll srl sra dsll dsrl dsra dsll32 dsrl32 dsra32 mult multu
    dmult dmultu div divu ddiv ddivu mfhi mflo mthi mtlo multG multuG dmultG dmultuG divG divuG ddivG ddivuG
    modG moduG dmodG dmoduG j jal jr jalr beq bne beql bnel blez bgtz blezl bgtzl bltz bgez bltzal bgezal bltzl
    bgezl bltzall bgezall syscall brk sync tge tgeu tlt tltu teq tne tgei tgeiu tlti tltiu teqi tnei mfc0 dmfc0
    mtc0 dmtc0 tlbr tlbwi tlbwr tlbp eret cache cache0 cache1 cache5 cache9 cache17 cache21 cache25 cache29
    cache3 cache7 cache11 cache19 cache23 cache27 cache31 addS addD subS subD mulS mulD divS divD sqrtS sqrtD
    absS absD movS movD negS negD roundLS roundLD truncLS truncLD ceilLS ceilLD floorLS floorLD roundWS roundWD
    truncWS truncWD ceilWS ceilWD floorWS floorWD cvtWS cvtWD cvtLS cvtLD cvtSD cvtSW cvtSL cvtDS cvtDW cvtDL
    cFS cFD cUnS cUnD cEqS cEqD cUeqS cUeqD cOltS cOltD cUltS cUltD cOleS cOleD cUleS cUleD cSfS cSfD cNgleS
    cNgleD cSeqS cSeqD cNglS cNglD cLtS cLtD cNgeS cNgeD cLeS cLeD cNgtS cNgtD bc1f bc1t bc1fl bc1tl mfc1 dmfc1
    cfc1 mtc1 dmtc1 ctc1 addPs subPs mulPs absPs movPs negPs cFPs cUnPs cEqPs cUeqPs cOltPs cUltPs cOlePs cUlePs
    cSfPs cNglePs cSeqPs cNglPs cLtPs cNgePs cLePs cNgtPs maddS maddD maddPs msubS msubD msubPs nmaddS nmaddD
    nmaddPs nmsubS nmsubD nmsubPs paddb paddh paddw paddd paddsb paddsh paddusb paddush psubb psubh psubw psubd
    psubsb psubsh psubusb psubush pshufh packsswh packsshb packushb pandn punpcklhw punpckhhw punpcklbh
    punpckhbh punpcklwd punpckhwd pinsrh0 pinsrh1 pinsrh2 pinsrh3 pavgh pavgb pmaxsh pminsh pmaxub pminub
    pcmpeqw pcmpgtw pcmpeqh pcmpgth pcmpeqb pcmpgtb psllw psllh pmullh pmulhh pmuluw pmulhuh psrlw psrlh psraw
    psrah pasubub biadd pextrh pmaddhw pmovmskb fxAdd fxAddu fxDadd fxSub fxSubu fxDsub fxOr fxXor fxNor fxAnd
    fxSll fxSrl fxSra fxDsll fxDsrl fxDsra fxSequ fxSeq fxSltu fxSlt fxSleu fxSle

/-- Decoding the word of a well-formed instruction gives the instruction. -/
theorem decode_encode {i : Instr} (h : i.wellFormed = true) : decode (encode i) = .ok i :=
  calc decode (encode i)
    _ = decodeFields (fieldsOfInstr i) := congrArg decodeFields (fieldsOf_wordOf _)
    _ = .ok i := tables_agree i h

theorem decode_eq_of_encode {i : Instr} {w : Word} (h : i.wellFormed = true) (e : encode i = w) : decode w = .ok i :=
  e ▸ decode_encode h

/-! ### Well-formed answers

Every constructor but the generic `cache` is well formed with any operands, so a table that does not answer `cache`
needs its cases only; `cache` is the last case of `decodeCache`, which the fifteen listed operations do not reach. -/

/-- An answer of the decoder that is a well-formed instruction, or a rejection. -/
def answersWellFormed : Except Reject Instr → Bool
  | .ok i => i.wellFormed
  | .error _ => true

theorem decodeSpecial_wellFormed (f : Fields) : answersWellFormed (decodeSpecial f) = true := by
  unfold decodeSpecial
  split <;> rfl

theorem decodeRegimm_wellFormed (f : Fields) : answersWellFormed (decodeRegimm f) = true := by
  unfold decodeRegimm
  split <;> rfl

theorem decodeCop0Op_wellFormed (f : Fields) : answersWellFormed (decodeCop0Op f) = true := by
  unfold decodeCop0Op
  split <;> rfl

theorem decodeCop0Move_wellFormed (f : Fields) : answersWellFormed (decodeCop0Move f) = true := by
  unfold decodeCop0Move
  split <;> rfl

/-- COP1: the moves, and the tables by format. -/
theorem decodeCop1_wellFormed (f : Fields) : answersWellFormed (decodeCop1 f) = true := by
  unfold decodeCop1 decodeBc1 decodeCop1S decodeCop1D decodeCop1W decodeCop1L decodeCop1Ps
  split
  case h_7 | h_8 | h_9 | h_10 | h_11 | h_12 => split <;> rfl
  all_goals rfl

/-- COP2: the tables of formats 24 to 31. -/
theorem decodeCop2_wellFormed (f : Fields) : answersWellFormed (decodeCop2 f) = true := by
  unfold decodeCop2 decodeCop2Fmt24 decodeCop2Fmt25 decodeCop2Fmt26 decodeCop2Fmt27 decodeCop2Fmt28 decodeCop2Fmt29
    decodeCop2Fmt30 decodeCop2Fmt31
  split
  case h_9 => rfl
  all_goals split <;> rfl

/-- SPECIAL2: the .G instructions, and the four multiply-adds by format. -/
theorem decodeSpecial2_wellFormed (f : Fields) : answersWellFormed (decodeSpecial2 f) = true := by
  unfold decodeSpecial2 decodeMadd decodeMsub decodeNmadd decodeNmsub
  split
  case h_9 | h_10 | h_11 | h_12 => split <;> rfl
  all_goals rfl

/-- CACHE: the generic form is left with the operations that Table 51 does not list. -/
theorem decodeCache_wellFormed (f : Fields) : answersWellFormed (decodeCache f) = true := by
  unfold decodeCache
  split
  case h_16 =>
    show (!listedCacheOps.contains f.rt) = true
    simp_all [listedCacheOps]
  all_goals rfl

theorem decodeFields_wellFormed (f : Fields) : answersWellFormed (decodeFields f) = true := by
  unfold decodeFields
  split
  case h_1 => exact decodeSpecial_wellFormed f
  case h_2 => exact decodeRegimm_wellFormed f
  case h_17 =>
    split
    · exact decodeCop0Op_wellFormed f
    · exact decodeCop0Move_wellFormed f
  case h_18 => exact decodeCop1_wellFormed f
  case h_19 => exact decodeCop2_wellFormed f
  case h_28 => exact decodeSpecial2_wellFormed f
  case h_44 => exact decodeCache_wellFormed f
  all_goals rfl

/-- The decoder answers well-formed instructions only. -/
theorem wellFormed_of_decode {w : Word} {i : Instr} (h : decode w = .ok i) : i.wellFormed = true :=
  calc i.wellFormed
    _ = answersWellFormed (decode w) := (congrArg answersWellFormed h).symm
    _ = true := decodeFields_wellFormed (fieldsOf w)

/-- Settles O1: the round trip from the agreement of the tables, well-formedness from the cases of each table. -/
theorem decodeEncodeRoundTrip : Obligations.DecodeEncodeRoundTrip :=
  ⟨fun _ => decode_encode, fun _ _ => wellFormed_of_decode⟩

/-- Settles O2: each word is the encoding of its instruction. -/
theorem sampleWordsDecode : Obligations.SampleWordsDecode := by
  refine ⟨?_, ?_, ?_, ?_, ?_, ?_, ?_, ?_, ?_, ?_, ?_⟩ <;> exact decode_eq_of_encode rfl rfl

end Sys2Proof

namespace Sys2Proof.Machine
variable {s t : State} {w : Word} {r : Reject}

/-! ### Words that are no instruction -/

/-- A step that fetches a word the decoder rejects takes the exception of the rejection. -/
theorem step_rejected (he : s.boundary.event = none) (hf : s.boundary.fetch = .val w t) (hd : decode w = .error r) :
    step s = rejectOut r t :=
  calc step s
    _ = decodedOut (decode w) t := step_word he hf
    _ = rejectOut r t := congrArg (decodedOut · t) hd

theorem traps_reservedInstruction (t : State) : Traps (raise .reservedInstruction t) t 10 0 := traps_raise _ t rfl rfl

theorem traps_coprocessorUnusable (n : BitVec 2) (t : State) : Traps (raise (.coprocessorUnusable n) t) t 11 n :=
  traps_raise _ t rfl rfl

/-- FCSR after an operation left to software: Cause holds E alone, and no Flag bit is added (46_fpu R530, R531). -/
theorem fcsrAfter_unimplemented (f : Word) :
    fcsrAfter f { unimplemented := true } = (f &&& ~~~0x3F000) ||| 0x20000 :=
  if_pos (by simp [fcsrTraps, bit, fcsrWithCause, maskedWrite, FpExc.cause])

/-- An operation left to software takes the Floating-Point exception whatever FCSR enables. -/
theorem traps_fpFinish_unimplemented (write : State → State) (t : State) :
    Traps (fpFinish { unimplemented := true } write t) (t.setFcsr ((t.fcsr &&& ~~~0x3F000) ||| 0x20000)) 15 0 := by
  have traps : fcsrTraps (fcsrAfter t.fcsr { unimplemented := true }) = true := (fcsrTraps_after _ _).2 (.inl rfl)
  rw [← fcsrAfter_unimplemented]
  show Traps (if fcsrTraps (fcsrAfter t.fcsr { unimplemented := true }) then _ else _) _ _ _
  rw [if_pos traps]
  exact traps_raise .floatingPoint _ rfl rfl

/-- Settles O7: the exception of each rejection, behind the usability check it has. -/
theorem reservedWordsTrap : Obligations.ReservedWordsTrap := by
  intro s t w r he hf hd
  rw [step_rejected he hf hd]
  refine ⟨?_, ?_, ?_, ?_, ?_, ?_⟩
  · rintro rfl
    exact traps_reservedInstruction t
  · rintro rfl privileged
    rw [rejectOut, withCp0_allowed privileged]
    exact traps_reservedInstruction t
  · rintro rfl hcu hm
    have denied (k : Out) : withCp0 t k = raise (.coprocessorUnusable 0) t := by
      rcases hm with hm | hm <;> exact withCp0_denied hcu hm (by decide)
    rw [rejectOut, denied]
    exact traps_coprocessorUnusable 0 t
  · rintro rfl hcu
    rw [rejectOut, withFpu_enabled hcu]
    exact traps_fpFinish_unimplemented _ t
  · rintro rfl hcu
    rw [rejectOut, withFpu_enabled hcu]
    exact traps_reservedInstruction t
  · rintro (rfl | rfl) hcu <;> rw [rejectOut, withFpu_disabled hcu] <;> exact traps_coprocessorUnusable 1 t

end Sys2Proof.Machine
end

section
/-! SUPPORT. The partial loads, and the loads and stores of the FPU, on plain memory. -/

namespace Sys2Proof.Machine
variable {s : State} {base rt : RegNum} {o : Half} {i : Instr} {n back m : Nat} {pa first : PAddr} {a : Nat}

/-- Every load form makes of the bytes of plain memory what its rule says. -/
theorem LoadForm.gives_plain (h : LoadForm s base rt o i n back m)
    (hp : PlainAccess s .load (s.r base + o.signExtend 64) pa first a) (hb : pa - BitVec.ofNat 40 back = first)
    (ha : (s.r base + o.signExtend 64).toNat % n = 0) :
    LoadGives s base rt o i (s.afterWatch .load (s.r base + o.signExtend 64)) (readLe s.mem a m) := by
  obtain ⟨hm, hback⟩ := h.small rfl
  obtain ⟨attr, -, ht⟩ := hp.uncached
  refine h.gives rfl ha rfl (fun va0 hv => loadBytes_plain m hp ((sameDouble_base ht hback hv).trans hb)) fun j hj => ?_
  exact (byteOf_readLe _ _ _ _ (by omega)).trans (if_neg (by omega))

/-- The bytes a load finds in plain memory. -/
theorem byteOf_loaded (s : State) (a : Nat) {m j : Nat} (hm : m ≤ 8) (hj : j < m) :
    byteOf (readLe s.mem a m : DWord) j = memByte s.mem (a + j) :=
  (byteOf_readLe _ _ _ _ (by omega)).trans (if_pos hj)

/-- Settles O39: each partial load by its form, its bytes by those of memory. -/
theorem partialLoads : Obligations.PartialLoads := by
  intro s base rt o pa a hr va u w d old word double
  have one : va.toNat % 1 = 0 := Nat.mod_one _
  have zero : pa - BitVec.ofNat 40 0 = pa := BitVec.sub_zero pa
  have hw : w < 4 := Nat.mod_lt _ (by decide)
  have hd : d < 8 := Nat.mod_lt _ (by decide)
  refine ⟨fun hp => ?_, fun hp => ?_, fun hp => ?_, fun hp => ?_⟩
  · refine (((LoadForm.lwl hr).gives_plain hp rfl one).lwl rfl).congr fun k hk => ?_
    refine ite_congr rfl (fun _ => rfl) fun (h : ¬k + w < 3) => ?_
    exact byteOf_loaded s a (m := w + 1) (j := k + w - 3) (by omega) (by omega)
  · refine (((LoadForm.lwr hr).gives_plain hp zero one).lwr rfl).congr fun k hk => ?_
    refine ite_congr rfl (fun (h : k + w < 4) => ?_) fun _ => rfl
    exact byteOf_loaded s a (m := 4 - w) (by omega) (by omega)
  · refine (((LoadForm.ldl hr).gives_plain hp rfl one).ldl rfl).congr fun k hk => ?_
    refine ite_congr rfl (fun _ => rfl) fun (h : ¬k + d < 7) => ?_
    exact byteOf_loaded s a (m := d + 1) (j := k + d - 7) (by omega) (by omega)
  · refine (((LoadForm.ldr hr).gives_plain hp zero one).ldr rfl).congr fun k hk => ?_
    refine ite_congr rfl (fun (h : k + d < 8) => ?_) fun _ => rfl
    exact byteOf_loaded s a (m := 8 - d) (by omega) (by omega)

/-- Settles O43: the loads by `LoadForm.gives_plain`, the stores by `StoreForm.storeResult`. -/
theorem fpLoadsAndStores : Obligations.FpLoadsAndStores := by
  intro s base ft o pa a va u u'
  have zero : pa - BitVec.ofNat 40 0 = pa := BitVec.sub_zero pa
  refine ⟨fun ⟨hc, _⟩ hp ha => ?_, fun hc hp ha => ?_, fun ⟨hc, _⟩ hm hp ha => ?_, fun hc hm hp ha => ?_⟩
  · rw [← low32_readLe, ← setWidth_eq_low32]
    exact ((LoadForm.lwc1 hc).gives_plain hp zero ha).lwc1 rfl
  · rw [← readLe_double]
    exact ((LoadForm.ldc1 hc).gives_plain hp zero ha).ldc1 rfl
  · exact (StoreForm.swc1 hc).storeResult ha rfl hm hp zero fun j hj => byteOf_setWidth _ _ (by omega)
  · exact (StoreForm.sdc1 hc).storeResult ha rfl hm hp zero fun _ _ => rfl

end Sys2Proof.Machine
end

section
/-! SUPPORT. The loads to register 0, and what bringing a data line in leaves unchanged in every state. -/

namespace Sys2Proof.Machine
variable {s t u : State} {va : DWord} {pa : PAddr} {n : Nat} {k : Access} {base : RegNum} {o : Half} {i : Instr}

/-! ### The frame of a fill

`dEnsure_spec` has it too, but for caches and memory in canonical form only. -/

/-- An operation that ends in a state differing from `s` in the data caches, memory and the free values alone, whether
it delivers or raises an exception. -/
def Result.InCore {α : Type} (s : State) : Result α → Prop
  | .val _ t => SameCore s t
  | .exc _ t => SameCore s t
  | _ => True

theorem Result.InCore.bind {α β : Type} {r : Result α} {g : α → State → Result β} (h : r.InCore s)
    (hg : ∀ a t, SameCore s t → (g a t).InCore s) : (r.bind g).InCore s := by
  cases r with
  | val a t => exact hg a t h
  | exc e t => exact h
  | fault f => trivial
  | refused r => trivial

namespace SameCore

/-- Any other data lines, secondary lines, memory and free values. -/
theorem update (h : SameCore s t) (dc sc m ds c) :
    SameCore s { t with dcache := dc, scache := sc, mem := m, draws := ds, freeCount := c } := by
  have e : t = _ := h
  exact congrArg (fun x : State => { x with dcache := dc, scache := sc, mem := m, draws := ds, freeCount := c }) e

theorem free (h : SameCore s t) : SameCore s t.free.2 := by
  obtain ⟨ds, c, e⟩ := free_eq t
  rw [e]
  exact h.update t.dcache t.scache t.mem ds c

theorem setDLine (h : SameCore s t) (k : Nat) (l : DLine) : SameCore s (t.setDLine k l) := h.update _ t.scache t.mem _ _

theorem setSLine (h : SameCore s t) (k : Nat) (l : SLine) : SameCore s (t.setSLine k l) := h.update t.dcache _ t.mem _ _

theorem lineRead (h : SameCore s t) (k : Access) (p : PAddr) : (t.lineRead k p).InCore s := by
  unfold State.lineRead
  split
  · exact h
  · split
    · exact h
    · split
      · exact h
      · trivial
    all_goals trivial

theorem lineWrite (h : SameCore s t) (p : PAddr) (data : BitVec 256) : (t.lineWrite p data).InCore s := by
  unfold State.lineWrite
  split
  · exact h.update t.dcache t.scache _ _ _
  · exact h
  all_goals trivial

theorem sEvict (h : SameCore s t) (w : Nat) : (t.sEvict w).InCore s := by
  unfold State.sEvict
  dsimp only
  split
  · exact h.lineWrite _ _
  · exact h

theorem sInstall (h : SameCore s t) (p : PAddr) (st : BitVec 2) (data : BitVec 256) :
    (t.sInstall p st data).InCore s :=
  Result.InCore.bind (h.free.sEvict _) fun _ _ hu => hu.setSLine _ _

theorem sFetch (h : SameCore s t) (k : Access) (p : PAddr) : (t.sFetch k p).InCore s := by
  unfold State.sFetch
  split
  · exact (h.lineRead k p).bind fun _ _ hu => hu
  · split
    · exact h
    · exact (h.lineRead k p).bind fun _ _ hu => (hu.sInstall _ _ _).bind fun _ _ hv => hv

theorem sPut (h : SameCore s t) (p : PAddr) (data : BitVec 256) : (t.sPut p data).InCore s := by
  unfold State.sPut
  split
  · exact h.lineWrite _ _
  · split
    · exact h.setSLine _ _
    · exact (h.sInstall _ _ _).bind fun _ _ hu => hu

theorem dWriteBack (h : SameCore s t) (v : Nat) : (t.dWriteBack v).InCore s := by
  unfold State.dWriteBack
  dsimp only
  split
  · exact h.sPut _ _
  · exact h

theorem dEnsure (h : SameCore s t) (k : Access) (va : DWord) (pa : PAddr) : (t.dEnsure k va pa).InCore s := by
  unfold State.dEnsure
  split
  · exact h
  · exact (h.sFetch _ _).bind fun _ _ hu => (hu.free.dWriteBack _).bind fun _ _ hv => hv.setDLine _ _

end SameCore

/-! ### A fill after a free value was used up -/

theorem LineFetched.of_draws {ds : List Nat} {c : Nat} {p : PAddr} {data : BitVec 256} {way : BitVec 2}
    (h : LineFetched { s with draws := ds, freeCount := c } u k p data way) : LineFetched s u k p data way :=
  h.imp_right fun ⟨a, block, bytes, rest⟩ => ⟨a, block, bytes, rest.imp_right fun ⟨on, miss, w, hw, filled⟩ =>
    ⟨on, miss, w, hw, filled.congr ⟨rfl, rfl, rfl, fun _ => rfl⟩ ⟨rfl, rfl, rfl, fun _ => rfl⟩⟩⟩

/-- A fill says the same of the state before a free value was used up. -/
theorem LineFilled.of_free {v : Nat} (h : LineFilled s.free.2 t k va pa v) : LineFilled s t k va pa v := by
  obtain ⟨ds, c, e⟩ := free_eq s
  rw [e] at h
  obtain ⟨hv, ⟨u, data, way, hu, fetched, lines, dirty, clean⟩, frame⟩ := h
  have beneath : SameBelow u { s with scache := u.scache, mem := u.mem } :=
    ⟨rfl, rfl, by rw [hu], fun p => by rw [hu]; rfl⟩
  exact ⟨hv, ⟨{ s with scache := u.scache, mem := u.mem }, data, way, rfl, fetched.of_draws.congr beneath, lines,
    fun hd => (dirty hd).congr beneath ⟨rfl, rfl, rfl, fun _ => rfl⟩, clean⟩, frame⟩

/-! ### Loads to register 0 (40_loads_stores R246) -/

/-- What a load to register 0 does: nothing; or, on a cached address, it uses up a free value, and may bring the line
in. -/
theorem prefetch_cases (s : State) (va : DWord) (n : Nat) : s.prefetch va n = s ∨
    ∃ pa, s.translate .load va = .ok pa 3 ∧
      (s.prefetch va n = s.free.2 ∨ ∃ v, s.free.2.dEnsure .load va pa = .val v (s.prefetch va n)) := by
  by_cases ha : va.toNat % n = 0
  · cases ht : s.translate .load va with
    | exc e => left; simp only [State.prefetch, aligned, ha, ht, decide_true, if_true]
    | fault f => left; simp only [State.prefetch, aligned, ha, ht, decide_true, if_true]
    | ok pa attr =>
      by_cases h3 : attr = 3
      · subst h3
        refine .inr ⟨pa, rfl, ?_⟩
        simp only [State.prefetch, aligned, ha, ht, decide_true, if_true]
        split
        · cases he : s.free.2.dEnsure .load va pa with
          | val v u => exact .inr ⟨v, rfl⟩
          | exc _ _ | fault _ | refused _ => exact .inl rfl
        · exact .inl rfl
      · left; simp only [State.prefetch, aligned, ha, ht, h3, decide_true, if_true, if_false]
  · exact .inl (prefetch_misaligned ha)

/-- The frame of a load to register 0. -/
theorem prefetch_sameCore (s : State) (va : DWord) (n : Nat) : SameCore s (s.prefetch va n) := by
  have free := (SameCore.refl s).free
  rcases prefetch_cases s va n with e | ⟨pa, -, e | ⟨v, e⟩⟩
  · rw [e]
    exact SameCore.refl s
  · rw [e]
    exact free
  · have core := free.dEnsure .load va pa
    rw [e] at core
    exact core

theorem prefetch_uncached (h : ∀ pa, s.translate .load va ≠ .ok pa 3) : s.prefetch va n = s :=
  (prefetch_cases s va n).resolve_right fun ⟨pa, ht, _⟩ => h pa ht

/-- A load to register 0 leaves the data caches and memory, or brings in a line that was not there. -/
theorem prefetch_filled (hd : sparseWf DLine.empty s.dcache) (hs : sparseWf SLine.empty s.scache)
    (hm : Memory.wf s.mem) :
    ((s.prefetch va n).dcache = s.dcache ∧ (s.prefetch va n).scache = s.scache ∧ (s.prefetch va n).mem = s.mem) ∨
    ∃ pa v, s.translate .load va = .ok pa 3 ∧ s.dHit va pa = none ∧
      LineFilled s (s.prefetch va n) .load va pa v := by
  obtain ⟨ds, c, hfree⟩ := free_eq s
  have hdc : s.free.2.dcache = s.dcache := by rw [hfree]
  have hsc : s.free.2.scache = s.scache := by rw [hfree]
  have hmem : s.free.2.mem = s.mem := by rw [hfree]
  rcases prefetch_cases s va n with e | ⟨pa, ht, e | ⟨v, e⟩⟩
  · rw [e]
    exact .inl ⟨rfl, rfl, rfl⟩
  · rw [e]
    exact .inl ⟨hdc, hsc, hmem⟩
  · have lookup : s.free.2.dHit va pa = s.dHit va pa := by rw [hfree]; rfl
    cases hit : s.dHit va pa with
    | some key =>
      rw [dEnsure_hit .load (lookup.trans hit)] at e
      obtain ⟨-, e⟩ := Result.val.inj e
      rw [← e]
      exact .inl ⟨hdc, hsc, hmem⟩
    | none =>
      exact .inr ⟨pa, v, ht, hit,
        (dEnsure_spec (lookup.trans hit) (hdc ▸ hd) (hsc ▸ hs) (hmem ▸ hm) e).of_free⟩

/-- The loads to register 0, each with the width its address must be a multiple of to reach memory. -/
def zeroLoads (base : RegNum) (o : Half) : List (Instr × Nat) :=
  [(.lb base 0 o, 1), (.lbu base 0 o, 1), (.lh base 0 o, 2), (.lhu base 0 o, 2), (.lw base 0 o, 4), (.lwu base 0 o, 4),
    (.ld base 0 o, 8), (.lwl base 0 o, 1), (.lwr base 0 o, 1), (.ldl base 0 o, 1), (.ldr base 0 o, 1),
    (.ll base 0 o, 4), (.lld base 0 o, 8)]

/-- Each of them is a prefetch and nothing more. -/
theorem exec_zeroLoad (s : State) :
    ∀ p ∈ zeroLoads base o, exec p.1 s = done (s.prefetch (s.r base + o.signExtend 64) p.2) := by
  simp only [zeroLoads, List.forall_mem_cons]
  exact ⟨rfl, rfl, rfl, rfl, rfl, rfl, rfl, rfl, rfl, rfl, rfl, rfl, rfl, nofun⟩

/-- Settles O40: every load to register 0 is a prefetch, and what a prefetch can do is `prefetch_sameCore`,
`prefetch_filled`, `prefetch_uncached` and `prefetch_misaligned`. -/
theorem loadsToRegisterZero : Obligations.LoadsToRegisterZero := by
  intro s base o va i hi
  obtain ⟨⟨i, n⟩, hin, rfl⟩ : ∃ p ∈ zeroLoads base o, p.1 = i := List.mem_map.1 hi
  have run : exec i s = done (s.prefetch va n) := exec_zeroLoad s _ hin
  refine ⟨?_, fun ht => ?_, fun m him ha => ?_⟩
  · have core := prefetch_sameCore s va n
    have hpc : (s.prefetch va n).pc = s.pc := by rw [core]
    have hdelay : (s.prefetch va n).delay = s.delay := by rw [core]
    refine ⟨(s.prefetch va n).advance, run, ?_, rfl, ?_, fun hd hs hm => ?_⟩
    · rw [advance_pc, nextPc_congr hpc hdelay]
    · exact congrArg (fun u : State => { u with pc := (s.prefetch va n).advance.pc, delay := none }) core
    · rw [← hpc, ← hdelay]
      exact prefetch_filled hd hs hm
  · rw [run, prefetch_uncached ht]
    exact onlyAdvances_done s
  · have listed : (i, m) ∈ zeroLoads base o := by
      revert him
      simp only [zeroLoads, List.mem_cons, List.not_mem_nil, or_false]
      tauto
    have run : exec i s = done (s.prefetch va m) := exec_zeroLoad s _ listed
    rw [run, prefetch_misaligned ha]
    exact onlyAdvances_done s

end Sys2Proof.Machine
end

section
/-! SUPPORT. The integer ALU (41_alu) and the moves of HI and LO (42_muldiv): every value the model computes on bit
vectors is the one the rules give on integers. -/

namespace Sys2Proof.Machine
variable {s : State} {rd : RegNum} {v u : DWord} {b : Bool} {p : Prop} [Decidable p]

/-! ### The shared endings of the ALU instructions (41_alu R290, R292) -/

/-- Finishing with a value in a general register, the value written in another way. -/
theorem gprResult_setGpr (h : v = u) : GprResult (setGpr rd v s) s rd u := h ▸ gprResult_done s rd v

/-- What an instruction that traps on overflow does with the exact value `v`: inside the signed range of `n + 1` bits it
is the result, else Integer Overflow is taken. -/
def ResultOrOverflow (n : Nat) (o : Out) (s : State) (rd : RegNum) (v : Int) : Prop :=
  if -2 ^ n ≤ v ∧ v < 2 ^ n then GprResult o s rd (BitVec.ofInt 64 v) else Traps o s 12 0

theorem resultOrOverflow_setGprOr {n : Nat} {v : Int} {d : DWord} (overflow : b = true ↔ ¬(-2 ^ n ≤ v ∧ v < 2 ^ n))
    (value : -2 ^ n ≤ v ∧ v < 2 ^ n → d = BitVec.ofInt 64 v) :
    ResultOrOverflow n (setGprOr b rd d s) s rd v := by
  unfold ResultOrOverflow setGprOr
  by_cases fits : -2 ^ n ≤ v ∧ v < 2 ^ n
  · rw [if_pos fits, if_neg (fun hb => overflow.1 hb fits)]
    exact gprResult_setGpr (value fits)
  · rw [if_neg fits, if_pos (overflow.2 fits)]
    exact traps_raise .overflow s rfl rfl

/-- A comparison answers 1 where it holds, else 0. -/
theorem bool64_eq_ite (h : b = true ↔ p) : bool64 b = if p then 1 else 0 := if_congr h rfl rfl

theorem bool64_slt {w : Nat} (x y : BitVec w) : bool64 (x.slt y) = if x.toInt < y.toInt then 1 else 0 :=
  bool64_eq_ite decide_eq_true_iff

theorem bool64_ult {w : Nat} (x y : BitVec w) : bool64 (x.ult y) = if x.toNat < y.toNat then 1 else 0 :=
  bool64_eq_ite decide_eq_true_iff

/-! ### Sums and differences -/

/-- A sign-extended immediate is the same integer (30_encoding R210). -/
theorem toInt_signExtend_half {w : Nat} (hw : 16 ≤ w) (imm : Half) : (imm.signExtend w).toInt = imm.toInt :=
  BitVec.toInt_signExtend_of_le hw

/-- The sum of a doubleword and an immediate. -/
theorem ofInt_add_sext64 (x : DWord) (imm : Half) : BitVec.ofInt 64 (x.toInt + imm.toInt) = x + sext64 imm := by
  rw [← ofInt_add, sext64, toInt_signExtend_half (by decide)]

section
variable (s : State) (rd : RegNum)

/-- A sum of words, or Integer Overflow. -/
theorem wordSum_resultOrOverflow (x y : Word) :
    ResultOrOverflow 31 (setGprOr (addOverflows x y) rd (sext64 (x + y)) s) s rd (x.toInt + y.toInt) :=
  resultOrOverflow_setGprOr (addOverflows_iff x y) fun fits => by rw [← ofInt_add]; exact ofInt_fits fits

/-- A difference of words, or Integer Overflow. -/
theorem wordDifference_resultOrOverflow (x y : Word) :
    ResultOrOverflow 31 (setGprOr (subOverflows x y) rd (sext64 (x - y)) s) s rd (x.toInt - y.toInt) :=
  resultOrOverflow_setGprOr (subOverflows_iff x y) fun fits => by rw [← ofInt_sub]; exact ofInt_fits fits

/-- A sum of doublewords, or Integer Overflow. -/
theorem doubleSum_resultOrOverflow (x y : DWord) :
    ResultOrOverflow 63 (setGprOr (addOverflows x y) rd (x + y) s) s rd (x.toInt + y.toInt) :=
  resultOrOverflow_setGprOr (addOverflows_iff x y) fun _ => (ofInt_add x y).symm

/-- A difference of doublewords, or Integer Overflow. -/
theorem doubleDifference_resultOrOverflow (x y : DWord) :
    ResultOrOverflow 63 (setGprOr (subOverflows x y) rd (x - y) s) s rd (x.toInt - y.toInt) :=
  resultOrOverflow_setGprOr (subOverflows_iff x y) fun _ => (ofInt_sub x y).symm

end

/-- Settles O12: each instruction by the sum or difference of its width, the immediate forms after sign extension. -/
theorem aluTrapsOnOverflow : Obligations.AluTrapsOnOverflow := by
  intro s rs rt rd imm a b x y word double
  have addi := wordSum_resultOrOverflow s rt (low32 (s.r rs)) (imm.signExtend 32)
  have daddi := doubleSum_resultOrOverflow s rt (s.r rs) (sext64 imm)
  rw [toInt_signExtend_half (by decide)] at addi
  rw [sext64, toInt_signExtend_half (by decide)] at daddi
  exact ⟨wordSum_resultOrOverflow s rd _ _, addi, wordDifference_resultOrOverflow s rd _ _,
    doubleSum_resultOrOverflow s rd _ _, daddi, doubleDifference_resultOrOverflow s rd _ _⟩

/-- Settles O11: the sums and differences by `ofInt_add` and `ofInt_sub`, the comparisons by `bool64_slt` and
`bool64_ult`, LUI by `toInt_append_zeros`; the bitwise forms compute the value as it is stated. -/
theorem aluResults : Obligations.AluResults := by
  intro s rs rt rd imm a b
  have slti : bool64 (a.slt (sext64 imm)) = if a.toInt < imm.toInt then 1 else 0 := by
    rw [bool64_slt, sext64, toInt_signExtend_half (by decide)]
  have lui : sext64 (imm ++ (0 : BitVec 16)) = BitVec.ofInt 64 (imm.toInt * 2 ^ 16) :=
    congrArg (BitVec.ofInt 64) (toInt_append_zeros imm)
  refine ⟨?addiu, ?daddiu, ?slti, ?sltiu, ?andi, ?ori, ?xori, ?lui, ?addu, ?subu, ?daddu, ?dsubu, ?slt, ?sltu, ?and,
    ?or, ?xor, ?nor⟩
  case addiu => exact gprResult_setGpr (congrArg sext64 (ofInt_add_half _ imm).symm)
  case daddiu => exact gprResult_setGpr (ofInt_add_sext64 _ imm).symm
  case addu => exact gprResult_setGpr (congrArg sext64 (ofInt_add _ _).symm)
  case subu => exact gprResult_setGpr (congrArg sext64 (ofInt_sub _ _).symm)
  case daddu => exact gprResult_setGpr (ofInt_add a b).symm
  case dsubu => exact gprResult_setGpr (ofInt_sub a b).symm
  case slti => exact gprResult_setGpr slti
  case sltiu => exact gprResult_setGpr (bool64_ult a (sext64 imm))
  case slt => exact gprResult_setGpr (bool64_slt a b)
  case sltu => exact gprResult_setGpr (bool64_ult a b)
  case lui => exact gprResult_setGpr lui
  case andi | ori | xori => exact gprResult_done s rt _
  case and | or | xor | nor => exact gprResult_done s rd _

/-! ### Shifts -/

/-- The low `n` bits of a register as a shift amount: the register modulo 2^n (41_alu R323, R329). -/
theorem toNat_lowBits (x : DWord) (n : Nat) : (x.extractLsb' 0 n).toNat = x.toNat % 2 ^ n := by
  rw [BitVec.extractLsb'_toNat, Nat.shiftRight_zero]

section
variable (s : State) (rd : RegNum)

/-! One lemma per kind of shift, for every amount `k`: what it computes on a word and on a doubleword. -/

theorem gprResult_shl_word (x : Word) (k : Nat) : GprResult (setGpr rd (sext64 (x <<< k)) s) s rd
    ((BitVec.ofNat 32 (x.toNat * 2 ^ k)).signExtend 64) := gprResult_setGpr (congrArg sext64 (ofNat_shl x k).symm)

theorem gprResult_shr_word (x : Word) (k : Nat) : GprResult (setGpr rd (sext64 (x >>> k)) s) s rd
    ((BitVec.ofNat 32 (x.toNat / 2 ^ k)).signExtend 64) := gprResult_setGpr (congrArg sext64 (ofNat_shr x k).symm)

theorem gprResult_sar_word (x : Word) (k : Nat) : GprResult (setGpr rd (sext64 (x.sshiftRight k)) s) s rd
    (BitVec.ofInt 64 (x.toInt / 2 ^ k)) := gprResult_setGpr (ofInt_sar_word x k).symm

theorem gprResult_shl (x : DWord) (k : Nat) : GprResult (setGpr rd (x <<< k) s) s rd
    (BitVec.ofNat 64 (x.toNat * 2 ^ k)) := gprResult_setGpr (ofNat_shl x k).symm

theorem gprResult_shr (x : DWord) (k : Nat) : GprResult (setGpr rd (x >>> k) s) s rd
    (BitVec.ofNat 64 (x.toNat / 2 ^ k)) := gprResult_setGpr (ofNat_shr x k).symm

theorem gprResult_sar (x : DWord) (k : Nat) : GprResult (setGpr rd (x.sshiftRight k) s) s rd
    (BitVec.ofInt 64 (x.toInt / 2 ^ k)) := gprResult_setGpr (ofInt_sar x k).symm

end

/-- Settles O13: the three kinds of shift on words and doublewords, by the field, by the field plus 32, and by the low
bits of rs. -/
theorem shiftResults : Obligations.ShiftResults := by
  intro s rs rt rd sa a m x n
  have hm : m = ((s.r rs).extractLsb' 0 5).toNat := (toNat_lowBits _ 5).symm
  have hn : n = ((s.r rs).extractLsb' 0 6).toNat := (toNat_lowBits _ 6).symm
  rw [hm, hn]
  exact ⟨gprResult_shl_word s rd a _, gprResult_shr_word s rd a _, gprResult_sar_word s rd a _,
    gprResult_shl_word s rd a _, gprResult_shr_word s rd a _, gprResult_sar_word s rd a _,
    gprResult_shl s rd x _, gprResult_shr s rd x _, gprResult_sar s rd x _,
    gprResult_shl s rd x _, gprResult_shr s rd x _, gprResult_sar s rd x _,
    gprResult_shl s rd x _, gprResult_shr s rd x _, gprResult_sar s rd x _⟩

/-! ### Moves -/

/-- A conditional move whose condition holds. -/
theorem gprResult_moveIf (h : p) : GprResult (if p then setGpr rd v s else done s) s rd v :=
  (if_pos h).symm ▸ gprResult_done s rd v

/-- A conditional move whose condition fails. -/
theorem onlyAdvances_moveIf (h : ¬p) : OnlyAdvances (if p then setGpr rd v s else done s) s :=
  (if_neg h).symm ▸ onlyAdvances_done s

/-- Settles O14: MOVZ and MOVN are one conditional move on opposite conditions; a write to HI is one to HI and LO that
gives LO its old value, and the other way round. -/
theorem moveResults : Obligations.MoveResults := by
  intro s rs rt rd
  refine ⟨fun zero => ⟨?_, ?_⟩, fun nonzero => ⟨?_, ?_⟩, ?_, ?_, ?_, ?_⟩
  · exact gprResult_moveIf zero
  · exact onlyAdvances_moveIf (not_not.2 zero)
  · exact gprResult_moveIf nonzero
  · exact onlyAdvances_moveIf nonzero
  · exact gprResult_done s rd s.hi
  · exact gprResult_done s rd s.lo
  · exact hiLoResult_done s (s.r rs) s.lo
  · exact hiLoResult_done s s.hi (s.r rs)

end Sys2Proof.Machine
end

section
/-! SUPPORT. Multiplication and division (42_muldiv): both halves of the exact product, the truncated quotient and its
remainder, and what still holds when the divisor is zero. -/

namespace Sys2Proof.Machine
variable {w : Nat} {s t : State} {rd : RegNum} {o : Out} {hi lo hi' lo' v u : DWord} {p : Prop} [Decidable p]

/-! ### The halves of the exact products (42_muldiv R357 to R360) -/

theorem smulFull_high (a b : BitVec w) :
    (smulFull a b).extractLsb' w w = BitVec.ofInt w (a.toInt * b.toInt / 2 ^ w) := by
  rw [smulFull_eq, extract_ofInt _ _ _ _ le_rfl]

theorem smulFull_low (a b : BitVec w) : (smulFull a b).extractLsb' 0 w = BitVec.ofInt w (a.toInt * b.toInt) := by
  rw [smulFull_eq, extract_ofInt _ _ _ _ (by omega), pow_zero, Int.ediv_one]

theorem umulFull_high (a b : BitVec w) :
    (umulFull a b).extractLsb' w w = BitVec.ofNat w (a.toNat * b.toNat / 2 ^ w) := by
  rw [umulFull_eq, extract_ofNat _ _ _ _ le_rfl]

theorem umulFull_low (a b : BitVec w) : (umulFull a b).extractLsb' 0 w = BitVec.ofNat w (a.toNat * b.toNat) := by
  rw [umulFull_eq, extract_ofNat _ _ _ _ (by omega), pow_zero, Nat.div_one]

/-! ### Writing HI and LO, or a general register -/

/-- Finishing with HI and LO written, their values written in another way. -/
theorem hiLoResult_setProduct (high : hi = hi') (low : lo = lo') : HiLoResult (setProduct hi lo s) s hi' lo' :=
  high ▸ low ▸ hiLoResult_done s hi lo

/-- A quotient and a remainder by a divisor that is not zero. -/
theorem hiLoResult_setQuotient (nonzero : ¬p) (remainder : hi = hi') (quotient : lo = lo') :
    HiLoResult (setQuotient (decide p) lo hi s) s hi' lo' := by
  rw [setQuotient, decide_eq_false nonzero, if_neg Bool.false_ne_true]
  exact hiLoResult_setProduct remainder quotient

/-- One result of a division by a divisor that is not zero. -/
theorem gprResult_setDivided (nonzero : ¬p) (value : v = u) : GprResult (setDivided (decide p) rd v s) s rd u := by
  rw [setDivided, decide_eq_false nonzero, if_neg Bool.false_ne_true]
  exact gprResult_setGpr value

/-! ### Division by zero: a free result, and nothing else changed (42_muldiv R353; log 11) -/

/-- The answer is a next state: HI and LO hold some values, drawn as free ones, nothing else changed. -/
def SomeHiLoResult (o : Out) (s : State) : Prop :=
  ∃ hi lo t, o = .next t ∧ t.pc = s.nextPc ∧ t.delay = none ∧ SameMemory s t ∧ t = { s with
    hi := hi, lo := lo, pc := t.pc, delay := t.delay, draws := t.draws, freeCount := t.freeCount }

/-- The answer is a next state: GPR[rd] holds some value (GPR[0] stays 0), drawn as a free one, nothing else changed. -/
def SomeGprResult (o : Out) (s : State) (rd : RegNum) : Prop :=
  ∃ v t, o = .next t ∧ GprIs s t rd v ∧ t.pc = s.nextPc ∧ t.delay = none ∧ SameMemory s t ∧ t = { s with
    gpr := t.gpr, pc := t.pc, delay := t.delay, draws := t.draws, freeCount := t.freeCount }

/-- The state `t` is `s` after some free values were drawn. -/
def Drawn (s t : State) : Prop := ∃ d n, t = { s with draws := d, freeCount := n }

theorem drawn_free (s : State) : Drawn s s.free.2 := free_eq s

theorem drawn_free_free (s : State) : Drawn s s.free.2.free.2 := by
  obtain ⟨d, n, first⟩ := drawn_free s
  obtain ⟨d', n', second⟩ := drawn_free s.free.2
  rw [second, first]
  exact ⟨d', n', rfl⟩

/-- Writing HI and LO after drawing. -/
theorem HiLoResult.some_of_drawn (h : HiLoResult o t hi lo) (drawn : Drawn s t) : SomeHiLoResult o s := by
  obtain ⟨d, n, rfl⟩ := drawn
  obtain ⟨t', run, _, _, pc, delay, mem, frame⟩ := h
  exact ⟨t'.hi, t'.lo, t', run, pc, delay, mem, by rw [frame]⟩

/-- Writing a general register after drawing. -/
theorem GprResult.some_of_drawn (h : GprResult o t rd v) (drawn : Drawn s t) : SomeGprResult o s rd := by
  obtain ⟨d, n, rfl⟩ := drawn
  obtain ⟨t', run, gpr, pc, delay, mem, frame⟩ := h
  exact ⟨v, t', run, gpr, pc, delay, mem, by rw [frame]⟩

theorem someHiLoResult_setQuotient (zero : p) (q r : DWord) : SomeHiLoResult (setQuotient (decide p) q r s) s := by
  rw [setQuotient, decide_eq_true zero, if_pos rfl]
  exact (hiLoResult_done _ _ _).some_of_drawn (drawn_free_free s)

theorem someGprResult_setDivided (zero : p) (v : DWord) : SomeGprResult (setDivided (decide p) rd v s) s rd := by
  rw [setDivided, decide_eq_true zero, if_pos rfl]
  exact (gprResult_done _ _ _).some_of_drawn (drawn_free s)

/-! ### The instructions -/

/-- Settles O15: the two halves of `smulFull` and `umulFull` on words and doublewords. -/
theorem products : Obligations.Products := by
  intro s rs rt a b p q
  refine ⟨?mult, ?multu, ?dmult, ?dmultu⟩
  case mult => exact hiLoResult_setProduct (congrArg sext64 (smulFull_high _ _)) (congrArg sext64 (smulFull_low _ _))
  case multu => exact hiLoResult_setProduct (congrArg sext64 (umulFull_high _ _)) (congrArg sext64 (umulFull_low _ _))
  case dmult => exact hiLoResult_setProduct (smulFull_high a b) (smulFull_low a b)
  case dmultu => exact hiLoResult_setProduct (umulFull_high a b) (umulFull_low a b)

/-- Settles O16: by a divisor that is not zero, the bit vectors' quotient and remainder are those of the integers; by
zero, the instructions that write HI and LO draw two free values, the .G forms one. -/
theorem divisions : Obligations.Divisions := by
  intro s rs rt rd a b hiLo one
  refine ⟨?div, ?divu, ?ddiv, ?ddivu, ?wordByZero, ?doubleByZero⟩
  case div =>
    exact fun nonzero => hiLoResult_setQuotient nonzero
      (congrArg sext64 (ofInt_tmod _ _).symm) (congrArg sext64 (ofInt_tdiv _ _).symm)
  case divu =>
    exact fun nonzero => hiLoResult_setQuotient nonzero
      (congrArg sext64 (ofNat_mod _ _).symm) (congrArg sext64 (ofNat_div _ _).symm)
  case ddiv => exact fun nonzero => hiLoResult_setQuotient nonzero (ofInt_tmod a b).symm (ofInt_tdiv a b).symm
  case ddivu => exact fun nonzero => hiLoResult_setQuotient nonzero (ofNat_mod a b).symm (ofNat_div a b).symm
  case wordByZero | doubleByZero =>
    intro zero
    exact ⟨someHiLoResult_setQuotient zero _ _, someHiLoResult_setQuotient zero _ _, someGprResult_setDivided zero _,
      someGprResult_setDivided zero _, someGprResult_setDivided zero _, someGprResult_setDivided zero _⟩

/-- An unsigned result as the narrowing of an integer. -/
theorem eq_ofInt_of_eq_ofNat {x : BitVec w} {n : Nat} (h : x = BitVec.ofNat w n) : x = BitVec.ofInt w n :=
  h.trans (BitVec.ofInt_natCast w n).symm

/-- Settles O17: the products are the low half of the exact one, the quotients and remainders those of O16. -/
theorem gInstructionResults : Obligations.GInstructionResults := by
  intro s rs rt rd a b x y m n word double
  refine ⟨?multG, ?multuG, ?dmultG, ?dmultuG, fun nonzero => ⟨?divG, ?divuG, ?modG, ?moduG⟩,
    fun nonzero => ⟨?ddivG, ?ddivuG, ?dmodG, ?dmoduG⟩⟩
  case multG => exact gprResult_setGpr (congrArg sext64 (smulFull_low _ _))
  case multuG => exact gprResult_setGpr (congrArg sext64 (eq_ofInt_of_eq_ofNat (umulFull_low _ _)))
  case dmultG => exact gprResult_setGpr (smulFull_low a b)
  case dmultuG => exact gprResult_setGpr (eq_ofInt_of_eq_ofNat (umulFull_low a b))
  case divG => exact gprResult_setDivided nonzero (congrArg sext64 (ofInt_tdiv _ _).symm)
  case divuG => exact gprResult_setDivided nonzero (congrArg sext64 (eq_ofInt_of_eq_ofNat (ofNat_div _ _).symm))
  case modG => exact gprResult_setDivided nonzero (congrArg sext64 (ofInt_tmod _ _).symm)
  case moduG => exact gprResult_setDivided nonzero (congrArg sext64 (eq_ofInt_of_eq_ofNat (ofNat_mod _ _).symm))
  case ddivG => exact gprResult_setDivided nonzero (ofInt_tdiv a b).symm
  case ddivuG => exact gprResult_setDivided nonzero (eq_ofInt_of_eq_ofNat (ofNat_div a b).symm)
  case dmodG => exact gprResult_setDivided nonzero (ofInt_tmod a b).symm
  case dmoduG => exact gprResult_setDivided nonzero (eq_ofInt_of_eq_ofNat (ofNat_mod a b).symm)

end Sys2Proof.Machine
end

section
/-! SUPPORT. Jumps and branches (43_branch_jump) and the branches on CC0 (46_fpu): where control goes when a test holds
and when it does not, and the stop in a delay slot. -/

namespace Sys2Proof.Machine
variable {s : State} {t d : DWord} {b : Bool} {c : Prop} {rd : RegNum}

/-! ### The tests of the branches as statements on integers (43_branch_jump R399 to R404) -/

/-- The test of BGEZ. -/
theorem notNegative_iff (s : State) (i : RegNum) : (!s.negative i) = true ↔ 0 ≤ (s.r i).toInt := by
  rw [Bool.not_eq_true', ← Bool.not_eq_true, negative_iff, not_lt]

/-- The test of BGTZ: the opposite of the one of BLEZ. -/
theorem positive_iff (s : State) (i : RegNum) :
    (!s.negative i && decide (s.r i ≠ 0)) = true ↔ 0 < (s.r i).toInt := by
  have opposite : (!s.negative i && decide (s.r i ≠ 0)) = !(s.negative i || decide (s.r i = 0)) := by
    rw [Bool.not_or, decide_not]
  rw [opposite, Bool.not_eq_true', ← Bool.not_eq_true, notPositive_iff, not_le]

/-! ### Branches outside a delay slot (43_branch_jump R390, R405) -/

section
variable [Decidable c] (outside : s.delay = none) (test : b = true ↔ c)
include outside test

/-- A linking branch on the test `c`: after the slot, the target or the address past the slot. -/
theorem flowResult_link_iff : FlowResult (branchLink false b rd t s) s (s.pc + 4)
    (some (if c then t else s.pc + 8)) rd (s.pc + 8) := by
  have flow := flowResult_link false b rd t outside
  by_cases holds : c
  · simpa [holds, test.2 holds] using flow
  · simpa [holds, mt test.1 holds] using flow

/-- A linking likely branch on the test `c`: the slot and the target, or neither. -/
theorem flowResult_linkLikely_iff : FlowResult (branchLink true b rd t s) s (if c then s.pc + 4 else s.pc + 8)
    (if c then some t else none) rd (s.pc + 8) := by
  have flow := flowResult_link true b rd t outside
  by_cases holds : c
  · simpa [holds, test.2 holds] using flow
  · simpa [holds, mt test.1 holds] using flow

/-- A branch without a link is one that links into GPR[0]. -/
theorem flowResult_branch_iff : FlowResult (branch false b t s) s (s.pc + 4)
    (some (if c then t else s.pc + 8)) 0 (s.pc + 8) := flowResult_link_iff (rd := 0) outside test

theorem flowResult_branchLikely_iff : FlowResult (branch true b t s) s (if c then s.pc + 4 else s.pc + 8)
    (if c then some t else none) 0 (s.pc + 8) := flowResult_linkLikely_iff (rd := 0) outside test

/-- A branch on CC0 with CU1 set (46_fpu R608). -/
theorem flowResult_branchFp_iff (usable : s.cu1 = true) : FlowResult (branchFp false b t s) s (s.pc + 4)
    (some (if c then t else s.pc + 8)) 0 (s.pc + 8) :=
  (branchFp_eq false b t usable).symm ▸ flowResult_branch_iff outside test

theorem flowResult_branchFpLikely_iff (usable : s.cu1 = true) : FlowResult (branchFp true b t s) s
    (if c then s.pc + 4 else s.pc + 8) (if c then some t else none) 0 (s.pc + 8) :=
  (branchFp_eq true b t usable).symm ▸ flowResult_branchLikely_iff outside test

end

/-- Settles O18: a jump is a branch always taken; each branch by the meaning of its test. -/
theorem jumpsAndBranches : Obligations.JumpsAndBranches := by
  intro s rs rt rd target offset outside x region goes likely
  have negative : s.negative rs = true ↔ x < 0 := negative_iff s rs
  have notNegative : (!s.negative rs) = true ↔ 0 ≤ x := notNegative_iff s rs
  have positive : (!s.negative rs && decide (s.r rs ≠ 0)) = true ↔ 0 < x := positive_iff s rs
  have notPositive : (s.negative rs || decide (s.r rs = 0)) = true ↔ x ≤ 0 := notPositive_iff s rs
  have ccClear : (!fcsrCc0 s.fcsr) = true ↔ s.fcsr.getLsbD 23 = false := iff_of_eq (Bool.not_eq_true' _)
  have ccSet : fcsrCc0 s.fcsr = true ↔ s.fcsr.getLsbD 23 = true := Iff.rfl
  refine ⟨?j, ?jal, ?jr, ?jalr, ?beq, ?bne, ?blez, ?bgtz, ?bltz, ?bgez, ?bltzal, ?bgezal,
    fun usable => ⟨?bc1f, ?bc1t⟩, ?beql, ?bnel, ?blezl, ?bgtzl, ?bltzl, ?bgezl, ?bltzall, ?bgezall,
    fun usable => ⟨?bc1fl, ?bc1tl⟩⟩
  case j | jr => exact flowResult_branch false true _ outside
  case jal => exact flowResult_link false true 31 _ outside
  case jalr => exact flowResult_link false true rd _ outside
  case beq | bne => exact flowResult_branch_iff outside decide_eq_true_iff
  case blez => exact flowResult_branch_iff outside notPositive
  case bgtz => exact flowResult_branch_iff outside positive
  case bltz => exact flowResult_branch_iff outside negative
  case bgez => exact flowResult_branch_iff outside notNegative
  case bltzal => exact flowResult_link_iff outside negative
  case bgezal => exact flowResult_link_iff outside notNegative
  case bc1f => exact flowResult_branchFp_iff outside ccClear usable
  case bc1t => exact flowResult_branchFp_iff outside ccSet usable
  case beql | bnel => exact flowResult_branchLikely_iff outside decide_eq_true_iff
  case blezl => exact flowResult_branchLikely_iff outside notPositive
  case bgtzl => exact flowResult_branchLikely_iff outside positive
  case bltzl => exact flowResult_branchLikely_iff outside negative
  case bgezl => exact flowResult_branchLikely_iff outside notNegative
  case bltzall => exact flowResult_linkLikely_iff outside negative
  case bgezall => exact flowResult_linkLikely_iff outside notNegative
  case bc1fl => exact flowResult_branchFpLikely_iff outside ccClear usable
  case bc1tl => exact flowResult_branchFpLikely_iff outside ccSet usable

/-! ### Branches in a delay slot (43_branch_jump R392; log 46) -/

section
variable (inSlot : s.delay = some d) (l b : Bool) (t : DWord)
include inSlot

/-- The link does not hide the delay slot. -/
theorem branchLink_in_slot (rd : RegNum) : branchLink l b rd t s = .fault .branchInDelaySlot :=
  branch_in_slot l b t (by simpa using inSlot)

/-- A branch on CC0 with CU1 set stops as the others do (46_fpu R608). -/
theorem branchFp_in_slot (usable : s.cu1 = true) : branchFp l b t s = .fault .branchInDelaySlot :=
  (branchFp_eq l b t usable).trans (branch_in_slot l b t inSlot)

end

/-- ERET after its privilege check (45_cp0 R476). -/
theorem execEret_in_slot (inSlot : s.delay = some d) (allowed : Privileged s) :
    execEret s = .fault .branchInDelaySlot := by
  rw [execEret, withCp0_allowed allowed, inSlot]

/-- Settles O19: each instruction of the lists is a branch, a linking branch or a branch on CC0. -/
theorem noBranchInADelaySlot : Obligations.NoBranchInADelaySlot := by
  intro s rs rt rd o t notOutside
  obtain ⟨d, inSlot⟩ := Option.ne_none_iff_exists'.1 notOutside
  have plain := branch_in_slot (s := s) (h := inSlot)
  have link := branchLink_in_slot inSlot
  simp only [List.forall_mem_cons, List.not_mem_nil, false_implies, implies_true, and_true]
  refine ⟨⟨?j, ?jal, ?jr, ?jalr, ?beq, ?bne, ?blez, ?bgtz, ?bltz, ?bgez, ?bltzal, ?bgezal, ?beql, ?bnel, ?blezl,
    ?bgtzl, ?bltzl, ?bgezl, ?bltzall, ?bgezall⟩, fun usable => ?bc1, execEret_in_slot inSlot⟩
  case j | jr | beq | bne | blez | bgtz | bltz | bgez | beql | bnel | blezl | bgtzl | bltzl | bgezl => exact plain _ _ _
  case jal | jalr | bltzal | bgezal | bltzall | bgezall => exact link _ _ _ _
  case bc1 =>
    have onCc0 := fun l b t => branchFp_in_slot inSlot l b t usable
    exact ⟨onCc0 _ _ _, onCc0 _ _ _, onCc0 _ _ _, onCc0 _ _ _⟩

end Sys2Proof.Machine
end

section
/-! SUPPORT. System calls, breakpoints, SYNC and the conditional traps (44_trap_special): the comparisons of the traps
are those of the integers. -/

namespace Sys2Proof.Machine

/-- The signed test of TGE and TGEI (R438, R445). -/
theorem not_slt_iff {w : Nat} (x y : BitVec w) : (!x.slt y) = true ↔ y.toInt ≤ x.toInt := by
  rw [Bool.not_eq_true', ← Bool.not_eq_true, BitVec.slt_iff_toInt_lt, not_lt]

/-- The unsigned test of TGEU and TGEIU (R439, R446). -/
theorem not_ult_iff {w : Nat} (x y : BitVec w) : (!x.ult y) = true ↔ y.toNat ≤ x.toNat := by
  rw [Bool.not_eq_true', ← Bool.not_eq_true, BitVec.ult_iff_toNat_lt, not_lt]

/-- Settles O20: SYSCALL and BREAK raise an exception that records no address; each trap by `trapIf_spec`, the immediate
form like the register form on the sign-extended immediate. -/
theorem trapsAndSystemCalls : Obligations.TrapsAndSystemCalls := by
  intro s rs rt imm code code20
  refine ⟨traps_raise .systemCall s rfl rfl, traps_raise .breakpoint s rfl rfl, onlyAdvances_done s, ?_⟩
  intro a b m traps
  refine ⟨?tge, ?tgeu, ?tlt, ?tltu, ?teq, ?tne, ?tgei, ?tgeiu, ?tlti, ?tltiu, ?teqi, ?tnei⟩
  case tge | tgei => exact trapIf_spec (not_slt_iff a _)
  case tgeu | tgeiu => exact trapIf_spec (not_ult_iff a _)
  case tlt | tlti => exact trapIf_spec BitVec.slt_iff_toInt_lt
  case tltu | tltiu => exact trapIf_spec BitVec.ult_iff_toNat_lt
  case teq | tne | teqi | tnei => exact trapIf_spec decide_eq_true_iff

end Sys2Proof.Machine
end

section
/-! SUPPORT. ERET, the privilege check of CP0, and CACHE where it has no effect (45_cp0 R461, R476, R480). -/

namespace Sys2Proof.Machine
variable {s : State}

/-! ### ERET and the privilege check -/

/-- ERET outside a delay slot, where it may run (R476). -/
theorem execEret_outside (outside : s.delay = none) (allowed : Privileged s) :
    execEret s = .next (returnFromException s) := by
  rw [execEret, withCp0_allowed allowed, outside]

/-- Settles O22: ERET is the return from an exception. -/
theorem exceptionReturn : Obligations.ExceptionReturn := fun s outside allowed =>
  ⟨returnFromException s, execEret_outside outside allowed, rfl, rfl, rfl, returnFromException_status s, fun _ => rfl,
    rfl⟩

/-- With KSU = 11 and CU0 clear the check stops the machine (U20; log 46). -/
theorem withCp0_undefinedMode (cu0 : s.cu0 = false) (undefined : s.mode = none) (k : Out) :
    withCp0 s k = .fault .undefinedMode := by
  rw [withCp0, if_neg (Bool.eq_false_iff.1 cu0), undefined]

theorem readableByAll_iff {rd : RegNum} : readableByAll rd = true ↔ rd = 24 ∨ rd = 25 := by
  simp [readableByAll]

/-- A move from CP0 that may run reads its register (R464, R466). -/
theorem moveFromCp0_allowed {rd : RegNum} (allowed : Privileged s ∨ rd = 24 ∨ rd = 25) (rt : RegNum)
    (narrow : DWord → DWord) : moveFromCp0 rt rd narrow s = done (s.setR rt (narrow (s.readCp0 rd))) := by
  rcases allowed with allowed | readable
  · rw [moveFromCp0, withCp0_allowed allowed, ite_self]
  · rw [moveFromCp0, if_pos (readableByAll_iff.2 readable)]

theorem gprResult_moveFromCp0 {rd : RegNum} (allowed : Privileged s ∨ rd = 24 ∨ rd = 25) (rt : RegNum)
    (narrow : DWord → DWord) : GprResult (moveFromCp0 rt rd narrow s) s rt (narrow (s.readCp0 rd)) := by
  rw [moveFromCp0_allowed allowed]
  exact gprResult_done s rt _

/-- The other registers are behind the check. -/
theorem moveFromCp0_checked {rd : RegNum} (not24 : rd ≠ 24) (not25 : rd ≠ 25) (rt : RegNum) (narrow : DWord → DWord) :
    moveFromCp0 rt rd narrow s = withCp0 s (done (s.setR rt (narrow (s.readCp0 rd)))) :=
  if_neg fun readable => (readableByAll_iff.1 readable).elim not24 not25

/-- Settles O23: every privileged instruction stands behind `withCp0`, and so do the reads but those of the performance
registers. -/
theorem privilegeCheck : Obligations.PrivilegeCheck := by
  intro s base rt rd op o cu0 privileged
  have checked : ∀ i ∈ privileged, ∃ k, exec i s = withCp0 s k := by
    simp only [privileged, List.forall_mem_cons]
    exact ⟨⟨_, rfl⟩, ⟨_, rfl⟩, ⟨_, rfl⟩, ⟨_, rfl⟩, ⟨_, rfl⟩, ⟨_, rfl⟩, ⟨_, rfl⟩, ⟨_, rfl⟩, ⟨_, rfl⟩, ⟨_, rfl⟩, ⟨_, rfl⟩,
      ⟨_, rfl⟩, ⟨_, rfl⟩, ⟨_, rfl⟩, ⟨_, rfl⟩, ⟨_, rfl⟩, ⟨_, rfl⟩, ⟨_, rfl⟩, ⟨_, rfl⟩, ⟨_, rfl⟩, ⟨_, rfl⟩, ⟨_, rfl⟩,
      ⟨_, rfl⟩, nofun⟩
  refine ⟨fun m mode notKernel => ⟨fun i listed => ?listed, fun not24 not25 => ?reads, fun performance => ?performance⟩,
    fun undefined i listed => ?undefined⟩
  case listed =>
    obtain ⟨k, run⟩ := checked i listed
    rw [run, withCp0_denied cu0 mode notKernel]
    exact traps_coprocessorUnusable 0 s
  case reads =>
    have denied (narrow : DWord → DWord) : Traps (moveFromCp0 rt rd narrow s) s 11 0 := by
      rw [moveFromCp0_checked not24 not25, withCp0_denied cu0 mode notKernel]
      exact traps_coprocessorUnusable 0 s
    exact ⟨denied fun v => sext64 (low32 v), denied fun v => v⟩
  case performance =>
    have read := gprResult_moveFromCp0 (s := s) (.inr performance) rt
    exact ⟨read fun v => sext64 (low32 v), read fun v => v⟩
  case undefined =>
    obtain ⟨k, run⟩ := checked i listed
    rw [run, withCp0_undefinedMode cu0 undefined]

/-! ### CACHE without an effect -/

/-- A CACHE operation whose address translates and that may run: its effect on a cached address, nothing else
(R480, R481; log 25). -/
theorem cacheOp_translated {base : RegNum} {o : Half} {pa : PAddr} {attr : BitVec 3} (allowed : Privileged s)
    (translated : s.translate .load (s.r base + o.signExtend 64) = .ok pa attr) (op : DWord → PAddr → State → Result Unit) :
    cacheOp base o op s =
      if attr = 3 then (op (s.r base + o.signExtend 64) pa s).andThen fun _ t => done t else done s := by
  have translated' : s.translate .load (s.ea base o) = .ok pa attr := translated
  rw [cacheOp, withCp0_allowed allowed]
  simp only [translated']
  rfl

/-- Settles O37: the generic CACHE has no operation, and an uncached address has none done. -/
theorem cacheWithoutEffect : Obligations.CacheWithoutEffect := by
  intro s base op o pa attr allowed translated
  refine ⟨?generic, fun uncached => ?uncached⟩
  case generic =>
    have run : exec (.cache base op o) s = done s :=
      (cacheOp_translated allowed translated fun _ _ t => .val () t).trans (ite_self _)
    rw [run]
    exact onlyAdvances_done s
  case uncached =>
    have nothing (f : DWord → PAddr → State → Result Unit) : OnlyAdvances (cacheOp base o f s) s := by
      rw [cacheOp_translated allowed translated, if_neg uncached]
      exact onlyAdvances_done s
    simp only [List.mem_cons, List.not_mem_nil, or_false]
    rintro i (rfl | rfl | rfl | rfl | rfl | rfl | rfl | rfl | rfl | rfl | rfl | rfl | rfl | rfl | rfl) <;>
      (unfold exec; exact nothing _)

end Sys2Proof.Machine
end

section
/-! SUPPORT. The moves from and to CP0: what each register reads, before and after a write (45_cp0 R463 to R469). -/

namespace Sys2Proof.Machine
variable {s t : State} {n : RegNum} {w : Nat}

/-! ### Masks -/

/-- A value whose reserved bits `k` are clear is its own masked value, if the mask leaves out such bits alone. -/
theorem and_mask_of_clear {x m k : BitVec w} (clear : x &&& k = 0) (covers : ~~~m &&& k = ~~~m) : x &&& m = x := by
  have outside : x &&& ~~~m = 0#w := by
    rw [← covers, BitVec.and_comm (~~~m) k, ← BitVec.and_assoc]
    exact (congrArg (· &&& ~~~m) clear).trans BitVec.zero_and
  calc x &&& m
    _ = (x &&& m) ||| (x &&& ~~~m) := by rw [outside, BitVec.or_zero]
    _ = x := by rw [← BitVec.and_or_distrib_left, BitVec.or_not_self, BitVec.and_allOnes]

/-- A second mask that holds the first. -/
theorem and_mask_again {m k : BitVec w} (inside : m &&& k = m) (x : BitVec w) : x &&& m &&& k = x &&& m := by
  rw [BitVec.and_assoc, inside]

theorem maskedWrite_and {m k : BitVec w} (inside : m &&& k = m) (x v : BitVec w) :
    maskedWrite m x v &&& k = maskedWrite m (x &&& k) v := by
  rw [maskedWrite, maskedWrite, BitVec.and_or_distrib_right, BitVec.and_assoc v, inside, BitVec.and_assoc, BitVec.and_assoc,
    BitVec.and_comm (~~~m) k]

/-- Only the bits of the mask count of what is written. -/
theorem maskedWrite_congr {m v u : BitVec w} (same : v &&& m = u &&& m) (x : BitVec w) :
    maskedWrite m x v = maskedWrite m x u := by rw [maskedWrite, maskedWrite, same]

theorem getLsbD_maskedWrite (m x v : BitVec w) (i : Nat) :
    (maskedWrite m x v).getLsbD i = if m.getLsbD i then v.getLsbD i else x.getLsbD i := by
  by_cases inside : i < w
  · cases bit : m.getLsbD i <;> simp [maskedWrite, inside, bit, -BitVec.getLsbD_eq_getElem]
  · simp [BitVec.getLsbD_of_ge _ _ (Nat.le_of_not_lt inside)]

/-- Writes of separate fields in either order. -/
theorem maskedWrite_comm {m k : BitVec w} (apart : m &&& k = 0) (x v u : BitVec w) :
    maskedWrite m (maskedWrite k x v) u = maskedWrite k (maskedWrite m x u) v := by
  apply BitVec.eq_of_getLsbD_eq
  intro i hi
  have apart' : (m.getLsbD i && k.getLsbD i) = false := by
    rw [← BitVec.getLsbD_and, apart]
    exact BitVec.getLsbD_zero
  simp only [getLsbD_maskedWrite]
  cases mi : m.getLsbD i <;> cases ki : k.getLsbD i <;> simp_all

/-- A mask without bits above the word sees of a doubleword its low word alone. -/
theorem sext64_low32_and {m : DWord} (small : m.toNat < 2 ^ 32) (v : DWord) : sext64 (low32 v) &&& m = v &&& m := by
  apply BitVec.eq_of_getLsbD_eq
  intro i hi
  rw [BitVec.getLsbD_and, BitVec.getLsbD_and]
  by_cases low : i < 32
  · simp [sext64, low32, BitVec.getLsbD_signExtend, low, hi, -BitVec.getLsbD_eq_getElem]
  · have clear : m.getLsbD i = false :=
      Nat.testBit_lt_two_pow (small.trans_le (Nat.pow_le_pow_right (by decide) (Nat.le_of_not_lt low)))
    rw [clear, Bool.and_false, Bool.and_false]

/-- A partial write of a 32-bit register, as a move reads it. -/
theorem sext64_maskedWrite {m : Word} (small : (sext64 m).toNat < 2 ^ 32) (x : Word) (v : DWord) :
    sext64 (maskedWrite m x (low32 v)) = maskedWrite (sext64 m) (sext64 x) v := by
  have wide : sext64 (maskedWrite m x (low32 v)) = maskedWrite (sext64 m) (sext64 x) (sext64 (low32 v)) := by
    simp only [sext64, maskedWrite, BitVec.signExtend_or, BitVec.signExtend_and, BitVec.signExtend_not (Nat.succ_pos 31)]
  exact wide.trans (maskedWrite_congr (sext64_low32_and small v) _)

/-! ### Cause (10_state R53, 60_exceptions R846) -/

/-- IP[7:2], the requests of the moment. -/
def State.requests (s : State) : BitVec 6 := ofBool (s.timerPending || s.perfPending) ++ s.extIrq

theorem getLsbD_ip (s : State) (j : Nat) :
    s.ip.getLsbD j = if j < 2 then s.cp0.cause.getLsbD (8 + j) else s.requests.getLsbD (j - 2) := by
  show (s.requests ++ s.cp0.cause.extractLsb' 8 2).getLsbD j = _
  rw [BitVec.getLsbD_append]
  split
  · next low => rw [BitVec.getLsbD_extractLsb', decide_eq_true low, Bool.true_and]
  · rfl

/-- Software reads the stored Cause with the requests in IP[7:2]. -/
theorem causeRead_eq (s : State) : s.causeRead = maskedWrite 0xFC00 s.cp0.cause (s.requests.setWidth 32 <<< 10) := by
  apply BitVec.eq_of_getLsbD_eq
  intro i hi
  have field8 : ∀ i < 32, (0xFF00 : Word).getLsbD i = decide (8 ≤ i ∧ i < 16) := by decide
  have field6 : ∀ i < 32, (0xFC00 : Word).getLsbD i = decide (10 ≤ i ∧ i < 16) := by decide
  have shifted {w : Nat} (x : BitVec w) {k : Nat} (hk : k ≤ i) :
      (x.setWidth 32 <<< k).getLsbD i = x.getLsbD (i - k) := by
    simp [hi, Nat.not_lt.2 hk, show i - k < 32 by omega, -BitVec.getLsbD_eq_getElem]
  simp only [State.causeRead, getLsbD_maskedWrite, field8 i hi, field6 i hi, decide_eq_true_eq]
  by_cases h8 : 8 ≤ i ∧ i < 16
  · rw [if_pos h8, shifted _ h8.1, getLsbD_ip]
    by_cases h10 : 10 ≤ i
    · rw [if_neg (by omega), if_pos ⟨h10, h8.2⟩, shifted _ h10, Nat.sub_sub]
    · rw [if_pos (by omega), if_neg fun h => h10 h.1, Nat.add_sub_cancel' h8.1]
  · rw [if_neg h8, if_neg (by omega)]

theorem requests_shifted_clear (ip : BitVec 8) : (ip.setWidth 32 <<< 8) &&& (0xFFFF00FF : Word) = 0 := by
  revert ip; decide

/-- The reserved fields of a legal Cause are clear in what software reads too. -/
theorem causeRead_legal (legal : s.cp0.Legal) :
    s.causeRead &&& (0xB000FF7C : Word) = (s.cp0.cause &&& ~~~(0xFF00 : Word)) ||| (s.ip.setWidth 32 <<< 8) := by
  have stored : s.cp0.cause &&& ~~~(0xFF00 : Word) &&& (0xB000FF7C : Word) = s.cp0.cause &&& ~~~(0xFF00 : Word) :=
    and_mask_of_clear (clear_and legal.cause) (by decide)
  have requested : (s.ip.setWidth 32 <<< 8) &&& (0xFF00 : Word) = s.ip.setWidth 32 <<< 8 :=
    and_mask_of_clear (requests_shifted_clear s.ip) (by decide)
  rw [State.causeRead, maskedWrite, BitVec.and_or_distrib_right, stored, and_mask_again (by decide), requested]

/-! ### Moves from CP0

A proof by `split` over the register numbers has the cases `h_1`, `h_2`, ... in the order of the table of
`State.readCp0` or `State.writeCp0`, the numbers it does not list last; for those the last equation of the other table,
`State.readCp0.eq_25` or `cp0AfterWrite.eq_22`, says that it lists no more. -/

/-- Settles O25: the masks of `readCp0` leave out reserved bits alone, which are clear. -/
theorem movesFromCp0 : Obligations.MovesFromCp0 := by
  intro s rt rd allowed legal value
  have read : s.readCp0 rd = value := by
    have word {x m : Word} (h : x &&& m = x) : sext64 (x &&& m) = sext64 x := congrArg sext64 h
    unfold value
    split
    case h_1 => exact word (and_mask_of_clear legal.index (by decide))
    case h_3 => exact and_mask_of_clear legal.entryLo0 (by decide)
    case h_4 => exact and_mask_of_clear legal.entryLo1 (by decide)
    case h_5 => exact and_mask_of_clear legal.context (by decide)
    case h_6 => exact word (and_mask_of_clear legal.pageMask (by decide))
    case h_10 => exact and_mask_of_clear legal.entryHi (by decide)
    case h_12 => exact word (and_mask_of_clear legal.status (by decide))
    case h_13 => exact congrArg sext64 (causeRead_legal legal)
    case h_17 => exact and_mask_of_clear legal.watch (by decide)
    case h_18 => exact and_mask_of_clear legal.xContext (by decide)
    case h_19 => exact and_mask_of_clear legal.diagnostic (by decide)
    case h_20 => exact word (and_mask_of_clear legal.perfControl (by decide))
    case h_25 => rw [State.readCp0.eq_25] <;> assumption
    all_goals rfl
  rw [← read]
  have runs := gprResult_moveFromCp0 allowed rt
  exact ⟨runs fun v => sext64 (low32 v), runs fun v => v⟩

/-! ### Moves to CP0 -/

/-- What a write to CP0 can change (R467). -/
theorem writeCp0_frame (s : State) (n : RegNum) (v : DWord) :
    s.writeCp0 n v = { s with
      cp0 := (s.writeCp0 n v).cp0, timerPending := (s.writeCp0 n v).timerPending,
      watchPostponed := (s.writeCp0 n v).watchPostponed, itlb := (s.writeCp0 n v).itlb,
      randomHold := (s.writeCp0 n v).randomHold } := by
  unfold State.writeCp0
  split <;> rfl

section
variable (s : State) (n : RegNum) (v : DWord)

/-! The side effects (R467, R468), and what the requests do not depend on. -/

theorem writeCp0_random : (s.writeCp0 n v).cp0.random = if n = 6 then 63 else s.cp0.random := by
  unfold State.writeCp0
  split <;> simp_all

theorem writeCp0_timerPending : (s.writeCp0 n v).timerPending =
    if n = 11 then false else s.timerPending || (n == 9 && low32 v == s.cp0.compare) := by
  unfold State.writeCp0
  split <;> simp_all

theorem writeCp0_watchPostponed :
    (s.writeCp0 n v).watchPostponed = if n = 18 then false else s.watchPostponed := by
  unfold State.writeCp0
  split <;> simp_all

theorem writeCp0_itlb : (s.writeCp0 n v).itlb = if n = 22 ∧ v.getLsbD 2 = true then [] else s.itlb := by
  unfold State.writeCp0
  split <;> simp_all [bit]

theorem writeCp0_randomHold : (s.writeCp0 n v).randomHold = (n == 6 || s.randomHold) := by
  unfold State.writeCp0
  split <;> simp_all

theorem writeCp0_requests (quiet : n ≠ 9 ∧ n ≠ 11 ∧ n ≠ 24 ∧ n ≠ 25) : (s.writeCp0 n v).requests = s.requests := by
  obtain ⟨not9, not11, not24, not25⟩ := quiet
  unfold State.writeCp0
  split
  case h_7 => exact absurd rfl not9
  case h_9 => exact absurd rfl not11
  case h_17 => exact absurd rfl not24
  case h_18 => exact absurd rfl not25
  all_goals rfl

end

/-- Config's writable bits are the lowest four (10_state R57). -/
theorem config_write (upper : BitVec 20) (old : BitVec 4) (v : DWord) :
    upper ++ (0x93 : BitVec 8) ++ v.extractLsb' 0 4 = maskedWrite 0xF (upper ++ (0x93 : BitVec 8) ++ old) (low32 v) := by
  apply BitVec.eq_of_getLsbD_eq
  intro i hi
  have field : ∀ i < 32, (0xF : Word).getLsbD i = decide (i < 4) := by decide
  rw [getLsbD_maskedWrite, field i hi]
  simp only [BitVec.getLsbD_append]
  by_cases below : i < 4
  · simp [below, hi, low32, -BitVec.getLsbD_eq_getElem]
  · simp [below]

/-- Wired reads back its six bits. -/
theorem zext64_low6 (v : DWord) : zext64 (v.extractLsb' 0 6) = v &&& 0x3F := by
  apply BitVec.eq_of_getLsbD_eq
  intro i hi
  have field : ∀ i < 64, (0x3F : DWord).getLsbD i = decide (i < 6) := by decide
  rw [BitVec.getLsbD_and, field i hi, Bool.and_comm]
  simp [zext64, hi, -BitVec.getLsbD_eq_getElem]

/-- The written register reads as the spec's table says. -/
theorem readCp0_writeCp0_same (notRandom : n ≠ 1) (s : State) (v : DWord) :
    (s.writeCp0 n v).readCp0 n = cp0AfterWrite n (s.readCp0 n) v := by
  have again {m : DWord} (x : DWord) : x &&& m &&& m = x &&& m := and_mask_again BitVec.and_self x
  have again32 {m : Word} (x : Word) : sext64 (x &&& m &&& m) = sext64 (x &&& m) :=
    congrArg sext64 (and_mask_again BitVec.and_self x)
  have cause : sext64 ((s.writeCp0 13 v).causeRead &&& (0xB000FF7C : Word)) =
      maskedWrite 0x300 (sext64 (s.causeRead &&& (0xB000FF7C : Word))) v := by
    rw [causeRead_eq, causeRead_eq, writeCp0_requests s 13 v (by decide), writeCp0_cause,
      maskedWrite_comm (by decide), maskedWrite_and (by decide), sext64_maskedWrite (by decide)]
    rfl
  unfold State.writeCp0
  split
  case h_22 => rw [cp0AfterWrite.eq_22] <;> assumption
  all_goals simp only [State.readCp0, cp0AfterWrite]
  case h_1 => exact again32 _
  case h_2 => exact again _
  case h_3 => exact again _
  case h_4 => exact maskedWrite_and (by decide) _ _
  case h_5 => exact again32 _
  case h_6 => exact zext64_low6 v
  case h_8 => exact again _
  case h_10 => exact again32 _
  case h_11 => exact cause
  case h_13 => exact (congrArg sext64 (config_write _ _ v)).trans (sext64_maskedWrite (by decide) _ v)
  case h_14 => exact again _
  case h_15 => exact maskedWrite_and (by decide) _ _
  case h_16 => exact again _
  case h_17 => exact again32 _

/-- Cause reads the same if what is stored of it and the requests are the same. -/
theorem causeRead_congr (stored : t.cp0.cause = s.cp0.cause) (requests : t.requests = s.requests) :
    t.causeRead = s.causeRead := by
  rw [causeRead_eq, causeRead_eq, stored, requests]

/-- What a register that is not touched by a write to register `n` is not. -/
theorem untouched_ne {m : RegNum} (untouched : m ∉ cp0Touched n) :
    n ≠ m ∧ (m = 1 → n ≠ 6) ∧ (m = 13 → n ≠ 9 ∧ n ≠ 11 ∧ n ≠ 24 ∧ n ≠ 25) := by
  revert n m
  decide

/-- Every register but the touched ones reads as before. -/
theorem readCp0_writeCp0_other {m : RegNum} (untouched : m ∉ cp0Touched n) (s : State) (v : DWord) :
    (s.writeCp0 n v).readCp0 m = s.readCp0 m := by
  obtain ⟨differs, notWired, quiet⟩ := untouched_ne untouched
  obtain ⟨index, entryLo0, entryLo1, context, pageMask, wired, badVAddr, count, entryHi, compare, status, cause, epc,
    configLow, watch, xContext, diagnostic, perfControl, perfCounter, tagLo, tagHi, errorEpc⟩ := cp0Others_writeCp0 s n v
  have parameters : (s.writeCp0 n v).cfg = s.cfg := by rw [writeCp0_frame]
  have requests := writeCp0_requests s n v
  have random := writeCp0_random s n v
  generalize s.writeCp0 n v = t at *
  unfold State.readCp0
  split
  case h_1 => rw [index differs]
  case h_2 => rw [random, if_neg (notWired rfl)]
  case h_3 => rw [entryLo0 differs]
  case h_4 => rw [entryLo1 differs]
  case h_5 => rw [context differs]
  case h_6 => rw [pageMask differs]
  case h_7 => rw [wired differs]
  case h_8 => rw [badVAddr]
  case h_9 => rw [count differs]
  case h_10 => rw [entryHi differs]
  case h_11 => rw [compare differs]
  case h_12 => rw [status differs]
  case h_13 => rw [causeRead_congr (cause differs) (requests (quiet rfl))]
  case h_14 => rw [epc differs]
  case h_16 => rw [State.config, State.config, configLow differs, parameters]
  case h_17 => rw [watch differs]
  case h_18 => rw [xContext differs]
  case h_19 => rw [diagnostic differs]
  case h_20 => rw [perfControl differs]
  case h_21 => rw [perfCounter differs]
  case h_22 => rw [tagLo differs]
  case h_23 => rw [tagHi differs]
  case h_24 => rw [errorEpc differs]
  all_goals rfl

/-- A write to CP0 that may run. -/
theorem cp0Written_done (s : State) (n : RegNum) (v : DWord) : Cp0Written (done (s.writeCp0 n v)) s n v := by
  refine ⟨(s.writeCp0 n v).advance, rfl, fun notRandom => readCp0_writeCp0_same notRandom s v,
    fun m untouched => readCp0_writeCp0_other untouched s v, cp0Others_writeCp0 s n v, ?cause, writeCp0_random s n v,
    writeCp0_timerPending s n v, writeCp0_watchPostponed s n v, writeCp0_itlb s n v, writeCp0_randomHold s n v, ?pc, rfl,
    ?memory, ?frame⟩
  case cause =>
    rintro rfl
    exact writeCp0_cause s v
  case pc =>
    rw [advance_pc, writeCp0_frame]
    rfl
  case memory =>
    rw [writeCp0_frame]
    exact fun _ => rfl
  case frame =>
    rw [writeCp0_frame]
    rfl

/-- Settles O26: both moves write their value by `writeCp0`. -/
theorem movesToCp0 : Obligations.MovesToCp0 := by
  intro s rt rd allowed
  have run (v : DWord) : Cp0Written (withCp0 s (done (s.writeCp0 rd v))) s rd v := by
    rw [withCp0_allowed allowed]
    exact cp0Written_done s rd v
  exact ⟨run _, run _⟩

end Sys2Proof.Machine
end

section
/-! SUPPORT. The index operations of CACHE: tags and data of one line, and the four ways of an instruction set
(45_cp0 R482 to R496). -/

namespace Sys2Proof.Machine

/-! ### One doubleword of a line -/

/-- A word of a doubleword of a line. -/
theorem lineDouble_word (data : BitVec 256) (i : BitVec 2) {k : Nat} (inside : k + 32 ≤ 64) :
    (lineDouble data i).extractLsb' k 32 = data.extractLsb' (64 * i.toNat + k) 32 := by
  apply BitVec.eq_of_getLsbD_eq
  intro j hj
  simp [lineDouble, hj, show k + j < 64 by omega, Nat.add_assoc, -BitVec.getLsbD_eq_getElem]

/-- The new doubleword in its place, the others as they were. -/
theorem lineSetDouble_eq (data : BitVec 256) (i : BitVec 2) (v : DWord) : lineSetDouble data i v =
    (data &&& ~~~((0xFFFFFFFFFFFFFFFF : BitVec 256) <<< (64 * i.toNat))) ||| (v.setWidth 256 <<< (64 * i.toNat)) := by
  have place : 8 * (8 * i.toNat) = 64 * i.toNat := by omega
  have whole : lowBytes 8 v = v := BitVec.and_allOnes
  have narrow : v.setWidth 256 &&& 0xFFFFFFFFFFFFFFFF = v.setWidth 256 := by
    rw [← BitVec.and_allOnes (x := v), BitVec.setWidth_and, BitVec.and_assoc]
    rfl
  calc lineSetDouble data i v
    _ = maskedWrite ((0xFFFFFFFFFFFFFFFF : BitVec 256) <<< (64 * i.toNat)) data (v.setWidth 256 <<< (64 * i.toNat)) := by
      rw [lineSetDouble, writeLanes, whole, place]
      rfl
    _ = _ := by rw [maskedWrite, ← BitVec.shiftLeft_and_distrib, narrow]

/-! ### Results of the operations -/

theorem cp0Result_setTags (s : State) (hi lo : Word) :
    Cp0Result (done (s.setTags hi lo)) s { s.cp0 with tagHi := hi, tagLo := lo } :=
  ⟨_, rfl, rfl, advance_pc _, rfl, fun _ => rfl, rfl⟩

/-- The four bits of the secondary tag in TagHi. -/
theorem setWidth_eq_zeros_append (x : BitVec 4) : x.setWidth 32 = 0#28 ++ x := by
  revert x
  decide

/-- Settles O34: each operation by `cacheOp_done`, the doublewords by `lineDouble_word` and `lineSetDouble_eq`, the
instruction lines by `dropILines_spec`. -/
theorem cacheIndexOperations : Obligations.CacheIndexOperations := by
  intro s base o pa allowed va translated dcache scache icache di si d l tags setsD setsS dAt sAt put
  have run (op : DWord → PAddr → State → Result Unit) {t : State} (result : op va pa s = .val () t) :
      cacheOp base o op s = done t := cacheOp_done op allowed translated result
  have loads {out : Out} {hi lo hi' lo' : Word} (ends : out = done (s.setTags hi lo)) (high : hi = hi')
      (low : lo = lo') : tags out hi' lo' := by
    rw [ends, high, low]
    exact cp0Result_setTags s hi' lo'
  have storesD {out : Out} {x : DLine} (ends : out = done (s.setDLine di x)) : setsD out x :=
    ⟨_, ends, (dLine_set dcache di di x).trans (if_pos rfl), fun k other => (dLine_set dcache di k x).trans (if_neg other),
      advance_pc _, rfl, fun _ => rfl, rfl⟩
  have storesS {out : Out} {x : SLine} (ends : out = done (s.setSLine si x)) : setsS out x :=
    ⟨_, ends, (sLine_set scache si si x).trans (if_pos rfl), fun k other => (sLine_set scache si k x).trans (if_neg other),
      advance_pc _, rfl, fun _ => rfl, rfl⟩
  have putD : lineSetDouble d.data (va.extractLsb' 3 2) s.tagsDouble = put d.data dAt := lineSetDouble_eq ..
  have putS : lineSetDouble l.data (pa.extractLsb' 3 2) s.tagsDouble = put l.data sAt := lineSetDouble_eq ..
  refine ⟨?loadTagD, ?loadDataD, ?loadTagS, ?loadDataS, ?storeTagD, ?storeDataD, ?storeTagS, ?storeDataS, ?invalidate⟩
  case loadTagD => exact loads (show execCache5 base o s = _ from run _ rfl) rfl rfl
  case loadDataD =>
    exact loads (show execCache25 base o s = _ from run _ rfl) (lineDouble_word _ _ (by decide))
      (lineDouble_word _ _ (by decide))
  case loadTagS => exact loads (show execCache7 base o s = _ from run _ rfl) (setWidth_eq_zeros_append _) rfl
  case loadDataS =>
    exact loads (show execCache27 base o s = _ from run _ rfl) (lineDouble_word _ _ (by decide))
      (lineDouble_word _ _ (by decide))
  case storeTagD => exact storesD (show execCache9 base o s = _ from run _ rfl)
  case storeDataD =>
    rw [← putD]
    exact storesD (show execCache29 base o s = _ from run _ rfl)
  case storeTagS => exact storesS (show execCache11 base o s = _ from run _ rfl)
  case storeDataS =>
    rw [← putS]
    exact storesS (show execCache31 base o s = _ from run _ rfl)
  case invalidate =>
    obtain ⟨frame, lines⟩ := dropILines_spec (f := fun _ => true) (waysOf (primarySet va)) s icache
    refine ⟨_, show execCache0 base o s = _ from run _ rfl, fun k => (lines k).trans (if_congr ?_ rfl rfl),
      ?_, rfl, ?_, ?_⟩
    · exact (and_iff_left rfl).trans mem_waysOf
    · rw [advance_pc, frame]
      rfl
    · rw [frame]
      exact fun _ => rfl
    · rw [frame]
      rfl

end Sys2Proof.Machine
end

section
/-! SUPPORT. The endings of the floating-point operations (46_fpu R530, R560), the arithmetic and the conversions as
instructions, and the moves (46_fpu R613 to R618). -/

namespace Sys2Proof.Machine
variable {s : State} {regs : List RegNum} {fd : RegNum} {k : Out}

/-! ### The endings -/

/-- What an instruction that ends in `fpFinish` answers, from what it answers where no exception is taken. -/
theorem fpEnds_fpFinish {x : FpExc} {write : State → State} {result : Out → Word → Prop}
    (h : ∀ f, result (done (write (s.setFcsr f))) f) :
    FpEnds (fpFinish x write s) s x (result (fpFinish x write s)) := by
  by_cases traps : fcsrTraps (fcsrAfter s.fcsr x) = true
  · have run : fpFinish x write s = raise .floatingPoint (s.setFcsr (fcsrAfter s.fcsr x)) := if_pos traps
    rw [FpEnds, if_pos traps, run]
    exact traps_raise .floatingPoint _ rfl rfl
  · have run : fpFinish x write s = done (write (s.setFcsr (fcsrAfter s.fcsr x))) := if_neg traps
    rw [FpEnds, if_neg traps, run]
    exact h _

/-- The check of the operands passes where a list that holds them all is usable. -/
theorem FpuReady.withFpu64 {others : List RegNum} (h : FpuReady s regs) (sub : others ⊆ regs) :
    withFpu64 s others k = k :=
  withFpu64_ready h.1 (List.all_eq_true.2 fun n hn => h.2 n (sub hn))

/-- An operation with a 32-bit result. -/
theorem finish32_ends {others : List RegNum} (h : FpuReady s regs) (sub : others ⊆ regs) (fd : RegNum) (o : FpOut) :
    FpEnds (finish32 others fd o s) s o.exc fun g => Fpr32Result (finish32 others fd o s) s fd g (low32 o.bits) := by
  unfold finish32
  rw [h.withFpu64 sub]
  exact fpEnds_fpFinish (result := fun out g => Fpr32Result out s fd g (low32 o.bits))
    fun f => fpr32Result_done s fd f _

/-- An operation with a 64-bit result. -/
theorem finish64_ends {others : List RegNum} (h : FpuReady s regs) (sub : fd :: others ⊆ regs) (o : FpOut) :
    FpEnds (finish64 others fd o s) s o.exc fun g => FprResult (finish64 others fd o s) s fd g (· = o.bits) := by
  unfold finish64
  rw [h.withFpu64 sub]
  exact fpEnds_fpFinish (result := fun out g => FprResult out s fd g (· = o.bits))
    fun f => fprResult_done s f _ _ (h.2 fd (sub (List.mem_cons_self ..))) rfl

/-- A compare in one format. -/
theorem finishCompare_ends {others : List RegNum} (h : FpuReady s regs) (sub : others ⊆ regs) (c : Bool × FpExc) :
    FpEnds (finishCompare others c s) s c.2 fun g => FcsrResult (finishCompare others c s) s (fcsrSetCc g 0 c.1) := by
  unfold finishCompare
  rw [h.withFpu64 sub]
  exact fpEnds_fpFinish (result := fun out g => FcsrResult out s (fcsrSetCc g 0 c.1))
    fun f => fcsrResult_done s (fcsrSetCc f 0 c.1)

/-- A divide or square root while its unit is on. -/
theorem withUnit_on (hc : s.cu1 = true) {disabled : Bool} (h : disabled = false) : withUnit disabled s k = k := by
  rw [withUnit, withFpu_enabled hc, h, if_neg Bool.false_ne_true]

/-- A divide or square root while its unit is off: Cause.E, whatever the operands are (46_fpu R532, R560). -/
theorem traps_withUnit_off (hc : s.cu1 = true) {disabled : Bool} (h : disabled = true) :
    Traps (withUnit disabled s k) (s.setFcsr ((s.fcsr &&& ~~~0x3F000) ||| 0x20000)) 15 0 := by
  rw [withUnit, withFpu_enabled hc, if_pos h]
  exact traps_fpFinish_unimplemented _ s

/-- Settles O50: every instruction ends in `finish32` or `finish64` of the outcome stated, the divisions and square
roots behind the check of their unit. -/
theorem fpArithmetic : Obligations.FpArithmetic := by
  intro s ft fs fd hc result32 result64 off S D a b x y c rm
  have ready : FpuReady s [] := ⟨hc, fun _ h => absurd h (List.not_mem_nil)⟩
  have single (o : FpOut) := finish32_ends ready (List.Subset.refl []) fd o
  refine ⟨single _, single _, single _, fun on => ?divS, fun on => ?sqrtS, single _, single _,
    fun offDiv => ⟨traps_withUnit_off hc offDiv, traps_withUnit_off hc offDiv⟩,
    fun offSqrt => ⟨traps_withUnit_off hc offSqrt, traps_withUnit_off hc offSqrt⟩,
    single _, single _, single _, single _, single _, single _,
    fun fromDouble => ?fromDouble, fun toDouble => ?toDouble, fun unary => ?unary, fun binary => ?binary⟩
  case divS =>
    have run : exec (.divS ft fs fd) s = finish32 [] fd (S.div c a b) s := withUnit_on hc on
    simp only [result32, run]
    exact single _
  case sqrtS =>
    have run : exec (.sqrtS fs fd) s = finish32 [] fd (S.sqrt c a) s := withUnit_on hc on
    simp only [result32, run]
    exact single _
  case fromDouble =>
    have narrow (o : FpOut) := finish32_ends fromDouble (List.Subset.refl [fs]) fd o
    exact ⟨narrow _, narrow _, narrow _, narrow _, narrow _, narrow _, narrow _⟩
  case toDouble =>
    have wide (o : FpOut) := finish64_ends toDouble (List.Subset.refl [fd]) o
    exact ⟨wide _, wide _, wide _, wide _, wide _, wide _, wide _⟩
  case unary =>
    have double (o : FpOut) := finish64_ends (others := [fs]) (fd := fd) unary (by simp) o
    refine ⟨fun on => ?_, double _, double _, double _, double _, double _, double _, double _, double _⟩
    have run : exec (.sqrtD fs fd) s = finish64 [fs] fd (D.sqrt c x) s := withUnit_on hc on
    simp only [result64, run]
    exact double _
  case binary =>
    have double (o : FpOut) := finish64_ends (others := [fs, ft]) (fd := fd) binary (by simp) o
    refine ⟨double _, double _, double _, fun on => ?_⟩
    have run : exec (.divD ft fs fd) s = finish64 [fs, ft] fd (D.div c x y) s := withUnit_on hc on
    simp only [result64, run]
    exact double _

/-! ### Moves -/

/-- The control registers as the statements read them. -/
theorem readFcr_eq (s : State) (n : RegNum) :
    s.readFcr n = if n = 0 then 0x501 else if n = 31 then s.fcsr.signExtend 64 else 0 := rfl

/-- CTC1 to FCR31 where the value written traps, and where it does not (46_fpu R618). -/
theorem execCtc1_fcsr (hc : s.cu1 = true) (rt : RegNum) : execCtc1 rt 31 s =
    if fcsrTraps (fcsrFromGpr (s.r rt)) then raise .floatingPoint (s.setFcsr (fcsrFromGpr (s.r rt)))
    else done (s.setFcsr (fcsrFromGpr (s.r rt))) := withFpu_enabled hc

/-- Settles O56: each move writes what it reads; CTC1 to FCSR ends by the trap condition of the value written. -/
theorem fpMoves : Obligations.FpMoves := by
  intro s rt fs fd hc v traps
  have ends : fcsrTraps (fcsrFromGpr (s.r rt)) = true ↔ traps := fcsrTraps_iff v
  have run {i : Instr} {out : Out} (h : exec i s = withFpu s out) : exec i s = out := h.trans (withFpu_enabled hc)
  refine ⟨?movS, fun ready => ?double, ?mfc1, fun ready => ?dmove, ?mtc1, ?cfc1, fun other => ?otherFcr,
    fun quiet => ?fcsr, fun loud => ?trap⟩
  case movS => exact run (i := .movS fs fd) rfl ▸ fpr32Result_done s fd s.fcsr _
  case mfc1 => exact run (i := .mfc1 rt fs) rfl ▸ gprResult_done s rt _
  case mtc1 => exact run (i := .mtc1 rt fs) rfl ▸ fpr32Result_done s fs s.fcsr _
  case cfc1 => exact run (i := .cfc1 rt fs) rfl ▸ readFcr_eq s fs ▸ gprResult_done s rt _
  case double =>
    have copy : FprResult (withFpu64 s [fs, fd] (done (s.setF64 fd (s.f64 fs)))) s fd s.fcsr (· = s.f64 fs) := by
      rw [ready.withFpu64 (List.Subset.refl _)]
      exact fprResult_done' s _ _ (ready.2 fd (by simp)) rfl
    exact ⟨copy, copy⟩
  case dmove =>
    have check {k : Out} : withFpu64 s [fs] k = k := ready.withFpu64 (List.Subset.refl _)
    constructor
    · rw [show exec (.dmfc1 rt fs) s = done (s.setR rt (s.f64 fs)) from check]
      exact gprResult_done s rt _
    · rw [show exec (.dmtc1 rt fs) s = done (s.setF64 fs (s.r rt)) from check]
      exact fprResult_done' s _ _ (ready.2 fs (by simp)) rfl
  case otherFcr =>
    rw [run (i := .ctc1 rt fs) (out := done s) (congrArg (withFpu s) (if_neg other))]
    exact onlyAdvances_done s
  case fcsr =>
    rw [show exec (.ctc1 rt 31) s = _ from execCtc1_fcsr hc rt, if_neg (mt ends.1 quiet)]
    exact fcsrResult_done s v
  case trap =>
    rw [show exec (.ctc1 rt 31) s = _ from execCtc1_fcsr hc rt, if_pos (ends.2 loud)]
    exact traps_raise .floatingPoint _ rfl rfl

end Sys2Proof.Machine
end

section
/-! SUPPORT. The packed arithmetic (48_multimedia): the elements of a packed value, and what each element operation
computes on integers. -/

namespace Sys2Proof.Machine
variable {s : State} {ft fs fd : RegNum} {w n : Nat}

/-! ### Elements -/

/-- The bits of a packed value. -/
theorem pack_bit (f : Nat → BitVec w) {k i : Nat} (hi : i < w) (hk : w * k + i < 64) :
    (pack f n).getLsbD (w * k + i) = (decide (k < n) && (f k).getLsbD i) := by
  induction n with
  | zero => simp [pack]
  | succ n ih =>
    rw [pack, BitVec.getLsbD_or, ih, BitVec.getLsbD_shiftLeft, BitVec.getLsbD_setWidth]
    rcases lt_trichotomy k n with below | rfl | above
    · have : w * (k + 1) ≤ w * n := Nat.mul_le_mul_left w below
      rw [Nat.mul_succ] at this
      simp [below, below.trans n.lt_succ_self, show w * k + i < w * n by omega]
    · simp [hk, show i < 64 by omega]
    · have : w * (n + 1) ≤ w * k := Nat.mul_le_mul_left w above
      rw [Nat.mul_succ] at this
      simp [BitVec.getLsbD_of_ge (f n) _ (show w ≤ w * k + i - w * n by omega), show ¬k < n by omega,
        show ¬k < n + 1 by omega]

/-- Element `k` of a packed value. -/
theorem lane_pack (f : Nat → BitVec w) (fits : w * n ≤ 64) {k : Nat} (hk : k < n) : lane w (pack f n) k = f k := by
  apply BitVec.eq_of_getLsbD_eq
  intro i hi
  have : w * (k + 1) ≤ w * n := Nat.mul_le_mul_left w hk
  rw [Nat.mul_succ] at this
  rw [lane, BitVec.getLsbD_extractLsb', pack_bit f hi (by omega)]
  simp [hi, hk]

/-! ### Endings -/

/-- A packed operation: the result of its operands in `fd`. -/
theorem packed2_result (ready : FpuReady s [fs, ft, fd]) {op : DWord → DWord → DWord} {P : DWord → Prop}
    (h : P (op (s.f64 fs) (s.f64 ft))) : FprResult (packed2 op ft fs fd s) s fd s.fcsr P := by
  unfold packed2
  rw [ready.withFpu64 (List.Subset.refl _)]
  exact fprResult_done' s _ P (ready.2 fd (by simp)) h

/-- A packed operation on each pair of elements, the element operation written in another way. -/
theorem lanes2_result (ready : FpuReady s [fs, ft, fd]) (fits : w * n ≤ 64) {op f : BitVec w → BitVec w → BitVec w}
    (h : ∀ a b, op a b = f a b) : FprResult (packed2 (lanes2 n op) ft fs fd s) s fd s.fcsr fun d => ∀ k, k < n →
      d.extractLsb' (w * k) w = f ((s.f64 fs).extractLsb' (w * k) w) ((s.f64 ft).extractLsb' (w * k) w) :=
  packed2_result ready fun _ hk => (lane_pack _ fits hk).trans (h _ _)

/-! ### Element operations -/

/-- Signed saturation is the nearest value of the signed range. -/
theorem satS_eq_clamp (hw : 0 < w) (v : Int) :
    satS w v = BitVec.ofInt w (max (-2 ^ (w - 1)) (min (2 ^ (w - 1) - 1) v)) := by
  have pos : (0 : Int) < 2 ^ (w - 1) := by positivity
  unfold satS
  split
  · next high =>
    rw [min_eq_left (by omega), max_eq_right (by omega), ← BitVec.ofInt_natCast]
    congr 1
    push_cast [Nat.one_le_two_pow]
    rfl
  · split
    · next low =>
      rw [min_eq_right (by omega), max_eq_left (by omega)]
      apply BitVec.eq_of_toInt_eq
      rw [BitVec.toInt_ofNat', BitVec.toInt_ofInt, ← Int.add_bmod_right (-2 ^ (w - 1))]
      congr 1
      obtain ⟨m, rfl⟩ := Nat.exists_eq_succ_of_ne_zero hw.ne'
      push_cast [pow_succ, Nat.add_sub_cancel]
      ring
    · rw [min_eq_right (by omega), max_eq_right (by omega)]

/-- Unsigned saturation is the nearest value of the unsigned range. -/
theorem satU_eq_clamp (v : Int) : satU w v = BitVec.ofInt w (max 0 (min (2 ^ w - 1) v)) := by
  have pos : (0 : Int) < 2 ^ w := by positivity
  unfold satU
  split
  · next high =>
    rw [min_eq_left (by omega), max_eq_right (by omega)]
    have largest : (2 ^ w - 1 : Int) = ((2 ^ w - 1 : Nat) : Int) := by push_cast [Nat.one_le_two_pow]; rfl
    rw [largest, BitVec.ofInt_natCast]
    apply BitVec.eq_of_toNat_eq
    rw [BitVec.toNat_allOnes, BitVec.toNat_ofNat, Nat.mod_eq_of_lt (Nat.sub_lt (Nat.two_pow_pos w) Nat.one_pos)]
  · split
    · next low => 
      rw [min_eq_right (by omega), max_eq_left (by omega)]; rfl
    · rw [min_eq_right (by omega), max_eq_right (by omega)]

/-- The full signed product of halfwords. -/
theorem halfProduct_eq (a b : Half) : halfProduct a b = BitVec.ofInt 32 (a.toInt * b.toInt) := smulFull_eq a b

theorem halfProduct_field (a b : Half) (k : Nat) (hk : k ≤ 16) :
    (halfProduct a b).extractLsb' k 16 = BitVec.ofInt 16 (a.toInt * b.toInt / 2 ^ k) := by
  rw [halfProduct_eq, extract_ofInt 32 k 16 _ (by omega)]

/-- The distance of two unsigned elements. -/
theorem absoluteDifference (a b : BitVec w) :
    (if b.ult a then a - b else b - a) = BitVec.ofNat w (max a.toNat b.toNat - min a.toNat b.toNat) := by
  have sub (x y : BitVec w) (h : y.toNat ≤ x.toNat) : x - y = BitVec.ofNat w (x.toNat - y.toNat) := by
    apply BitVec.eq_of_toNat_eq
    rw [BitVec.toNat_sub_of_le h, BitVec.toNat_ofNat, Nat.mod_eq_of_lt (by omega)]
  by_cases h : b.toNat < a.toNat
  · rw [if_pos (by simpa [BitVec.ult] using h), sub a b h.le, max_eq_left h.le, min_eq_right h.le]
  · rw [if_neg (by simpa [BitVec.ult] using h), sub b a (by omega), max_eq_right (by omega), min_eq_left (by omega)]

/-- The low half of the signed product of halfwords. -/
theorem lowHalf_eq (a b : Half) : (halfProduct a b).extractLsb' 0 16 = BitVec.ofInt 16 (a.toInt * b.toInt) := by
  rw [halfProduct_field a b 0 (by decide), pow_zero, Int.ediv_one]

/-- The product of two words, whole. -/
theorem wordProduct_eq (a b : Word) : zext64 a * zext64 b = BitVec.ofNat 64 (a.toNat * b.toNat) := umulFull_eq a b

/-- The high half of the unsigned product of halfwords. -/
theorem unsignedHighHalf_eq (a b : Half) :
    highHalf (a.setWidth (16 + 16) * b.setWidth (16 + 16)) = BitVec.ofNat 16 (a.toNat * b.toNat / 2 ^ 16) :=
  (congrArg highHalf (umulFull_eq a b)).trans (extract_ofNat 32 16 16 _ (by decide))

/-- One word of PMADDHW: the two exact products, added. -/
theorem dotPair_eq (x y : DWord) (k : Nat) : dotPair x y k =
    BitVec.ofInt 32 ((lane 16 x (2 * k)).toInt * (lane 16 y (2 * k)).toInt +
      (lane 16 x (2 * k + 1)).toInt * (lane 16 y (2 * k + 1)).toInt) := by
  rw [BitVec.ofInt_add, ← halfProduct_eq, ← halfProduct_eq]
  rfl

/-- Settles O58: every instruction by `packed2_result` or `lanes2_result`, with what its element operation computes. -/
theorem packedArithmetic : Obligations.PackedArithmetic := by
  intro s ft fs fd ready x y elements bytes halves words whole signed unsigned mean mask
  have each {w n : Nat} (fits : w * n ≤ 64) {op f : BitVec w → BitVec w → BitVec w} (h : ∀ a b, op a b = f a b) :=
    lanes2_result ready fits h
  have all {op : DWord → DWord → DWord} {v : DWord} (h : op x y = v) :
      FprResult (packed2 op ft fs fd s) s fd s.fcsr (· = v) := packed2_result ready h
  have b8 : 8 * 8 ≤ 64 := le_refl _
  have h16 : 16 * 4 ≤ 64 := le_refl _
  have w32 : 32 * 2 ≤ 64 := le_refl _
  refine ⟨?paddb, ?paddh, ?paddw, ?paddd, ?paddsb, ?paddsh, ?paddusb, ?paddush, ?psubb, ?psubh, ?psubw, ?psubd,
    ?psubsb, ?psubsh, ?psubusb, ?psubush, ?pavgh, ?pavgb, ?pmaxsh, ?pminsh, ?pmaxub, ?pminub, ?pcmpeqw, ?pcmpeqh,
    ?pcmpeqb, ?pcmpgtw, ?pcmpgth, ?pcmpgtb, ?pmullh, ?pmulhh, ?pmulhuh, ?pmuluw, ?pasubub, ?pmaddhw⟩
  case paddb | psubb | pavgb | pcmpeqb | pcmpgtb => exact each b8 fun _ _ => rfl
  case paddh | psubh | pavgh | pcmpeqh | pcmpgth => exact each h16 fun _ _ => rfl
  case paddw | psubw | pcmpeqw | pcmpgtw => exact each w32 fun _ _ => rfl
  case paddd | psubd => exact all rfl
  case paddsb | psubsb => exact each b8 fun _ _ => satS_eq_clamp (by decide) _
  case paddsh | psubsh => exact each h16 fun _ _ => satS_eq_clamp (by decide) _
  case paddusb | psubusb => exact each b8 fun _ _ => satU_eq_clamp _
  case paddush | psubush => exact each h16 fun _ _ => satU_eq_clamp _
  case pmaxsh | pminsh => exact each h16 fun _ _ => if_congr decide_eq_true_iff rfl rfl
  case pmaxub | pminub => exact each b8 fun _ _ => if_congr decide_eq_true_iff rfl rfl
  case pmullh => exact each h16 lowHalf_eq
  case pmulhh => exact each h16 fun a b => halfProduct_field a b 16 (by decide)
  case pmulhuh => exact each h16 unsignedHighHalf_eq
  case pmuluw =>
    exact all (op := fun x y => zext64 (lane 32 x 0) * zext64 (lane 32 y 0))
      (wordProduct_eq (lane 32 x 0) (lane 32 y 0))
  case pasubub => exact each b8 fun a b => absoluteDifference a b
  case pmaddhw =>
    refine packed2_result (op := fun x y => pack (dotPair x y) 2) ready fun k hk => ?_
    exact (lane_pack _ w32 hk).trans (dotPair_eq x y k)

end Sys2Proof.Machine
end

section
/-! SUPPORT. The patterns of the floating-point formats (46_fpu R523 to R525): sign, biased exponent and fraction, the
classes they stand for, and the patterns made from them. -/

namespace Sys2Proof.Machine

/-! ### Formats and fields -/

/-- What the proofs need of a format: a hidden bit and one more, an exponent with a value between zero and the largest,
and patterns of at most 64 bits. -/
structure FpFmt.Legal (f : FpFmt) : Prop where
  precision : 2 ≤ f.p
  exponent : 2 ≤ f.ew
  fits : f.p + f.ew ≤ 64

theorem FpFmt.legal {f : FpFmt} (h : f ∈ [FpFmt.single, FpFmt.double]) : f.Legal := by
  rw [List.mem_pair] at h
  rcases h with rfl | rfl <;> constructor <;> decide

/-- The biased exponent of a pattern. -/
def FpFmt.biased (f : FpFmt) (x : DWord) : Nat := f.bits x / 2 ^ (f.p - 1) % 2 ^ f.ew

/-- The fraction of a pattern. -/
def FpFmt.fraction (f : FpFmt) (x : DWord) : Nat := f.bits x % 2 ^ (f.p - 1)

theorem FpFmt.biased_lt (f : FpFmt) (x : DWord) : f.biased x < 2 ^ f.ew := Nat.mod_lt _ (Nat.two_pow_pos _)
theorem FpFmt.fraction_lt (f : FpFmt) (x : DWord) : f.fraction x < 2 ^ (f.p - 1) := Nat.mod_lt _ (Nat.two_pow_pos _)

theorem unpack_neg (f : FpFmt) (x : DWord) : (f.unpack x).neg = decide (2 ^ (f.p + f.ew - 1) ≤ f.bits x) := rfl
theorem unpack_cls (f : FpFmt) (x : DWord) : (f.unpack x).cls = f.classOf (f.biased x) (f.fraction x) := rfl
theorem unpack_mag (f : FpFmt) (x : DWord) : (f.unpack x).mag =
    if f.biased x = 0 then f.fraction x else 2 ^ (f.p - 1) + f.fraction x := rfl
theorem unpack_exp (f : FpFmt) (x : DWord) : (f.unpack x).exp =
    (if f.biased x = 0 then (1 : Int) else (f.biased x : Int)) - (f.bias : Int) - ((f.p : Int) - 1) := rfl

/-- The largest biased exponent, in terms of the bias. -/
theorem FpFmt.Legal.largest {f : FpFmt} (hf : f.Legal) : 2 ^ f.ew - 1 = 2 * f.bias + 1 := by
  obtain ⟨k, hk⟩ : ∃ k, f.ew = k + 1 := ⟨f.ew - 1, by have := hf.exponent; omega⟩
  have := Nat.two_pow_pos k
  rw [FpFmt.bias, hk, pow_succ, Nat.add_sub_cancel]
  omega

/-! ### Classes -/

section
variable {f : FpFmt} (hf : f.Legal) {e fr : Nat} {x : DWord}
include hf

theorem classOf_zero_iff : f.classOf e fr = .zero ↔ e = 0 ∧ fr = 0 := by
  have := hf.largest
  unfold FpFmt.classOf
  split_ifs <;> simp <;> omega

theorem classOf_normal_iff : f.classOf e fr = .normal ↔ e ≠ 0 ∧ e ≠ 2 ^ f.ew - 1 := by
  have := hf.largest
  unfold FpFmt.classOf
  split_ifs <;> simp <;> omega

theorem classOf_inf_iff : f.classOf e fr = .inf ↔ e = 2 ^ f.ew - 1 ∧ fr = 0 := by
  have := hf.largest
  unfold FpFmt.classOf
  split_ifs <;> simp <;> omega

/-- A zero has no magnitude. -/
theorem mag_of_zero (h : (f.unpack x).cls = .zero) : (f.unpack x).mag = 0 := by
  rw [unpack_cls, classOf_zero_iff hf] at h
  rw [unpack_mag, if_pos h.1, h.2]

/-- The magnitude of a normalized operand has `p` bits. -/
theorem mag_of_normal (h : (f.unpack x).cls = .normal) :
    2 ^ (f.p - 1) ≤ (f.unpack x).mag ∧ (f.unpack x).mag < 2 ^ f.p := by
  rw [unpack_cls, classOf_normal_iff hf] at h
  have := f.fraction_lt x
  have double : 2 ^ f.p = 2 ^ (f.p - 1) * 2 := by
    rw [← pow_succ, Nat.sub_add_cancel (by have := hf.precision; omega)]
  rw [unpack_mag, if_neg h.1]
  omega

/-! ### Patterns made from fields -/

/-- The pattern of fields as a number. -/
theorem bits_pack (neg : Bool) (he : e < 2 ^ f.ew) (hfr : fr < 2 ^ (f.p - 1)) :
    f.bits (f.pack neg e fr) = (if neg then 2 ^ (f.p + f.ew - 1) else 0) + (e * 2 ^ (f.p - 1) + fr) ∧
      e * 2 ^ (f.p - 1) + fr < 2 ^ (f.p + f.ew - 1) := by
  have hp := hf.precision
  have he' : (e + 1) * 2 ^ (f.p - 1) ≤ 2 ^ f.ew * 2 ^ (f.p - 1) := Nat.mul_le_mul_right _ he
  rw [← pow_add, show f.ew + (f.p - 1) = f.p + f.ew - 1 by omega, Nat.succ_mul] at he'
  have half : 2 ^ (f.p + f.ew) = 2 ^ (f.p + f.ew - 1) * 2 := by rw [← pow_succ, Nat.sub_add_cancel (by omega)]
  have fits := Nat.pow_le_pow_right two_pos hf.fits
  have below : e * 2 ^ (f.p - 1) + fr < 2 ^ (f.p + f.ew - 1) := by omega
  refine ⟨?_, below⟩
  rw [FpFmt.bits, FpFmt.pack, BitVec.toNat_ofNat, add_assoc]
  have total : (if neg then 2 ^ (f.p + f.ew - 1) else 0) + (e * 2 ^ (f.p - 1) + fr) < 2 ^ (f.p + f.ew) := by
    split <;> omega
  rw [Nat.mod_eq_of_lt (total.trans_le fits), Nat.mod_eq_of_lt total]

/-- Taking apart a pattern of a normalized number. -/
theorem unpack_pack_normal (neg : Bool) (he0 : e ≠ 0) (he : e < 2 ^ f.ew - 1) (hfr : fr < 2 ^ (f.p - 1)) :
    f.unpack (f.pack neg e fr) = ⟨neg, .normal, 2 ^ (f.p - 1) + fr, (e : Int) - f.bias - ((f.p : Int) - 1)⟩ := by
  obtain ⟨number, below⟩ := bits_pack hf neg (show e < 2 ^ f.ew by omega) hfr
  have top : 2 ^ (f.p + f.ew - 1) = 2 ^ f.ew * 2 ^ (f.p - 1) := by
    rw [← pow_add]; congr 1; have := hf.precision; omega
  have shape : f.bits (f.pack neg e fr) = fr + 2 ^ (f.p - 1) * (e + 2 ^ f.ew * if neg then 1 else 0) := by
    rw [number]; cases neg <;> simp [top] <;> ring
  have fraction : f.fraction (f.pack neg e fr) = fr := by
    rw [FpFmt.fraction, shape, Nat.add_mul_mod_self_left, Nat.mod_eq_of_lt hfr]
  have biased : f.biased (f.pack neg e fr) = e := by
    rw [FpFmt.biased, shape, Nat.add_mul_div_left _ _ (Nat.two_pow_pos _), Nat.div_eq_of_lt hfr, zero_add,
      Nat.add_mul_mod_self_left, Nat.mod_eq_of_lt (by omega)]
  have sign : (f.unpack (f.pack neg e fr)).neg = neg := by
    rw [unpack_neg, number]; cases neg <;> simp [below]
  have normal : (f.unpack (f.pack neg e fr)).cls = .normal := by
    rw [unpack_cls, biased, classOf_normal_iff hf]; omega
  have mag := unpack_mag f (f.pack neg e fr)
  have exp := unpack_exp f (f.pack neg e fr)
  rw [biased, if_neg he0] at mag exp
  rw [fraction] at mag
  calc f.unpack (f.pack neg e fr)
    _ = ⟨(f.unpack (f.pack neg e fr)).neg, (f.unpack (f.pack neg e fr)).cls, (f.unpack (f.pack neg e fr)).mag,
        (f.unpack (f.pack neg e fr)).exp⟩ := rfl
    _ = _ := by rw [sign, normal, mag, exp]

end

end Sys2Proof.Machine
end

section
/-! SUPPORT. Rounding (46_fpu R526): a magnitude between two neighbours goes to one of them, and that is the rounding
the mode asks for, whatever the set of values is that is rounded into. -/

namespace Sys2Proof.Machine

/-! ### Signs -/

/-- A magnitude with a sign. -/
def withSign (neg : Bool) (x : ℝ) : ℝ := if neg then -x else x

@[simp] theorem withSign_false (x : ℝ) : withSign false x = x := rfl
@[simp] theorem withSign_true (x : ℝ) : withSign true x = -x := rfl

theorem toReal_eq_withSign (v : FpVal) : v.toReal = withSign v.neg ((v.mag : ℝ) * (2 : ℝ) ^ v.exp) := by
  cases h : v.neg <;> simp [FpVal.toReal, h]

theorem abs_withSign (neg : Bool) {x : ℝ} (h : 0 ≤ x) : |withSign neg x| = x := by
  cases neg <;> simp [abs_of_nonneg h]

theorem withSign_mul (m n : Bool) (x y : ℝ) : withSign m x * withSign n y = withSign (m ^^ n) (x * y) := by
  cases m <;> cases n <;> simp

theorem withSign_div (m n : Bool) (x y : ℝ) : withSign m x / withSign n y = withSign (m ^^ n) (x / y) := by
  cases m <;> cases n <;> simp [neg_div, div_neg]

theorem neg_withSign (neg : Bool) (x : ℝ) : -withSign neg x = withSign (!neg) x := by cases neg <;> simp

theorem withSign_inj (neg : Bool) {x y : ℝ} : withSign neg x = withSign neg y ↔ x = y := by cases neg <;> simp

theorem withSign_pos_iff {neg : Bool} {x : ℝ} (h : 0 < x) : 0 < withSign neg x ↔ neg = false := by
  cases neg <;> simp [h, h.le]

theorem withSign_neg_iff {neg : Bool} {x : ℝ} (h : 0 < x) : withSign neg x < 0 ↔ neg = true := by
  cases neg <;> simp [h, h.le]

/-! ### Neighbours -/

/-- The magnitude `x` lies from `a` up to its neighbour `b`: no value of `number` has its magnitude between them. -/
structure Neighbours (number : ℝ → Prop) (a b x : ℝ) : Prop where
  nonneg : 0 ≤ a
  le : a ≤ x
  lt : x < b
  gap : ∀ z, number z → |z| ≤ a ∨ b ≤ |z|

/-- Whether a mode takes a magnitude `x` between its neighbours `a` and `b` to `b`; `odd` says that `a` is the odd one
of the two (46_fpu R526). -/
def GoesUp (rm : BitVec 2) (neg : Bool) (odd : Prop) (a b x : ℝ) : Prop :=
  (rm = 0 ∧ (b - x < x - a ∨ b - x = x - a ∧ odd)) ∨ (rm = 2 ∧ neg = false ∧ a < x) ∨ (rm = 3 ∧ neg = true ∧ a < x)

theorem goesUp_nearest {neg : Bool} {odd : Prop} {a b x : ℝ} :
    GoesUp 0 neg odd a b x ↔ b - x < x - a ∨ b - x = x - a ∧ odd := by simp [GoesUp]

theorem not_goesUp_zero {neg : Bool} {odd : Prop} {a b x : ℝ} : ¬GoesUp 1 neg odd a b x := by simp [GoesUp]

theorem goesUp_plus {neg : Bool} {odd : Prop} {a b x : ℝ} : GoesUp 2 neg odd a b x ↔ neg = false ∧ a < x := by
  simp [GoesUp]

theorem goesUp_minus {neg : Bool} {odd : Prop} {a b x : ℝ} : GoesUp 3 neg odd a b x ↔ neg = true ∧ a < x := by
  simp [GoesUp]

/-- Magnitudes are no further apart than the values. -/
theorem abs_sub_abs_le_withSign (neg : Bool) {x : ℝ} (hx : 0 ≤ x) (z : ℝ) :
    |x - (|z|)| ≤ |withSign neg x - z| := by
  simpa [abs_withSign neg hx] using abs_abs_sub_abs_le (withSign neg x) z

theorem abs_withSign_sub (neg : Bool) (x c : ℝ) : |withSign neg x - withSign neg c| = |x - c| := by
  cases neg
  · rfl
  · rw [withSign_true, withSign_true, neg_sub_neg, abs_sub_comm]

/-- A value as near as the magnitude `c` of the same sign is, and of that magnitude, is that value. -/
theorem eq_withSign_of_distance {neg : Bool} {x c z : ℝ} (hc : c = 0 ∨ 0 < x) (hz : |z| = c)
    (distance : |withSign neg x - z| = |x - c|) : z = withSign neg c := by
  rcases hc with rfl | hx
  · rw [abs_eq_zero] at hz
    cases neg <;> simp [hz]
  · subst hz
    have squares := (sq_eq_sq_iff_abs_eq_abs _ _).2 distance
    have magnitude := sq_abs z
    refine mul_left_cancel₀ hx.ne' ?_
    cases neg <;> simp only [withSign_true, withSign_false] at squares ⊢ <;> linarith

section
variable {number : ℝ → Prop} {a b x : ℝ} {neg up : Bool} {odd : Prop}

/-- An exact magnitude stays. -/
theorem not_goesUp_self {rm : BitVec 2} (h : x < b) : ¬GoesUp rm neg odd x b x := by
  rintro (⟨_, h' | ⟨h', _⟩⟩ | ⟨_, _, h'⟩ | ⟨_, _, h'⟩) <;> linarith

/-- The rounded magnitude is the exact one where the lower neighbour is. -/
theorem Neighbours.exact_iff (h : Neighbours number a b x) {rm : BitVec 2}
    (hup : up = true ↔ GoesUp rm neg odd a b x) : (if up then b else a) = x ↔ a = x := by
  cases up
  · rfl
  · refine iff_of_false h.lt.ne' fun e => ?_
    subst e
    exact not_goesUp_self h.lt (hup.1 rfl)

/-- The rounded magnitude is no further than either neighbour. -/
theorem Neighbours.distance_le (h : Neighbours number a b x) (hup : up = true ↔ GoesUp 0 neg odd a b x) :
    |x - if up then b else a| ≤ x - a ∧ |x - if up then b else a| ≤ b - x := by
  obtain ⟨_, hle, hlt, _⟩ := h
  rw [goesUp_nearest] at hup
  cases up
  · rw [if_neg Bool.false_ne_true, abs_of_nonneg (by linarith)]
    have : ¬b - x < x - a := fun e => Bool.false_ne_true (hup.2 (.inl e))
    constructor <;> linarith
  · rw [if_pos rfl, abs_of_nonpos (by linarith)]
    have : b - x ≤ x - a := (hup.1 rfl).elim le_of_lt fun e => e.1.le
    constructor <;> linarith

/-- To nearest: no value is nearer. -/
theorem Neighbours.nearest (h : Neighbours number a b x) (hup : up = true ↔ GoesUp 0 neg odd a b x) {z : ℝ}
    (hz : number z) : |withSign neg x - withSign neg (if up then b else a)| ≤ |withSign neg x - z| := by
  obtain ⟨toA, toB⟩ := h.distance_le hup
  have far := abs_sub_abs_le_withSign neg (h.nonneg.trans h.le) z
  have low := le_abs_self (x - |z|)
  have high := neg_le_abs (x - |z|)
  rw [abs_withSign_sub]
  rcases h.gap z hz with below | above <;> linarith

/-- To nearest: where another value is as near, the mode has taken the neighbour that is not odd. -/
theorem Neighbours.tie (h : Neighbours number a b x) (hup : up = true ↔ GoesUp 0 neg odd a b x)
    (other : ∃ z, number z ∧ z ≠ withSign neg (if up then b else a) ∧
      |withSign neg x - z| = |withSign neg x - withSign neg (if up then b else a)|) : up = true ↔ odd := by
  obtain ⟨z, hz, ne, same⟩ := other
  obtain ⟨toA, toB⟩ := h.distance_le hup
  obtain ⟨ha, hle, hlt, gap⟩ := h
  have far := abs_sub_abs_le_withSign neg (ha.trans hle) z
  have low := le_abs_self (x - |z|)
  have high := neg_le_abs (x - |z|)
  rw [goesUp_nearest] at hup
  rw [abs_withSign_sub] at same
  have middle : b - x = x - a := by
    by_contra off
    refine ne (eq_withSign_of_distance ?_ ?_ same)
    · cases up
      · exact (eq_or_lt_of_le ha).imp (fun e => e.symm) fun e => e.trans_le hle
      · have : b - x ≤ x - a := (hup.1 rfl).elim le_of_lt fun e => e.1.le
        exact .inr (by linarith)
    · cases up
      · have : x - a < b - x := lt_of_not_ge fun e => Bool.false_ne_true (hup.2 (.inl (lt_of_le_of_ne e off)))
        simp only [Bool.false_eq_true, if_false] at *
        rw [abs_of_nonneg (a := x - a) (by linarith)] at same
        rcases gap z hz with below | above <;> linarith
      · have : b - x < x - a := (hup.1 rfl).resolve_right fun e => off e.1
        simp only [if_true] at *
        rw [abs_of_nonpos (a := x - b) (by linarith)] at same
        rcases gap z hz with below | above <;> linarith
  rw [hup]
  simp [middle]

/-- Toward zero: the largest magnitude not above the exact one. -/
theorem Neighbours.toward_zero (h : Neighbours number a b x) (hup : up = true ↔ GoesUp 1 neg odd a b x) :
    (if up then b else a) = a ∧ ∀ z, number z → |z| ≤ x → |z| ≤ a := by
  refine ⟨if_neg fun e => not_goesUp_zero (hup.1 e), fun z hz le => (h.gap z hz).resolve_right fun above => ?_⟩
  linarith [h.lt]

/-- Up: the least value not below the exact one. -/
theorem Neighbours.toward_plus (h : Neighbours number a b x) (hup : up = true ↔ GoesUp 2 neg odd a b x) :
    withSign neg x ≤ withSign neg (if up then b else a) ∧
      ∀ z, number z → withSign neg x ≤ z → withSign neg (if up then b else a) ≤ z := by
  obtain ⟨ha, hle, hlt, gap⟩ := h
  rw [goesUp_plus] at hup
  cases neg
  · have goes : up = true ↔ a < x := by simpa using hup
    cases up
    · have : x ≤ a := not_lt.1 fun e => Bool.false_ne_true (goes.2 e)
      exact ⟨this, fun z _ le => hle.trans le⟩
    · have : a < x := goes.1 rfl
      refine ⟨hlt.le, fun z hz (le : x ≤ z) => ?_⟩
      have e : |z| = z := abs_of_nonneg (by linarith)
      exact e ▸ (gap z hz).resolve_left (by rw [e]; linarith)
  · have stays : up = false := by simpa using hup
    subst stays
    refine ⟨neg_le_neg hle, fun z hz (le : -x ≤ z) => ?_⟩
    show -a ≤ z
    have := neg_abs_le z
    rcases gap z hz with below | above
    · linarith
    · rcases abs_cases z with ⟨e, _⟩ | ⟨e, _⟩ <;> linarith

/-- Down: the greatest value not above the exact one, which is `toward_plus` with every sign inverted. -/
theorem Neighbours.toward_minus (h : Neighbours number a b x) (hup : up = true ↔ GoesUp 3 neg odd a b x) :
    withSign neg (if up then b else a) ≤ withSign neg x ∧
      ∀ z, number z → z ≤ withSign neg x → z ≤ withSign neg (if up then b else a) := by
  have mirror : Neighbours (fun z => number (-z)) a b x :=
    ⟨h.nonneg, h.le, h.lt, fun z hz => by simpa using h.gap (-z) hz⟩
  have hup' : up = true ↔ GoesUp 2 (!neg) odd a b x := by
    rw [goesUp_minus] at hup
    rw [hup, goesUp_plus, Bool.not_eq_false']
  obtain ⟨above, least⟩ := mirror.toward_plus hup'
  simp only [← neg_withSign] at above least
  refine ⟨neg_le_neg_iff.1 above, fun z hz le => ?_⟩
  exact neg_le_neg_iff.1 (least (-z) (by simpa using hz) (neg_le_neg le))

end

/-! ### The cut of a magnitude -/

theorem mode_cases (rm : BitVec 2) : rm = 0 ∨ rm = 1 ∨ rm = 2 ∨ rm = 3 := by revert rm; decide

/-- `roundsUp` decides whether the magnitude `m`, with `rem` of `2 * half` cut off and the part `θ` of a unit below
that, goes up; `c` is the value of a unit of what was cut off. -/
theorem roundsUp_iff {rm : BitVec 2} {neg sticky : Bool} {m rem half : Nat} {θ c : ℝ} (h0 : 0 ≤ θ) (h1 : θ < 1)
    (hs : sticky = true ↔ 0 < θ) (hc : 0 < c) : roundsUp rm neg m rem half sticky = true ↔
      GoesUp rm neg (m % 2 = 1) (m * (2 * half * c)) ((m + 1) * (2 * half * c))
        (m * (2 * half * c) + (rem + θ) * c) := by
  have rest : rem ≠ 0 ∨ sticky = true ↔ 0 < (rem + θ) * c := by
    rw [mul_pos_iff_of_pos_right hc, hs]
    refine ⟨fun h => ?_, fun h => ?_⟩
    · rcases h with h | h
      · have : (0 : ℝ) < rem := Nat.cast_pos.2 (Nat.pos_of_ne_zero h)
        linarith
      · positivity
    · by_contra none
      push Not at none
      rw [none.1, Nat.cast_zero] at h
      linarith [none.2]
  have above : half < rem ∨ rem = half ∧ sticky = true ↔ half * c < (rem + θ) * c := by
    rw [mul_lt_mul_iff_left₀ hc, hs]
    rcases lt_trichotomy half rem with h | rfl | h
    · have : (half : ℝ) < rem := Nat.cast_lt.2 h
      exact iff_of_true (.inl h) (by linarith)
    · simp
    · have : (rem : ℝ) + 1 ≤ half := by exact_mod_cast h
      exact iff_of_false (by omega) (by linarith)
  have middle : rem = half ∧ sticky = false ↔ half * c = (rem + θ) * c := by
    rw [mul_left_inj' hc.ne', ← Bool.not_eq_true, hs]
    refine ⟨fun ⟨h, hθ⟩ => ?_, fun h => ?_⟩
    · rw [h, le_antisymm (not_lt.1 hθ) h0, add_zero]
    · have low : rem ≤ half := by exact_mod_cast (show (rem : ℝ) ≤ half by linarith)
      have high : half < rem + 1 := by exact_mod_cast (show (half : ℝ) < rem + 1 by linarith)
      have same : rem = half := by omega
      exact ⟨same, by rw [same] at h; linarith⟩
  rcases mode_cases rm with rfl | rfl | rfl | rfl
  · have less (a b R : ℝ) (h : b = a + 2 * half * c) : b - (a + R) < a + R - a ↔ half * c < R := by
      subst h; constructor <;> intro h <;> linarith
    have same (a b R : ℝ) (h : b = a + 2 * half * c) : b - (a + R) = a + R - a ↔ half * c = R := by
      subst h; constructor <;> intro h <;> linarith
    have next : ((m : ℝ) + 1) * (2 * half * c) = m * (2 * half * c) + 2 * half * c := by ring
    rw [goesUp_nearest, less _ _ _ next, same _ _ _ next, ← above, ← middle]
    cases sticky <;> simp [roundsUp]
  · rw [iff_false_intro not_goesUp_zero]
    simp [roundsUp]
  · rw [goesUp_plus, lt_add_iff_pos_right, ← rest]
    simp [roundsUp]
  · rw [goesUp_minus, lt_add_iff_pos_right, ← rest]
    simp [roundsUp]

end Sys2Proof.Machine
end

section
/-! SUPPORT. The conversion to an integer (46_fpu R526, R561). -/

namespace Sys2Proof.Machine

/-- The values of the integers. -/
def isInteger (z : ℝ) : Prop := ∃ k : ℤ, z = k

/-- An integer from a magnitude and a sign. -/
def intWithSign (neg : Bool) (m : Nat) : ℤ := if neg then -(m : ℤ) else m

theorem cast_intWithSign (neg : Bool) (m : Nat) : (intWithSign neg m : ℝ) = withSign neg m := by
  cases neg <;> simp [intWithSign]

/-- Consecutive integers are neighbours. -/
theorem neighbours_integers {m : Nat} {x : ℝ} (hle : (m : ℝ) ≤ x) (hlt : x < m + 1) :
    Neighbours isInteger m (m + 1) x := by
  refine ⟨Nat.cast_nonneg m, hle, hlt, ?_⟩
  rintro _ ⟨k, rfl⟩
  rw [← Int.cast_abs, ← Nat.cast_natAbs]
  exact_mod_cast Nat.lt_or_ge k.natAbs (m + 1) |>.imp Nat.le_of_lt_succ id

/-- The rounding of a magnitude between `m` and `m + 1` is the rounding of the value to an integer (46_fpu R526). -/
theorem roundsToInt_of_goesUp {rm : BitVec 2} {neg up : Bool} {m : Nat} {x : ℝ} (hle : (m : ℝ) ≤ x) (hlt : x < m + 1)
    (hup : up = true ↔ GoesUp rm neg (m % 2 = 1) m (m + 1) x) :
    RoundsToInt rm (withSign neg x) (intWithSign neg (if up then m + 1 else m)) := by
  have h := neighbours_integers hle hlt
  have x0 : 0 ≤ x := h.nonneg.trans hle
  have value : (intWithSign neg (if up then m + 1 else m) : ℝ) = withSign neg (if up then (m : ℝ) + 1 else m) := by
    rw [cast_intWithSign]; cases up <;> simp
  refine ⟨?nearest, ?zero, ?plus, ?minus⟩
  case nearest =>
    rintro rfl
    rw [value]
    refine ⟨fun z => h.nearest hup ⟨z, rfl⟩, fun ⟨z, ne, same⟩ => ?_⟩
    have odd := h.tie hup ⟨z, ⟨z, rfl⟩, fun e => ne (by exact_mod_cast e.trans value.symm), same⟩
    cases up <;> cases neg <;> simp [intWithSign] at odd ⊢ <;> omega
  case zero =>
    rintro rfl
    obtain ⟨stays, largest⟩ := h.toward_zero hup
    rw [stays] at value
    rw [value, abs_withSign neg h.nonneg, abs_withSign neg x0, withSign_mul, Bool.xor_self]
    refine ⟨hle, mul_nonneg x0 h.nonneg, fun z le => ?_⟩
    have := largest z ⟨z, rfl⟩ le
    rw [← abs_withSign neg h.nonneg, ← value] at this
    exact_mod_cast this
  case plus =>
    rintro rfl
    obtain ⟨above, least⟩ := h.toward_plus hup
    rw [← value] at above least
    exact ⟨above, fun z le => by exact_mod_cast least z ⟨z, rfl⟩ le⟩
  case minus =>
    rintro rfl
    obtain ⟨below, greatest⟩ := h.toward_minus hup
    rw [← value] at below greatest
    exact ⟨below, fun z le => by exact_mod_cast greatest z ⟨z, rfl⟩ le⟩

theorem roundInt_whole {v : FpVal} (h : 0 ≤ v.exp) (rm : BitVec 2) :
    roundInt rm v = (intWithSign v.neg (v.mag * pow2 v.exp), true) := if_pos h

/-- `roundInt` of an operand with `d + 1` bits below the units. -/
theorem roundInt_fraction {v : FpVal} {d : Nat} (h : v.exp = -((d : ℤ) + 1)) (rm : BitVec 2) :
    roundInt rm v = (intWithSign v.neg (if roundsUp rm v.neg (v.mag / 2 ^ (d + 1)) (v.mag % 2 ^ (d + 1)) (2 ^ d) false
      then v.mag / 2 ^ (d + 1) + 1 else v.mag / 2 ^ (d + 1)), decide (v.mag % 2 ^ (d + 1) = 0)) := by
  have places : (-v.exp).toNat = d + 1 := by omega
  rw [roundInt, if_neg (by omega), places]
  rfl

/-- `roundInt` rounds the value of the operand, and says whether that keeps it. -/
theorem roundInt_spec (rm : BitVec 2) (v : FpVal) : RoundsToInt rm v.toReal (roundInt rm v).1 ∧
    ((roundInt rm v).2 = true ↔ ((roundInt rm v).1 : ℝ) = v.toReal) := by
  rw [toReal_eq_withSign]
  by_cases whole : 0 ≤ v.exp
  · have value : (v.mag : ℝ) * 2 ^ v.exp = (v.mag * pow2 v.exp : Nat) := by
      rw [Nat.cast_mul, pow2, Nat.cast_pow, Nat.cast_ofNat, ← zpow_natCast, Int.toNat_of_nonneg whole]
    rw [roundInt_whole whole, value, cast_intWithSign]
    refine ⟨?_, iff_of_true rfl rfl⟩
    exact roundsToInt_of_goesUp (up := false) le_rfl (lt_add_one _)
      (iff_of_false Bool.false_ne_true (not_goesUp_self (lt_add_one _)))
  · obtain ⟨d, hd⟩ : ∃ d : ℕ, v.exp = -((d : ℤ) + 1) := ⟨(-v.exp).toNat - 1, by omega⟩
    rw [roundInt_fraction hd, hd]
    generalize hm : v.mag / 2 ^ (d + 1) = m
    generalize hr : v.mag % 2 ^ (d + 1) = rem
    have c0 : (0 : ℝ) < 2 ^ (-((d : ℤ) + 1)) := by positivity
    have unit : 2 * ((2 ^ d : Nat) : ℝ) * 2 ^ (-((d : ℤ) + 1)) = 1 := by
      rw [zpow_neg, zpow_add₀ two_ne_zero, zpow_natCast, zpow_one]
      push_cast
      field_simp
    generalize (2 : ℝ) ^ (-((d : ℤ) + 1)) = c at *
    have split : (v.mag : ℝ) * c = m + rem * c := by
      have : v.mag = 2 * 2 ^ d * m + rem := by rw [← hm, ← hr, ← pow_succ', Nat.div_add_mod]
      rw [this, Nat.cast_add, Nat.cast_mul, Nat.cast_mul, Nat.cast_ofNat]
      linear_combination m * unit
    have below : (rem : ℝ) * c < 1 := by
      have : (rem : ℝ) < 2 * (2 ^ d : Nat) := by
        rw [← hr]; exact_mod_cast (Nat.mod_lt _ (by positivity)).trans_eq (pow_succ' 2 d)
      rw [← unit]
      exact (mul_lt_mul_iff_left₀ c0).2 this
    have above : 0 ≤ (rem : ℝ) * c := by positivity
    have up := roundsUp_iff (rm := rm) (neg := v.neg) (sticky := false) (m := m) (rem := rem) (half := 2 ^ d)
      (le_refl 0) one_pos (by simp) c0
    rw [unit, mul_one, mul_one, add_zero, ← split] at up
    have le : (m : ℝ) ≤ v.mag * c := by linarith
    have lt : (v.mag : ℝ) * c < m + 1 := by linarith
    refine ⟨roundsToInt_of_goesUp le lt up, ?_⟩
    have rounded : (((if roundsUp rm v.neg m rem (2 ^ d) false then m + 1 else m : Nat)) : ℝ) =
        if roundsUp rm v.neg m rem (2 ^ d) false then (m : ℝ) + 1 else m := by rw [apply_ite Nat.cast, Nat.cast_succ]
    rw [cast_intWithSign, withSign_inj, rounded, (neighbours_integers le lt).exact_iff up, split, left_eq_add,
      mul_eq_zero_iff_right c0.ne', Nat.cast_eq_zero]
    exact decide_eq_true_iff

/-! ### The conversion -/

/-- What a conversion to `w` bits that has no result in them answers (46_fpu R561; log 43). -/
def badFixed (w : Nat) (neg : Bool) : FpOut :=
  .invalid (BitVec.ofNat 64 (if neg then 2 ^ (w - 1) else 2 ^ (w - 1) - 1))

section
variable {f : FpFmt} {w : Nat} {rm : BitVec 2} {a : DWord}

theorem toFixed_denormal (h : (f.unpack a).cls = .denormal) : f.toFixed w rm a = .unimplemented := if_pos h

theorem toFixed_nonfinite (h : (f.unpack a).cls = .inf ∨ (f.unpack a).cls = .qnan ∨ (f.unpack a).cls = .snan) :
    f.toFixed w rm a = badFixed w (f.unpack a).neg := by
  unfold FpFmt.toFixed
  rcases h with h | h | h <;> simp only [FpVal.isInf, FpVal.isNan, h] <;> rfl

theorem toFixed_finite (h : (f.unpack a).cls = .zero ∨ (f.unpack a).cls = .normal) : f.toFixed w rm a =
    if (roundInt rm (f.unpack a)).1 < -2 ^ (w - 1) ∨ 2 ^ (w - 1) ≤ (roundInt rm (f.unpack a)).1
    then badFixed w (f.unpack a).neg
    else ⟨{ inexact := !(roundInt rm (f.unpack a)).2 }, (BitVec.ofInt w (roundInt rm (f.unpack a)).1).setWidth 64⟩ := by
  unfold FpFmt.toFixed
  rcases h with h | h <;> simp [FpVal.isInf, FpVal.isNan, h, badFixed]

end

/-- Settles O54: a finite operand by `roundInt_spec`, every other by its class. -/
theorem fpToIntegerRounds : Obligations.FpToIntegerRounds := by
  intro f _ w _ rm a u o bad
  refine ⟨fun finite => ?_, toFixed_nonfinite, toFixed_denormal⟩
  obtain ⟨rounds, keeps⟩ := roundInt_spec rm u
  have run : o = _ := toFixed_finite finite
  refine ⟨(roundInt rm u).1, rounds, fun outside => run.trans (if_pos outside), fun low high => ?_⟩
  rw [run.trans (if_neg (not_or.2 ⟨not_lt.2 low, not_le.2 high⟩))]
  refine ⟨rfl, !(roundInt rm u).2, ?_, rfl⟩
  rw [Bool.not_eq_true', ← Bool.not_eq_true, keeps]

end Sys2Proof.Machine
end

section
/-! SUPPORT. The compares (46_fpu R590, 47_fpu_ps R636): the order of the patterns is the order of their values, the
infinities beyond every finite value. -/

namespace Sys2Proof.Machine

/-! ### The order of magnitudes -/

/-- The magnitude of the pattern `k` in units of the smallest denormal, where the fraction counts to `q`. -/
def magnitudeSteps (q k : Nat) : Nat := if k / q = 0 then k % q else (q + k % q) * 2 ^ (k / q - 1)

theorem magnitudeSteps_fields {q r : Nat} (e : Nat) (hr : r < q) :
    magnitudeSteps q (q * e + r) = if e = 0 then r else (q + r) * 2 ^ (e - 1) := by
  rw [magnitudeSteps, Nat.mul_add_div (by omega), Nat.mul_add_mod, Nat.div_eq_of_lt hr, Nat.mod_eq_of_lt hr, add_zero]

/-- The next pattern has the next magnitude. -/
theorem magnitudeSteps_strictMono {q : Nat} (hq : 0 < q) : StrictMono (magnitudeSteps q) := by
  refine strictMono_nat_of_lt_succ fun k => ?_
  have hr : k % q < q := Nat.mod_lt k hq
  rw [← Nat.div_add_mod k q]
  generalize k / q = e at *
  generalize k % q = r at *
  by_cases last : r + 1 = q
  · have next : q * e + r + 1 = q * (e + 1) + 0 := by rw [add_assoc, last, Nat.mul_succ, add_zero]
    rw [next, magnitudeSteps_fields _ hq, magnitudeSteps_fields _ hr, if_neg e.succ_ne_zero, Nat.succ_sub_one]
    cases e with
    | zero => simpa using hr
    | succ e =>
      rw [if_neg e.succ_ne_zero, Nat.succ_sub_one, add_zero, pow_succ', ← mul_assoc]
      exact Nat.mul_lt_mul_of_pos_right (by omega) (Nat.two_pow_pos e)
  · rw [add_assoc, magnitudeSteps_fields _ hr, magnitudeSteps_fields _ (by omega : r + 1 < q)]
    split
    · exact r.lt_succ_self
    · exact Nat.mul_lt_mul_of_pos_right (by omega) (Nat.two_pow_pos _)

/-- The same with a sign. -/
def signedSteps (q : Nat) (k : ℤ) : ℤ := if k < 0 then -magnitudeSteps q k.natAbs else magnitudeSteps q k.natAbs

theorem magnitudeSteps_zero (q : Nat) : magnitudeSteps q 0 = 0 := by simp [magnitudeSteps]

theorem signedSteps_strictMono {q : Nat} (hq : 0 < q) : StrictMono (signedSteps q) := by
  intro j k hjk
  have mono {m n : Nat} (h : m < n) : (magnitudeSteps q m : ℤ) < magnitudeSteps q n := by
    exact_mod_cast magnitudeSteps_strictMono hq h
  unfold signedSteps
  split_ifs with hj hk hk
  · exact neg_lt_neg (mono (by omega))
  · have : (magnitudeSteps q 0 : ℤ) < magnitudeSteps q j.natAbs := mono (by omega)
    rw [magnitudeSteps_zero] at this
    omega
  · omega
  · exact mono (by omega)

theorem signedSteps_natCast (q n : Nat) : signedSteps q n = magnitudeSteps q n := by simp [signedSteps]

theorem signedSteps_neg_natCast (q n : Nat) : signedSteps q (-(n : ℤ)) = -magnitudeSteps q n := by
  rcases Nat.eq_zero_or_pos n with rfl | h
  · simp [signedSteps, magnitudeSteps_zero]
  · rw [signedSteps, if_pos (by omega), Int.natAbs_neg, Int.natAbs_natCast]

/-! ### Values of patterns -/

section
variable {f : FpFmt} (hf : f.Legal) (x : DWord)
include hf

/-- A pattern without its sign: the exponent above the fraction. -/
theorem bits_mod_sign : f.bits x % 2 ^ (f.p + f.ew - 1) = 2 ^ (f.p - 1) * f.biased x + f.fraction x := by
  rw [show f.p + f.ew - 1 = (f.p - 1) + f.ew by have := hf.precision; omega, pow_add, Nat.mod_mul, add_comm]
  rfl

theorem orderKey_eq : f.orderKey x =
    if (f.unpack x).neg then -((2 ^ (f.p - 1) * f.biased x + f.fraction x : Nat) : ℤ)
    else ((2 ^ (f.p - 1) * f.biased x + f.fraction x : Nat) : ℤ) := by
  rw [← bits_mod_sign hf, unpack_neg]
  exact if_congr decide_eq_true_iff.symm rfl rfl

/-- The value of one step. -/
noncomputable def FpFmt.step (f : FpFmt) : ℝ := 2 ^ (1 - (f.bias : ℤ) - ((f.p : ℤ) - 1))

omit hf in
theorem FpFmt.step_pos (f : FpFmt) : 0 < f.step := by unfold FpFmt.step; positivity

omit hf in
theorem mag_mul_exp_eq : ((f.unpack x).mag : ℝ) * 2 ^ (f.unpack x).exp =
    magnitudeSteps (2 ^ (f.p - 1)) (2 ^ (f.p - 1) * f.biased x + f.fraction x) * f.step := by
  rw [magnitudeSteps_fields _ (f.fraction_lt x), unpack_mag, unpack_exp, FpFmt.step]
  by_cases h : f.biased x = 0
  · simp only [if_pos h]
  · have above : ((f.biased x - 1 : Nat) : ℤ) = f.biased x - 1 := by omega
    simp only [if_neg h]
    rw [Nat.cast_mul, Nat.cast_pow, Nat.cast_ofNat, mul_assoc, ← zpow_natCast, ← zpow_add₀ two_ne_zero, above]
    congr 2
    ring

/-- The value of a pattern counted in smallest denormals; the formula goes on past the largest finite value. -/
theorem toReal_eq_signedSteps :
    (f.unpack x).toReal = (signedSteps (2 ^ (f.p - 1)) (f.orderKey x) : ℝ) * f.step := by
  rw [toReal_eq_withSign, mag_mul_exp_eq, orderKey_eq hf]
  cases (f.unpack x).neg
  · rw [if_neg Bool.false_ne_true, signedSteps_natCast, Int.cast_natCast, withSign_false]
  · rw [if_pos rfl, signedSteps_neg_natCast, Int.cast_neg, Int.cast_natCast, neg_mul, withSign_true]

variable {x} {y : DWord}

/-- The order of the values is the order of the patterns. -/
theorem toReal_lt_iff : (f.unpack x).toReal < (f.unpack y).toReal ↔ f.orderKey x < f.orderKey y := by
  rw [toReal_eq_signedSteps hf, toReal_eq_signedSteps hf, mul_lt_mul_iff_left₀ f.step_pos, Int.cast_lt]
  exact (signedSteps_strictMono (Nat.two_pow_pos _)).lt_iff_lt

theorem toReal_eq_iff : (f.unpack x).toReal = (f.unpack y).toReal ↔ f.orderKey x = f.orderKey y := by
  rw [toReal_eq_signedSteps hf, toReal_eq_signedSteps hf, mul_left_inj' f.step_pos.ne', Int.cast_inj]
  exact (signedSteps_strictMono (Nat.two_pow_pos _)).injective.eq_iff

/-! ### Infinities -/

omit hf in
/-- Where the values would go on after the largest finite one, an infinity stands. -/
noncomputable def FpFmt.beyond (f : FpFmt) : ℝ :=
  magnitudeSteps (2 ^ (f.p - 1)) (2 ^ (f.p - 1) * (2 ^ f.ew - 1)) * f.step

theorem toReal_of_inf (h : (f.unpack x).cls = .inf) : (f.unpack x).toReal = withSign (f.unpack x).neg f.beyond := by
  rw [unpack_cls, classOf_inf_iff hf] at h
  rw [toReal_eq_withSign, mag_mul_exp_eq, h.1, h.2, add_zero, FpFmt.beyond]

omit hf in
theorem abs_toReal_lt_beyond (h : f.biased x < 2 ^ f.ew - 1) : |(f.unpack x).toReal| < f.beyond := by
  rw [toReal_eq_withSign, abs_withSign _ (by positivity), mag_mul_exp_eq, FpFmt.beyond,
    mul_lt_mul_iff_left₀ f.step_pos, Nat.cast_lt]
  refine magnitudeSteps_strictMono (Nat.two_pow_pos _) ?_
  have := f.fraction_lt x
  have : 2 ^ (f.p - 1) * (f.biased x + 1) ≤ 2 ^ (f.p - 1) * (2 ^ f.ew - 1) := Nat.mul_le_mul_left _ h
  rw [Nat.mul_succ] at this
  omega

omit hf in
/-- A pattern that is no NaN is an infinity or finite. -/
theorem inf_or_finite (h : (f.unpack x).isNan = false) : (f.unpack x).cls = .inf ∨
    (f.unpack x).isInf = false ∧ f.biased x < 2 ^ f.ew - 1 := by
  have := f.biased_lt x
  simp only [FpVal.isNan, FpVal.isInf, unpack_cls, FpFmt.classOf] at *
  split_ifs at * <;> simp at * <;> omega

theorem beyond_pos : 0 < f.beyond := by
  refine mul_pos (Nat.cast_pos.2 ?_) f.step_pos
  have := magnitudeSteps_strictMono (Nat.two_pow_pos (f.p - 1))
    (show 0 < 2 ^ (f.p - 1) * (2 ^ f.ew - 1) by rw [hf.largest]; positivity)
  rwa [magnitudeSteps_zero] at this

omit hf in
/-- The infinite values in place of `b` and `-b`. -/
noncomputable def infinityAt (b r : ℝ) : EReal := if r = b then ⊤ else if r = -b then ⊥ else (r : EReal)

omit hf in
theorem infinityAt_strictMonoOn (b : ℝ) : StrictMonoOn (infinityAt b) (Set.Icc (-b) b) := by
  intro r hr s hs less
  have notTop : r ≠ b := (less.trans_le hs.2).ne
  have notBot : s ≠ -b := (hr.1.trans_lt less).ne'
  simp only [infinityAt, if_neg notTop, if_neg notBot]
  split_ifs
  · exact bot_lt_top
  · exact EReal.bot_lt_coe s
  · exact EReal.coe_lt_top r
  · exact EReal.coe_lt_coe_iff.2 less

/-- The value of an operand that is no NaN, infinities among them. -/
theorem toEReal_eq (h : (f.unpack x).isNan = false) : (f.unpack x).toEReal = infinityAt f.beyond (f.unpack x).toReal ∧
    (f.unpack x).toReal ∈ Set.Icc (-f.beyond) f.beyond := by
  have pos := beyond_pos hf
  rcases inf_or_finite h with inf | ⟨notInf, finite⟩
  · have isInf : (f.unpack x).isInf = true := by simp [FpVal.isInf, inf]
    rw [FpVal.toEReal, if_pos isInf, toReal_of_inf hf inf, infinityAt]
    cases (f.unpack x).neg
    · simp [pos.le]
    · simp [pos.le, show ¬-f.beyond = f.beyond by linarith]
  · have between := abs_lt.1 (abs_toReal_lt_beyond finite)
    rw [FpVal.toEReal, notInf, infinityAt, if_neg between.2.ne, if_neg between.1.ne']
    exact ⟨rfl, between.1.le, between.2.le⟩

theorem toEReal_lt_iff (hx : (f.unpack x).isNan = false) (hy : (f.unpack y).isNan = false) :
    (f.unpack x).toEReal < (f.unpack y).toEReal ↔ f.orderKey x < f.orderKey y := by
  obtain ⟨ex, mx⟩ := toEReal_eq hf hx
  obtain ⟨ey, my⟩ := toEReal_eq hf hy
  rw [ex, ey, (infinityAt_strictMonoOn _).lt_iff_lt mx my, toReal_lt_iff hf]

theorem toEReal_eq_iff (hx : (f.unpack x).isNan = false) (hy : (f.unpack y).isNan = false) :
    (f.unpack x).toEReal = (f.unpack y).toEReal ↔ f.orderKey x = f.orderKey y := by
  obtain ⟨ex, mx⟩ := toEReal_eq hf hx
  obtain ⟨ey, my⟩ := toEReal_eq hf hy
  rw [ex, ey, (infinityAt_strictMonoOn _).eq_iff_eq mx my, toReal_eq_iff hf]

/-! ### The conditions -/

/-- The condition a compare sets: its predicate on the values (46_fpu R590). -/
def CompareHolds (cond : BitVec 4) (u v : FpVal) : Prop :=
  let nan := u.isNan = true ∨ v.isNan = true
  (cond.getLsbD 2 = true ∧ ¬nan ∧ u.toEReal < v.toEReal) ∨ (cond.getLsbD 1 = true ∧ ¬nan ∧ u.toEReal = v.toEReal) ∨
    (cond.getLsbD 0 = true ∧ nan)

/-- What a compare signals (46_fpu R591). -/
def CompareInvalid (cond : BitVec 4) (u v : FpVal) : Prop :=
  u.cls = .snan ∨ v.cls = .snan ∨ (cond.getLsbD 3 = true ∧ (u.isNan = true ∨ v.isNan = true))

theorem compare_holds_iff (cond : BitVec 4) :
    (f.compare cond x y).1 = true ↔ CompareHolds cond (f.unpack x) (f.unpack y) := by
  unfold FpFmt.compare CompareHolds bit
  cases hx : (f.unpack x).isNan
  · cases hy : (f.unpack y).isNan
    · simp only [toEReal_lt_iff hf hx hy, toEReal_eq_iff hf hx hy]
      simp [-BitVec.getLsbD_eq_getElem, hx, hy]
    · simp [-BitVec.getLsbD_eq_getElem, hx, hy]
  · simp [-BitVec.getLsbD_eq_getElem, hx]

end

/-- The exceptions of a compare. -/
theorem compare_invalid_iff (f : FpFmt) (cond : BitVec 4) (x y : DWord) : ∃ v : Bool,
    (f.compare cond x y).2 = { invalid := v } ∧ (v = true ↔ CompareInvalid cond (f.unpack x) (f.unpack y)) := by
  refine ⟨_, rfl, ?_⟩
  simp only [CompareInvalid, FpVal.isSnan, bit, Bool.or_eq_true, Bool.and_eq_true, decide_eq_true_eq, or_assoc]

/-! ### The instructions -/

/-- A word with the bits of a mask set or cleared. -/
theorem maskedWrite_all_or_none (m g : Word) (c : Bool) :
    maskedWrite m g (if c then m else 0) = if c then g ||| m else g &&& ~~~m := by
  cases c
  · simp [maskedWrite]
  · apply BitVec.eq_of_getLsbD_eq
    intro i hi
    simp only [maskedWrite, if_true, BitVec.and_self, BitVec.getLsbD_or, BitVec.getLsbD_and, BitVec.getLsbD_not, hi]
    cases g.getLsbD i <;> cases m.getLsbD i <;> rfl

/-- FCSR with CC0 set to a condition. -/
theorem fcsrSetCc_zero (g : Word) (c : Bool) :
    fcsrSetCc g 0 c = if c then g ||| 0x800000 else g &&& ~~~0x800000 := maskedWrite_all_or_none _ g c

/-- FCSR with CC0 and CC1 set to two conditions. -/
theorem fcsrSetCc_both (g : Word) (c0 c1 : Bool) : fcsrSetCc (fcsrSetCc g 0 c0) 1 c1 =
    (g &&& ~~~0x2800000) ||| (if c0 then 0x800000 else 0) ||| (if c1 then 0x2000000 else 0) := by
  have one : fcsrSetCc (fcsrSetCc g 0 c0) 1 c1 =
      if c1 then fcsrSetCc g 0 c0 ||| 0x2000000 else fcsrSetCc g 0 c0 &&& ~~~0x2000000 := maskedWrite_all_or_none _ _ c1
  have place (i : Nat) (hi : i < 32) : i = 23 ∨ i = 25 ∨
      (0x2800000 : Word).getLsbD i = false ∧ (0x800000 : Word).getLsbD i = false ∧
        (0x2000000 : Word).getLsbD i = false := by revert i; decide
  rw [one, fcsrSetCc_zero]
  apply BitVec.eq_of_getLsbD_eq
  intro i hi
  rcases place i hi with rfl | rfl | ⟨both, cc0, cc1⟩
  · cases c0 <;> cases c1 <;> simp [-BitVec.getLsbD_eq_getElem]
  · cases c0 <;> cases c1 <;> simp [-BitVec.getLsbD_eq_getElem]
  · have keeps (c : Bool) (m v : Word) (hm : m.getLsbD i = false) :
        (if c then v ||| m else v &&& ~~~m).getLsbD i = v.getLsbD i := by
      cases c <;> simp [-BitVec.getLsbD_eq_getElem, hi, hm]
    have adds (c : Bool) (m v : Word) (hm : m.getLsbD i = false) :
        (v ||| if c then m else 0).getLsbD i = v.getLsbD i := by
      cases c <;> simp [-BitVec.getLsbD_eq_getElem, hm]
    rw [keeps _ _ _ cc1, keeps _ _ _ cc0, adds _ _ _ cc1, adds _ _ _ cc0]
    exact (keeps false _ g both).symm

section
variable {s : State} {regs : List RegNum} {i : Instr} (cond : BitVec 4)

/-- A compare in one format ends with CC0 set to its condition, or in the exception it signals. -/
theorem compare_ends (h : FpuReady s regs) {f : FpFmt} (hf : f.Legal) {a b : DWord}
    (run : exec i s = finishCompare regs (f.compare cond a b) s) : ∃ c v : Bool,
      (c = true ↔ CompareHolds cond (f.unpack a) (f.unpack b)) ∧
      (v = true ↔ CompareInvalid cond (f.unpack a) (f.unpack b)) ∧
      FpEnds (exec i s) s { invalid := v } fun g =>
        FcsrResult (exec i s) s (if c then g ||| 0x800000 else g &&& ~~~0x800000) := by
  obtain ⟨v, signals, invalid⟩ := compare_invalid_iff f cond a b
  refine ⟨(f.compare cond a b).1, v, compare_holds_iff hf cond, invalid, ?_⟩
  have ends := finishCompare_ends h (List.Subset.refl regs) (f.compare cond a b)
  simp only [fcsrSetCc_zero, signals] at ends
  rwa [run]

/-- A compare of both halves ends with CC0 and CC1 set to their conditions, or in the exception either signals. -/
theorem pairedCompare_ends {fs ft : RegNum} (h : FpuReady s [fs, ft]) (run : exec i s = pairedCompare cond fs ft s) :
    let unpack (x : DWord) (k : Nat) := FpFmt.single.unpack ((x.extractLsb' k 32).setWidth 64)
    let x := s.f64 fs; let y := s.f64 ft
    ∃ c0 c1 v : Bool, (c0 = true ↔ CompareHolds cond (unpack x 0) (unpack y 0)) ∧
      (c1 = true ↔ CompareHolds cond (unpack x 32) (unpack y 32)) ∧
      (v = true ↔ CompareInvalid cond (unpack x 0) (unpack y 0) ∨ CompareInvalid cond (unpack x 32) (unpack y 32)) ∧
      FpEnds (exec i s) s { invalid := v } fun g => FcsrResult (exec i s) s
        ((g &&& ~~~0x2800000) ||| (if c0 then 0x800000 else 0) ||| (if c1 then 0x2000000 else 0)) := by
  intro unpack x y
  have legal : FpFmt.single.Legal := FpFmt.legal (by simp)
  let hi := FpFmt.single.compare cond (hiHalf x) (hiHalf y)
  let lo := FpFmt.single.compare cond (loHalf x) (loHalf y)
  obtain ⟨v1, signals1, invalid1⟩ := compare_invalid_iff .single cond (hiHalf x) (hiHalf y)
  obtain ⟨v0, signals0, invalid0⟩ := compare_invalid_iff .single cond (loHalf x) (loHalf y)
  refine ⟨lo.1, hi.1, v1 || v0, compare_holds_iff legal cond, compare_holds_iff legal cond, ?_, ?_⟩
  · rw [Bool.or_eq_true, or_comm]
    exact or_congr invalid0 invalid1
  have both : hi.2.or lo.2 = { invalid := v1 || v0 } := by
    rw [show hi.2 = _ from signals1, show lo.2 = _ from signals0]; rfl
  have ends : FpEnds (exec i s) s (hi.2.or lo.2) fun g =>
      FcsrResult (exec i s) s (fcsrSetCc (fcsrSetCc g 0 lo.1) 1 hi.1) := by
    rw [run, pairedCompare, h.withFpu64 (List.Subset.refl _)]
    exact fpEnds_fpFinish (result := fun out g => FcsrResult out s (fcsrSetCc (fcsrSetCc g 0 lo.1) 1 hi.1))
      fun f => fcsrResult_done s _
  simpa only [both, fcsrSetCc_both] using ends

end

/-- Settles O55: every compare is `compare_ends` or `pairedCompare_ends` of its predicate. -/
theorem fpCompares : Obligations.FpCompares := by
  intro s ft fs hc holds invalid one S D single double paired
  have legalS : S.Legal := FpFmt.legal (by simp [S])
  have legalD : D.Legal := FpFmt.legal (by simp [D])
  have ready : FpuReady s [] := ⟨hc, fun _ h => absurd h List.not_mem_nil⟩
  have inS {i : Instr} (cond : BitVec 4) (run : exec i s = finishCompare [] (S.compare cond (s.x32 fs) (s.x32 ft)) s) :
      single i cond := compare_ends cond ready legalS run
  refine ⟨inS 0 rfl, inS 1 rfl, inS 2 rfl, inS 3 rfl, inS 4 rfl, inS 5 rfl, inS 6 rfl, inS 7 rfl, inS 8 rfl, inS 9 rfl,
    inS 10 rfl, inS 11 rfl, inS 12 rfl, inS 13 rfl, inS 14 rfl, inS 15 rfl, fun ready2 => ?_⟩
  have inD {i : Instr} (cond : BitVec 4)
      (run : exec i s = finishCompare [fs, ft] (D.compare cond (s.f64 fs) (s.f64 ft)) s) : double i cond :=
    compare_ends cond ready2 legalD run
  have inPs {i : Instr} (cond : BitVec 4) (run : exec i s = pairedCompare cond fs ft s) : paired i cond :=
    pairedCompare_ends cond ready2 run
  exact ⟨inD 0 rfl, inD 1 rfl, inD 2 rfl, inD 3 rfl, inD 4 rfl, inD 5 rfl, inD 6 rfl, inD 7 rfl, inD 8 rfl, inD 9 rfl,
    inD 10 rfl, inD 11 rfl, inD 12 rfl, inD 13 rfl, inD 14 rfl, inD 15 rfl,
    inPs 0 rfl, inPs 1 rfl, inPs 2 rfl, inPs 3 rfl, inPs 4 rfl, inPs 5 rfl, inPs 6 rfl, inPs 7 rfl, inPs 8 rfl,
    inPs 9 rfl, inPs 10 rfl, inPs 11 rfl, inPs 12 rfl, inPs 13 rfl, inPs 14 rfl, inPs 15 rfl⟩

end Sys2Proof.Machine
end

section
/-! SUPPORT. Rounding to a precision with an unbounded exponent, and the delivery of a rounded result (46_fpu R526,
R527). -/

namespace Sys2Proof.Machine

/-! ### Numbers of a precision -/

/-- A value with a significand of `p` bits. -/
def isNumber (p : Nat) (z : ℝ) : Prop := ∃ m, HasSignificand p z m

/-- A power of two times a natural number, with the power one place or more lower. -/
theorem cast_mul_two_zpow (n k : Nat) (q : ℤ) : ((n * 2 ^ k : Nat) : ℝ) * 2 ^ q = n * 2 ^ (q + k) := by
  rw [Nat.cast_mul, Nat.cast_pow, Nat.cast_ofNat, add_comm, zpow_add₀ two_ne_zero, zpow_natCast, mul_assoc]

section
variable {p m : Nat} {q : ℤ} {x : ℝ}

/-- A magnitude of `p` bits or the next power of two is a number, with an even significand where it is even. -/
theorem hasSignificand_of_le (hp : 2 ≤ p) {z : ℝ} (low : 2 ^ (p - 1) ≤ m) (high : m ≤ 2 ^ p)
    (hz : |z| = m * 2 ^ q) : ∃ n, HasSignificand p z n ∧ (m % 2 = 0 → n % 2 = 0) := by
  rcases high.lt_or_eq with high | rfl
  · exact ⟨m, ⟨low, high, q, hz⟩, id⟩
  · have carried := cast_mul_two_zpow (2 ^ (p - 1)) 1 q
    rw [pow_one, Nat.two_pow_pred_mul_two (by omega)] at carried
    refine ⟨2 ^ (p - 1), ⟨le_rfl, Nat.pow_lt_pow_right one_lt_two (by omega), _, hz.trans carried⟩, fun _ => ?_⟩
    rw [← Nat.sub_add_cancel (show 1 ≤ p - 1 by omega), pow_succ, Nat.mul_mod_left]

/-- Consecutive significands are neighbours. -/
theorem neighbours_numbers (hp : 2 ≤ p) (low : 2 ^ (p - 1) ≤ m) (hle : m * 2 ^ q ≤ x) (hlt : x < (m + 1) * 2 ^ q) :
    Neighbours (isNumber p) (m * 2 ^ q) ((m + 1) * 2 ^ q) x := by
  refine ⟨by positivity, hle, hlt, ?_⟩
  rintro z ⟨n, _, high, q', hz⟩
  have unit : (0 : ℝ) < 2 ^ q := by positivity
  rw [hz]
  rcases le_or_gt q q' with coarse | fine
  · obtain ⟨k, rfl⟩ := Int.le.dest coarse
    rw [← cast_mul_two_zpow, mul_le_mul_iff_left₀ unit, mul_le_mul_iff_left₀ unit]
    exact_mod_cast (Nat.lt_or_ge (n * 2 ^ k) (m + 1)).imp Nat.le_of_lt_succ id
  · left
    obtain ⟨k, rfl⟩ := Int.le.dest (Int.add_one_le_of_lt fine)
    have small : n ≤ m * 2 ^ (k + 1) := by
      calc n ≤ 2 ^ (p - 1) * 2 := by rw [Nat.two_pow_pred_mul_two (by omega)]; exact high.le
        _ ≤ m * 2 ^ (k + 1) := Nat.mul_le_mul low (Nat.le_self_pow k.succ_ne_zero 2)
    calc (n : ℝ) * 2 ^ q' ≤ (m * 2 ^ (k + 1) : Nat) * 2 ^ q' :=
          mul_le_mul_of_nonneg_right (Nat.cast_le.2 small) (by positivity)
      _ = m * 2 ^ (q' + 1 + k) := by rw [cast_mul_two_zpow]; push_cast; ring_nf

/-- The rounding of a magnitude between two significands is the rounding of the value (46_fpu R526). -/
theorem roundsTo_of_goesUp (hp : 2 ≤ p) {rm : BitVec 2} {neg up : Bool} (low : 2 ^ (p - 1) ≤ m) (high : m < 2 ^ p)
    (hle : m * 2 ^ q ≤ x) (hlt : x < (m + 1) * 2 ^ q)
    (hup : up = true ↔ GoesUp rm neg (m % 2 = 1) (m * 2 ^ q) ((m + 1) * 2 ^ q) x) :
    RoundsTo p rm (withSign neg x) (withSign neg (if up then (m + 1) * 2 ^ q else m * 2 ^ q)) := by
  have h := neighbours_numbers hp low hle hlt
  have a0 : (0 : ℝ) < m * 2 ^ q := by
    have : 0 < m := (Nat.two_pow_pos _).trans_le low
    positivity
  have size : |withSign neg (if up then ((m : ℝ) + 1) * 2 ^ q else m * 2 ^ q)| =
      (if up then m + 1 else m : Nat) * 2 ^ q := by
    rw [abs_withSign _ (by split <;> positivity)]
    cases up <;> simp
  obtain ⟨n, significand, even⟩ := hasSignificand_of_le hp (q := q) (by split <;> omega) (by split <;> omega) size
  refine ⟨⟨n, significand⟩, ?nearest, ?zero, ?plus, ?minus⟩
  case nearest =>
    rintro rfl
    refine ⟨fun z hz => h.nearest hup hz, fun other => ⟨n, significand, even ?_⟩⟩
    have odd := h.tie hup other
    cases up <;> simp at odd ⊢ <;> omega
  case zero =>
    rintro rfl
    obtain ⟨stays, largest⟩ := h.toward_zero hup
    rw [stays, withSign_mul, Bool.xor_self, abs_withSign neg a0.le, abs_withSign neg (a0.le.trans hle)]
    exact ⟨mul_pos (a0.trans_le hle) a0, hle, largest⟩
  case plus => rintro rfl; exact h.toward_plus hup
  case minus => rintro rfl; exact h.toward_minus hup

end

/-! ### `roundUnbounded` -/

/-- A significand of `p` bits, or one that was rounded up to the next power of two, whose carry goes to the exponent. -/
def carried (p n : Nat) (q : ℤ) (exact : Bool) : Rounded :=
  if n = 2 ^ p then ⟨2 ^ (p - 1), q + 1, exact⟩ else ⟨n, q, exact⟩

section
variable {p mag : Nat} {rm : BitVec 2} {neg sticky : Bool} {exp : ℤ}

/-- A magnitude of at most `p` bits is normalized by a shift to the left. -/
theorem roundUnbounded_short (hm : 0 < mag) (h : mag < 2 ^ p) : ∃ k : Nat,
    roundUnbounded p rm neg mag exp sticky = ⟨mag * 2 ^ k, exp - k, !sticky⟩ ∧
      2 ^ (p - 1) ≤ mag * 2 ^ k ∧ mag * 2 ^ k < 2 ^ p := by
  have bits := (Nat.log2_lt hm.ne').2 h
  have low := Nat.log2_self_le hm.ne'
  have high : mag < 2 ^ (mag.log2 + 1) := Nat.lt_log2_self
  have shift (j : Nat) (hj : j ≤ mag.log2 + 1) : 2 ^ j * 2 ^ (p - (mag.log2 + 1)) = 2 ^ (p - (mag.log2 + 1 - j)) := by
    rw [← pow_add]; congr 1; omega
  refine ⟨p - (mag.log2 + 1), if_pos (show mag.log2 + 1 ≤ p by omega), ?_, ?_⟩
  · have := Nat.mul_le_mul_right (2 ^ (p - (mag.log2 + 1))) low
    rwa [shift _ (by omega), Nat.add_sub_cancel_left] at this
  · have := Nat.mul_lt_mul_of_pos_right high (Nat.two_pow_pos (p - (mag.log2 + 1)))
    rwa [shift _ le_rfl, Nat.sub_self] at this

/-- A magnitude of more than `p` bits is cut to `p` of them and rounded up or not; a carry out of the top moves the
exponent. -/
theorem roundUnbounded_long (hp : 0 < p) (h : 2 ^ p ≤ mag) : ∃ d m rem : Nat, mag = m * 2 ^ (d + 1) + rem ∧
    rem < 2 ^ (d + 1) ∧ 2 ^ (p - 1) ≤ m ∧ m < 2 ^ p ∧
    roundUnbounded p rm neg mag exp sticky = carried p (if roundsUp rm neg m rem (2 ^ d) sticky then m + 1 else m)
      (exp + (d + 1 : Nat)) (decide (rem = 0) && !sticky) := by
  have hm : mag ≠ 0 := ((Nat.two_pow_pos p).trans_le h).ne'
  have bits := (Nat.le_log2 hm).2 h
  have low := Nat.log2_self_le hm
  have high : mag < 2 ^ (mag.log2 + 1) := Nat.lt_log2_self
  obtain ⟨d, hd⟩ : ∃ d, mag.log2 = p + d := ⟨mag.log2 - p, by omega⟩
  refine ⟨d, mag / 2 ^ (d + 1), mag % 2 ^ (d + 1), ?_, Nat.mod_lt _ (Nat.two_pow_pos _), ?_, ?_, ?_⟩
  · rw [mul_comm, Nat.div_add_mod]
  · rw [Nat.le_div_iff_mul_le (Nat.two_pow_pos _), ← pow_add]
    rwa [hd, show p + d = p - 1 + (d + 1) by omega] at low
  · rw [Nat.div_lt_iff_lt_mul (Nat.two_pow_pos _), ← pow_add]
    rwa [hd, add_assoc] at high
  · rw [roundUnbounded, if_neg (show ¬mag.log2 + 1 ≤ p by omega), show mag.log2 + 1 - p = d + 1 by omega]
    rfl

end

/-- What `r` has to be for the rounding of the magnitude `x`: `p` bits, the rounded value, and whether that is `x`. -/
def RoundsMagnitude (p : Nat) (rm : BitVec 2) (neg : Bool) (x : ℝ) (r : Rounded) : Prop :=
  2 ^ (p - 1) ≤ r.m ∧ r.m < 2 ^ p ∧ RoundsTo p rm (withSign neg x) (withSign neg (r.m * 2 ^ r.exp)) ∧
    (r.exact = true ↔ (r.m : ℝ) * 2 ^ r.exp = x)

theorem carried_spec {p n : Nat} {q : ℤ} {exact : Bool} (hp : 0 < p) (low : 2 ^ (p - 1) ≤ n) (high : n ≤ 2 ^ p) :
    2 ^ (p - 1) ≤ (carried p n q exact).m ∧ (carried p n q exact).m < 2 ^ p ∧
      ((carried p n q exact).m : ℝ) * 2 ^ (carried p n q exact).exp = n * 2 ^ q ∧
      (carried p n q exact).exact = exact := by
  unfold carried
  split
  · next top =>
    have shift := cast_mul_two_zpow (2 ^ (p - 1)) 1 q
    rw [pow_one, Nat.two_pow_pred_mul_two hp] at shift
    exact ⟨le_rfl, Nat.pow_lt_pow_right one_lt_two (by omega), by rw [top]; exact shift.symm, rfl⟩
  · next below => exact ⟨low, lt_of_le_of_ne high below, rfl, rfl⟩

theorem roundsMagnitude_carried {p m : Nat} {q : ℤ} {x : ℝ} {rm : BitVec 2} {neg up exact : Bool} (hp : 2 ≤ p)
    (low : 2 ^ (p - 1) ≤ m) (high : m < 2 ^ p) (hle : m * 2 ^ q ≤ x) (hlt : x < (m + 1) * 2 ^ q)
    (hup : up = true ↔ GoesUp rm neg (m % 2 = 1) (m * 2 ^ q) ((m + 1) * 2 ^ q) x)
    (hexact : exact = true ↔ (m : ℝ) * 2 ^ q = x) :
    RoundsMagnitude p rm neg x (carried p (if up then m + 1 else m) q exact) := by
  obtain ⟨least, bits, value, same⟩ := carried_spec (p := p) (n := if up then m + 1 else m) (q := q) (exact := exact)
    (by omega) (by split <;> omega) (by split <;> omega)
  have rounded : ((if up then m + 1 else m : Nat) : ℝ) * 2 ^ q = if up then ((m : ℝ) + 1) * 2 ^ q else m * 2 ^ q := by
    cases up <;> simp
  refine ⟨least, bits, ?_, ?_⟩
  · rw [value, rounded]
    exact roundsTo_of_goesUp hp low high hle hlt hup
  · rw [same, value, rounded, (neighbours_numbers hp low hle hlt).exact_iff hup, hexact]

/-- `roundUnbounded` rounds the magnitude `mag`, and `θ` of a unit above it that `sticky` stands for, once. -/
theorem roundUnbounded_rounds {p : Nat} (hp : 2 ≤ p) (rm : BitVec 2) (neg : Bool) {mag : Nat} (exp : ℤ) {sticky : Bool}
    {θ : ℝ} (hm : 0 < mag) (h0 : 0 ≤ θ) (h1 : θ < 1) (hs : sticky = true ↔ 0 < θ)
    (long : sticky = true → 2 ^ p ≤ mag) :
    RoundsMagnitude p rm neg ((mag + θ) * 2 ^ exp) (roundUnbounded p rm neg mag exp sticky) := by
  rcases lt_or_ge mag (2 ^ p) with short | enough
  · obtain ⟨k, run, low, high⟩ := roundUnbounded_short (rm := rm) (neg := neg) (sticky := sticky) (exp := exp) hm short
    have unsticky : sticky = false := Bool.eq_false_iff.2 fun e => absurd (long e) (by omega)
    have θ0 : θ = 0 := le_antisymm (not_lt.1 fun e => by rw [hs.2 e] at unsticky; cases unsticky) h0
    have value : ((mag * 2 ^ k : Nat) : ℝ) * 2 ^ (exp - k) = (mag + θ) * 2 ^ exp := by
      rw [cast_mul_two_zpow, sub_add_cancel, θ0, add_zero]
    have less : ((mag * 2 ^ k : Nat) : ℝ) * 2 ^ (exp - k) < ((mag * 2 ^ k : Nat) + 1) * 2 ^ (exp - k) := by
      rw [add_mul, one_mul]
      exact lt_add_of_pos_right _ (by positivity)
    have plain : carried p (if false then mag * 2 ^ k + 1 else mag * 2 ^ k) (exp - k) true =
        ⟨mag * 2 ^ k, exp - k, true⟩ := if_neg high.ne
    rw [run, unsticky, ← value, Bool.not_false, ← plain]
    exact roundsMagnitude_carried hp low high le_rfl less
      (iff_of_false Bool.false_ne_true (not_goesUp_self less)) (iff_of_true rfl rfl)
  · obtain ⟨d, m, rem, hmag, hrem, low, high, run⟩ :=
      roundUnbounded_long (rm := rm) (neg := neg) (sticky := sticky) (exp := exp) (by omega) enough
    have c0 : (0 : ℝ) < 2 ^ exp := by positivity
    have unit : 2 * ((2 ^ d : Nat) : ℝ) * 2 ^ exp = 2 ^ (exp + (d + 1 : Nat)) := by
      have := cast_mul_two_zpow 1 (d + 1) exp
      rwa [one_mul, Nat.cast_one, one_mul, pow_succ', Nat.cast_mul, Nat.cast_two] at this
    have value : ((mag : ℝ) + θ) * 2 ^ exp = m * 2 ^ (exp + (d + 1 : Nat)) + (rem + θ) * 2 ^ exp := by
      rw [hmag, Nat.cast_add, ← cast_mul_two_zpow]
      ring
    have up := roundsUp_iff (rm := rm) (neg := neg) (m := m) (rem := rem) (half := 2 ^ d) h0 h1 hs c0
    rw [unit, ← value] at up
    have rest : 0 ≤ (rem + θ) * (2 : ℝ) ^ exp := by positivity
    have below : (rem + θ) * (2 : ℝ) ^ exp < 2 ^ (exp + (d + 1 : Nat)) := by
      have : (rem : ℝ) + 1 ≤ 2 * (2 ^ d : Nat) := by exact_mod_cast (pow_succ' 2 d) ▸ hrem
      rw [← unit]
      exact mul_lt_mul_of_pos_right (by linarith) c0
    rw [run]
    refine roundsMagnitude_carried hp low high (by linarith) (by linarith) up ?_
    have whole : (rem : ℝ) + θ = 0 ↔ rem = 0 ∧ θ = 0 := by
      rw [add_eq_zero_iff_of_nonneg (Nat.cast_nonneg _) h0, Nat.cast_eq_zero]
    have unsticky : sticky = false ↔ θ = 0 := by
      rw [← Bool.not_eq_true, hs, not_lt]
      exact ⟨fun h => le_antisymm h h0, fun h => h.le⟩
    rw [value, left_eq_add, mul_eq_zero_iff_right c0.ne', whole, ← unsticky, Bool.and_eq_true, decide_eq_true_eq,
      Bool.not_eq_true']

end Sys2Proof.Machine
end

section
/-! SUPPORT. The delivery of an exact nonzero result (46_fpu R527): rounded once, then overflow, underflow or the
number. -/

namespace Sys2Proof.Machine

section
variable {f : FpFmt} (hf : f.Legal) {fcsr : Word} {neg sticky : Bool} {mag m : Nat} {exp q : ℤ}

/-- The biased exponent a rounded magnitude would have. -/
def FpFmt.biasedOf (f : FpFmt) (q : ℤ) : ℤ := q + ((f.p : ℤ) - 1) + (f.bias : ℤ)

/-- The rounded magnitude `deliver` looks at. -/
def FpFmt.rounded (f : FpFmt) (fcsr : Word) (neg : Bool) (mag : Nat) (exp : ℤ) (sticky : Bool) : Rounded :=
  roundUnbounded f.p (fcsrRm fcsr) neg mag exp sticky

/-! ### The three outcomes -/

theorem deliver_overflow (h : ((2 ^ f.ew - 1 : Nat) : ℤ) ≤ f.biasedOf (f.rounded fcsr neg mag exp sticky).exp) :
    f.deliver fcsr neg mag exp sticky = ⟨{ overflow := true, inexact := true }, f.overflowed (fcsrRm fcsr) neg⟩ :=
  if_pos h

include hf in
theorem deliver_small (h : f.biasedOf (f.rounded fcsr neg mag exp sticky).exp ≤ 0) :
    f.deliver fcsr neg mag exp sticky = if bit fcsr 8 || bit fcsr 7 || !fcsrFs fcsr then .unimplemented
      else ⟨{ underflow := true, inexact := true }, f.flushed (fcsrRm fcsr) neg⟩ :=
  (if_neg (not_le.2 (h.trans_lt (by rw [hf.largest]; omega)))).trans (if_pos h)

theorem deliver_number (high : f.biasedOf (f.rounded fcsr neg mag exp sticky).exp < (2 ^ f.ew - 1 : Nat))
    (low : 0 < f.biasedOf (f.rounded fcsr neg mag exp sticky).exp) :
    f.deliver fcsr neg mag exp sticky = ⟨{ inexact := !(f.rounded fcsr neg mag exp sticky).exact },
      f.pack neg (f.biasedOf (f.rounded fcsr neg mag exp sticky).exp).toNat
        ((f.rounded fcsr neg mag exp sticky).m - 2 ^ (f.p - 1))⟩ :=
  (if_neg (not_le.2 high)).trans (if_neg (not_le.2 low))

/-! ### The range of the format -/

/-- The largest finite value. -/
noncomputable def FpFmt.maxFinite (f : FpFmt) : ℝ := ((2 : ℝ) ^ f.p - 1) * (2 : ℝ) ^ ((f.bias : ℤ) - f.p + 1)

/-- The smallest normalized value. -/
noncomputable def FpFmt.minNormal (f : FpFmt) : ℝ := (2 : ℝ) ^ (1 - (f.bias : ℤ))

include hf

/-- A magnitude of `p` bits lies between two powers of two. -/
theorem magnitude_bounds (low : 2 ^ (f.p - 1) ≤ m) (high : m < 2 ^ f.p) (q : ℤ) :
    (2 : ℝ) ^ (q + ((f.p : ℤ) - 1)) ≤ m * 2 ^ q ∧ (m : ℝ) * 2 ^ q < 2 ^ (q + f.p) ∧ (m : ℝ) ≤ 2 ^ f.p - 1 := by
  have hp := hf.precision
  have low' : ((2 ^ (f.p - 1) : Nat) : ℝ) ≤ m := Nat.cast_le.2 low
  have high' : (m : ℝ) + 1 ≤ (2 ^ f.p : Nat) := by exact_mod_cast high
  have bottom := cast_mul_two_zpow 1 (f.p - 1) q
  have top := cast_mul_two_zpow 1 f.p q
  rw [one_mul, Nat.cast_one, one_mul] at bottom top
  have unit : (0 : ℝ) < 2 ^ q := by positivity
  rw [show (f.p : ℤ) - 1 = (f.p - 1 : Nat) by omega, ← bottom, ← top]
  refine ⟨mul_le_mul_of_nonneg_right low' unit.le, mul_lt_mul_of_pos_right (by linarith) unit, ?_⟩
  push_cast at high'
  linarith

/-- The rounded magnitude is too large where its biased exponent is. -/
theorem maxFinite_lt_iff (low : 2 ^ (f.p - 1) ≤ m) (high : m < 2 ^ f.p) :
    f.maxFinite < m * 2 ^ q ↔ ((2 ^ f.ew - 1 : Nat) : ℤ) ≤ f.biasedOf q := by
  obtain ⟨bottom, top, digits⟩ := magnitude_bounds hf low high q
  rw [hf.largest, FpFmt.biasedOf, FpFmt.maxFinite]
  constructor
  · intro h
    by_contra small
    have := zpow_le_zpow_right₀ (one_le_two (α := ℝ)) (show q ≤ f.bias - f.p + 1 by push_cast at small; omega)
    exact absurd h (not_lt.2 (mul_le_mul digits this (by positivity) ((Nat.cast_nonneg m).trans digits)))
  · intro h
    have grow := zpow_le_zpow_right₀ (one_le_two (α := ℝ))
      (show (f.bias : ℤ) - f.p + 1 + f.p ≤ q + ((f.p : ℤ) - 1) by push_cast at h; omega)
    rw [zpow_add₀ two_ne_zero, zpow_natCast] at grow
    have unit : (0 : ℝ) < 2 ^ ((f.bias : ℤ) - f.p + 1) := by positivity
    linarith

/-- The rounded magnitude is too small where its biased exponent is. -/
theorem lt_minNormal_iff (low : 2 ^ (f.p - 1) ≤ m) (high : m < 2 ^ f.p) :
    m * 2 ^ q < f.minNormal ↔ f.biasedOf q ≤ 0 := by
  obtain ⟨bottom, top, _⟩ := magnitude_bounds hf low high q
  rw [FpFmt.biasedOf, FpFmt.minNormal]
  constructor
  · intro h
    have := (zpow_lt_zpow_iff_right₀ (one_lt_two (α := ℝ))).1 (bottom.trans_lt h)
    omega
  · intro h
    exact top.trans_le (zpow_le_zpow_right₀ one_le_two (by omega))

/-- The number a rounded magnitude in range is packed to. -/
theorem unpack_pack_rounded (low : 2 ^ (f.p - 1) ≤ m) (high : m < 2 ^ f.p) (hlow : 0 < f.biasedOf q)
    (hhigh : f.biasedOf q < (2 ^ f.ew - 1 : Nat)) :
    (f.unpack (f.pack neg (f.biasedOf q).toNat (m - 2 ^ (f.p - 1)))).cls = .normal ∧
      (f.unpack (f.pack neg (f.biasedOf q).toNat (m - 2 ^ (f.p - 1)))).toReal = withSign neg (m * 2 ^ q) := by
  have double := Nat.two_pow_pred_mul_two (show 0 < f.p by have := hf.precision; omega)
  have back : ((f.biasedOf q).toNat : ℤ) - f.bias - ((f.p : ℤ) - 1) = q := by
    rw [Int.toNat_of_nonneg hlow.le, FpFmt.biasedOf]; ring
  rw [unpack_pack_normal hf neg (by omega) (by omega) (by omega), toReal_eq_withSign, back,
    Nat.add_sub_cancel' low]
  exact ⟨rfl, rfl⟩

/-- `deliver` gives what the rules ask for the value `mag + θ` of units of `2 ^ exp`. -/
theorem deliver_delivers {θ : ℝ} (hm : 0 < mag) (h0 : 0 ≤ θ) (h1 : θ < 1) (hs : sticky = true ↔ 0 < θ)
    (long : sticky = true → 2 ^ f.p ≤ mag) :
    Delivers f fcsr (withSign neg ((mag + θ) * 2 ^ exp)) (f.deliver fcsr neg mag exp sticky) := by
  have rounding : RoundsMagnitude f.p (fcsrRm fcsr) neg ((mag + θ) * 2 ^ exp) (f.rounded fcsr neg mag exp sticky) :=
    roundUnbounded_rounds hf.precision (fcsrRm fcsr) neg exp hm h0 h1 hs long
  obtain ⟨low, high, rounds, keeps⟩ := rounding
  have x0 : 0 < (mag + θ) * (2 : ℝ) ^ exp := by
    have : (0 : ℝ) < mag := Nat.cast_pos.2 hm
    positivity
  have y0 : 0 ≤ ((f.rounded fcsr neg mag exp sticky).m : ℝ) * 2 ^ (f.rounded fcsr neg mag exp sticky).exp := by
    positivity
  have tooLarge := maxFinite_lt_iff hf (q := (f.rounded fcsr neg mag exp sticky).exp) low high
  have tooSmall := lt_minNormal_iff hf (q := (f.rounded fcsr neg mag exp sticky).exp) low high
  have positive := withSign_pos_iff (neg := neg) x0
  have negative := withSign_neg_iff (neg := neg) x0
  refine ⟨_, rounds, ?_⟩
  intro maxFinite minNormal
  rw [abs_withSign neg y0]
  refine ⟨fun large => ?overflow, fun small traps => ?unimplemented, fun small h8 h7 h24 => ?underflow,
    fun low' high' => ?number⟩
  case overflow =>
    rw [deliver_overflow (tooLarge.1 large)]
    exact ⟨rfl, fun h => positive.1 h ▸ rfl, fun h => negative.1 h ▸ rfl⟩
  case unimplemented =>
    rw [deliver_small hf (tooSmall.1 small)]
    refine if_pos ?_
    rcases traps with h | h | h <;> simp [bit, fcsrFs, h, -BitVec.getLsbD_eq_getElem]
  case underflow =>
    have quiet : ¬(bit fcsr 8 || bit fcsr 7 || !fcsrFs fcsr) = true := by
      simp [bit, fcsrFs, h8, h7, h24, -BitVec.getLsbD_eq_getElem]
    rw [deliver_small hf (tooSmall.1 small), if_neg quiet]
    exact ⟨rfl, fun h => positive.1 h ▸ rfl, fun h => negative.1 h ▸ rfl⟩
  case number =>
    have below := lt_of_not_ge fun h => absurd (tooLarge.2 h) (not_lt.2 high')
    have above := lt_of_not_ge fun h => absurd (tooSmall.2 h) (not_lt.2 low')
    rw [deliver_number below above]
    refine ⟨⟨_, ?_, rfl⟩, unpack_pack_rounded hf low high above below⟩
    rw [Bool.not_eq_true', ← Bool.not_eq_true, ne_eq, withSign_inj]
    exact not_congr keeps

end

end Sys2Proof.Machine
end

section
/-! SUPPORT. The operations on finite operands (46_fpu R540 to R548, R582, R583, 47_fpu_ps R655): what is delivered is
the exact value, once the operands have passed the screening (46_fpu R529). -/

namespace Sys2Proof.Machine

/-! ### The screening -/

/-- An operand that is left to software. -/
def FpVal.Soft (v : FpVal) : Prop := v.cls = .denormal ∨ v.cls = .qnan

/-- A finite operand the arithmetic takes. -/
def FpVal.Finite (v : FpVal) : Prop := v.cls = .zero ∨ v.cls = .normal

section
variable {f : FpFmt} {vs : List FpVal} {k : FpOut}

theorem screen_soft (h : ∃ v ∈ vs, v.Soft) : f.screen vs k = .unimplemented :=
  if_pos (by simpa [FpVal.Soft] using h)

theorem screen_snan (h : ∀ v ∈ vs, ¬v.Soft) (h' : ∃ v ∈ vs, v.cls = .snan) :
    f.screen vs k = .invalid f.defaultNan := by
  have notSoft : ¬(vs.any fun v => v.cls = .denormal || v.cls = .qnan) = true := by simpa [FpVal.Soft] using h
  exact (if_neg notSoft).trans (if_pos (by simpa [FpVal.isSnan] using h'))

/-- Operands that are finite or infinite pass. -/
theorem screen_pass (h : ∀ v ∈ vs, v.Finite ∨ v.cls = .inf) : f.screen vs k = k := by
  have notSoft : ¬(vs.any fun v => v.cls = .denormal || v.cls = .qnan) = true := by
    simp only [List.any_eq_true, not_exists, not_and]
    intro v hv
    rcases h v hv with (e | e) | e <;> simp [e]
  have notNan : ¬vs.any FpVal.isSnan = true := by
    simp only [List.any_eq_true, not_exists, not_and, FpVal.isSnan]
    intro v hv
    rcases h v hv with (e | e) | e <;> simp [e]
  exact (if_neg notSoft).trans (if_neg notNan)

theorem FpVal.Finite.isInf {v : FpVal} (h : v.Finite) : v.isInf = false := by
  rcases h with h | h <;> simp [FpVal.isInf, h]

theorem isZero_of_normal {v : FpVal} (h : v.cls = .normal) : v.isZero = false := by simp [FpVal.isZero, h]

end

/-! ### What the operations compute -/

section
variable {f g : FpFmt} (hf : f.Legal) {c : Word} {a b d : DWord}

theorem add_finite (ha : (f.unpack a).Finite) (hb : (f.unpack b).Finite) : f.add c a b =
    f.sum c (f.unpack a).neg (f.unpack a).mag (f.unpack a).exp (f.unpack b).neg (f.unpack b).mag (f.unpack b).exp := by
  rw [FpFmt.add, FpFmt.addVals, screen_pass (by simp [ha, hb]), ha.isInf, hb.isInf]
  rfl

theorem sub_finite (ha : (f.unpack a).Finite) (hb : (f.unpack b).Finite) : f.sub c a b =
    f.sum c (f.unpack a).neg (f.unpack a).mag (f.unpack a).exp (!(f.unpack b).neg) (f.unpack b).mag
      (f.unpack b).exp := by
  have hb' : FpVal.Finite { f.unpack b with neg := !(f.unpack b).neg } := hb
  simp only [FpFmt.sub]
  rw [FpFmt.addVals, screen_pass (by simp [ha, hb']), ha.isInf, hb'.isInf]
  rfl

theorem mul_normal (ha : (f.unpack a).cls = .normal) (hb : (f.unpack b).cls = .normal) : f.mul c a b =
    f.deliver c ((f.unpack a).neg ^^ (f.unpack b).neg) ((f.unpack a).mag * (f.unpack b).mag)
      ((f.unpack a).exp + (f.unpack b).exp) false := by
  simp only [FpFmt.mul]
  rw [screen_pass (by simp [FpVal.Finite, ha, hb])]
  simp [FpVal.isInf, FpVal.isZero, ha, hb]

theorem div_normal (ha : (f.unpack a).cls = .normal) (hb : (f.unpack b).cls = .normal) : f.div c a b =
    f.deliver c ((f.unpack a).neg ^^ (f.unpack b).neg) ((f.unpack a).mag * 2 ^ (f.p + 3) / (f.unpack b).mag)
      ((f.unpack a).exp - (f.unpack b).exp - (f.p + 3 : Nat))
      ((f.unpack a).mag * 2 ^ (f.p + 3) % (f.unpack b).mag ≠ 0) := by
  simp only [FpFmt.div]
  rw [screen_pass (by simp [FpVal.Finite, ha, hb])]
  simp [FpVal.isInf, FpVal.isZero, ha, hb]

theorem convert_normal (ha : (f.unpack a).cls = .normal) : f.convert g c a =
    g.deliver c (f.unpack a).neg (f.unpack a).mag (f.unpack a).exp false := by
  simp only [FpFmt.convert]
  rw [screen_pass (by simp [FpVal.Finite, ha])]
  simp [FpVal.isInf, FpVal.isZero, ha]

theorem madd_finite {sub : Bool} (hd : (f.unpack d).Finite) (ha : (f.unpack a).Finite) (hb : (f.unpack b).Finite) :
    f.madd c sub false d a b = f.sum c ((f.unpack a).neg ^^ (f.unpack b).neg) ((f.unpack a).mag * (f.unpack b).mag)
      ((f.unpack a).exp + (f.unpack b).exp) ((f.unpack d).neg ^^ sub) (f.unpack d).mag (f.unpack d).exp := by
  simp only [FpFmt.madd]
  rw [screen_pass (by simp [hd, ha, hb]), ha.isInf, hb.isInf, hd.isInf]
  simp

/-! ### Exact values -/

theorem toReal_of_zero (hf : f.Legal) (h : (f.unpack a).cls = .zero) : (f.unpack a).toReal = 0 := by
  rw [toReal_eq_withSign, mag_of_zero hf h, Nat.cast_zero, zero_mul]
  cases (f.unpack a).neg <;> simp

theorem mag_pos_of_normal (hf : f.Legal) (h : (f.unpack a).cls = .normal) : 0 < (f.unpack a).mag :=
  (Nat.two_pow_pos _).trans_le (mag_of_normal hf h).1

theorem withSign_ne_zero {neg : Bool} {x : ℝ} (h : 0 < x) : withSign neg x ≠ 0 := by
  cases neg <;> simp [h.ne']

theorem toReal_ne_zero (hf : f.Legal) (h : (f.unpack a).cls = .normal) : (f.unpack a).toReal ≠ 0 := by
  have : (0 : ℝ) < (f.unpack a).mag := Nat.cast_pos.2 (mag_pos_of_normal hf h)
  rw [toReal_eq_withSign]
  exact withSign_ne_zero (by positivity)

/-- The product of two values by their magnitudes. -/
theorem toReal_mul (u v : FpVal) :
    u.toReal * v.toReal = withSign (u.neg ^^ v.neg) ((u.mag * v.mag : Nat) * (2 : ℝ) ^ (u.exp + v.exp)) := by
  rw [toReal_eq_withSign, toReal_eq_withSign, withSign_mul, zpow_add₀ two_ne_zero, Nat.cast_mul]
  congr 1
  ring

include hf

/-- Delivery of a magnitude that is exact. -/
theorem deliver_exact {neg : Bool} {mag : Nat} {exp : ℤ} (hm : 0 < mag) :
    Delivers f c (withSign neg (mag * 2 ^ exp)) (f.deliver c neg mag exp false) := by
  have := deliver_delivers hf (fcsr := c) (neg := neg) (sticky := false) (exp := exp) hm (le_refl 0) one_pos (by simp)
    (fun h => absurd h Bool.false_ne_true)
  rwa [add_zero] at this

omit hf in
/-- A magnitude brought to a lower exponent. -/
theorem cast_mul_pow2 (m : Nat) {e l : ℤ} (h : l ≤ e) : ((m * pow2 (e - l) : Nat) : ℝ) * 2 ^ l = m * 2 ^ e := by
  rw [pow2, cast_mul_two_zpow, Int.toNat_of_nonneg (by omega), add_sub_cancel]

omit hf in
theorem intCast_mul_eq_withSign (n : ℤ) (y : ℝ) : (n : ℝ) * y = withSign (n < 0) (n.natAbs * y) := by
  rw [Nat.cast_natAbs, Int.cast_abs]
  by_cases h : n < 0
  · rw [decide_eq_true h, withSign_true, abs_of_neg (Int.cast_lt_zero.2 h), neg_mul, neg_neg]
  · rw [decide_eq_false h, withSign_false, abs_of_nonneg (Int.cast_nonneg (not_lt.1 h))]

/-- A sum, exact at the lower of the two exponents. -/
theorem sum_delivers {na nb : Bool} {ma mb : Nat} {ea eb : ℤ} {x : ℝ}
    (hx : x = withSign na (ma * 2 ^ ea) + withSign nb (mb * 2 ^ eb)) :
    (x ≠ 0 → Delivers f c x (f.sum c na ma ea nb mb eb)) ∧
      (x = 0 → f.sum c na ma ea nb mb eb = .exact (f.zeroOf (if na = nb then na else fcsrRm c = 3))) := by
  let l := min ea eb
  let n : ℤ := intWithSign na (ma * pow2 (ea - l)) + intWithSign nb (mb * pow2 (eb - l))
  have run : f.sum c na ma ea nb mb eb = if n = 0 then .exact (f.zeroOf (if na = nb then na else fcsrRm c = 3))
      else f.deliver c (n < 0) n.natAbs l false := rfl
  have unit : (0 : ℝ) < 2 ^ l := by positivity
  have value : x = n * 2 ^ l := by
    have scale (neg : Bool) (y : ℝ) : withSign neg y * 2 ^ l = withSign neg (y * 2 ^ l) := by cases neg <;> simp
    rw [hx, Int.cast_add, cast_intWithSign, cast_intWithSign, add_mul, scale, scale,
      cast_mul_pow2 ma (min_le_left ea eb), cast_mul_pow2 mb (min_le_right ea eb)]
  have zero : x = 0 ↔ n = 0 := by rw [value, mul_eq_zero_iff_right unit.ne', Int.cast_eq_zero]
  refine ⟨fun nonzero => ?_, fun h => run.trans (if_pos (zero.1 h))⟩
  have hn : n ≠ 0 := mt zero.2 nonzero
  have signed : x = withSign (n < 0) (n.natAbs * 2 ^ l) := by
    rw [value]
    exact intCast_mul_eq_withSign n _
  rw [run, if_neg hn, signed]
  exact deliver_exact hf (Int.natAbs_pos.2 hn)

/-- A sum of two magnitudes that are not zero is zero for opposite signs alone. -/
theorem sum_delivers_of_pos {na nb : Bool} {ma mb : Nat} {ea eb : ℤ} {x : ℝ} (ha : 0 < ma) (hb : 0 < mb)
    (hx : x = withSign na (ma * 2 ^ ea) + withSign nb (mb * 2 ^ eb)) :
    (x ≠ 0 → Delivers f c x (f.sum c na ma ea nb mb eb)) ∧
      (x = 0 → f.sum c na ma ea nb mb eb = .exact (f.zeroOf (fcsrRm c = 3))) := by
  obtain ⟨nonzero, zero⟩ := sum_delivers hf (c := c) hx
  refine ⟨nonzero, fun h => ?_⟩
  have opposite : na ≠ nb := by
    rintro rfl
    have : (0 : ℝ) < ma := Nat.cast_pos.2 ha
    have : (0 : ℝ) < mb := Nat.cast_pos.2 hb
    have together : withSign na (ma * 2 ^ ea) + withSign na (mb * 2 ^ eb) =
        withSign na ((ma : ℝ) * 2 ^ ea + mb * 2 ^ eb) := by cases na <;> simp [add_comm]
    exact withSign_ne_zero (by positivity) ((hx.trans together).symm.trans h)
  rw [zero h, if_neg opposite]

/-- A quotient: the integer quotient of enough bits, and what is left of the division as the part below. -/
theorem div_delivers (ha : (f.unpack a).cls = .normal) (hb : (f.unpack b).cls = .normal) :
    Delivers f c ((f.unpack a).toReal / (f.unpack b).toReal) (f.div c a b) := by
  obtain ⟨lowA, _⟩ := mag_of_normal hf ha
  obtain ⟨_, highB⟩ := mag_of_normal hf hb
  have posB := mag_pos_of_normal hf hb
  rw [div_normal ha hb, toReal_eq_withSign, toReal_eq_withSign, withSign_div]
  generalize (f.unpack a).mag = m at *
  generalize (f.unpack b).mag = n at *
  have n0 : (0 : ℝ) < n := Nat.cast_pos.2 posB
  have long : 2 ^ f.p ≤ m * 2 ^ (f.p + 3) / n := by
    rw [Nat.le_div_iff_mul_le posB]
    calc 2 ^ f.p * n ≤ 2 ^ f.p * 2 ^ f.p := Nat.mul_le_mul_left _ highB.le
      _ ≤ 2 ^ (f.p - 1) * 2 ^ (f.p + 3) := by
        rw [← pow_add, ← pow_add]; exact Nat.pow_le_pow_right two_pos (by have := hf.precision; omega)
      _ ≤ m * 2 ^ (f.p + 3) := Nat.mul_le_mul_right _ lowA
  have whole : (m : ℝ) * 2 ^ (f.p + 3) = n * (m * 2 ^ (f.p + 3) / n : Nat) + (m * 2 ^ (f.p + 3) % n : Nat) := by
    exact_mod_cast (Nat.div_add_mod (m * 2 ^ (f.p + 3)) n).symm
  have value : (m : ℝ) * 2 ^ (f.unpack a).exp / (n * 2 ^ (f.unpack b).exp) =
      ((m * 2 ^ (f.p + 3) / n : Nat) + (m * 2 ^ (f.p + 3) % n : Nat) / n) *
        2 ^ ((f.unpack a).exp - (f.unpack b).exp - (f.p + 3 : Nat)) := by
    rw [zpow_sub₀ two_ne_zero, zpow_sub₀ two_ne_zero, zpow_natCast]
    field_simp
    linear_combination whole
  rw [value]
  refine deliver_delivers hf ((Nat.two_pow_pos _).trans_le long) (by positivity) ?_ ?_ fun _ => long
  · rw [div_lt_one n0]
    exact_mod_cast Nat.mod_lt _ posB
  · rw [div_pos_iff_of_pos_right n0, Nat.cast_pos, Nat.pos_iff_ne_zero]
    exact decide_eq_true_iff

end

/-! ### The square root -/

/-- `isqrt` finds the integer square root among the `2 ^ k` candidates from `r` on. -/
theorem isqrt_spec (n k : Nat) : ∀ r : Nat, r * r ≤ n → n < (r + 2 ^ k) * (r + 2 ^ k) →
    isqrt n k r * isqrt n k r ≤ n ∧ n < (isqrt n k r + 1) * (isqrt n k r + 1) := by
  induction k with
  | zero => exact fun r low high => ⟨low, high⟩
  | succ k ih =>
    intro r low high
    rw [isqrt]
    split
    · next fits => exact ih _ fits (by rwa [add_assoc, ← Nat.two_mul, ← pow_succ'])
    · next large => exact ih r low (not_le.1 large)

section
variable {f : FpFmt} (hf : f.Legal) {c : Word} {a : DWord}
include hf

omit hf in
theorem sqrt_normal (ha : (f.unpack a).cls = .normal) (pos : (f.unpack a).neg = false) {k : Nat}
    (hk : (f.p : ℤ) + 4 + ((f.unpack a).exp - f.p) % 2 = k) : f.sqrt c a =
      f.deliver c false (isqrt ((f.unpack a).mag * 2 ^ k) (f.p + 4) 0) (((f.unpack a).exp - k) / 2)
        (isqrt ((f.unpack a).mag * 2 ^ k) (f.p + 4) 0 * isqrt ((f.unpack a).mag * 2 ^ k) (f.p + 4) 0 ≠
          (f.unpack a).mag * 2 ^ k) := by
  simp only [FpFmt.sqrt]
  rw [screen_pass (by simp [FpVal.Finite, ha]), hk]
  rw [isZero_of_normal ha, pos, FpVal.Finite.isInf (.inr ha)]
  rfl

/-- A square root: the integer root of enough bits, and what is left as the part below. -/
theorem sqrt_delivers (ha : (f.unpack a).cls = .normal) (pos : (f.unpack a).neg = false) :
    Delivers f c √(f.unpack a).toReal (f.sqrt c a) := by
  obtain ⟨low, high⟩ := mag_of_normal hf ha
  have hp := hf.precision
  obtain ⟨k, hk⟩ : ∃ k : Nat, (f.p : ℤ) + 4 + ((f.unpack a).exp - f.p) % 2 = k :=
    ⟨(f.p + 4 + ((f.unpack a).exp - f.p) % 2).toNat, by omega⟩
  rw [sqrt_normal ha pos hk, toReal_eq_withSign, pos, withSign_false]
  have even : (f.unpack a).exp = k + 2 * (((f.unpack a).exp - k) / 2) := by omega
  generalize ((f.unpack a).exp - k) / 2 = h at *
  generalize hn : (f.unpack a).mag * 2 ^ k = n
  have nLow : 2 ^ (f.p + 1) * 2 ^ (f.p + 1) ≤ n := by
    rw [← hn]
    calc 2 ^ (f.p + 1) * 2 ^ (f.p + 1) ≤ 2 ^ (f.p - 1) * 2 ^ k := by
          rw [← pow_add, ← pow_add]; exact Nat.pow_le_pow_right two_pos (by omega)
      _ ≤ (f.unpack a).mag * 2 ^ k := Nat.mul_le_mul_right _ low
  have nHigh : n < (0 + 2 ^ (f.p + 4)) * (0 + 2 ^ (f.p + 4)) := by
    rw [← hn, zero_add]
    calc (f.unpack a).mag * 2 ^ k < 2 ^ f.p * 2 ^ k := Nat.mul_lt_mul_of_pos_right high (Nat.two_pow_pos k)
      _ ≤ 2 ^ (f.p + 4) * 2 ^ (f.p + 4) := by
        rw [← pow_add, ← pow_add]; exact Nat.pow_le_pow_right two_pos (by omega)
  obtain ⟨below, above⟩ := isqrt_spec n (f.p + 4) 0 (Nat.zero_le n) nHigh
  generalize isqrt n (f.p + 4) 0 = r at *
  have long : 2 ^ f.p ≤ r := by
    have : 2 ^ (f.p + 1) < r + 1 := Nat.mul_self_lt_mul_self_iff.1 (nLow.trans_lt above)
    have := Nat.pow_le_pow_right two_pos (show f.p ≤ f.p + 1 by omega)
    omega
  have root : √((f.unpack a).mag * (2 : ℝ) ^ (f.unpack a).exp) = (r + (√n - r)) * 2 ^ h := by
    have unit : (0 : ℝ) ≤ 2 ^ h := by positivity
    have square : ((f.unpack a).mag : ℝ) * 2 ^ (f.unpack a).exp = n * ((2 : ℝ) ^ h) ^ 2 := by
      rw [even, ← hn, zpow_add₀ two_ne_zero, zpow_natCast, mul_comm 2 h, zpow_mul, Nat.cast_mul, Nat.cast_pow,
        Nat.cast_ofNat, ← mul_assoc]
      rfl
    rw [square, Real.sqrt_mul (Nat.cast_nonneg n), Real.sqrt_sq unit, add_sub_cancel]
  have rootLow : (r : ℝ) ≤ √n := Real.le_sqrt_of_sq_le (by rw [sq]; exact_mod_cast below)
  have rootHigh : √(n : ℝ) < r + 1 := (Real.sqrt_lt' (by positivity)).2 (by rw [sq]; exact_mod_cast above)
  rw [root]
  have delivered := deliver_delivers hf (fcsr := c) (neg := false) (sticky := r * r ≠ n) (exp := h) (mag := r)
    ((Nat.two_pow_pos _).trans_le long) (sub_nonneg.2 rootLow) (by linarith) ?_ fun _ => long
  · exact delivered
  rw [decide_eq_true_iff, sub_pos, lt_iff_le_and_ne, and_iff_right rootLow]
  refine not_congr ?_
  rw [eq_comm (a := (r : ℝ)), Real.sqrt_eq_iff_mul_self_eq (Nat.cast_nonneg n) (Nat.cast_nonneg r)]
  rw [← Nat.cast_mul, Nat.cast_inj, eq_comm]

/-- An integer that is not zero. -/
theorem fromInt_delivers {n : ℤ} (hn : n ≠ 0) : Delivers f c n (f.fromInt c n) := by
  have run : f.fromInt c n = f.deliver c (n < 0) n.natAbs 0 false := if_neg hn
  have value := intCast_mul_eq_withSign n (2 ^ (0 : ℤ))
  rw [zpow_zero, mul_one, mul_one] at value
  rw [run, value]
  have := deliver_exact hf (c := c) (neg := n < 0) (exp := 0) (Int.natAbs_pos.2 hn)
  rwa [zpow_zero, mul_one] at this

end

/-- Settles O53: sums, differences and multiply-adds by `sum_delivers_of_pos`, the other operations by what each
delivers. -/
theorem fpResultsAreExactValuesRoundedOnce : Obligations.FpResultsAreExactValuesRoundedOnce := by
  intro f mem c a b d u v w x y z delivers
  have hf := FpFmt.legal mem
  refine ⟨fun hu hv => ⟨?add, ?sub, ?mul, ⟨fun _ => div_delivers hf hu hv, ?div⟩, fun hw => ?fused⟩,
    fun hu => ⟨sqrt_delivers hf hu, ?convert⟩, fun n hn => fromInt_delivers hf hn⟩
  case add =>
    rw [add_finite (.inr hu) (.inr hv)]
    exact sum_delivers_of_pos hf (mag_pos_of_normal hf hu) (mag_pos_of_normal hf hv)
      (congrArg₂ (· + ·) (toReal_eq_withSign u) (toReal_eq_withSign v))
  case sub =>
    rw [sub_finite (.inr hu) (.inr hv)]
    refine sum_delivers_of_pos hf (mag_pos_of_normal hf hu) (mag_pos_of_normal hf hv) ?_
    rw [← neg_withSign, ← sub_eq_add_neg]
    exact congrArg₂ (· - ·) (toReal_eq_withSign u) (toReal_eq_withSign v)
  case mul =>
    refine ⟨fun _ => ?_, fun zero => absurd zero (mul_ne_zero (toReal_ne_zero hf hu) (toReal_ne_zero hf hv))⟩
    rw [mul_normal hu hv, show x * y = _ from toReal_mul u v]
    exact deliver_exact hf (Nat.mul_pos (mag_pos_of_normal hf hu) (mag_pos_of_normal hf hv))
  case div => exact fun zero => absurd zero (div_ne_zero (toReal_ne_zero hf hu) (toReal_ne_zero hf hv))
  case fused =>
    have sum {t : Bool} {e : ℝ} (value : e = x * y + withSign t (w.mag * 2 ^ w.exp)) :=
      sum_delivers_of_pos hf (c := c) (Nat.mul_pos (mag_pos_of_normal hf hu) (mag_pos_of_normal hf hv))
        (mag_pos_of_normal hf hw) (value.trans (congrArg (· + _) (toReal_mul u v)))
    rw [madd_finite (.inr hw) (.inr hu) (.inr hv), madd_finite (.inr hw) (.inr hu) (.inr hv), Bool.xor_false,
      Bool.xor_true]
    refine ⟨sum (congrArg (x * y + ·) (toReal_eq_withSign w)), sum ?_⟩
    rw [← neg_withSign, ← toReal_eq_withSign, ← sub_eq_add_neg]
  case convert =>
    intro g memG
    rw [convert_normal hu, show x = _ from toReal_eq_withSign u]
    exact deliver_exact (FpFmt.legal memG) (mag_pos_of_normal hf hu)

end Sys2Proof.Machine
end

section
/-! SUPPORT. The formats and the operands arithmetic does not take as they are (46_fpu R523 to R529): the class of a
pattern from its fields, the screening of every operation, infinities and zeros. -/

namespace Sys2Proof.Machine

/-! ### Fields of patterns -/

section
variable {f : FpFmt} (hf : f.Legal) (x : DWord)
include hf

theorem biased_eq_field : f.biased x = (x.extractLsb' (f.p - 1) f.ew).toNat := by
  rw [BitVec.extractLsb'_toNat, Nat.shiftRight_eq_div_pow, FpFmt.biased, FpFmt.bits,
    show f.p + f.ew = (f.p - 1) + (f.ew + 1) by have := hf.precision; omega, pow_add, Nat.mod_mul_right_div_self,
    Nat.mod_mod_of_dvd _ (Nat.pow_dvd_pow 2 f.ew.le_succ)]

omit hf in
theorem fraction_eq_field : f.fraction x = (x.extractLsb' 0 (f.p - 1)).toNat := by
  rw [BitVec.extractLsb'_toNat, Nat.shiftRight_zero, FpFmt.fraction, FpFmt.bits,
    Nat.mod_mod_of_dvd _ (Nat.pow_dvd_pow 2 (by omega))]

/-- The sign of a pattern is its top bit. -/
theorem unpack_neg_eq_bit : (f.unpack x).neg = x.getLsbD (f.p + f.ew - 1) := by
  have top := BitVec.msb_eq_decide (x.setWidth (f.p + f.ew))
  rw [BitVec.toNat_setWidth, BitVec.msb_eq_getLsbD_last, BitVec.getLsbD_setWidth] at top
  rw [unpack_neg, FpFmt.bits, ← top]
  simp [show f.p + f.ew - 1 < f.p + f.ew by have := hf.precision; omega]

/-- The class of a pattern by its exponent and fraction; a NaN is signaling where the fraction's top bit is set. -/
theorem unpack_cls_eq_fields : (f.unpack x).cls =
    let e := x.extractLsb' (f.p - 1) f.ew; let g := x.extractLsb' 0 (f.p - 1)
    if e = BitVec.allOnes f.ew then (if g = 0 then .inf else if g.getLsbD (f.p - 2) then .snan else .qnan)
    else if e = 0 then (if g = 0 then .zero else .denormal) else .normal := by
  extract_lets e g
  have all : e = BitVec.allOnes f.ew ↔ e.toNat = 2 ^ f.ew - 1 := by rw [← BitVec.toNat_inj, BitVec.toNat_allOnes]
  have none {w : Nat} (v : BitVec w) : v = 0 ↔ v.toNat = 0 := by rw [← BitVec.toNat_inj]; rfl
  have top : g.getLsbD (f.p - 2) = true ↔ 2 ^ (f.p - 2) ≤ g.toNat := by
    have := BitVec.msb_eq_decide g
    rw [BitVec.msb_eq_getLsbD_last] at this
    exact (iff_of_eq (congrArg (· = true) this)).trans decide_eq_true_iff
  rw [unpack_cls, biased_eq_field hf, fraction_eq_field, FpFmt.classOf]
  simp only [all, none, top]
  rfl

end

/-! ### The operations as screenings -/

section
variable {f g : FpFmt} {c : Word} {a b d : DWord} {r : FpOut}

theorem soft_congr {u v : FpVal} (h : v.cls = u.cls) : v.Soft ↔ u.Soft := by rw [FpVal.Soft, h]; rfl

/-- The operations of one operand. -/
def FpFmt.one (f : FpFmt) (c : Word) (a : DWord) : List FpOut := [f.sqrt c a, f.abs a, f.neg a]

/-- The operations of two operands. -/
def FpFmt.two (f : FpFmt) (c : Word) (a b : DWord) : List FpOut := [f.add c a b, f.sub c a b, f.mul c a b, f.div c a b]

/-- The multiply-adds. -/
def FpFmt.fused (f : FpFmt) (c : Word) (d a b : DWord) : List FpOut :=
  [f.madd c false false d a b, f.madd c true false d a b, f.madd c false true d a b, f.madd c true true d a b]

theorem screens_one (h : r ∈ f.one c a) : ∃ k, r = f.screen [f.unpack a] k := by
  simp only [FpFmt.one, List.mem_cons, List.not_mem_nil, or_false] at h
  rcases h with rfl | rfl | rfl <;> exact ⟨_, rfl⟩

/-- A subtraction changes the sign of its second operand, not the class. -/
theorem screens_two (h : r ∈ f.two c a b) : ∃ k v, v.cls = (f.unpack b).cls ∧ r = f.screen [f.unpack a, v] k := by
  simp only [FpFmt.two, List.mem_cons, List.not_mem_nil, or_false] at h
  rcases h with rfl | rfl | rfl | rfl <;> exact ⟨_, _, rfl, rfl⟩

theorem screens_fused (h : r ∈ f.fused c d a b) : ∃ k, r = f.screen [f.unpack d, f.unpack a, f.unpack b] k := by
  simp only [FpFmt.fused, List.mem_cons, List.not_mem_nil, or_false] at h
  rcases h with rfl | rfl | rfl | rfl <;> exact ⟨_, rfl⟩

theorem one_soft (hr : r ∈ f.one c a) (h : (f.unpack a).Soft) : r = .unimplemented := by
  obtain ⟨k, rfl⟩ := screens_one hr
  exact screen_soft (by simpa using h)

theorem two_soft (hr : r ∈ f.two c a b) (h : (f.unpack a).Soft ∨ (f.unpack b).Soft) : r = .unimplemented := by
  obtain ⟨k, v, hv, rfl⟩ := screens_two hr
  exact screen_soft (by simpa [soft_congr hv] using h)

theorem fused_soft (hr : r ∈ f.fused c d a b) (h : (f.unpack d).Soft ∨ (f.unpack a).Soft ∨ (f.unpack b).Soft) :
    r = .unimplemented := by
  obtain ⟨k, rfl⟩ := screens_fused hr
  exact screen_soft (by simpa using h)

theorem one_snan (hr : r ∈ f.one c a) (ha : ¬(f.unpack a).Soft) (h : (f.unpack a).cls = .snan) :
    r = .invalid f.defaultNan := by
  obtain ⟨k, rfl⟩ := screens_one hr
  exact screen_snan (by simpa using ha) (by simpa using h)

theorem two_snan (hr : r ∈ f.two c a b) (ha : ¬(f.unpack a).Soft) (hb : ¬(f.unpack b).Soft)
    (h : (f.unpack a).cls = .snan ∨ (f.unpack b).cls = .snan) : r = .invalid f.defaultNan := by
  obtain ⟨k, v, hv, rfl⟩ := screens_two hr
  exact screen_snan (by simpa [soft_congr hv] using ⟨ha, hb⟩) (by simpa [hv] using h)

theorem fused_snan (hr : r ∈ f.fused c d a b) (hd : ¬(f.unpack d).Soft) (ha : ¬(f.unpack a).Soft)
    (hb : ¬(f.unpack b).Soft) (h : (f.unpack d).cls = .snan ∨ (f.unpack a).cls = .snan ∨ (f.unpack b).cls = .snan) :
    r = .invalid f.defaultNan := by
  obtain ⟨k, rfl⟩ := screens_fused hr
  exact screen_snan (by simpa using ⟨hd, ha, hb⟩) (by simpa using h)

/-- An operand that is finite or infinite. -/
def FpVal.Usable (v : FpVal) : Prop := v.Finite ∨ v.cls = .inf

/-! ### Infinities and zeros -/

section
variable {u v : FpVal}

theorem addVals_inf_inf (hu : u.cls = .inf) (hv : v.cls = .inf) :
    f.addVals c u v = if u.neg = v.neg then .exact (f.infOf u.neg) else .invalid f.defaultNan := by
  rw [FpFmt.addVals, screen_pass (by simp [hu, hv])]
  by_cases h : u.neg = v.neg <;> simp [FpVal.isInf, hu, hv, h]

theorem addVals_inf_finite (hu : u.cls = .inf) (hv : v.Finite) : f.addVals c u v = .exact (f.infOf u.neg) := by
  rw [FpFmt.addVals, screen_pass (by simp [hu, hv]), hv.isInf]
  simp [FpVal.isInf, hu]

theorem addVals_finite_inf (hu : u.Finite) (hv : v.cls = .inf) : f.addVals c u v = .exact (f.infOf v.neg) := by
  rw [FpFmt.addVals, screen_pass (by simp [hu, hv]), hu.isInf]
  simp [FpVal.isInf, hv]

end

/-- The difference of infinities: the second sign is inverted. -/
theorem sub_inf_inf (ha : (f.unpack a).cls = .inf) (hb : (f.unpack b).cls = .inf) : f.sub c a b =
    if (f.unpack a).neg = (f.unpack b).neg then .invalid f.defaultNan else .exact (f.infOf (f.unpack a).neg) := by
  refine (addVals_inf_inf (v := { f.unpack b with neg := !(f.unpack b).neg }) ha hb).trans ?_
  cases (f.unpack a).neg <;> cases (f.unpack b).neg <;> rfl

section
variable (ha : (f.unpack a).Usable) (hb : (f.unpack b).Usable) (hd : (f.unpack d).Usable)
include ha

theorem abs_usable : f.abs a = .exact (a &&& ~~~f.signBit) := screen_pass (List.forall_mem_singleton.2 ha)

theorem neg_usable : f.neg a = .exact (a ^^^ f.signBit) := screen_pass (List.forall_mem_singleton.2 ha)

theorem convert_usable : f.convert g c a =
    if (f.unpack a).isInf then .exact (g.infOf (f.unpack a).neg)
    else if (f.unpack a).isZero then .exact (g.zeroOf (f.unpack a).neg)
    else g.deliver c (f.unpack a).neg (f.unpack a).mag (f.unpack a).exp false :=
  screen_pass (List.forall_mem_singleton.2 ha)

/-- The square root of an operand that is no positive number. -/
theorem sqrt_usable (h : (f.unpack a).cls ≠ .normal ∨ (f.unpack a).neg = true) : f.sqrt c a =
    if (f.unpack a).isZero then .exact (f.zeroOf (f.unpack a).neg)
    else if (f.unpack a).neg then .invalid f.defaultNan else .exact (f.infOf false) := by
  simp only [FpFmt.sqrt]
  rw [screen_pass (List.forall_mem_singleton.2 ha)]
  rcases ha with (e | e) | e <;> simp_all [FpVal.isZero, FpVal.isInf]

theorem inf_operand (h : (f.unpack a).cls = .inf) : f.convert g c a = .exact (g.infOf (f.unpack a).neg) ∧
    f.sqrt c a = if (f.unpack a).neg then .invalid f.defaultNan else .exact (f.infOf false) := by
  rw [convert_usable ha, sqrt_usable ha (.inl (by simp [h]))]
  simp [FpVal.isInf, FpVal.isZero, h]

theorem zero_operand (h : (f.unpack a).cls = .zero) : f.convert g c a = .exact (g.zeroOf (f.unpack a).neg) ∧
    f.sqrt c a = .exact (f.zeroOf (f.unpack a).neg) := by
  rw [convert_usable ha, sqrt_usable ha (.inl (by simp [h]))]
  simp [FpVal.isInf, FpVal.isZero, h]

theorem sqrt_negative (h : (f.unpack a).cls = .normal) (neg : (f.unpack a).neg = true) :
    f.sqrt c a = .invalid f.defaultNan := by
  rw [sqrt_usable ha (.inr neg), isZero_of_normal h, neg]
  rfl

include hb

theorem mul_usable (h : (f.unpack a).cls ≠ .normal ∨ (f.unpack b).cls ≠ .normal) : f.mul c a b =
    if ((f.unpack a).isInf && (f.unpack b).isZero) || ((f.unpack a).isZero && (f.unpack b).isInf) then
      .invalid f.defaultNan
    else if (f.unpack a).isInf || (f.unpack b).isInf then .exact (f.infOf ((f.unpack a).neg ^^ (f.unpack b).neg))
    else .exact (f.zeroOf ((f.unpack a).neg ^^ (f.unpack b).neg)) := by
  simp only [FpFmt.mul]
  rw [screen_pass (by simpa using ⟨ha, hb⟩)]
  rcases ha with (e | e) | e <;> rcases hb with (e' | e') | e' <;> simp_all [FpVal.isZero, FpVal.isInf]

theorem div_usable (h : (f.unpack a).cls ≠ .normal ∨ (f.unpack b).cls ≠ .normal) : f.div c a b =
    if ((f.unpack a).isInf && (f.unpack b).isInf) || ((f.unpack a).isZero && (f.unpack b).isZero) then
      .invalid f.defaultNan
    else if (f.unpack a).isInf then .exact (f.infOf ((f.unpack a).neg ^^ (f.unpack b).neg))
    else if (f.unpack b).isZero then ⟨{ divByZero := true }, f.infOf ((f.unpack a).neg ^^ (f.unpack b).neg)⟩
    else .exact (f.zeroOf ((f.unpack a).neg ^^ (f.unpack b).neg)) := by
  simp only [FpFmt.div]
  rw [screen_pass (by simpa using ⟨ha, hb⟩)]
  rcases ha with (e | e) | e <;> rcases hb with (e' | e') | e' <;> simp_all [FpVal.isZero, FpVal.isInf]

include hd

/-- A multiply-add without the final change of sign. -/
theorem madd_usable {sub : Bool} : f.madd c sub false d a b =
    if ((f.unpack a).isZero && (f.unpack b).isInf) || ((f.unpack a).isInf && (f.unpack b).isZero) then
      .invalid f.defaultNan
    else if (f.unpack a).isInf || (f.unpack b).isInf then
      if (f.unpack d).isInf && ((f.unpack d).neg ^^ sub) ≠ ((f.unpack a).neg ^^ (f.unpack b).neg) then
        .invalid f.defaultNan
      else .exact (f.infOf ((f.unpack a).neg ^^ (f.unpack b).neg))
    else if (f.unpack d).isInf then .exact (f.infOf ((f.unpack d).neg ^^ sub))
    else f.sum c ((f.unpack a).neg ^^ (f.unpack b).neg) ((f.unpack a).mag * (f.unpack b).mag)
      ((f.unpack a).exp + (f.unpack b).exp) ((f.unpack d).neg ^^ sub) (f.unpack d).mag (f.unpack d).exp :=
  screen_pass (by simpa using ⟨hd, ha, hb⟩)

end

/-! ### Products with infinities and zeros (46_fpu R544, R546) -/

theorem product_inf_inf (ha : (f.unpack a).cls = .inf) (hb : (f.unpack b).cls = .inf) :
    f.mul c a b = .exact (f.infOf ((f.unpack a).neg ^^ (f.unpack b).neg)) ∧
      f.div c a b = .invalid f.defaultNan := by
  rw [mul_usable (.inr ha) (.inr hb) (.inl (by simp [ha])), div_usable (.inr ha) (.inr hb) (.inl (by simp [ha]))]
  simp [FpVal.isInf, FpVal.isZero, ha, hb]

theorem product_inf_finite (ha : (f.unpack a).cls = .inf) (hb : (f.unpack b).Finite) :
    f.div c a b = .exact (f.infOf ((f.unpack a).neg ^^ (f.unpack b).neg)) ∧
      f.mul c a b = if (f.unpack b).cls = .zero then .invalid f.defaultNan
        else .exact (f.infOf ((f.unpack a).neg ^^ (f.unpack b).neg)) := by
  rw [mul_usable (.inr ha) (.inl hb) (.inl (by simp [ha])), div_usable (.inr ha) (.inl hb) (.inl (by simp [ha])),
    hb.isInf]
  simp [FpVal.isInf, FpVal.isZero, ha]

theorem product_finite_inf (ha : (f.unpack a).Finite) (hb : (f.unpack b).cls = .inf) :
    f.div c a b = .exact (f.zeroOf ((f.unpack a).neg ^^ (f.unpack b).neg)) ∧
      f.mul c a b = if (f.unpack a).cls = .zero then .invalid f.defaultNan
        else .exact (f.infOf ((f.unpack a).neg ^^ (f.unpack b).neg)) := by
  rw [mul_usable (.inl ha) (.inr hb) (.inr (by simp [hb])), div_usable (.inl ha) (.inr hb) (.inr (by simp [hb])),
    ha.isInf]
  simp [FpVal.isInf, FpVal.isZero, hb]

theorem product_zero (ha : (f.unpack a).Finite) (hb : (f.unpack b).Finite)
    (zero : (f.unpack a).cls = .zero ∨ (f.unpack b).cls = .zero) :
    f.mul c a b = .exact (f.zeroOf ((f.unpack a).neg ^^ (f.unpack b).neg)) ∧
      f.div c a b = if (f.unpack b).cls ≠ .zero then .exact (f.zeroOf ((f.unpack a).neg ^^ (f.unpack b).neg))
        else if (f.unpack a).cls = .zero then .invalid f.defaultNan
        else ⟨{ divByZero := true }, f.infOf ((f.unpack a).neg ^^ (f.unpack b).neg)⟩ := by
  have special : (f.unpack a).cls ≠ .normal ∨ (f.unpack b).cls ≠ .normal := zero.imp (by simp [·]) (by simp [·])
  rw [mul_usable (.inl ha) (.inl hb) special, div_usable (.inl ha) (.inl hb) special, ha.isInf, hb.isInf]
  by_cases hz : (f.unpack b).cls = .zero <;> simp [FpVal.isZero, hz]

/-! ### Multiply-adds with infinities (47_fpu_ps R655) -/

section
variable {sub : Bool}

/-- Zero times infinity. -/
theorem madd_invalid (h : (f.unpack a).cls = .zero ∧ (f.unpack b).cls = .inf ∨
    (f.unpack a).cls = .inf ∧ (f.unpack b).cls = .zero) (hd : (f.unpack d).Usable) :
    f.madd c sub false d a b = .invalid f.defaultNan := by
  rcases h with ⟨ha, hb⟩ | ⟨ha, hb⟩
  · rw [madd_usable (.inl (.inl ha)) (.inr hb) hd]
    simp [FpVal.isInf, FpVal.isZero, ha, hb]
  · rw [madd_usable (.inr ha) (.inl (.inl hb)) hd]
    simp [FpVal.isInf, FpVal.isZero, ha, hb]

/-- An infinite product. -/
theorem madd_inf_product (h : (f.unpack a).cls = .inf ∧ ((f.unpack b).cls = .normal ∨ (f.unpack b).cls = .inf) ∨
    (f.unpack a).cls = .normal ∧ (f.unpack b).cls = .inf) (hd : (f.unpack d).Usable) :
    f.madd c sub false d a b =
      if (f.unpack d).cls = .inf ∧ ((f.unpack d).neg ^^ sub) ≠ ((f.unpack a).neg ^^ (f.unpack b).neg)
      then .invalid f.defaultNan else .exact (f.infOf ((f.unpack a).neg ^^ (f.unpack b).neg)) := by
  rcases h with ⟨ha, hb | hb⟩ | ⟨ha, hb⟩
  · rw [madd_usable (.inr ha) (.inl (.inr hb)) hd]
    simp [FpVal.isInf, FpVal.isZero, ha, hb]
  · rw [madd_usable (.inr ha) (.inr hb) hd]
    simp [FpVal.isInf, FpVal.isZero, ha, hb]
  · rw [madd_usable (.inl (.inr ha)) (.inr hb) hd]
    simp [FpVal.isInf, FpVal.isZero, ha, hb]

/-- An infinite addend alone. -/
theorem madd_inf_addend (ha : (f.unpack a).Finite) (hb : (f.unpack b).Finite) (hd : (f.unpack d).cls = .inf) :
    f.madd c sub false d a b = .exact (f.infOf ((f.unpack d).neg ^^ sub)) := by
  rw [madd_usable (.inl ha) (.inl hb) (.inr hd), ha.isInf, hb.isInf]
  simp [FpVal.isInf, hd]

end

/-! ### The negated multiply-adds -/

/-- An outcome that is no Invalid, and of whose exceptions Unimplemented stands alone. -/
def FpOut.Plain (o : FpOut) : Prop := o.exc.invalid = false ∧ (o.exc.unimplemented = true → o = .unimplemented)

theorem plain_exact (x : DWord) : (FpOut.exact x).Plain := ⟨rfl, fun h => absurd h Bool.false_ne_true⟩

theorem plain_deliver (f : FpFmt) (c : Word) (neg : Bool) (mag : Nat) (exp : ℤ) (sticky : Bool) :
    (f.deliver c neg mag exp sticky).Plain := by
  unfold FpFmt.deliver
  simp only []
  split_ifs <;> simp [FpOut.Plain, FpOut.unimplemented]

theorem plain_sum (f : FpFmt) (c : Word) (na : Bool) (ma : Nat) (ea : ℤ) (nb : Bool) (mb : Nat) (eb : ℤ) :
    (f.sum c na ma ea nb mb eb).Plain := by
  have shapes : (∃ x, f.sum c na ma ea nb mb eb = .exact x) ∨
      ∃ neg mag exp, f.sum c na ma ea nb mb eb = f.deliver c neg mag exp false :=
    (Decidable.em _).imp (fun zero => ⟨_, if_pos zero⟩) fun nonzero => ⟨_, _, _, if_neg nonzero⟩
  rcases shapes with ⟨x, e⟩ | ⟨neg, mag, exp, e⟩
  · exact e ▸ plain_exact x
  · exact e ▸ plain_deliver ..

/-- What a negated multiply-add makes of the result of the other one. -/
def FpFmt.negated (f : FpFmt) (r : FpOut) : FpOut :=
  if r = .invalid f.defaultNan ∨ r = .unimplemented then r else { r with bits := r.bits ^^^ f.signBit }

theorem FpOut.Plain.negated {o : FpOut} (h : o.Plain) :
    f.negated o = if !o.exc.unimplemented then { o with bits := o.bits ^^^ f.signBit } else o := by
  have notNan : o ≠ .invalid f.defaultNan := fun e => by have := h.1; rw [e] at this; cases this
  cases e : o.exc.unimplemented
  · have : o ≠ .unimplemented := fun e' => by rw [e'] at e; cases e
    exact if_neg (by simp [notNan, this])
  · exact if_pos (.inr (h.2 e))

theorem negated_nan (f : FpFmt) : f.negated (.invalid f.defaultNan) = .invalid f.defaultNan := if_pos (.inl rfl)

theorem negated_screen (f : FpFmt) (vs : List FpVal) (k : FpOut) :
    f.negated (f.screen vs k) = f.screen vs (f.negated k) := by
  unfold FpFmt.screen
  rw [apply_ite f.negated, apply_ite f.negated, negated_nan, show f.negated .unimplemented = _ from if_pos (.inr rfl)]

/-- The negated multiply-adds invert the sign of a result that is neither the default NaN nor left to software. -/
theorem madd_negated (sub : Bool) : f.madd c sub true d a b = f.negated (f.madd c sub false d a b) := by
  have flips {o : FpOut} (h : o.Plain) :
      (if true && !o.exc.unimplemented then { o with bits := o.bits ^^^ f.signBit } else o) = f.negated o :=
    h.negated.symm
  have stays (o : FpOut) :
      (if false && !o.exc.unimplemented then { o with bits := o.bits ^^^ f.signBit } else o) = o := rfl
  simp only [FpFmt.madd, flips (plain_exact _), flips (plain_sum ..), stays, negated_screen, apply_ite f.negated,
    negated_nan]

/-! ### Sums of finite operands -/

/-- The sign of a zero sum: the common one, else plus, or minus when rounding down (46_fpu R540). -/
def zeroSign (c : Word) (m n : Bool) : Bool := if m = n then m else fcsrRm c = 3

variable (hf : f.Legal)
include hf

theorem add_finite_delivers (ha : (f.unpack a).Finite) (hb : (f.unpack b).Finite) :
    ((f.unpack a).toReal + (f.unpack b).toReal ≠ 0 →
      Delivers f c ((f.unpack a).toReal + (f.unpack b).toReal) (f.add c a b)) ∧
    ((f.unpack a).toReal + (f.unpack b).toReal = 0 →
      f.add c a b = .exact (f.zeroOf (zeroSign c (f.unpack a).neg (f.unpack b).neg))) := by
  rw [add_finite ha hb]
  exact sum_delivers hf (congrArg₂ (· + ·) (toReal_eq_withSign _) (toReal_eq_withSign _))

theorem sub_finite_delivers (ha : (f.unpack a).Finite) (hb : (f.unpack b).Finite) :
    ((f.unpack a).toReal - (f.unpack b).toReal ≠ 0 →
      Delivers f c ((f.unpack a).toReal - (f.unpack b).toReal) (f.sub c a b)) ∧
    ((f.unpack a).toReal - (f.unpack b).toReal = 0 →
      f.sub c a b = .exact (f.zeroOf (zeroSign c (f.unpack a).neg (!(f.unpack b).neg)))) := by
  rw [sub_finite ha hb]
  refine sum_delivers hf ?_
  rw [← neg_withSign, ← sub_eq_add_neg]
  exact congrArg₂ (· - ·) (toReal_eq_withSign _) (toReal_eq_withSign _)

theorem madd_finite_delivers {sub : Bool} (hd : (f.unpack d).Finite) (ha : (f.unpack a).Finite)
    (hb : (f.unpack b).Finite) {e : ℝ} (he : e = (f.unpack a).toReal * (f.unpack b).toReal +
      if sub then -(f.unpack d).toReal else (f.unpack d).toReal) :
    (e ≠ 0 → Delivers f c e (f.madd c sub false d a b)) ∧ (e = 0 → f.madd c sub false d a b =
      .exact (f.zeroOf (zeroSign c ((f.unpack a).neg ^^ (f.unpack b).neg) ((f.unpack d).neg ^^ sub)))) := by
  rw [madd_finite hd ha hb]
  refine sum_delivers hf ?_
  rw [he, toReal_mul, toReal_eq_withSign (f.unpack d)]
  cases sub
  · rw [Bool.xor_false]; rfl
  · rw [Bool.xor_true, ← neg_withSign]; rfl

/-- The sum and the difference of two zeros. -/
theorem zero_sums (ha : (f.unpack a).cls = .zero) (hb : (f.unpack b).cls = .zero) :
    f.add c a b = .exact (f.zeroOf
      (if (f.unpack a).neg = (f.unpack b).neg then (f.unpack a).neg else fcsrRm c = 3)) ∧
    f.sub c a b = .exact (f.zeroOf
      (if (f.unpack a).neg = (f.unpack b).neg then fcsrRm c = 3 else (f.unpack a).neg)) := by
  have za := toReal_of_zero hf ha
  have zb := toReal_of_zero hf hb
  refine ⟨(add_finite_delivers hf (.inl ha) (.inl hb)).2 (by rw [za, zb, add_zero]), ?_⟩
  rw [(sub_finite_delivers hf (.inl ha) (.inl hb)).2 (by rw [za, zb, sub_zero]), zeroSign]
  cases (f.unpack a).neg <;> cases (f.unpack b).neg <;> rfl

/-- Of two finite operands exactly one of which is zero, neither the sum nor the difference is zero. -/
theorem sum_ne_zero (ha : (f.unpack a).Finite) (hb : (f.unpack b).Finite)
    (one : ((f.unpack a).cls = .zero) ≠ ((f.unpack b).cls = .zero)) :
    (f.unpack a).toReal + (f.unpack b).toReal ≠ 0 ∧ (f.unpack a).toReal - (f.unpack b).toReal ≠ 0 := by
  rcases ha with za | na <;> rcases hb with zb | nb
  · exact absurd (propext (iff_of_true za zb)) one
  · simp [toReal_of_zero hf za, toReal_ne_zero hf nb]
  · simp [toReal_of_zero hf zb, toReal_ne_zero hf na]
  · exact absurd (propext (iff_of_false (by simp [na]) (by simp [nb]))) one

end

/-- Settles O51: the fields by `unpack_cls_eq_fields`; what is not taken as it is by the screening of each operation;
infinities and zeros by what each operation answers for usable operands. -/
theorem fpSpecialOperands : Obligations.FpSpecialOperands := by
  unfold Obligations.FpSpecialOperands
  intro S D
  have legalS : S.Legal := FpFmt.legal (by simp [S])
  have legalD : D.Legal := FpFmt.legal (by simp [D])
  refine ⟨fun x => ⟨unpack_neg_eq_bit legalS x, unpack_cls_eq_fields legalS x⟩,
    fun x => ⟨unpack_neg_eq_bit legalD x, unpack_cls_eq_fields legalD x⟩, by decide, ?patterns, ?operands⟩
  case patterns =>
    intro n sign inf max min f mem
    rw [List.mem_pair] at mem
    rcases mem with rfl | rfl <;> cases n <;> decide
  case operands =>
    intro f mem g _ c a b d u v w soft finite down nan inf zero n fused two one
    have hf := FpFmt.legal mem
    refine ⟨fun hu => ⟨screen_soft ⟨u, List.mem_singleton_self u, hu⟩, ?softFirst⟩, fun hv => ?softSecond,
      fun hw r hr => fused_soft hr (.inl hw),
      fun hu s => ⟨screen_snan (List.forall_mem_singleton.2 hu) ⟨u, List.mem_singleton_self u, s⟩,
        fun r hr => one_snan hr hu s⟩,
      fun hu hv s r hr => two_snan hr hu hv s,
      fun hu hv hw s r hr => fused_snan hr hw hu hv (or_rotate.1 (or_rotate.1 s)),
      fun hu => ⟨abs_usable hu, neg_usable hu⟩, fun hu => inf_operand (.inr hu) hu,
      fun hu => zero_operand (.inl (.inl hu)) hu, fun hu neg => sqrt_negative (.inl (.inr hu)) hu neg, rfl,
      fun hu hv => ?infInf, fun hu hv => ?infFinite, fun hu hv => ?finiteInf, product_zero,
      fun hu hv => ?zeroSum, fun hu hv single => ?oneZero, fun sub => ?multiplyAdd⟩
    case softFirst =>
      intro r hr
      rcases List.mem_append.1 hr with hr | hr
      · rcases List.mem_append.1 hr with hr | hr
        · exact one_soft hr hu
        · exact two_soft hr (.inl hu)
      · exact fused_soft hr (.inr (.inl hu))
    case softSecond =>
      intro r hr
      rcases List.mem_append.1 hr with hr | hr
      · exact two_soft hr (.inr hv)
      · exact fused_soft hr (.inr (.inr hv))
    case infInf => exact ⟨addVals_inf_inf hu hv, sub_inf_inf hu hv, product_inf_inf hu hv⟩
    case infFinite => exact ⟨addVals_inf_finite hu hv, addVals_inf_finite hu hv, product_inf_finite hu hv⟩
    case finiteInf => exact ⟨addVals_finite_inf hu hv, addVals_finite_inf hu hv, product_finite_inf hu hv⟩
    case zeroSum => exact zero_sums hf hu hv
    case oneZero =>
      obtain ⟨sum, difference⟩ := sum_ne_zero hf hu hv single
      exact ⟨(add_finite_delivers hf hu hv).1 sum, (sub_finite_delivers hf hu hv).1 difference⟩
    case multiplyAdd =>
      refine ⟨madd_negated sub, madd_invalid, fun h => ⟨fun hw => ?_, fun hw => ?_⟩, madd_inf_addend,
        fun hu hv hw => madd_finite_delivers hf hw hu hv rfl⟩
      · have notInf : w.cls ≠ .inf := fun e => by rcases hw with e' | e' <;> cases e'.symm.trans e
        exact (madd_inf_product h (.inl hw)).trans (if_neg fun e => notInf e.1)
      · refine (madd_inf_product h (.inr hw)).trans ?_
        by_cases same : (w.neg ^^ sub) = (u.neg ^^ v.neg)
        · exact (if_neg fun e => e.2 same).trans (if_pos same).symm
        · exact (if_pos ⟨hw, same⟩).trans (if_neg same).symm

end Sys2Proof.Machine
end

section
/-! SUPPORT. The paired-single arithmetic and the multiply-adds (47_fpu_ps_madd) as instructions. -/

namespace Sys2Proof.Machine
variable {s : State} {regs others : List RegNum} {fd : RegNum}

/-- An ending may be read with a weaker result. -/
theorem FpEnds.mono {o : Out} {x : FpExc} {result weaker : Word → Prop} (h : FpEnds o s x result)
    (le : ∀ g, result g → weaker g) : FpEnds o s x weaker := by
  by_cases traps : fcsrTraps (fcsrAfter s.fcsr x) = true
  · rw [FpEnds, if_pos traps] at h ⊢
    exact h
  · rw [FpEnds, if_neg traps] at h ⊢
    exact le _ h

/-- What the 64-bit operand holds may be said more weakly. -/
theorem FprResult.mono {o : Out} {g : Word} {P Q : DWord → Prop} (h : FprResult o s fd g P) (le : ∀ v, P v → Q v) :
    FprResult o s fd g Q := by
  obtain ⟨t, run, value, frame⟩ := h
  exact ⟨t, run, le _ value, frame⟩

/-- An operation on both halves: each half of the result, and the exceptions of either (47_fpu_ps R621; log 43). -/
theorem finish64_pairOut_ends (h : FpuReady s regs) (sub : fd :: others ⊆ regs) (hi lo : FpOut) :
    FpEnds (finish64 others fd (pairOut hi lo) s) s (hi.exc.or lo.exc) fun g =>
      FprResult (finish64 others fd (pairOut hi lo) s) s fd g fun v =>
        v.extractLsb' 32 32 = low32 hi.bits ∧ v.extractLsb' 0 32 = low32 lo.bits := by
  have halves (v : DWord) (hv : v = (pairOut hi lo).bits) :
      v.extractLsb' 32 32 = low32 hi.bits ∧ v.extractLsb' 0 32 = low32 lo.bits :=
    hv ▸ ⟨upper_append _ _, low_append _ _⟩
  exact (finish64_ends h sub (pairOut hi lo)).mono fun _ result => result.mono halves

/-- Settles O57: every instruction ends in `finish32` of its outcome, in `finish64` of it, or in `finish64` of the
outcomes of the two halves put side by side; the multiply-adds differ in the two signs they change alone. -/
theorem pairedSingleAndMultiplyAdd : Obligations.PairedSingleAndMultiplyAdd := by
  intro s ft fs fd hc S D c result32 result64 both half pairs unary triples one wide madd msub nmadd nmsub
  have ready : FpuReady s [] := ⟨hc, fun _ h => absurd h List.not_mem_nil⟩
  have single (o : FpOut) := finish32_ends ready (List.Subset.refl []) fd o
  refine ⟨single _, single _, single _, single _, fun ready2 => ?unary, fun ready3 => ?binary⟩
  case unary =>
    have paired (hi lo : FpOut) := finish64_pairOut_ends (others := [fs]) (fd := fd) ready2 (by simp) hi lo
    exact ⟨paired _ _, paired _ _⟩
  case binary =>
    have operands : [fd, fs, ft] ⊆ [fs, ft, fd] := by simp
    have double (o : FpOut) := finish64_ends ready3 operands o
    have paired (hi lo : FpOut) := finish64_pairOut_ends ready3 operands hi lo
    exact ⟨paired _ _, paired _ _, paired _ _, double _, double _, double _, double _,
      paired _ _, paired _ _, paired _ _, paired _ _⟩

end Sys2Proof.Machine
end

section
/-! SUPPORT. One step (60_exceptions R805, R807): what its boundary changes, the events that come before the
instruction, and the instruction where none does. -/

namespace Sys2Proof.Machine
variable {s t : State}

/-- Settles O3: the word the fetch delivers runs as the decoder reads it. -/
theorem stepRunsTheDecodedInstruction : Obligations.StepRunsTheDecodedInstruction := by
  intro s t w i quiet fetched decoded
  rw [step_word quiet fetched, stepWord, decoded, decodedOut]

/-- Settles O4, the values of the clocks and of the latches being what the boundary leaves in them. -/
theorem boundaryFrame : Obligations.BoundaryFrame := by
  intro s i u
  obtain ⟨latch, timer, phase, count, random, counters, frame⟩ := boundary_frame s
  rw [frame]

/-! ### The events, in their order -/

theorem event_coldReset (cold : s.coldResetPending = true) :
    s.event = some (State.coldReset s.cfg s.mem s.pc s.pins s.inputs s.draws s.freeCount) := if_pos cold

theorem event_softReset (cold : s.coldResetPending = false) (soft : s.softResetPending = true) :
    s.event = some (enterReset { s with softResetPending := false, io := { s.io with intLatch := 0 } }) := by
  simp [State.event, cold, soft]

section
variable (cold : s.coldResetPending = false) (soft : s.softResetPending = false)
include cold soft

theorem event_nmi (nmi : s.nmiPending = true) : s.event = some (enterReset { s with nmiPending := false }) := by
  simp [State.event, cold, soft, nmi]

variable (nmi : s.nmiPending = false)
include nmi

theorem event_watch (watch : s.watchPostponed = true ∧ s.exl = false ∧ s.erl = false) :
    s.event = some (takeException .watch { s with watchPostponed := false }) := by
  simp [State.event, cold, soft, nmi, watch]

variable (noWatch : ¬(s.watchPostponed = true ∧ s.exl = false ∧ s.erl = false))
include noWatch

/-- With no reset, NMI or Watch to take, what is left is the interrupt (60_exceptions R805). -/
theorem event_interruptTaken :
    s.event = if s.interruptTaken then some (takeException .interrupt s) else none := by
  have quiet : ¬(s.watchPostponed && !s.exl && !s.erl) = true := by simpa [and_assoc] using noWatch
  simp only [State.event, cold, soft, nmi, Bool.false_eq_true, if_false]
  rw [if_neg quiet]

end

/-- When an interrupt is taken (60_exceptions R820). -/
theorem interruptTaken_iff (s : State) : s.interruptTaken = true ↔
    s.ie = true ∧ s.exl = false ∧ s.erl = false ∧ s.ip &&& s.cp0.status.extractLsb' 8 8 ≠ 0 := by
  simp [State.interruptTaken, and_assoc]

/-- Settles O6: each event by its place in the order, then the whole state it leaves. -/
theorem eventsComeFirst : Obligations.EventsComeFirst := by
  intro s b watch interrupt restart
  refine ⟨fun cold => ⟨_, step_event (event_coldReset cold), rfl, rfl, rfl, rfl, rfl, rfl⟩,
    fun cold soft => step_event (event_softReset cold soft), fun cold soft nmi => step_event (event_nmi cold soft nmi),
    fun cold soft nmi watched => ?watch, fun cold soft nmi noWatch asked => ?interrupt,
    fun cold soft nmi noWatch notAsked => ?none⟩
  case watch =>
    rw [step_event (event_watch cold soft nmi watched)]
    exact traps_raise .watch _ rfl rfl
  case interrupt =>
    rw [step_event ((event_interruptTaken cold soft nmi noWatch).trans (if_pos ((interruptTaken_iff b).2 asked)))]
    exact traps_raise .interrupt _ rfl rfl
  case none =>
    exact (event_interruptTaken cold soft nmi noWatch).trans (if_neg (mt (interruptTaken_iff b).1 notAsked))

end Sys2Proof.Machine
end

section
/-! SUPPORT. The scalar integers on the floating-point registers (49_fpu_fixed): the endings, and the shifts by a whole
register. -/

namespace Sys2Proof.Machine
variable {s : State} {ft fs fd : RegNum} {v : Int}

/-! ### Endings -/

/-- A result of two FPR operands in `fd`, the value written in another way (49_fpu_fixed R751). -/
theorem fixed2_result (o : Out) (ready : FpuReady s [fs, ft, fd]) {op : DWord → DWord → DWord} {d : DWord}
    (run : o = fixed2 op ft fs fd s) (h : d = op (s.f64 fs) (s.f64 ft)) : FprResult o s fd s.fcsr (· = d) := by
  rw [run, fixed2, ready.withFpu64 (List.Subset.refl _)]
  exact fprResult_done' s _ _ (ready.2 fd (by simp)) h.symm

/-- A result that traps outside the signed range of `n + 1` bits: the exact value `v`, or Integer Overflow
(49_fpu_fixed R753). -/
theorem fixedOr_result_or_traps (o : Out) {n : Nat} (ready : FpuReady s [fs, ft, fd]) {overflows : DWord → DWord → Bool}
    {op : DWord → DWord → DWord} (run : o = fixedOr overflows op ft fs fd s)
    (overflow : overflows (s.f64 fs) (s.f64 ft) = true ↔ ¬(-2 ^ n ≤ v ∧ v < 2 ^ n))
    (value : -2 ^ n ≤ v ∧ v < 2 ^ n → op (s.f64 fs) (s.f64 ft) = BitVec.ofInt 64 v) :
    if -2 ^ n ≤ v ∧ v < 2 ^ n then FprResult o s fd s.fcsr (· = BitVec.ofInt 64 v) else Traps o s 12 0 := by
  rw [run, fixedOr, ready.withFpu64 (List.Subset.refl _)]
  by_cases fits : -2 ^ n ≤ v ∧ v < 2 ^ n
  · rw [if_pos fits, if_neg fun h => overflow.1 h fits]
    exact fprResult_done' s _ _ (ready.2 fd (by simp)) (value fits)
  · rw [if_neg fits, if_pos (overflow.2 fits)]
    exact traps_raise .overflow s rfl rfl

/-- A compare: CC0 alone changes (49_fpu_fixed R780). -/
theorem fixedCompare_result (ready : FpuReady s [fs, ft, fd]) (op : DWord → DWord → Bool) :
    FcsrResult (fixedCompare op ft fs s) s
      (if op (s.f64 fs) (s.f64 ft) then s.fcsr ||| 0x800000 else s.fcsr &&& ~~~0x800000) := by
  unfold fixedCompare
  rw [ready.withFpu64 (others := [fs, ft]) (by simp), ← fcsrSetCc_zero]
  exact fcsrResult_done s _

/-! ### Shifts whose count is a whole register (49_fpu_fixed R754) -/

section
variable {w : Nat} (x : BitVec w) (count : DWord)

theorem ofInt_shiftBy_left : BitVec.ofInt w (if count.toNat < w then x.toNat * 2 ^ count.toNat else 0 : Nat) =
    shiftBy (fun v n => v <<< n) x count := by
  rw [BitVec.ofInt_natCast, shiftBy, ← ofNat_shl]
  split <;> rfl

theorem ofInt_shiftBy_right : BitVec.ofInt w (if count.toNat < w then x.toNat / 2 ^ count.toNat else 0 : Nat) =
    shiftBy (fun v n => v >>> n) x count := by
  rw [BitVec.ofInt_natCast, shiftBy, ← ofNat_shr]
  split <;> rfl

/-- Shifted by all places but one, only the sign is left. -/
theorem toInt_ediv_half (hw : 0 < w) : x.toInt / 2 ^ (w - 1) = if x.msb then -1 else 0 := by
  have half : (2 : Int) ^ w = 2 ^ (w - 1) * 2 := by rw [← pow_succ, Nat.sub_add_cancel hw]
  have low := BitVec.le_toInt x
  have high := BitVec.toInt_lt (x := x)
  rw [BitVec.msb_eq_toInt]
  by_cases neg : x.toInt < 0
  · rw [if_pos (decide_eq_true neg)]
    exact Int.ediv_eq_neg_one_of_neg_of_le neg (by omega)
  · rw [if_neg (by simpa using neg)]
    exact Int.ediv_eq_zero_of_lt (by omega) high

theorem ofInt_shiftSigned (hw : 0 < w) : BitVec.ofInt w
    (if count.toNat < w then x.toInt / 2 ^ count.toNat else if x.msb then -1 else 0) = shiftSigned x count := by
  rw [shiftSigned, ← ofInt_sar]
  by_cases short : count.toNat < w
  · rw [if_pos short, min_eq_left (by omega)]
  · rw [if_neg short, min_eq_right (by omega), toInt_ediv_half x hw]

end

/-- Settles O60: every instruction by its ending, its value by the sum, difference or shift of its width. -/
theorem fixedPointOnFprs : Obligations.FixedPointOnFprs := by
  intro s ft fs fd ready x y a b n gives word double trapping compares
  have wordValue {v : Int} {c : Word} (h : BitVec.ofInt 32 v = c) (fits : -2 ^ 31 ≤ v ∧ v < 2 ^ 31) :
      sext64 c = BitVec.ofInt 64 v := h ▸ ofInt_fits fits
  refine ⟨?add, ?dadd, ?sub, ?dsub, ?addu, ?subu, ?or, ?xor, ?nor, ?and, ?sll, ?srl, ?sra, ?dsll, ?dsrl, ?dsra,
    ?sequ, ?seq, ?sltu, ?slt, ?sleu, ?sle⟩
  case add =>
    exact fixedOr_result_or_traps (execFxAdd ft fs fd s) ready rfl (addOverflows_iff a b) (wordValue (ofInt_add a b))
  case sub =>
    exact fixedOr_result_or_traps (execFxSub ft fs fd s) ready rfl (subOverflows_iff a b) (wordValue (ofInt_sub a b))
  case dadd =>
    exact fixedOr_result_or_traps (execFxDadd ft fs fd s) ready rfl (addOverflows_iff x y) fun _ => (ofInt_add x y).symm
  case dsub =>
    exact fixedOr_result_or_traps (execFxDsub ft fs fd s) ready rfl (subOverflows_iff x y) fun _ => (ofInt_sub x y).symm
  case addu => exact fixed2_result (execFxAddu ft fs fd s) ready rfl (congrArg sext64 (ofInt_add a b))
  case subu => exact fixed2_result (execFxSubu ft fs fd s) ready rfl (congrArg sext64 (ofInt_sub a b))
  case or => exact fixed2_result (execFxOr ft fs fd s) ready rfl rfl
  case xor => exact fixed2_result (execFxXor ft fs fd s) ready rfl rfl
  case nor => exact fixed2_result (execFxNor ft fs fd s) ready rfl rfl
  case and => exact fixed2_result (execFxAnd ft fs fd s) ready rfl rfl
  case sll => exact fixed2_result (execFxSll ft fs fd s) ready rfl (congrArg sext64 (ofInt_shiftBy_left a y))
  case srl => exact fixed2_result (execFxSrl ft fs fd s) ready rfl (congrArg sext64 (ofInt_shiftBy_right a y))
  case sra => exact fixed2_result (execFxSra ft fs fd s) ready rfl (congrArg sext64 (ofInt_shiftSigned a y (by decide)))
  case dsll => exact fixed2_result (execFxDsll ft fs fd s) ready rfl (ofInt_shiftBy_left x y)
  case dsrl => exact fixed2_result (execFxDsrl ft fs fd s) ready rfl (ofInt_shiftBy_right x y)
  case dsra => exact fixed2_result (execFxDsra ft fs fd s) ready rfl (ofInt_shiftSigned x y (by decide))
  case sequ | seq | sltu | slt | sleu | sle => exact fixedCompare_result ready _

end Sys2Proof.Machine
end

section
/-! SUPPORT. The packed instructions that move elements (48_multimedia): packing with saturation, interleaving,
inserting, the packed shifts, the sum of the bytes and the mask of their signs. -/

namespace Sys2Proof.Machine
variable {s : State} {fs fd : RegNum} {w v n : Nat} {x y : DWord}

/-- A packed operation of one operand. -/
theorem packed1_result {regs : List RegNum} (ready : FpuReady s regs) (sub : [fs, fd] ⊆ regs) {op : DWord → DWord}
    {P : DWord → Prop} (h : P (op (s.f64 fs))) : FprResult (packed1 op fs fd s) s fd s.fcsr P := by
  unfold packed1
  rw [ready.withFpu64 sub]
  exact fprResult_done' s _ P (ready.2 fd (sub (by simp))) h

/-! ### Elements of the results -/

/-- Element `k` after packing: the elements of `x` narrowed, then those of `y` (48_multimedia R697 to R699). -/
theorem lane_packFrom (fits : v * (2 * n) ≤ 64) {sat f : BitVec w → BitVec v} (h : ∀ a, sat a = f a) {k : Nat}
    (hk : k < 2 * n) : lane v (packFrom w n sat x y) k = f (if k < n then lane w x k else lane w y (k - n)) := by
  rw [packFrom, lane_pack _ fits hk, h, h, apply_ite f]

/-- Element `k` after interleaving from element `base` on (48_multimedia R701 to R706). -/
theorem lane_unpackFrom (fits : w * n ≤ 64) {base k j : Nat} (hk : k < n) (place : base + k / 2 = j) :
    lane w (unpackFrom w base n x y) k = lane w (if k % 2 = 0 then x else y) j := by
  rw [unpackFrom, lane_pack _ fits hk, place, apply_ite fun v => lane w v j]

/-- The bits of a halfword are those of its two bytes. -/
theorem getLsbD_half (x : DWord) (k i : Nat) :
    (lane 16 x k).getLsbD i = (decide (i < 16) && (byteOf x (2 * k + i / 8)).getLsbD (i % 8)) := by
  have place : 8 * (2 * k + i / 8) + i % 8 = 16 * k + i := by omega
  simp [lane, byteOf, place, Nat.mod_lt]

/-- Halfwords with the same bytes are the same. -/
theorem half_eq_of_bytes {k j : Nat} (h : ∀ i < 2, byteOf x (2 * k + i) = byteOf y (2 * j + i)) :
    lane 16 x k = lane 16 y j := by
  apply BitVec.eq_of_getLsbD_eq
  intro i hi
  rw [getLsbD_half, getLsbD_half, h (i / 8) (by omega)]

/-- Halfword `k` after a halfword is replaced (48_multimedia R707 to R710). -/
theorem lane_insertHalf (i : Nat) {k : Nat} (hk : k < 4) :
    lane 16 (insertHalf i x y) k = if k = i then lane 16 y 0 else lane 16 x k := by
  have bytes (j : Nat) (hj : j < 2) := byteOf_writeLanes x (2 * i) y (n := 2) (by decide) (j := 2 * k + j) (by omega)
  split
  · next same =>
    refine half_eq_of_bytes fun j hj => (bytes j hj).trans ((if_pos (by omega)).trans ?_)
    rw [same, Nat.add_sub_cancel_left, Nat.mul_zero, Nat.zero_add]
  · next other => exact half_eq_of_bytes fun j hj => (bytes j hj).trans (if_neg (by omega))

/-- The count of a packed shift (48_multimedia R723). -/
theorem shiftCount_eq (t : DWord) : shiftCount t = t.toNat % 128 := toNat_lowBits t 7

/-- Element `k` after an operation on every element, written in another way. -/
theorem lane_lanes1 (fits : w * n ≤ 64) {op f : BitVec w → BitVec w} (h : ∀ a, op a = f a) {k : Nat} (hk : k < n) :
    lane w (lanes1 n op x) k = f (lane w x k) := (lane_pack _ fits hk).trans (h _)

/-- The sum of the bytes fits a doubleword (48_multimedia R736). -/
theorem byteSum_le (x : DWord) (n : Nat) : byteSum x n ≤ 255 * n := by
  induction n with
  | zero => exact Nat.le_refl 0
  | succ n ih =>
    have := (lane 8 x n).isLt
    rw [byteSum]
    omega

/-- Bit `k` of the mask of the signs (48_multimedia R739). -/
theorem getLsbD_signMask (x : DWord) {k : Nat} (hk : k < 64) :
    (pack (fun i => ofBool (lane 8 x i).msb) 8).getLsbD k = (decide (k < 8) && x.getLsbD (8 * k + 7)) := by
  have sign (i : Nat) : (ofBool (lane 8 x i).msb).getLsbD 0 = x.getLsbD (8 * i + 7) := by
    have top : (lane 8 x i).msb = x.getLsbD (8 * i + 7) := by
      rw [BitVec.msb_eq_getLsbD_last, lane, BitVec.getLsbD_extractLsb']
      rfl
    rw [top]
    cases x.getLsbD (8 * i + 7) <;> rfl
  have bit := pack_bit (n := 8) (fun i => ofBool (lane 8 x i).msb) (k := k) (i := 0) (by decide) (by omega)
  rwa [one_mul, Nat.add_zero, sign] at bit

theorem toNat_byteSum (x : DWord) : (BitVec.ofNat 64 (byteSum x 8)).toNat = byteSum x 8 := by
  rw [BitVec.toNat_ofNat, Nat.mod_eq_of_lt (by have := byteSum_le x 8; omega)]

/-- Settles O59: each instruction by `packed2_result` or `packed1_result`, with what an element of its result is. -/
theorem packedRearrangement : Obligations.PackedRearrangement := by
  intro s ft fs fd ready x y b h w gives bytes halves words clamp c
  have unary : [fs, fd] ⊆ [fs, ft, fd] := by simp
  have b8 : 8 * 8 ≤ 64 := le_refl _
  have h16 : 16 * 4 ≤ 64 := le_refl _
  have w32 : 32 * 2 ≤ 64 := le_refl _
  have count : shiftCount y = c := shiftCount_eq y
  have result (op : DWord → DWord → DWord) {P : DWord → Prop} (hP : P (op x y)) :
      FprResult (packed2 op ft fs fd s) s fd s.fcsr P := packed2_result ready hP
  have inserts (i : Nat) : FprResult (packed2 (insertHalf i) ft fs fd s) s fd s.fcsr fun d => ∀ k, k < 4 →
      h d k = if k = i then h y 0 else h x k := result (insertHalf i) fun _ hk => lane_insertHalf i hk
  have shifts {w n : Nat} (fits : w * n ≤ 64) (op : BitVec w → Nat → BitVec w) {f : BitVec w → BitVec w}
      (hf : ∀ a, f a = op a c) : FprResult (packed2 (fun x y => lanes1 n (op · (shiftCount y)) x) ft fs fd s) s fd
        s.fcsr fun d => ∀ k, k < n → lane w d k = f (lane w x k) :=
    result _ fun _ hk => lane_lanes1 fits (fun a => by rw [count, hf]) hk
  refine ⟨?pshufh, ?packsswh, ?packsshb, ?packushb, ?pandn, ?punpcklhw, ?punpckhhw, ?punpcklbh, ?punpckhbh, ?punpcklwd,
    ?punpckhwd, ?pinsrh0, ?pinsrh1, ?pinsrh2, ?pinsrh3, ?pextrh, ?psllw, ?psllh, ?psrlw, ?psrlh, ?psraw, ?psrah,
    ?biadd, ?pmovmskb⟩
  case pshufh =>
    exact result (fun x y => pack (fun i => lane 16 x (lane 2 y i).toNat) 4) fun _ hk => lane_pack _ h16 hk
  case packsswh =>
    exact result (packFrom 32 2 fun x => satS 16 x.toInt) fun _ hk =>
      lane_packFrom h16 (fun _ => satS_eq_clamp (by decide) _) hk
  case packsshb =>
    exact result (packFrom 16 4 fun x => satS 8 x.toInt) fun _ hk =>
      lane_packFrom b8 (fun _ => satS_eq_clamp (by decide) _) hk
  case packushb =>
    exact result (packFrom 16 4 fun x => satU 8 x.toInt) fun _ hk => lane_packFrom b8 (fun _ => satU_eq_clamp _) hk
  case pandn => exact result (fun x y => ~~~x &&& y) rfl
  case punpcklhw => exact result (unpackFrom 16 0 4) fun _ hk => lane_unpackFrom h16 hk (Nat.zero_add _)
  case punpckhhw => exact result (unpackFrom 16 2 4) fun _ hk => lane_unpackFrom h16 hk rfl
  case punpcklbh => exact result (unpackFrom 8 0 8) fun _ hk => lane_unpackFrom b8 hk (Nat.zero_add _)
  case punpckhbh => exact result (unpackFrom 8 4 8) fun _ hk => lane_unpackFrom b8 hk rfl
  case punpcklwd => exact result (unpackFrom 32 0 2) fun _ hk => lane_unpackFrom w32 hk (by omega)
  case punpckhwd => exact result (unpackFrom 32 1 2) fun _ hk => lane_unpackFrom w32 hk (by omega)
  case pinsrh0 => exact inserts 0
  case pinsrh1 => exact inserts 1
  case pinsrh2 => exact inserts 2
  case pinsrh3 => exact inserts 3
  case pextrh => exact result (fun x y => zext64 (lane 16 x (lane 2 y 0).toNat)) rfl
  case psllw => exact shifts w32 (· <<< ·) fun a => ofNat_shl a c
  case psllh => exact shifts h16 (· <<< ·) fun a => ofNat_shl a c
  case psrlw => exact shifts w32 (· >>> ·) fun a => ofNat_shr a c
  case psrlh => exact shifts h16 (· >>> ·) fun a => ofNat_shr a c
  case psraw => exact shifts w32 BitVec.sshiftRight fun a => ofInt_sar a c
  case psrah => exact shifts h16 BitVec.sshiftRight fun a => ofInt_sar a c
  case biadd =>
    refine packed1_result (op := fun x => BitVec.ofNat 64 (byteSum x 8)) ready unary ((toNat_byteSum x).trans ?_)
    simp only [byteSum, Nat.zero_add]
    rfl
  case pmovmskb =>
    exact packed1_result (op := fun x => pack (fun i => ofBool (lane 8 x i).msb) 8) ready unary
      fun _ hk => getLsbD_signMask x hk

end Sys2Proof.Machine
end

section
/-! SUPPORT. The checks of the instructions on the floating-point registers (60_exceptions R836, 10_state R71): what
Coprocessor Unusable gates, and the 64-bit operands that no odd register holds with FR clear. -/

namespace Sys2Proof.Machine
variable {s : State} {regs l : List RegNum} {n : RegNum} {k o : Out}

/-! ### The words CU1 gates and their 64-bit operands -/

/-- The multiply-adds among the words of SPECIAL2 (47_fpu_ps_madd R655). -/
def isMultiplyAdd (f : Fields) : Bool :=
  f.op == 0b011100 && [0b011000#6, 0b011001, 0b011010, 0b011011].contains f.funct

/-- The words CU1 gates. -/
def gatedByCu1 (f : Fields) : Bool :=
  [0b010001#6, 0b010010, 0b110001, 0b110101, 0b111001, 0b111101].contains f.op || isMultiplyAdd f

/-- Formats D and PS. -/
def isWide (f : Fields) : Bool := f.rs == 0b10001 || f.rs == 0b10110

/-- The conversions from D to W and S. -/
def isNarrowing (f : Fields) : Bool :=
  f.rs == 0b10001 && [0b001100#6, 0b001101, 0b001110, 0b001111, 0b100100, 0b100000].contains f.funct

/-- The conversions to D and L. -/
def isWidening (f : Fields) : Bool := [0b001000#6, 0b001001, 0b001010, 0b001011, 0b100101, 0b100001].contains f.funct

/-- The fields of a word that name a 64-bit operand. -/
def wideOperands (f : Fields) : List RegNum :=
  if f.op == 0b010010 || isMultiplyAdd f && isWide f then [f.rd, f.rt, f.sa]
  else if f.op == 0b010001 then
    if isWide f then if isNarrowing f then [f.rd, f.rt] else [f.rd, f.rt, f.sa]
    else if f.rs == 0b10101 then if f.funct == 0b100001 then [f.rd, f.sa] else [f.rd]
    else if f.rs == 0b10000 || f.rs == 0b10100 then if isWidening f then [f.sa] else []
    else if f.rs == 0b00001 || f.rs == 0b00101 then [f.rd]
    else []
  else if f.op == 0b110101 || f.op == 0b111101 then [f.rt]
  else []

section
variable {f : Fields}

theorem isMultiplyAdd_iff : isMultiplyAdd f = true ↔
    f.op = 0b011100 ∧ f.funct ∈ [0b011000#6, 0b011001, 0b011010, 0b011011] := by simp [isMultiplyAdd]

theorem gatedByCu1_iff : gatedByCu1 f = true ↔
    f.op ∈ [0b010001#6, 0b010010, 0b110001, 0b110101, 0b111001, 0b111101] ∨ isMultiplyAdd f = true := by
  simp [gatedByCu1]

theorem isWide_iff : isWide f = true ↔ f.rs = 0b10001 ∨ f.rs = 0b10110 := by simp [isWide]

theorem isNarrowing_iff : isNarrowing f = true ↔
    f.rs = 0b10001 ∧ f.funct ∈ [0b001100#6, 0b001101, 0b001110, 0b001111, 0b100100, 0b100000] := by simp [isNarrowing]

theorem isWidening_iff : isWidening f = true ↔
    f.funct ∈ [0b001000#6, 0b001001, 0b001010, 0b001011, 0b100101, 0b100001] := by simp [isWidening]

/-! The 64-bit operands of each kind of word: COP2 and the multiply-adds in D and PS, formats D and PS, format L, the
conversions to D and L, the doubleword moves, LDC1 and SDC1. -/

theorem wideOperands_packed (h : f.op = 0b010010 ∨ isMultiplyAdd f = true ∧ isWide f = true) :
    wideOperands f = [f.rd, f.rt, f.sa] := if_pos (by simpa using h)

theorem wideOperands_wide (op : f.op = 0b010001) (wide : isWide f = true) :
    wideOperands f = if isNarrowing f then [f.rd, f.rt] else [f.rd, f.rt, f.sa] := by
  simp [wideOperands, isMultiplyAdd, op, wide]

theorem wideOperands_long (op : f.op = 0b010001) (rs : f.rs = 0b10101) :
    wideOperands f = if f.funct = 0b100001 then [f.rd, f.sa] else [f.rd] := by
  simp [wideOperands, isMultiplyAdd, isWide, op, rs]

theorem wideOperands_widening (op : f.op = 0b010001) (rs : f.rs = 0b10000 ∨ f.rs = 0b10100)
    (widening : isWidening f = true) : wideOperands f = [f.sa] := by
  rcases rs with rs | rs <;> simp [wideOperands, isMultiplyAdd, isWide, op, rs, widening]

theorem wideOperands_move (op : f.op = 0b010001) (rs : f.rs = 0b00001 ∨ f.rs = 0b00101) : wideOperands f = [f.rd] := by
  rcases rs with rs | rs <;> simp [wideOperands, isMultiplyAdd, isWide, op, rs]

theorem wideOperands_memory (op : f.op = 0b110101 ∨ f.op = 0b111101) : wideOperands f = [f.rt] := by
  rcases op with op | op <;> simp [wideOperands, isMultiplyAdd, op]

end

/-! ### The checks -/

/-- With CU1 clear the check raises Coprocessor Unusable, unit 1 (60_exceptions R836). -/
theorem traps_withFpu (off : s.cu1 = false) : Traps (withFpu s k) s 11 1 := by
  rw [withFpu_disabled off]
  exact traps_raise (.coprocessorUnusable 1) s rfl rfl

/-- With FR clear an odd register cannot hold a 64-bit operand (10_state R71; log 19). -/
theorem withFpu64_odd (on : s.cu1 = true) (fr : s.fr = false) (odd : n.getLsbD 0 = true) (mem : n ∈ regs) :
    withFpu64 s regs k = .fault .oddFpr := by
  have bad : ¬regs.all s.fprOk = true := fun all => by
    have ok := List.all_eq_true.1 all n mem
    simp [State.fprOk, fr, bit, -BitVec.getLsbD_eq_getElem, odd] at ok
  rw [withFpu64, withFpu_enabled on, if_neg bad]

/-- Every instruction CU1 gates begins with its check. -/
theorem exec_gated (i : Instr) (gated : gatedByCu1 (fieldsOfInstr i) = true) (s : State) :
    ∃ k, exec i s = withFpu s k := by
  unfold exec
  cases i with
  | lb | lbu | lh | lhu | lw | lwu | ld | lwl | lwr | ldl | ldr | sb | sh | sw | sd | swl | swr | sdl | sdr | ll | lld
  | sc | scd | addi | addiu | daddi | daddiu | slti | sltiu | andi | ori | xori | lui | add | addu | sub | subu | dadd
  | daddu | dsub | dsubu | slt | sltu | and | or | xor | nor | movz | movn | sllv | srlv | srav | dsllv | dsrlv | dsrav
  | sll | srl | sra | dsll | dsrl | dsra | dsll32 | dsrl32 | dsra32 | mult | multu | dmult | dmultu | div | divu | ddiv
  | ddivu | mfhi | mflo | mthi | mtlo | multG | multuG | dmultG | dmultuG | divG | divuG | ddivG | ddivuG | modG | moduG
  | dmodG | dmoduG | j | jal | jr | jalr | beq | bne | beql | bnel | blez | bgtz | blezl | bgtzl | bltz | bgez | bltzal
  | bgezal | bltzl | bgezl | bltzall | bgezall | syscall | brk | sync | tge | tgeu | tlt | tltu | teq | tne | tgei
  | tgeiu | tlti | tltiu | teqi | tnei | mfc0 | dmfc0 | mtc0 | dmtc0 | tlbr | tlbwi | tlbwr | tlbp | eret | cache
  | cache0 | cache1 | cache5 | cache9 | cache17 | cache21 | cache25 | cache29 | cache3 | cache7 | cache11 | cache19 | cache23
  | cache27 | cache31 => exact absurd gated Bool.false_ne_true
  | _ => exact ⟨_, rfl⟩

/-- An instruction that checks `regs` stops where a register is odd of a list that holds those of `regs` and 0 alone. -/
theorem stops_of_odd (on : s.cu1 = true) (fr : s.fr = false) (odd : n.getLsbD 0 = true) (run : o = withFpu64 s regs k)
    (sub : l ⊆ 0 :: regs) (mem : n ∈ l) : o = .fault .oddFpr := by
  have nonzero : n ≠ 0 := fun e => by simp [e] at odd
  exact run.trans (withFpu64_odd on fr odd ((List.mem_cons.1 (sub mem)).resolve_left nonzero))

/-- With FR clear and the divider on, an instruction stops where a 64-bit operand is odd. -/
theorem exec_odd (i : Instr) (on : s.cu1 = true) (fr : s.fr = false) (divider : s.noFdiv = false)
    (root : s.noFsqr = false) (odd : n.getLsbD 0 = true) (mem : n ∈ wideOperands (fieldsOfInstr i)) :
    exec i s = .fault .oddFpr := by
  have stop {l regs : List RegNum} {k o : Out} (sub : l ⊆ 0 :: regs) (run : o = withFpu64 s regs k) (mem : n ∈ l) :
      o = .fault .oddFpr := stops_of_odd on fr odd run sub mem
  have destination (a : RegNum) : [a] ⊆ [0, a] := by simp
  have source (a : RegNum) : [a, 0] ⊆ [0, a] := by simp
  have both (a b : RegNum) : [a, b] ⊆ [0, b, a] := by simp
  have unary (a b : RegNum) : [a, 0, b] ⊆ [0, b, a] := by simp
  have move (a b : RegNum) : [a, 0, b] ⊆ [0, a, b] := by simp
  have compare (a b : RegNum) : [a, b, 0] ⊆ [0, a, b] := by simp
  have binary (a b c : RegNum) : [a, b, c] ⊆ [0, c, a, b] := by simp
  have packed (a b c : RegNum) : [a, b, c] ⊆ [0, a, b, c] := by simp
  unfold exec
  cases i with
  | addD | subD | mulD | addPs | subPs | mulPs | maddD | msubD | nmaddD | nmsubD | maddPs | msubPs | nmaddPs
  | nmsubPs => exact stop (binary _ _ _) rfl mem
  | divD => exact (withUnit_on on divider).trans (stop (binary _ _ _) rfl mem)
  | sqrtD => exact (withUnit_on on root).trans (stop (unary _ _) rfl mem)
  | absD | negD | absPs | negPs | roundLD | truncLD | ceilLD | floorLD | cvtLD => exact stop (unary _ _) rfl mem
  | cvtDL => exact stop (both _ _) rfl mem
  | roundLS | truncLS | ceilLS | floorLS | cvtLS | cvtDS | cvtDW | cvtSL | dmfc1 | dmtc1 | ldc1 | sdc1 =>
    exact stop (destination _) rfl mem
  | roundWD | truncWD | ceilWD | floorWD | cvtWD | cvtSD => exact stop (source _) rfl mem
  | movD | movPs | biadd | pmovmskb => exact stop (move _ _) rfl mem
  | cFD | cUnD | cEqD | cUeqD | cOltD | cUltD | cOleD | cUleD | cSfD | cNgleD | cSeqD | cNglD | cLtD | cNgeD | cLeD
  | cNgtD | cFPs | cUnPs | cEqPs | cUeqPs | cOltPs | cUltPs | cOlePs | cUlePs | cSfPs | cNglePs | cSeqPs | cNglPs
  | cLtPs | cNgePs | cLePs | cNgtPs | fxSequ | fxSeq | fxSltu | fxSlt | fxSleu | fxSle =>
    exact stop (compare _ _) rfl mem
  | paddb | paddh | paddw | paddd | paddsb | paddsh | paddusb | paddush | psubb | psubh | psubw | psubd | psubsb
  | psubsh | psubusb | psubush | pshufh | packsswh | packsshb | packushb | pandn | punpcklhw | punpckhhw | punpcklbh
  | punpckhbh | punpcklwd | punpckhwd | pinsrh0 | pinsrh1 | pinsrh2 | pinsrh3 | pavgh | pavgb | pmaxsh | pminsh
  | pmaxub | pminub | pcmpeqw | pcmpgtw | pcmpeqh | pcmpgth | pcmpeqb | pcmpgtb | psllw | psllh | pmullh | pmulhh
  | pmuluw | pmulhuh | psrlw | psrlh | psraw | psrah | pasubub | pextrh | pmaddhw | fxAdd | fxAddu | fxDadd | fxSub
  | fxSubu | fxDsub | fxOr | fxXor | fxNor | fxAnd | fxSll | fxSrl | fxSra | fxDsll | fxDsrl | fxDsra =>
    exact stop (packed _ _ _) rfl mem
  | _ => exact absurd mem List.not_mem_nil

/-- Settles O24: with CU1 clear by the check every gated instruction begins with; with FR clear by an odd one among the
64-bit operands of the word. -/
theorem fpuUnusable : Obligations.FpuUnusable := by
  intro s i f multiplyAdd wide odd oddOperand
  refine ⟨fun off gated => ?unusable, fun on fr divider root bad => ?odd⟩
  case unusable =>
    obtain ⟨k, run⟩ := exec_gated i (gatedByCu1_iff.2 (gated.imp_right isMultiplyAdd_iff.2)) s
    rw [run]
    exact traps_withFpu off
  case odd =>
    suffices h : ∃ n ∈ wideOperands f, odd n by
      obtain ⟨n, mem, isOdd⟩ := h
      exact exec_odd i on fr divider root isOdd mem
    rcases bad with ⟨cop2, bad⟩ | ⟨op, format, bad⟩ | ⟨op, rs, bad⟩ | ⟨op, rs, bad, funct⟩ | ⟨op, rs, bad⟩ | ⟨op, bad⟩
    · rw [wideOperands_packed (cop2.imp_right (And.imp isMultiplyAdd_iff.2 isWide_iff.2))]
      simpa using bad
    · rw [wideOperands_wide op (isWide_iff.2 format)]
      split
      · next narrowing =>
        simpa using bad.imp_right (Or.resolve_right · fun notFd => notFd.2 (isNarrowing_iff.1 narrowing))
      · simpa using bad.imp_right (Or.imp_right And.left)
    · rw [wideOperands_long op rs]
      split
      · simpa using bad.imp_right And.left
      · next notD => exact ⟨f.rd, List.mem_singleton_self _, bad.resolve_right fun toD => notD toD.2⟩
    · exact ⟨f.sa, by simp [wideOperands_widening op rs (isWidening_iff.2 funct)], bad⟩
    · exact ⟨f.rd, by simp [wideOperands_move op rs], bad⟩
    · exact ⟨f.rt, by simp [wideOperands_memory op], bad⟩

end Sys2Proof.Machine
end
